-- ==== Sys2Proof/Word.lean ====
section
/-! DEFINITION. Sys2Proof/Word.lean: the widths of spec/00_scope.md R8 (byte, word, longword) and the register
numbers of an operation word (spec/30_encoding.md R208). -/

namespace Sys2Proof

/-- A byte, 8 bits (R8). -/
abbrev Byte := BitVec 8

/-- A word, 16 bits (R8): also the unit in which instructions are laid out (R200). -/
abbrev Word := BitVec 16

/-- A longword, 32 bits (R8): registers, addresses (R6). -/
abbrev Long := BitVec 32

/-- A three-bit register field (R208): D0..D7 or A0..A7 as the instruction says. -/
abbrev Reg := BitVec 3

/-- A four-bit register field (R208): D0..D7 for 0..7, A0..A7 for 8..15. -/
abbrev RegX := BitVec 4

/-- Operand sizes (R83). -/
inductive Size where
  | b
  | w
  | l
deriving DecidableEq, Repr

/-- The number of bytes of an operand size. -/
abbrev Size.bytes : Size → Nat
  | .b => 1
  | .w => 2
  | .l => 4

end Sys2Proof
end

