-- ==== Sys2Proof/Syntax.lean ====
section
/-! DEFINITION. Sys2Proof/Syntax.lean: the instructions of spec/opcode_table.json (spec/30_encoding.md R239), one
constructor per row, and their operands. An operand carries its own extension words, so that an instruction is all
that its words say. `rsv` fields hold the extension-word bits that R202 calls reserved: a well-formed instruction
has zeros there. -/

namespace Sys2Proof

/-- An effective address (R205) with the extension words it owns (R203). -/
inductive Ea where
  /-- Dn, mode 000. -/
  | dn (r : Reg)
  /-- An, mode 001. -/
  | an (r : Reg)
  /-- (An), mode 010. -/
  | ind (r : Reg)
  /-- (An)+, mode 011. -/
  | postinc (r : Reg)
  /-- -(An), mode 100. -/
  | predec (r : Reg)
  /-- (d16,An), mode 101. -/
  | disp (r : Reg) (d : Word)
  /-- (d8,An,Xi*SF), mode 110, with its index word (R210). -/
  | idx (r : Reg) (xw : Word)
  /-- (xxx).W, mode 111 register 000. -/
  | absW (a : Word)
  /-- (xxx).L, mode 111 register 001. -/
  | absL (a : Long)
  /-- (d16,PC), mode 111 register 010. -/
  | pcDisp (d : Word)
  /-- (d8,PC,Xi*SF), mode 111 register 011, with its index word. -/
  | pcIdx (xw : Word)
  /-- #imm of a byte or word instruction: one extension word (R209). -/
  | immW (v : Word)
  /-- #imm of a longword instruction: two extension words. -/
  | immL (v : Long)
deriving DecidableEq, Repr

/-- A branch displacement (R382): in the operation word, or in one extension word. -/
inductive Disp where
  | d8 (d : Byte)
  | d16 (d : Word)
deriving DecidableEq, Repr

/-- One constructor per row of spec/opcode_table.json, in the table's order. -/
inductive Instr where
  | oriL (dx : Reg) (imm : Long)
  | andiL (dx : Reg) (imm : Long)
  | subiL (dx : Reg) (imm : Long)
  | addiL (dx : Reg) (imm : Long)
  | eoriL (dx : Reg) (imm : Long)
  | cmpiL (dx : Reg) (imm : Long)
  | btstI (rsv : Byte) (num : Byte) (ea : Ea)
  | bchgI (rsv : Byte) (num : Byte) (ea : Ea)
  | bclrI (rsv : Byte) (num : Byte) (ea : Ea)
  | bsetI (rsv : Byte) (num : Byte) (ea : Ea)
  | btstD (dy : Reg) (ea : Ea)
  | bchgD (dy : Reg) (ea : Ea)
  | bclrD (dy : Reg) (ea : Ea)
  | bsetD (dy : Reg) (ea : Ea)
  | moveB (src dst : Ea)
  | moveL (src dst : Ea)
  | moveaL (src : Ea) (ax : Reg)
  | moveW (src dst : Ea)
  | moveaW (src : Ea) (ax : Reg)
  | negxL (dx : Reg)
  | moveFromSr (dx : Reg)
  | lea (ea : Ea) (ax : Reg)
  | clrB (ea : Ea)
  | clrW (ea : Ea)
  | clrL (ea : Ea)
  | moveFromCcr (dx : Reg)
  | negL (dx : Reg)
  | moveToCcrD (dy : Reg)
  | moveToCcrI (imm : Word)
  | notL (dx : Reg)
  | moveToSrD (dy : Reg)
  | moveToSrI (imm : Word)
  | swap (dx : Reg)
  | pea (ea : Ea)
  | extW (dx : Reg)
  | extL (dx : Reg)
  | extbL (dx : Reg)
  | movemStore (mask : Word) (ea : Ea)
  | movemLoad (mask : Word) (ea : Ea)
  | tstB (ea : Ea)
  | tstW (ea : Ea)
  | tstL (ea : Ea)
  | halt
  | pulse
  | illegal
  | muluL (rsv : BitVec 12) (dx : Reg) (ea : Ea)
  | mulsL (rsv : BitVec 12) (dx : Reg) (ea : Ea)
  | divuL (rsv : BitVec 9) (dx : Reg) (ea : Ea)
  | divsL (rsv : BitVec 9) (dx : Reg) (ea : Ea)
  | remuL (rsv : BitVec 9) (dw dx : Reg) (ea : Ea)
  | remsL (rsv : BitVec 9) (dw dx : Reg) (ea : Ea)
  | trap (v : BitVec 4)
  | link (ay : Reg) (d : Word)
  | unlk (ax : Reg)
  | nop
  | stop (imm : Word)
  | rte
  | rts
  | movec (ry : RegX) (rc : BitVec 12)
  | jsr (ea : Ea)
  | jmp (ea : Ea)
  | addqL (q : Reg) (ea : Ea)
  | subqL (q : Reg) (ea : Ea)
  | scc (cc : BitVec 4) (dx : Reg)
  | trapfW (w1 : Word)
  | trapfL (w1 w2 : Word)
  | trapf
  | bra (d : Disp)
  | bsr (d : Disp)
  | bcc (cc : BitVec 4) (d : Disp)
  | moveq (d : Byte) (dx : Reg)
  | orToD (ea : Ea) (dx : Reg)
  | divuW (ea : Ea) (dx : Reg)
  | orToEa (dy : Reg) (ea : Ea)
  | divsW (ea : Ea) (dx : Reg)
  | subToD (ea : Ea) (dx : Reg)
  | subxL (dy dx : Reg)
  | subToEa (dy : Reg) (ea : Ea)
  | subaL (ea : Ea) (ax : Reg)
  | macW (rsv : BitVec 10) (sf : BitVec 2) (ux uy : Bool) (rx ry : RegX)
  | macL (rsv : BitVec 10) (sf : BitVec 2) (ux uy : Bool) (rx ry : RegX)
  | msacW (rsv : BitVec 10) (sf : BitVec 2) (ux uy : Bool) (rx ry : RegX)
  | msacL (rsv : BitVec 10) (sf : BitVec 2) (ux uy : Bool) (rx ry : RegX)
  | macWLoad (rsv : Bool) (sf : BitVec 2) (ux uy msk : Bool) (rx ry rw : RegX) (ea : Ea)
  | macLLoad (rsv : Bool) (sf : BitVec 2) (ux uy msk : Bool) (rx ry rw : RegX) (ea : Ea)
  | msacWLoad (rsv : Bool) (sf : BitVec 2) (ux uy msk : Bool) (rx ry rw : RegX) (ea : Ea)
  | msacLLoad (rsv : Bool) (sf : BitVec 2) (ux uy msk : Bool) (rx ry rw : RegX) (ea : Ea)
  | moveToAcc (ea : Ea)
  | moveFromAcc (rx : RegX)
  | moveToMacsr (ea : Ea)
  | moveFromMacsr (rx : RegX)
  | moveMacsrToCcr
  | moveToMask (ea : Ea)
  | moveFromMask (rx : RegX)
  | cmpL (ea : Ea) (dx : Reg)
  | eorToEa (dy : Reg) (ea : Ea)
  | cmpaL (ea : Ea) (ax : Reg)
  | andToD (ea : Ea) (dx : Reg)
  | muluW (ea : Ea) (dx : Reg)
  | andToEa (dy : Reg) (ea : Ea)
  | mulsW (ea : Ea) (dx : Reg)
  | addToD (ea : Ea) (dx : Reg)
  | addxL (dy dx : Reg)
  | addToEa (dy : Reg) (ea : Ea)
  | addaL (ea : Ea) (ax : Reg)
  | asrI (n : Reg) (dx : Reg)
  | lsrI (n : Reg) (dx : Reg)
  | asrD (dy dx : Reg)
  | lsrD (dy dx : Reg)
  | aslI (n : Reg) (dx : Reg)
  | lslI (n : Reg) (dx : Reg)
  | aslD (dy dx : Reg)
  | lslD (dy dx : Reg)
  | cpushl (ax : Reg)
  | wddataB (ea : Ea)
  | wddataW (ea : Ea)
  | wddataL (ea : Ea)
  | wdebug (ext : Word) (ea : Ea)
deriving DecidableEq, Repr

end Sys2Proof
end

