-- ==== Sys2Proof/Machine/Modes.lean ====
section
/-! DEFINITION. Sys2Proof/Machine/Modes.lean: which effective addresses each instruction accepts
(spec/30_encoding.md R206, R211, R212). WellFormed and Decode both use these sets. -/

namespace Sys2Proof.Machine

/-- An immediate operand of the given size: one extension word for a byte or a word, two for a longword (R209). -/
def eaImm : Size → Ea → Bool
  | .l, .immL _ => true
  | .b, .immW _ => true
  | .w, .immW _ => true
  | _, _ => false

/-- Memory alterable modes (R206). -/
def eaMemAlter : Ea → Bool
  | .ind _ | .postinc _ | .predec _ | .disp _ _ | .idx _ _ | .absW _ | .absL _ => true
  | _ => false

/-- Data alterable: memory alterable and Dn (R206). -/
def eaDataAlter : Ea → Bool
  | .dn _ => true
  | e => eaMemAlter e

/-- Alterable: data alterable and An (R206). -/
def eaAlter : Ea → Bool
  | .an _ => true
  | e => eaDataAlter e

/-- The two PC-relative modes. -/
def eaPcRel : Ea → Bool
  | .pcDisp _ | .pcIdx _ => true
  | _ => false

/-- Data modes without the immediate one (BTST Dy,ea: R212, note 3). -/
def eaDataNoImm (e : Ea) : Bool := eaDataAlter e || eaPcRel e

/-- Data modes: all but An (R206). -/
def eaData (sz : Size) (e : Ea) : Bool := eaDataNoImm e || eaImm sz e

/-- Every mode; An only for word and longword operands (R24, R212). -/
def eaAny (sz : Size) : Ea → Bool
  | .an _ => sz != .b
  | e => eaData sz e

/-- Control modes (R206). -/
def eaControl : Ea → Bool
  | .ind _ | .disp _ _ | .idx _ _ | .absW _ | .absL _ | .pcDisp _ | .pcIdx _ => true
  | _ => false

/-- Dn, (An), (An)+, -(An), (d16,An): the long multiply, divide and remainder and the immediate bit operations. -/
def eaShort : Ea → Bool
  | .dn _ | .ind _ | .postinc _ | .predec _ | .disp _ _ => true
  | _ => false

/-- (An), (An)+, -(An), (d16,An): MAC with load. -/
def eaLoad : Ea → Bool
  | .ind _ | .postinc _ | .predec _ | .disp _ _ => true
  | _ => false

/-- (An), (d16,An): MOVEM and WDEBUG. -/
def eaBase : Ea → Bool
  | .ind _ | .disp _ _ => true
  | _ => false

/-- Dn, An, #imm: the moves to the MAC registers. -/
def eaMacSrc : Ea → Bool
  | .dn _ | .an _ | .immL _ => true
  | _ => false

/-- The table of MOVE combinations (R211): which data alterable destinations a source allows. -/
def moveOk (sz : Size) (src dst : Ea) : Bool :=
  eaAny sz src && eaDataAlter dst &&
  match src with
  | .dn _ | .an _ | .ind _ | .postinc _ | .predec _ => true
  | .disp _ _ | .pcDisp _ => eaShort dst
  | _ =>
    match dst with
    | .dn _ | .ind _ | .postinc _ | .predec _ => true
    | _ => false

end Sys2Proof.Machine
end

