-- ==== Sys2Proof/WellFormed.lean ====
section
/-! DEFINITION. Sys2Proof/WellFormed.lean: the well-formed instructions: the effective address is one the
instruction accepts (spec/30_encoding.md R211, R212), the reserved bits of extension words are zero (R202), and the
fields hold what the row of spec/opcode_table.json allows. Instr.encodable is the same without the demand on the
reserved bits: those instructions have words of their own and decode, and their meaning refuses (R202). -/

namespace Sys2Proof

open Machine

/-- A displacement the encoding can hold: a zero byte in the operation word announces the word form (R382). -/
def Disp.wf : Disp → Bool
  | .d8 d => d != 0#8
  | .d16 _ => true

/-- The instruction is one that the encoding can write: its effective address is legal and its fields select
its own row of the opcode table. -/
def Instr.encodable : Instr → Bool
  | .btstI _ _ ea | .bchgI _ _ ea | .bclrI _ _ ea | .bsetI _ _ ea => eaShort ea
  | .btstD _ ea => eaDataNoImm ea
  | .bchgD _ ea | .bclrD _ ea | .bsetD _ ea => eaDataAlter ea
  | .moveB s d => moveOk .b s d
  | .moveW s d => moveOk .w s d
  | .moveL s d => moveOk .l s d
  | .moveaW s _ => eaAny .w s
  | .moveaL s _ => eaAny .l s
  | .lea ea _ | .pea ea | .jsr ea | .jmp ea => eaControl ea
  | .clrB ea | .clrW ea | .clrL ea => eaDataAlter ea
  | .movemStore _ ea | .movemLoad _ ea => eaBase ea
  | .tstB ea => eaAny .b ea
  | .tstW ea => eaAny .w ea
  | .tstL ea => eaAny .l ea
  | .muluL _ _ ea | .mulsL _ _ ea | .divuL _ _ ea | .divsL _ _ ea => eaShort ea
  | .remuL _ dw dx ea | .remsL _ dw dx ea => eaShort ea && dw != dx
  | .addqL _ ea | .subqL _ ea => eaAlter ea
  | .bra d | .bsr d => d.wf
  | .bcc cc d => d.wf && decide (2#4 ≤ cc)
  | .orToD ea _ | .andToD ea _ => eaData .l ea
  | .divuW ea _ | .divsW ea _ | .muluW ea _ | .mulsW ea _ => eaData .w ea
  | .orToEa _ ea | .andToEa _ ea | .subToEa _ ea | .addToEa _ ea => eaMemAlter ea
  | .eorToEa _ ea => eaDataAlter ea
  | .subToD ea _ | .addToD ea _ | .cmpL ea _ | .subaL ea _ | .addaL ea _ | .cmpaL ea _ => eaAny .l ea
  | .macWLoad _ _ _ _ _ _ _ _ ea | .macLLoad _ _ _ _ _ _ _ _ ea
  | .msacWLoad _ _ _ _ _ _ _ _ ea | .msacLLoad _ _ _ _ _ _ _ _ ea => eaLoad ea
  | .moveToAcc ea | .moveToMacsr ea | .moveToMask ea => eaMacSrc ea
  | .wddataB ea | .wddataW ea | .wddataL ea => eaMemAlter ea
  | .wdebug _ ea => eaBase ea
  | .oriL _ _ | .andiL _ _ | .subiL _ _ | .addiL _ _ | .eoriL _ _ | .cmpiL _ _
  | .negxL _ | .moveFromSr _ | .moveFromCcr _ | .negL _ | .moveToCcrD _ | .moveToCcrI _
  | .notL _ | .moveToSrD _ | .moveToSrI _ | .swap _ | .extW _ | .extL _ | .extbL _
  | .halt | .pulse | .illegal | .trap _ | .link _ _ | .unlk _ | .nop | .stop _ | .rte | .rts | .movec _ _
  | .scc _ _ | .trapfW _ | .trapfL _ _ | .trapf | .moveq _ _ | .subxL _ _ | .addxL _ _
  | .macW _ _ _ _ _ _ | .macL _ _ _ _ _ _ | .msacW _ _ _ _ _ _ | .msacL _ _ _ _ _ _
  | .moveFromAcc _ | .moveFromMacsr _ | .moveMacsrToCcr | .moveFromMask _
  | .asrI _ _ | .lsrI _ _ | .asrD _ _ | .lsrD _ _ | .aslI _ _ | .lslI _ _ | .aslD _ _ | .lslD _ _
  | .cpushl _ => true

/-- The reserved extension-word bits are zero, and the fields of an extension word hold no reserved code (R202):
the MAC scale factor is not 10, a MOVEC names a control register of Table 4-1, WDEBUG's word is 0003. -/
def Instr.extOk : Instr → Bool
  | .btstI rsv _ _ | .bchgI rsv _ _ | .bclrI rsv _ _ | .bsetI rsv _ _ => rsv == 0#8
  | .muluL rsv _ _ | .mulsL rsv _ _ => rsv == 0#12
  | .divuL rsv _ _ | .divsL rsv _ _ | .remuL rsv _ _ _ | .remsL rsv _ _ _ => rsv == 0#9
  | .macW rsv sf _ _ _ _ | .macL rsv sf _ _ _ _ | .msacW rsv sf _ _ _ _ | .msacL rsv sf _ _ _ _ =>
    rsv == 0#10 && sf != 2#2
  | .macWLoad rsv sf _ _ _ _ _ _ _ | .macLLoad rsv sf _ _ _ _ _ _ _
  | .msacWLoad rsv sf _ _ _ _ _ _ _ | .msacLLoad rsv sf _ _ _ _ _ _ _ => !rsv && sf != 2#2
  | .movec _ rc =>
    rc == 0x002#12 || rc == 0x004#12 || rc == 0x005#12 || rc == 0x801#12 || rc == 0xC00#12 || rc == 0xC04#12
  | .wdebug ext _ => ext == 0x0003#16
  | _ => true

/-- A well-formed instruction: encodable, with legal extension words. -/
def Instr.wf (i : Instr) : Bool := i.encodable && i.extOk

end Sys2Proof
end

