-- ==== Sys2Proof/Decode.lean ====
section
/-! DEFINITION. Sys2Proof/Decode.lean: the decoder of spec/30_encoding.md (R200 to R214, R239), total on any words,
and after it the encoder, written from the same table. Every pattern but CPUSHL's is the family's encoding as the
spec records it (spec/92_eei_decisions.md D1). -/

namespace Sys2Proof

open Machine

/-- What the operation word selects (R201): an instruction, or the name of the exception it raises. -/
inductive Decoded where
  | ok (i : Instr)
  | illegal
  | lineA
  | lineF
deriving DecidableEq, Repr

/-- Why a list of bytes is no instruction: an operation word of the unassigned space (R201, R240), or too few
bytes. -/
inductive Reject where
  | illegal
  | lineA
  | lineF
  | truncated
deriving DecidableEq, Repr

namespace Dec

/-- op[2:0], the source or only register (R208). -/
def lo (op : Word) : Reg := op.extractLsb' 0 3
/-- op[5:3], the mode field (R205). -/
def mode (op : Word) : BitVec 3 := op.extractLsb' 3 3
/-- op[11:9], the destination register of two-operand instructions (R208). -/
def hi (op : Word) : Reg := op.extractLsb' 9 3
/-- op[8:6], the destination mode of MOVE (R208). -/
def dmode (op : Word) : BitVec 3 := op.extractLsb' 6 3
/-- op[3:0], a four-bit register field (R208). -/
def lo4 (op : Word) : RegX := op.extractLsb' 0 4
/-- The MAC register op[6] :: op[11:9] (44_mul_div_mac.md R441, R445). -/
def macReg (op : Word) : RegX := op.extractLsb' 6 1 ++ op.extractLsb' 9 3

/-- The effective address of a mode and a register field, with the words a and b that follow (R203, R205). -/
def eaOf (sz : Size) (m r : BitVec 3) (a b : Word) : Option Ea :=
  if m = 0#3 then some (.dn r)
  else if m = 1#3 then some (.an r)
  else if m = 2#3 then some (.ind r)
  else if m = 3#3 then some (.postinc r)
  else if m = 4#3 then some (.predec r)
  else if m = 5#3 then some (.disp r a)
  else if m = 6#3 then some (.idx r a)
  else if r = 0#3 then some (.absW a)
  else if r = 1#3 then some (.absL (a ++ b))
  else if r = 2#3 then some (.pcDisp a)
  else if r = 3#3 then some (.pcIdx a)
  else if r = 4#3 then (match sz with | .l => some (.immL (a ++ b)) | _ => some (.immW a))
  else none

/-- Keep the effective address only if the instruction accepts it (R212, R213). -/
def pick (p : Ea → Bool) (o : Option Ea) (k : Ea → Instr) : Option Instr :=
  match o with
  | some e => if p e then some (k e) else none
  | none => none

/-- The number of extension words of an effective address (R203). -/
def eaLen : Ea → Nat
  | .dn _ | .an _ | .ind _ | .postinc _ | .predec _ => 0
  | .disp _ _ | .idx _ _ | .absW _ | .pcDisp _ | .pcIdx _ | .immW _ => 1
  | .absL _ | .immL _ => 2

/-- The effective address in op[5:0]. -/
def srcEa (sz : Size) (op a b : Word) : Option Ea := eaOf sz (mode op) (lo op) a b

/-- MOVE and MOVEA (R208, R211): the source's extension words come before the destination's (R200). -/
def move (sz : Size) (op e1 e2 : Word) (mk : Ea → Ea → Instr) (mkA : Ea → Reg → Option Instr) : Option Instr :=
  match srcEa sz op e1 e2 with
  | none => none
  | some src =>
    if dmode op = 1#3 then (if eaAny sz src then mkA src (hi op) else none)
    else pick (moveOk sz src)
      (eaOf sz (dmode op) (hi op) (if eaLen src = 0 then e1 else e2) e2) (mk src)

/-- A branch displacement (R382): the word form when the byte of the operation word is zero. -/
def disp (op e1 : Word) : Disp :=
  if op.extractLsb' 0 8 = 0#8 then .d16 e1 else .d8 (op.extractLsb' 0 8)

/-- Reserved bits of the long multiply's extension word: bit 15 and bits 10 to 0. -/
def mulRsv (e1 : Word) : BitVec 12 := e1.extractLsb' 15 1 ++ e1.extractLsb' 0 11

/-- Reserved bits of the long divide's extension word: bit 15 and bits 10 to 3. -/
def divRsv (e1 : Word) : BitVec 9 := e1.extractLsb' 15 1 ++ e1.extractLsb' 3 8

/-- Reserved bits of the MAC extension word without load: bits 15 to 12 and 5 to 0. -/
def macRsv (e1 : Word) : BitVec 10 := e1.extractLsb' 12 4 ++ e1.extractLsb' 0 6

def line0 (op e1 e2 : Word) : Option Instr :=
  if op &&& 0xFFF8#16 = 0x0080#16 then some (.oriL (lo op) (e1 ++ e2))
  else if op &&& 0xFFF8#16 = 0x0280#16 then some (.andiL (lo op) (e1 ++ e2))
  else if op &&& 0xFFF8#16 = 0x0480#16 then some (.subiL (lo op) (e1 ++ e2))
  else if op &&& 0xFFF8#16 = 0x0680#16 then some (.addiL (lo op) (e1 ++ e2))
  else if op &&& 0xFFF8#16 = 0x0A80#16 then some (.eoriL (lo op) (e1 ++ e2))
  else if op &&& 0xFFF8#16 = 0x0C80#16 then some (.cmpiL (lo op) (e1 ++ e2))
  else if op &&& 0xFFC0#16 = 0x0800#16 then
    pick eaShort (srcEa .b op e2 0#16) (.btstI (e1.extractLsb' 8 8) (e1.extractLsb' 0 8))
  else if op &&& 0xFFC0#16 = 0x0840#16 then
    pick eaShort (srcEa .b op e2 0#16) (.bchgI (e1.extractLsb' 8 8) (e1.extractLsb' 0 8))
  else if op &&& 0xFFC0#16 = 0x0880#16 then
    pick eaShort (srcEa .b op e2 0#16) (.bclrI (e1.extractLsb' 8 8) (e1.extractLsb' 0 8))
  else if op &&& 0xFFC0#16 = 0x08C0#16 then
    pick eaShort (srcEa .b op e2 0#16) (.bsetI (e1.extractLsb' 8 8) (e1.extractLsb' 0 8))
  else if op &&& 0xF1C0#16 = 0x0100#16 then pick eaDataNoImm (srcEa .b op e1 e2) (.btstD (hi op))
  else if op &&& 0xF1C0#16 = 0x0140#16 then pick eaDataAlter (srcEa .b op e1 e2) (.bchgD (hi op))
  else if op &&& 0xF1C0#16 = 0x0180#16 then pick eaDataAlter (srcEa .b op e1 e2) (.bclrD (hi op))
  else if op &&& 0xF1C0#16 = 0x01C0#16 then pick eaDataAlter (srcEa .b op e1 e2) (.bsetD (hi op))
  else none

def line1 (op e1 e2 : Word) : Option Instr := move .b op e1 e2 .moveB (fun _ _ => none)

def line2 (op e1 e2 : Word) : Option Instr := move .l op e1 e2 .moveL (fun s a => some (.moveaL s a))

def line3 (op e1 e2 : Word) : Option Instr := move .w op e1 e2 .moveW (fun s a => some (.moveaW s a))

/-- Line 4, the operation words with bit 8 clear below $4E00. -/
def line4lo (op e1 e2 : Word) : Option Instr :=
  if op &&& 0xFFF8#16 = 0x4080#16 then some (.negxL (lo op))
  else if op &&& 0xFFF8#16 = 0x40C0#16 then some (.moveFromSr (lo op))
  else if op &&& 0xFFC0#16 = 0x4200#16 then pick eaDataAlter (srcEa .b op e1 e2) .clrB
  else if op &&& 0xFFC0#16 = 0x4240#16 then pick eaDataAlter (srcEa .w op e1 e2) .clrW
  else if op &&& 0xFFC0#16 = 0x4280#16 then pick eaDataAlter (srcEa .l op e1 e2) .clrL
  else if op &&& 0xFFF8#16 = 0x42C0#16 then some (.moveFromCcr (lo op))
  else if op &&& 0xFFF8#16 = 0x4480#16 then some (.negL (lo op))
  else if op &&& 0xFFF8#16 = 0x44C0#16 then some (.moveToCcrD (lo op))
  else if op = 0x44FC#16 then some (.moveToCcrI e1)
  else if op &&& 0xFFF8#16 = 0x4680#16 then some (.notL (lo op))
  else if op &&& 0xFFF8#16 = 0x46C0#16 then some (.moveToSrD (lo op))
  else if op = 0x46FC#16 then some (.moveToSrI e1)
  else if op &&& 0xFFF8#16 = 0x4840#16 then some (.swap (lo op))
  else if op &&& 0xFFC0#16 = 0x4840#16 then pick eaControl (srcEa .l op e1 e2) .pea
  else if op &&& 0xFFF8#16 = 0x4880#16 then some (.extW (lo op))
  else if op &&& 0xFFF8#16 = 0x48C0#16 then some (.extL (lo op))
  else if op &&& 0xFFC0#16 = 0x48C0#16 then pick eaBase (srcEa .l op e2 0#16) (.movemStore e1)
  else if op &&& 0xFFC0#16 = 0x4CC0#16 then pick eaBase (srcEa .l op e2 0#16) (.movemLoad e1)
  else if op &&& 0xFFC0#16 = 0x4A00#16 then pick (eaAny .b) (srcEa .b op e1 e2) .tstB
  else if op &&& 0xFFC0#16 = 0x4A40#16 then pick (eaAny .w) (srcEa .w op e1 e2) .tstW
  else if op &&& 0xFFC0#16 = 0x4A80#16 then pick (eaAny .l) (srcEa .l op e1 e2) .tstL
  else if op = 0x4AC8#16 then some .halt
  else if op = 0x4ACC#16 then some .pulse
  else if op = 0x4AFC#16 then some .illegal
  else if op &&& 0xFFC0#16 = 0x4C00#16 then
    pick eaShort (srcEa .l op e2 0#16)
      (if e1.getLsbD 11 then .mulsL (mulRsv e1) (e1.extractLsb' 12 3)
        else .muluL (mulRsv e1) (e1.extractLsb' 12 3))
  else if op &&& 0xFFC0#16 = 0x4C40#16 then
    pick eaShort (srcEa .l op e2 0#16)
      (if e1.extractLsb' 0 3 = e1.extractLsb' 12 3 then
        (if e1.getLsbD 11 then .divsL (divRsv e1) (e1.extractLsb' 12 3)
          else .divuL (divRsv e1) (e1.extractLsb' 12 3))
      else
        (if e1.getLsbD 11 then .remsL (divRsv e1) (e1.extractLsb' 0 3) (e1.extractLsb' 12 3)
          else .remuL (divRsv e1) (e1.extractLsb' 0 3) (e1.extractLsb' 12 3)))
  else none

/-- Line 4, $4Exx. -/
def line4e (op e1 e2 : Word) : Option Instr :=
  if op &&& 0xFFF0#16 = 0x4E40#16 then some (.trap (op.extractLsb' 0 4))
  else if op &&& 0xFFF8#16 = 0x4E50#16 then some (.link (lo op) e1)
  else if op &&& 0xFFF8#16 = 0x4E58#16 then some (.unlk (lo op))
  else if op = 0x4E71#16 then some .nop
  else if op = 0x4E72#16 then some (.stop e1)
  else if op = 0x4E73#16 then some .rte
  else if op = 0x4E75#16 then some .rts
  else if op = 0x4E7B#16 then some (.movec (e1.extractLsb' 12 4) (e1.extractLsb' 0 12))
  else if op &&& 0xFFC0#16 = 0x4E80#16 then pick eaControl (srcEa .l op e1 e2) .jsr
  else if op &&& 0xFFC0#16 = 0x4EC0#16 then pick eaControl (srcEa .l op e1 e2) .jmp
  else none

def line4 (op e1 e2 : Word) : Option Instr :=
  if op &&& 0xFFF8#16 = 0x49C0#16 then some (.extbL (lo op))
  else if op &&& 0xF1C0#16 = 0x41C0#16 then pick eaControl (srcEa .l op e1 e2) (fun e => .lea e (hi op))
  else if op &&& 0xFF00#16 = 0x4E00#16 then line4e op e1 e2
  else line4lo op e1 e2

def line5 (op e1 e2 : Word) : Option Instr :=
  if op &&& 0xF1C0#16 = 0x5080#16 then pick eaAlter (srcEa .l op e1 e2) (.addqL (hi op))
  else if op &&& 0xF1C0#16 = 0x5180#16 then pick eaAlter (srcEa .l op e1 e2) (.subqL (hi op))
  else if op = 0x51FA#16 then some (.trapfW e1)
  else if op = 0x51FB#16 then some (.trapfL e1 e2)
  else if op = 0x51FC#16 then some .trapf
  else if op &&& 0xF0F8#16 = 0x50C0#16 then some (.scc (op.extractLsb' 8 4) (lo op))
  else none

def line6 (op e1 _e2 : Word) : Option Instr :=
  if op &&& 0xFF00#16 = 0x6000#16 then some (.bra (disp op e1))
  else if op &&& 0xFF00#16 = 0x6100#16 then some (.bsr (disp op e1))
  else some (.bcc (op.extractLsb' 8 4) (disp op e1))

def line7 (op _e1 _e2 : Word) : Option Instr :=
  if op &&& 0xF100#16 = 0x7000#16 then some (.moveq (op.extractLsb' 0 8) (hi op)) else none

def line8 (op e1 e2 : Word) : Option Instr :=
  if op &&& 0xF1C0#16 = 0x8080#16 then pick (eaData .l) (srcEa .l op e1 e2) (fun e => .orToD e (hi op))
  else if op &&& 0xF1C0#16 = 0x80C0#16 then pick (eaData .w) (srcEa .w op e1 e2) (fun e => .divuW e (hi op))
  else if op &&& 0xF1C0#16 = 0x8180#16 then pick eaMemAlter (srcEa .l op e1 e2) (.orToEa (hi op))
  else if op &&& 0xF1C0#16 = 0x81C0#16 then pick (eaData .w) (srcEa .w op e1 e2) (fun e => .divsW e (hi op))
  else none

def line9 (op e1 e2 : Word) : Option Instr :=
  if op &&& 0xF1C0#16 = 0x9080#16 then pick (eaAny .l) (srcEa .l op e1 e2) (fun e => .subToD e (hi op))
  else if op &&& 0xF1F8#16 = 0x9180#16 then some (.subxL (lo op) (hi op))
  else if op &&& 0xF1C0#16 = 0x9180#16 then pick eaMemAlter (srcEa .l op e1 e2) (.subToEa (hi op))
  else if op &&& 0xF1C0#16 = 0x91C0#16 then pick (eaAny .l) (srcEa .l op e1 e2) (fun e => .subaL e (hi op))
  else none

/-- MAC and MSAC with load: size and operation are in the extension word (44_mul_div_mac.md R445). -/
def macLoad (op e1 : Word) (ea : Ea) : Instr :=
  let rsv := e1.getLsbD 4
  let sf := e1.extractLsb' 9 2
  let ux := e1.getLsbD 7
  let uy := e1.getLsbD 6
  let msk := e1.getLsbD 5
  let rx := e1.extractLsb' 12 4
  let ry := e1.extractLsb' 0 4
  let rw := macReg op
  if e1.getLsbD 8 then
    (if e1.getLsbD 11 then .msacLLoad rsv sf ux uy msk rx ry rw ea else .msacWLoad rsv sf ux uy msk rx ry rw ea)
  else
    (if e1.getLsbD 11 then .macLLoad rsv sf ux uy msk rx ry rw ea else .macWLoad rsv sf ux uy msk rx ry rw ea)

/-- MAC and MSAC without load (44_mul_div_mac.md R441 to R444). -/
def mac (op e1 : Word) : Instr :=
  let sf := e1.extractLsb' 9 2
  let ux := e1.getLsbD 7
  let uy := e1.getLsbD 6
  if e1.getLsbD 8 then
    (if e1.getLsbD 11 then .msacL (macRsv e1) sf ux uy (macReg op) (lo4 op)
      else .msacW (macRsv e1) sf ux uy (macReg op) (lo4 op))
  else
    (if e1.getLsbD 11 then .macL (macRsv e1) sf ux uy (macReg op) (lo4 op)
      else .macW (macRsv e1) sf ux uy (macReg op) (lo4 op))

def lineMac (op e1 e2 : Word) : Option Instr :=
  if op &&& 0xF1B0#16 = 0xA000#16 then some (mac op e1)
  else if op &&& 0xF180#16 = 0xA080#16 then pick eaLoad (srcEa .l op e2 0#16) (macLoad op e1)
  else if op &&& 0xFFC0#16 = 0xA100#16 then pick eaMacSrc (srcEa .l op e1 e2) .moveToAcc
  else if op &&& 0xFFF0#16 = 0xA180#16 then some (.moveFromAcc (lo4 op))
  else if op &&& 0xFFC0#16 = 0xA900#16 then pick eaMacSrc (srcEa .l op e1 e2) .moveToMacsr
  else if op &&& 0xFFF0#16 = 0xA980#16 then some (.moveFromMacsr (lo4 op))
  else if op = 0xA9C0#16 then some .moveMacsrToCcr
  else if op &&& 0xFFC0#16 = 0xAD00#16 then pick eaMacSrc (srcEa .l op e1 e2) .moveToMask
  else if op &&& 0xFFF0#16 = 0xAD80#16 then some (.moveFromMask (lo4 op))
  else none

def lineB (op e1 e2 : Word) : Option Instr :=
  if op &&& 0xF1C0#16 = 0xB080#16 then pick (eaAny .l) (srcEa .l op e1 e2) (fun e => .cmpL e (hi op))
  else if op &&& 0xF1C0#16 = 0xB180#16 then pick eaDataAlter (srcEa .l op e1 e2) (.eorToEa (hi op))
  else if op &&& 0xF1C0#16 = 0xB1C0#16 then pick (eaAny .l) (srcEa .l op e1 e2) (fun e => .cmpaL e (hi op))
  else none

def lineC (op e1 e2 : Word) : Option Instr :=
  if op &&& 0xF1C0#16 = 0xC080#16 then pick (eaData .l) (srcEa .l op e1 e2) (fun e => .andToD e (hi op))
  else if op &&& 0xF1C0#16 = 0xC0C0#16 then pick (eaData .w) (srcEa .w op e1 e2) (fun e => .muluW e (hi op))
  else if op &&& 0xF1C0#16 = 0xC180#16 then pick eaMemAlter (srcEa .l op e1 e2) (.andToEa (hi op))
  else if op &&& 0xF1C0#16 = 0xC1C0#16 then pick (eaData .w) (srcEa .w op e1 e2) (fun e => .mulsW e (hi op))
  else none

def lineD (op e1 e2 : Word) : Option Instr :=
  if op &&& 0xF1C0#16 = 0xD080#16 then pick (eaAny .l) (srcEa .l op e1 e2) (fun e => .addToD e (hi op))
  else if op &&& 0xF1F8#16 = 0xD180#16 then some (.addxL (lo op) (hi op))
  else if op &&& 0xF1C0#16 = 0xD180#16 then pick eaMemAlter (srcEa .l op e1 e2) (.addToEa (hi op))
  else if op &&& 0xF1C0#16 = 0xD1C0#16 then pick (eaAny .l) (srcEa .l op e1 e2) (fun e => .addaL e (hi op))
  else none

def lineE (op _e1 _e2 : Word) : Option Instr :=
  if op &&& 0xF1F8#16 = 0xE080#16 then some (.asrI (hi op) (lo op))
  else if op &&& 0xF1F8#16 = 0xE088#16 then some (.lsrI (hi op) (lo op))
  else if op &&& 0xF1F8#16 = 0xE0A0#16 then some (.asrD (hi op) (lo op))
  else if op &&& 0xF1F8#16 = 0xE0A8#16 then some (.lsrD (hi op) (lo op))
  else if op &&& 0xF1F8#16 = 0xE180#16 then some (.aslI (hi op) (lo op))
  else if op &&& 0xF1F8#16 = 0xE188#16 then some (.lslI (hi op) (lo op))
  else if op &&& 0xF1F8#16 = 0xE1A0#16 then some (.aslD (hi op) (lo op))
  else if op &&& 0xF1F8#16 = 0xE1A8#16 then some (.lslD (hi op) (lo op))
  else none

def lineF (op e1 e2 : Word) : Option Instr :=
  if op &&& 0xFFF8#16 = 0xF4E8#16 then some (.cpushl (lo op))
  else if op &&& 0xFFC0#16 = 0xFB00#16 then pick eaMemAlter (srcEa .b op e1 e2) .wddataB
  else if op &&& 0xFFC0#16 = 0xFB40#16 then pick eaMemAlter (srcEa .w op e1 e2) .wddataW
  else if op &&& 0xFFC0#16 = 0xFB80#16 then pick eaMemAlter (srcEa .l op e1 e2) .wddataL
  else if op &&& 0xFFC0#16 = 0xFBC0#16 then pick eaBase (srcEa .l op e2 0#16) (.wdebug e1)
  else none

/-- An operation word that selects nothing raises vector 4 (R201). -/
def orIllegal : Option Instr → Decoded
  | some i => .ok i
  | none => .illegal

/-- An operation word of line A that selects nothing raises vector 10 (R201). -/
def orLineA : Option Instr → Decoded
  | some i => .ok i
  | none => .lineA

/-- An operation word of line F that selects nothing raises vector 11 (R201). -/
def orLineF : Option Instr → Decoded
  | some i => .ok i
  | none => .lineF

end Dec

/-- Decode an operation word with the two words that follow it (R201, R204). Which row it selects, and how many
words it takes, depends on the operation word alone (R202). -/
def decode (op e1 e2 : Word) : Decoded :=
  match (op.extractLsb' 12 4).toNat with
  | 0 => Dec.orIllegal (Dec.line0 op e1 e2)
  | 1 => Dec.orIllegal (Dec.line1 op e1 e2)
  | 2 => Dec.orIllegal (Dec.line2 op e1 e2)
  | 3 => Dec.orIllegal (Dec.line3 op e1 e2)
  | 4 => Dec.orIllegal (Dec.line4 op e1 e2)
  | 5 => Dec.orIllegal (Dec.line5 op e1 e2)
  | 6 => Dec.orIllegal (Dec.line6 op e1 e2)
  | 7 => Dec.orIllegal (Dec.line7 op e1 e2)
  | 8 => Dec.orIllegal (Dec.line8 op e1 e2)
  | 9 => Dec.orIllegal (Dec.line9 op e1 e2)
  | 10 => Dec.orLineA (Dec.lineMac op e1 e2)
  | 11 => Dec.orIllegal (Dec.lineB op e1 e2)
  | 12 => Dec.orIllegal (Dec.lineC op e1 e2)
  | 13 => Dec.orIllegal (Dec.lineD op e1 e2)
  | 14 => Dec.orIllegal (Dec.lineE op e1 e2)
  | _ => Dec.orLineF (Dec.lineF op e1 e2)

namespace Enc

/-- A register in op[11:9]. -/
def at9 (r : Reg) : Word := r.setWidth 16 <<< 9
/-- A register in op[2:0]. -/
def at0 (r : Reg) : Word := r.setWidth 16
/-- A four-bit register in op[3:0]. -/
def at0x (r : RegX) : Word := r.setWidth 16
/-- The MAC register, its bit 3 in op[6] and its low bits in op[11:9]. -/
def atMac (r : RegX) : Word := (r.extractLsb' 0 3).setWidth 16 <<< 9 ||| (r.extractLsb' 3 1).setWidth 16 <<< 6

/-- The mode field of an effective address (R205). -/
def eaMode : Ea → BitVec 3
  | .dn _ => 0#3 | .an _ => 1#3 | .ind _ => 2#3 | .postinc _ => 3#3 | .predec _ => 4#3
  | .disp _ _ => 5#3 | .idx _ _ => 6#3
  | .absW _ | .absL _ | .pcDisp _ | .pcIdx _ | .immW _ | .immL _ => 7#3

/-- The register field of an effective address (R205). -/
def eaReg : Ea → BitVec 3
  | .dn r | .an r | .ind r | .postinc r | .predec r | .disp r _ | .idx r _ => r
  | .absW _ => 0#3 | .absL _ => 1#3 | .pcDisp _ => 2#3 | .pcIdx _ => 3#3 | .immW _ => 4#3 | .immL _ => 4#3

/-- The extension words of an effective address (R203, R209, R210). -/
def eaWords : Ea → List Word
  | .dn _ | .an _ | .ind _ | .postinc _ | .predec _ => []
  | .disp _ w | .idx _ w | .absW w | .pcDisp w | .pcIdx w | .immW w => [w]
  | .absL a | .immL a => [a.extractLsb' 16 16, a.extractLsb' 0 16]

/-- mode :: reg in op[5:0]. -/
def eaBits (e : Ea) : Word := (eaMode e).setWidth 16 <<< 3 ||| (eaReg e).setWidth 16

/-- The destination field of MOVE: register in op[11:9], mode in op[8:6] (R208). -/
def dstBits (e : Ea) : Word := (eaReg e).setWidth 16 <<< 9 ||| (eaMode e).setWidth 16 <<< 6

/-- The two words of a longword, high-order word first (R82). -/
def longWords (v : Long) : List Word := [v.extractLsb' 16 16, v.extractLsb' 0 16]

/-- A branch: the displacement in the operation word or after it. -/
def branch (base : Word) : Disp → List Word
  | .d8 d => [base ||| d.setWidth 16]
  | .d16 d => [base, d]

/-- The extension word of the long multiply. -/
def mulExt (signed : Bool) (rsv : BitVec 12) (dx : Reg) : Word :=
  rsv.extractLsb' 11 1 ++ dx ++ (if signed then 1#1 else 0#1) ++ rsv.extractLsb' 0 11

/-- The extension word of the long divide and remainder. -/
def divExt (signed : Bool) (rsv : BitVec 9) (dw dx : Reg) : Word :=
  rsv.extractLsb' 8 1 ++ dx ++ (if signed then 1#1 else 0#1) ++ rsv.extractLsb' 0 8 ++ dw

def bit (b : Bool) : BitVec 1 := if b then 1#1 else 0#1

/-- The extension word of MAC and MSAC without load. -/
def macExt (long sub : Bool) (rsv : BitVec 10) (sf : BitVec 2) (ux uy : Bool) : Word :=
  rsv.extractLsb' 6 4 ++ bit long ++ sf ++ bit sub ++ bit ux ++ bit uy ++ rsv.extractLsb' 0 6

/-- The extension word of MAC and MSAC with load. -/
def macLoadExt (long sub : Bool) (rsv : Bool) (sf : BitVec 2) (ux uy msk : Bool) (rx ry : RegX) : Word :=
  rx ++ bit long ++ sf ++ bit sub ++ bit ux ++ bit uy ++ bit msk ++ bit rsv ++ ry

end Enc

open Enc in
/-- The words of an instruction (R200): the operation word, the operation's own words, the source's, the
destination's. -/
def encode : Instr → List Word
  | .oriL dx v => (0x0080#16 ||| at0 dx) :: longWords v
  | .andiL dx v => (0x0280#16 ||| at0 dx) :: longWords v
  | .subiL dx v => (0x0480#16 ||| at0 dx) :: longWords v
  | .addiL dx v => (0x0680#16 ||| at0 dx) :: longWords v
  | .eoriL dx v => (0x0A80#16 ||| at0 dx) :: longWords v
  | .cmpiL dx v => (0x0C80#16 ||| at0 dx) :: longWords v
  | .btstI rsv n e => (0x0800#16 ||| eaBits e) :: (rsv ++ n) :: eaWords e
  | .bchgI rsv n e => (0x0840#16 ||| eaBits e) :: (rsv ++ n) :: eaWords e
  | .bclrI rsv n e => (0x0880#16 ||| eaBits e) :: (rsv ++ n) :: eaWords e
  | .bsetI rsv n e => (0x08C0#16 ||| eaBits e) :: (rsv ++ n) :: eaWords e
  | .btstD dy e => (0x0100#16 ||| at9 dy ||| eaBits e) :: eaWords e
  | .bchgD dy e => (0x0140#16 ||| at9 dy ||| eaBits e) :: eaWords e
  | .bclrD dy e => (0x0180#16 ||| at9 dy ||| eaBits e) :: eaWords e
  | .bsetD dy e => (0x01C0#16 ||| at9 dy ||| eaBits e) :: eaWords e
  | .moveB s d => (0x1000#16 ||| dstBits d ||| eaBits s) :: (eaWords s ++ eaWords d)
  | .moveL s d => (0x2000#16 ||| dstBits d ||| eaBits s) :: (eaWords s ++ eaWords d)
  | .moveaL s a => (0x2040#16 ||| at9 a ||| eaBits s) :: eaWords s
  | .moveW s d => (0x3000#16 ||| dstBits d ||| eaBits s) :: (eaWords s ++ eaWords d)
  | .moveaW s a => (0x3040#16 ||| at9 a ||| eaBits s) :: eaWords s
  | .negxL dx => [0x4080#16 ||| at0 dx]
  | .moveFromSr dx => [0x40C0#16 ||| at0 dx]
  | .lea e a => (0x41C0#16 ||| at9 a ||| eaBits e) :: eaWords e
  | .clrB e => (0x4200#16 ||| eaBits e) :: eaWords e
  | .clrW e => (0x4240#16 ||| eaBits e) :: eaWords e
  | .clrL e => (0x4280#16 ||| eaBits e) :: eaWords e
  | .moveFromCcr dx => [0x42C0#16 ||| at0 dx]
  | .negL dx => [0x4480#16 ||| at0 dx]
  | .moveToCcrD dy => [0x44C0#16 ||| at0 dy]
  | .moveToCcrI v => [0x44FC#16, v]
  | .notL dx => [0x4680#16 ||| at0 dx]
  | .moveToSrD dy => [0x46C0#16 ||| at0 dy]
  | .moveToSrI v => [0x46FC#16, v]
  | .swap dx => [0x4840#16 ||| at0 dx]
  | .pea e => (0x4840#16 ||| eaBits e) :: eaWords e
  | .extW dx => [0x4880#16 ||| at0 dx]
  | .extL dx => [0x48C0#16 ||| at0 dx]
  | .extbL dx => [0x49C0#16 ||| at0 dx]
  | .movemStore m e => (0x48C0#16 ||| eaBits e) :: m :: eaWords e
  | .movemLoad m e => (0x4CC0#16 ||| eaBits e) :: m :: eaWords e
  | .tstB e => (0x4A00#16 ||| eaBits e) :: eaWords e
  | .tstW e => (0x4A40#16 ||| eaBits e) :: eaWords e
  | .tstL e => (0x4A80#16 ||| eaBits e) :: eaWords e
  | .halt => [0x4AC8#16]
  | .pulse => [0x4ACC#16]
  | .illegal => [0x4AFC#16]
  | .muluL rsv dx e => (0x4C00#16 ||| eaBits e) :: mulExt false rsv dx :: eaWords e
  | .mulsL rsv dx e => (0x4C00#16 ||| eaBits e) :: mulExt true rsv dx :: eaWords e
  | .divuL rsv dx e => (0x4C40#16 ||| eaBits e) :: divExt false rsv dx dx :: eaWords e
  | .divsL rsv dx e => (0x4C40#16 ||| eaBits e) :: divExt true rsv dx dx :: eaWords e
  | .remuL rsv dw dx e => (0x4C40#16 ||| eaBits e) :: divExt false rsv dw dx :: eaWords e
  | .remsL rsv dw dx e => (0x4C40#16 ||| eaBits e) :: divExt true rsv dw dx :: eaWords e
  | .trap v => [0x4E40#16 ||| v.setWidth 16]
  | .link ay d => [0x4E50#16 ||| at0 ay, d]
  | .unlk ax => [0x4E58#16 ||| at0 ax]
  | .nop => [0x4E71#16]
  | .stop v => [0x4E72#16, v]
  | .rte => [0x4E73#16]
  | .rts => [0x4E75#16]
  | .movec ry rc => [0x4E7B#16, ry ++ rc]
  | .jsr e => (0x4E80#16 ||| eaBits e) :: eaWords e
  | .jmp e => (0x4EC0#16 ||| eaBits e) :: eaWords e
  | .addqL q e => (0x5080#16 ||| at9 q ||| eaBits e) :: eaWords e
  | .subqL q e => (0x5180#16 ||| at9 q ||| eaBits e) :: eaWords e
  | .scc cc dx => [0x50C0#16 ||| cc.setWidth 16 <<< 8 ||| at0 dx]
  | .trapfW w => [0x51FA#16, w]
  | .trapfL v w => [0x51FB#16, v, w]
  | .trapf => [0x51FC#16]
  | .bra d => branch 0x6000#16 d
  | .bsr d => branch 0x6100#16 d
  | .bcc cc d => branch (0x6000#16 ||| cc.setWidth 16 <<< 8) d
  | .moveq d dx => [0x7000#16 ||| at9 dx ||| d.setWidth 16]
  | .orToD e dx => (0x8080#16 ||| at9 dx ||| eaBits e) :: eaWords e
  | .divuW e dx => (0x80C0#16 ||| at9 dx ||| eaBits e) :: eaWords e
  | .orToEa dy e => (0x8180#16 ||| at9 dy ||| eaBits e) :: eaWords e
  | .divsW e dx => (0x81C0#16 ||| at9 dx ||| eaBits e) :: eaWords e
  | .subToD e dx => (0x9080#16 ||| at9 dx ||| eaBits e) :: eaWords e
  | .subxL dy dx => [0x9180#16 ||| at9 dx ||| at0 dy]
  | .subToEa dy e => (0x9180#16 ||| at9 dy ||| eaBits e) :: eaWords e
  | .subaL e ax => (0x91C0#16 ||| at9 ax ||| eaBits e) :: eaWords e
  | .macW rsv sf ux uy rx ry => [0xA000#16 ||| atMac rx ||| at0x ry, macExt false false rsv sf ux uy]
  | .macL rsv sf ux uy rx ry => [0xA000#16 ||| atMac rx ||| at0x ry, macExt true false rsv sf ux uy]
  | .msacW rsv sf ux uy rx ry => [0xA000#16 ||| atMac rx ||| at0x ry, macExt false true rsv sf ux uy]
  | .msacL rsv sf ux uy rx ry => [0xA000#16 ||| atMac rx ||| at0x ry, macExt true true rsv sf ux uy]
  | .macWLoad rsv sf ux uy m rx ry rw e =>
    (0xA080#16 ||| atMac rw ||| eaBits e) :: macLoadExt false false rsv sf ux uy m rx ry :: eaWords e
  | .macLLoad rsv sf ux uy m rx ry rw e =>
    (0xA080#16 ||| atMac rw ||| eaBits e) :: macLoadExt true false rsv sf ux uy m rx ry :: eaWords e
  | .msacWLoad rsv sf ux uy m rx ry rw e =>
    (0xA080#16 ||| atMac rw ||| eaBits e) :: macLoadExt false true rsv sf ux uy m rx ry :: eaWords e
  | .msacLLoad rsv sf ux uy m rx ry rw e =>
    (0xA080#16 ||| atMac rw ||| eaBits e) :: macLoadExt true true rsv sf ux uy m rx ry :: eaWords e
  | .moveToAcc e => (0xA100#16 ||| eaBits e) :: eaWords e
  | .moveFromAcc rx => [0xA180#16 ||| at0x rx]
  | .moveToMacsr e => (0xA900#16 ||| eaBits e) :: eaWords e
  | .moveFromMacsr rx => [0xA980#16 ||| at0x rx]
  | .moveMacsrToCcr => [0xA9C0#16]
  | .moveToMask e => (0xAD00#16 ||| eaBits e) :: eaWords e
  | .moveFromMask rx => [0xAD80#16 ||| at0x rx]
  | .cmpL e dx => (0xB080#16 ||| at9 dx ||| eaBits e) :: eaWords e
  | .eorToEa dy e => (0xB180#16 ||| at9 dy ||| eaBits e) :: eaWords e
  | .cmpaL e ax => (0xB1C0#16 ||| at9 ax ||| eaBits e) :: eaWords e
  | .andToD e dx => (0xC080#16 ||| at9 dx ||| eaBits e) :: eaWords e
  | .muluW e dx => (0xC0C0#16 ||| at9 dx ||| eaBits e) :: eaWords e
  | .andToEa dy e => (0xC180#16 ||| at9 dy ||| eaBits e) :: eaWords e
  | .mulsW e dx => (0xC1C0#16 ||| at9 dx ||| eaBits e) :: eaWords e
  | .addToD e dx => (0xD080#16 ||| at9 dx ||| eaBits e) :: eaWords e
  | .addxL dy dx => [0xD180#16 ||| at9 dx ||| at0 dy]
  | .addToEa dy e => (0xD180#16 ||| at9 dy ||| eaBits e) :: eaWords e
  | .addaL e ax => (0xD1C0#16 ||| at9 ax ||| eaBits e) :: eaWords e
  | .asrI n dx => [0xE080#16 ||| at9 n ||| at0 dx]
  | .lsrI n dx => [0xE088#16 ||| at9 n ||| at0 dx]
  | .asrD dy dx => [0xE0A0#16 ||| at9 dy ||| at0 dx]
  | .lsrD dy dx => [0xE0A8#16 ||| at9 dy ||| at0 dx]
  | .aslI n dx => [0xE180#16 ||| at9 n ||| at0 dx]
  | .lslI n dx => [0xE188#16 ||| at9 n ||| at0 dx]
  | .aslD dy dx => [0xE1A0#16 ||| at9 dy ||| at0 dx]
  | .lslD dy dx => [0xE1A8#16 ||| at9 dy ||| at0 dx]
  | .cpushl ax => [0xF4E8#16 ||| at0 ax]
  | .wddataB e => (0xFB00#16 ||| eaBits e) :: eaWords e
  | .wddataW e => (0xFB40#16 ||| eaBits e) :: eaWords e
  | .wddataL e => (0xFB80#16 ||| eaBits e) :: eaWords e
  | .wdebug x e => (0xFBC0#16 ||| eaBits e) :: x :: eaWords e

/-- The number of extension words of an instruction (R203). -/
def extLen (i : Instr) : Nat := (encode i).length - 1

/-- The number of extension words an operation word announces: none where it selects no instruction. -/
def opExtLen (op : Word) : Nat :=
  match decode op 0#16 0#16 with
  | .ok i => extLen i
  | _ => 0

/-- The word at a place of a list of words, zero beyond its end. -/
def wordAt (ws : List Word) (n : Nat) : Word := ws.getD n 0#16

/-- Decode the words of an instruction given as a list. -/
def decodeWords (ws : List Word) : Decoded := decode (wordAt ws 0) (wordAt ws 1) (wordAt ws 2)

/-- The big-endian words of a list of bytes (spec/20_memory.md R82); a last odd byte is dropped. -/
def wordsOf : List Byte → List Word
  | a :: b :: t => (a ++ b) :: wordsOf t
  | _ => []

/-- The big-endian bytes of a list of words. -/
def bytesOf : List Word → List Byte
  | [] => []
  | w :: t => w.extractLsb' 8 8 :: w.extractLsb' 0 8 :: bytesOf t

/-- Decode bytes: the instruction and the bytes after it, or why there is none. -/
def decodeBytes (bs : List Byte) : Except Reject (Instr × List Byte) :=
  match wordsOf bs with
  | [] => .error .truncated
  | op :: ws =>
    match decode op (wordAt ws 0) (wordAt ws 1) with
    | .ok i => if ws.length < extLen i then .error .truncated else .ok (i, bs.drop (2 * (extLen i + 1)))
    | .illegal => .error .illegal
    | .lineA => .error .lineA
    | .lineF => .error .lineF

/-- The three words of a number laid out as spec/opcode_table.json numbers bits: the first word in bits 15 to 0. -/
def tableWords (nbits w : Nat) : List Word :=
  let v := w % 2 ^ nbits
  [BitVec.ofNat 16 v, BitVec.ofNat 16 (v / 2 ^ 16), BitVec.ofNat 16 (v / 2 ^ 32)]

/-- The instruction the decoder reads from the words of an opcode-table row. -/
def decodeTableWord (nbits w : Nat) : Option Instr :=
  match decodeBytes (bytesOf (tableWords nbits w)) with
  | .ok (i, _) => some i
  | .error _ => none

end Sys2Proof
end

