-- ==== Sys2Proof/Config.lean ====
section
/-! DEFINITION. Sys2Proof/Config.lean: the parameters an implementation fixes (spec/00_scope.md R6) as plain data, and
the free values: constants without a body, applied to a counter that State holds (or to the operands), so that no
proof can know them. -/

namespace Sys2Proof

/-- The cache sizes of R6 (spec/21_cache_and_local_memory.md R131); absent is the spec's own addition (D4). -/
inductive CacheSize where
  | absent
  | k2
  | k4
  | k8
  | k16
  | k32
deriving DecidableEq, Repr

/-- The local RAM and ROM sizes of R6 (spec/10_state.md R44). -/
inductive LocalSize where
  | absent
  | b512
  | k1
  | k2
  | k4
  | k8
  | k16
  | k32
deriving DecidableEq, Repr

namespace Config

/-- N and Z after a divide or remainder that overflows (spec/44_mul_div_mac.md; V6): N in bit 1, Z in bit 0. -/
opaque divOverflowNz : Nat → BitVec 2

/-- Whether the postincrement or predecrement of a divide's source is kept when divide by zero is raised (V6). -/
opaque divZeroKeepsUpdate : Nat → BitVec 1

/-- Which of the old words and the new one is executed at an address that a store into the instruction stream has
touched, no change of flow having followed since the store was performed (spec/20_memory.md R120, D24). -/
opaque staleChoice : Nat → Nat

/-- The fault status an address error writes, among the encodings of Table 4-4 (spec/60_exceptions.md R516, V2). -/
opaque addressErrorFs : Nat → BitVec 3

/-- The stacked PC of an access error that a NOP collects: the NOP (0) or the next instruction (1) (U19). -/
opaque nopCollects : Nat → BitVec 1

/-- The program counter after a fault-on-fault on an odd handler address (spec/60_exceptions.md R550). -/
opaque faultPc : Nat → Long

/-- The final A7 of UNLK A7 (spec/40_data_movement.md R274, V3). -/
opaque unlkA7 : Nat → Long

/-- The direction of a MAC rounding tie (spec/44_mul_div_mac.md R440). -/
opaque macTie : Nat → BitVec 1

/-- The product of -1 and -1 in fractional mode, which no 32-bit fraction represents (R440). -/
opaque macMinusOne : Nat → Long

/-- The unimplemented bits of a control register read by RCREG (spec/61_debug_and_bdm.md R626, U6). -/
opaque rcregBits : Nat → Long

/-- Bits 15 to 8 of the response to a BDM byte read (R622, U5). -/
opaque bdmByteHigh : Nat → Byte

/-- The data of an RDMREG of a reserved register (R629, U14). -/
opaque rdmregBits : Nat → Long

/-- The low bit of the breakpoint status that a write of the TDR or a trigger leaves in the CSR (R651, U17). -/
opaque statusLow : Nat → BitVec 1

/-- What a warm reset leaves in the registers and in the RAM bytes whose value after reset no source gives
(spec/10_state.md R79, V1): the second argument names the register or the byte. -/
opaque resetBits : Nat → Nat → Long

end Config

end Sys2Proof
end

