-- ==== Sys2Proof/Machine/State.lean ====
section
/-! DEFINITION. Sys2Proof/Machine/State.lean: everything the spec gives the machine (spec/10_state.md R20 to R79), as
plain data, with the pins and parameters of the implementation (spec/00_scope.md R6, R7) among it, and the machine
after reset (R79, spec/70_reset_and_hazards.md R681). INVENTORY.md lists each field with its rule. -/

namespace Sys2Proof.Machine

/-- The user programming model and SR (R21 to R35). `pc` is the address of the next operation word. -/
structure Cpu where
  d : Vector Long 8
  a : Vector Long 8
  pc : Long
  sr : Word
deriving DecidableEq, Repr

/-- The MAC programming model (R36 to R38). -/
structure Mac where
  acc : Long
  mask : Word
  macsr : Byte
deriving DecidableEq, Repr

/-- The control registers of MOVEC (R40 to R46). Reserved bits are held at zero. -/
structure Ctl where
  cacr : Long
  acr0 : Long
  acr1 : Long
  vbr : Long
  rombar : Long
  rambar : Long
deriving DecidableEq, Repr

/-- The debug module's registers (R50 to R60). -/
structure Dbg where
  csr : Long
  baar : Byte
  aatr : Word
  tdr : Long
  pbr : Long
  pbmr : Long
  abhr : Long
  ablr : Long
  dbr : Long
  dbmr : Long
deriving DecidableEq, Repr

/-- One cache line (R65): its tag is the line's address bits above the set index, its data byte 0 is the highest. -/
structure Line where
  tag : Long
  v : Bool
  d : Bool
  data : BitVec 128
deriving DecidableEq, Repr

/-- The line-fill buffer (R66): the last line read from the M-Bus; `valid` when it may serve instruction fetches
(spec/21_cache_and_local_memory.md R160). -/
structure FillBuf where
  valid : Bool
  line : BitVec 28
  data : BitVec 128
deriving DecidableEq, Repr

/-- The transfer type and modifier of an access (spec/20_memory.md R92). -/
structure Space where
  tt : BitVec 2
  tm : BitVec 3
deriving DecidableEq, Repr

/-- One entry of the store buffer (R67): one M-Bus write to come. -/
structure Pending where
  sp : Space
  addr : Long
  len : Nat
  data : Long
deriving DecidableEq, Repr

/-- One displaced line on its way to memory (R68). -/
structure Push where
  line : BitVec 28
  data : BitVec 128
deriving DecidableEq, Repr

/-- One operand access as the debug module's breakpoints see it (spec/61_debug_and_bdm.md R656): the model's own
record of the step in progress. -/
structure Xfer where
  read : Bool
  sp : Space
  addr : Long
  len : Nat
  data : Long
deriving DecidableEq, Repr

/-- One transfer on the M-Bus (spec/20_memory.md R89 to R92), as an event: `maddr`, `msiz`, `mrw` (a read), `mtt` and
`mtm`, and its bytes in the order in which they move, those of a line from the longword at `maddr` on (R91). -/
structure BusXfer where
  addr : Long
  siz : BitVec 2
  read : Bool
  sp : Space
  data : List Byte
deriving DecidableEq, Repr

/-- An instruction word as fetches of one kind found it before a store replaced it: the prefetch may still hold it
(R74, spec/20_memory.md R120). -/
structure Stale where
  sp : Space
  addr : Long
  word : Word
deriving DecidableEq, Repr

/-- The memory system: memory behind the M-Bus (R80), the emulator's own memory (TT = 10, spec/61_debug_and_bdm.md
R661), the local RAM (R73), cache and buffers (R65 to R68), the instruction words the prefetch may still hold (R74), the
pending write error (R70 h), and, the model's own, the accesses and the M-Bus transfers of the step and the mark of a
transfer that never ends. -/
structure MemSys where
  mem : List Host.Cell
  emem : List Host.Cell
  ram : List Host.Cell
  cache : List (Nat × Line)
  rp : BitVec 2
  fill : FillBuf
  stores : List Pending
  push : Option Push
  stale : List Stale
  xfers : List Xfer
  bus : List BusXfer
  writeError : Bool
  stuck : Bool
deriving DecidableEq, Repr

/-- The run state (R70 a). -/
inductive Run where
  | running
  | stopped
  | halted
deriving DecidableEq, Repr

/-- Run state and pending events (R69, R70). -/
structure Ev where
  run : Run
  /-- The reset exception has set the registers and still has to load A7 and the PC (spec/70_reset_and_hazards.md
  R682). -/
  resetPending : Bool
  /-- R70 b. -/
  emulator : Bool
  /-- R70 c: a halt requested by the BKPT pin. -/
  haltBkpt : Bool
  /-- R70 c: a halt requested by a breakpoint trigger. -/
  haltTrg : Bool
  /-- R70 d. -/
  debugInt : Bool
  /-- R70 e. -/
  inhibitInt : Bool
  /-- R70 f. -/
  inhibitBp : Bool
  /-- R70 g. -/
  faultOnFault : Bool
  /-- R70 i: stays set when a fault-on-fault ends the exception processing. -/
  inException : Bool
  /-- The trace exception of the instruction just completed is pending (spec/60_exceptions.md R525). -/
  tracePending : Bool
  /-- The single step of CSR.SSM has been made and the core halts at the next sample point
  (spec/61_debug_and_bdm.md R598). -/
  stepDone : Bool
  /-- R69, D16: the level-7 request now on the pins has been taken. -/
  nmiTaken : Bool
  /-- An exception was taken at this boundary (spec/60_exceptions.md R504): the events that did not win are examined
  again after the next instruction. -/
  boundaryTaken : Bool
  /-- The BKPT pin at the last sample, for the edge of spec/61_debug_and_bdm.md R597. -/
  bkptPrev : Bool
deriving DecidableEq, Repr

/-- The input pins and the parameters of the implementation (R78, spec/00_scope.md R6), and what the host answers. -/
structure Pins where
  hasMac : Bool
  hasDiv : Bool
  cacheSize : CacheSize
  kramSize : LocalSize
  kromSize : LocalSize
  romImage : List Host.Cell
  kromvldrst : Bool
  ucnoif : Bool
  ucnoop : Bool
  encf5307kram : Bool
  enraptorkram : Bool
  en000iack : Bool
  /-- miplb[2:0], active low: the level is its complement (R69). -/
  miplb : BitVec 3
  /-- mbkptb, true when asserted. -/
  bkpt : Bool
  /-- mrstib, true when asserted: the host's event `reset` (spec/70_reset_and_hazards.md R680), which the step that
  performs it consumes. -/
  rsti : Bool
  /-- mtab is withheld for ever (spec/20_memory.md R89). -/
  noAck : Bool
  /-- The byte the host answers to the interrupt acknowledge of each level (D17). -/
  iack : Vector Byte 8
deriving DecidableEq, Repr

/-- Which chain of BDM memory commands the last command left (spec/61_debug_and_bdm.md R618). -/
inductive Chain where
  | none
  | nopOnly
  | read
  | write
deriving DecidableEq, Repr

/-- The BDM serial state (R72). `rx` holds the 17-bit packets the development system has put on DSI and the module
has not yet taken, `tx` those shifted out on DSO, newest last. -/
structure Bdm where
  rx : List (BitVec 17)
  tx : List (BitVec 17)
  cmd : List Word
  resp : List (BitVec 17)
  tempAddr : Option Long
  chain : Chain
  syncPc : Bool
  /-- The PC was loaded in the reset window (spec/70_reset_and_hazards.md R683). -/
  pcLoaded : Bool
deriving DecidableEq, Repr

/-- One event of the trace port (R71): a PST value, what DDATA carries with it, the breakpoint status
(spec/61_debug_and_bdm.md R583, R651), and the DDATA nibbles of the item it announces. -/
structure PortEvent where
  pst : BitVec 4
  status : BitVec 4
  dd : List (BitVec 4)
deriving DecidableEq, Repr

/-- The machine. `port` holds the trace of the last step; `free` is the model's own counter of draws from
Config's free values. -/
structure State where
  cpu : Cpu
  mac : Mac
  ctl : Ctl
  dbg : Dbg
  ms : MemSys
  ev : Ev
  pins : Pins
  bdm : Bdm
  port : List PortEvent
  free : Nat
deriving DecidableEq, Repr

/-- Why a step stops for good. -/
inductive Fault where
  /-- Raised by a step one of whose transfers on the M-Bus is never acknowledged: the core is stuck
  (spec/20_memory.md R89, V11). Safe: the hardware makes no further progress either. -/
  | busNeverAcknowledged
deriving DecidableEq, Repr

/-- Why a step has no meaning. -/
inductive Refusal where
  /-- An instruction that has no meaning in the model. Safe. -/
  | notModelled (mnemonic : String)
  /-- Reserved bits or codes in an extension word: the operation is undefined (spec/30_encoding.md R202, D8). Raised
  by the meanings of the instructions with such words. Safe. -/
  | undefinedExtensionWord
  /-- MOVEC to a register outside Table 4-1 (spec/45_system_control.md R467, D9). Safe. -/
  | movecUnknownRegister
  /-- WDEBUG whose operand's first word is no WDMREG command, or whose address is no multiple of 4
  (spec/45_system_control.md R475, V8). Safe. -/
  | wdebugBadOperand
  /-- A breakpoint trigger fires with TDR.TRC = 11 (spec/61_debug_and_bdm.md R652, U15). Safe. -/
  | reservedTriggerResponse
  /-- The pin EN000IACK asks for an acknowledge cycle no source describes (spec/60_exceptions.md R541, V9). Raised
  when an interrupt is taken. Safe. -/
  | mc68000AcknowledgeCycle
  /-- The pins ENCF5307KRAM or ENRAPTORKRAM ask for a RAM no source describes
  (spec/21_cache_and_local_memory.md R184, V9). Raised by every step. Safe. -/
  | ramStyleNotDescribed
  /-- User privilege in emulator mode with CSR.MAP = 1: the accesses would carry a reserved code
  (spec/93_implementation_defined.md V16). Raised by a step that would execute an instruction so. Safe. -/
  | userCodeInEmulatorSpace
  /-- DUMP or FILL after a bare NOP with no address (spec/61_debug_and_bdm.md R618, V14). Safe. -/
  | bdmNoAddress
  /-- GO after a fault-on-fault (spec/61_debug_and_bdm.md R624). Safe. -/
  | goAfterFaultOnFault
  /-- RCREG or WCREG of a register outside Table 6-5 (spec/61_debug_and_bdm.md R626, D9). Safe. -/
  | bdmUnknownRegister
deriving DecidableEq, Repr

/-- The outcome of a meaning. -/
abbrev Res := Host.Outcome State Fault Refusal

/-- The line of a cache that nothing has filled: invalid (R65; log entry 3). -/
def Line.empty : Line := { tag := 0#32, v := false, d := false, data := 0#128 }

/-- The memory system after reset: nothing listed, buffers empty (R66 to R68, R73). -/
def MemSys.reset : MemSys :=
  { mem := [], emem := [], ram := [], cache := [], rp := 0#2,
    fill := { valid := false, line := 0#28, data := 0#128 },
    stores := [], push := none, stale := [], xfers := [], bus := [], writeError := false, stuck := false }

/-- The run state after reset, with the two vector reads of R682 still to come. -/
def Ev.reset : Ev :=
  { run := .running, resetPending := true, emulator := false, haltBkpt := false, haltTrg := false,
    debugInt := false, inhibitInt := false, inhibitBp := false, faultOnFault := false, inException := false,
    tracePending := false, stepDone := false, nmiTaken := false, boundaryTaken := false,
    bkptPrev := false }

/-- The configuration the model starts from: both optional units, a 2 KByte cache, a 4 KByte RAM, no ROM, no request
on any pin (R6 leaves all of it open; log entry 1). -/
def Pins.default : Pins :=
  { hasMac := true, hasDiv := true, cacheSize := .k2, kramSize := .k4, kromSize := .absent, romImage := [],
    kromvldrst := false, ucnoif := false, ucnoop := false, encf5307kram := false, enraptorkram := false,
    en000iack := false, miplb := 7#3, bkpt := false, rsti := false, noAck := false,
    iack := Vector.replicate 8 0x0F#8 }

/-- The debug registers after reset (R51 to R60). CSR reads $0010_0000. -/
def Dbg.reset : Dbg :=
  { csr := 0x00100000#32, baar := 0x05#8, aatr := 0x0005#16, tdr := 0#32, pbr := 0#32, pbmr := 0#32,
    abhr := 0#32, ablr := 0#32, dbr := 0#32, dbmr := 0#32 }

/-- The control registers after reset (R41 to R45). -/
def Ctl.reset : Ctl :=
  { cacr := 0#32, acr0 := 0#32, acr1 := 0#32, vbr := 0#32, rombar := 0#32, rambar := 0#32 }

/-- No BDM command in progress (R72). -/
def Bdm.reset : Bdm :=
  { rx := [], tx := [], cmd := [], resp := [], tempAddr := none, chain := .none, syncPc := false,
    pcLoaded := false }

/-- The machine right after the reset of R681, before the vector reads of R682. -/
def State.reset : State :=
  { cpu := { d := Vector.replicate 8 0#32, a := Vector.replicate 8 0#32, pc := 0#32, sr := 0x2700#16 },
    mac := { acc := 0#32, mask := 0#16, macsr := 0#8 },
    ctl := Ctl.reset, dbg := Dbg.reset, ms := MemSys.reset, ev := Ev.reset, pins := Pins.default,
    bdm := Bdm.reset, port := [], free := 0 }

end Sys2Proof.Machine
end

