-- ==== Sys2Proof/Machine/Sparse.lean ====
section
/-! DEFINITION. Sys2Proof/Machine/Sparse.lean: sparse maps from addresses to values as lists of pairs in one canonical
form (addresses strictly rising, no entry equal to what an unlisted address reads as), and big-endian bytes
(spec/20_memory.md R81). -/

namespace Sys2Proof.Machine

/-- The value at a key; an unlisted key reads as `z`. -/
def sparseGet {α : Type} (z : α) : List (Nat × α) → Nat → α
  | [], _ => z
  | (k, v) :: t, a => if k = a then v else sparseGet z t a

/-- Remove a key. -/
def sparseDel {α : Type} : List (Nat × α) → Nat → List (Nat × α)
  | [], _ => []
  | (k, v) :: t, a => if k = a then sparseDel t a else (k, v) :: sparseDel t a

/-- Set a key; writing `z` removes the entry. -/
def sparseSet {α : Type} [DecidableEq α] (z : α) : List (Nat × α) → Nat → α → List (Nat × α)
  | [], a, v => if v = z then [] else [(a, v)]
  | (k, w) :: t, a, v =>
    if k = a then (if v = z then sparseDel t a else (a, v) :: sparseDel t a)
    else if a < k then (if v = z then (k, w) :: sparseDel t a else (a, v) :: (k, w) :: sparseDel t a)
    else (k, w) :: sparseSet z t a v

/-- The canonical form, above a bound: keys strictly rising, no entry equal to `z`. -/
def sparseWfFrom {α : Type} [DecidableEq α] (z : α) : Nat → List (Nat × α) → Bool
  | _, [] => true
  | n, (k, v) :: t => decide (n ≤ k) && decide (v ≠ z) && sparseWfFrom z (k + 1) t

/-- The canonical form of a sparse map. -/
def sparseWf {α : Type} [DecidableEq α] (z : α) (l : List (Nat × α)) : Bool := sparseWfFrom z 0 l

/-- What a byte of memory that nothing has written reads as (DESIGN CHOICE, unsafe: log entry 2). -/
def unwritten : Byte := 0#8

/-- One byte of a memory. -/
def memByte (m : List Host.Cell) (a : Nat) : Byte := sparseGet unwritten m a

/-- Write one byte of a memory. -/
def memSetByte (m : List Host.Cell) (a : Nat) (b : Byte) : List Host.Cell := sparseSet unwritten m a b

/-- The canonical form of a memory whose addresses are below a limit. -/
def memWf (limit : Nat) (m : List Host.Cell) : Bool := sparseWf unwritten m && m.all (fun c => decide (c.1 < limit))

/-- The bytes of a value, most significant first (R81). -/
def beBytes : Nat → Long → List Byte
  | 0, _ => []
  | n + 1, v => v.extractLsb' (8 * n) 8 :: beBytes n v

/-- The value of bytes, the first one most significant (R81). -/
def beValue (bs : List Byte) : Long := bs.foldl (fun v b => (v <<< 8) ||| b.setWidth 32) 0#32

/-- Consecutive bytes at an address, modulo 2^32 (D12). -/
def readBytes (get : Nat → Byte) (a : Long) : Nat → List Byte
  | 0 => []
  | n + 1 => get a.toNat :: readBytes get (a + 1#32) n

/-- Write consecutive bytes of a memory, modulo 2^32. -/
def memWrite (m : List Host.Cell) (a : Long) : List Byte → List Host.Cell
  | [] => m
  | b :: t => memWrite (memSetByte m a.toNat b) (a + 1#32) t

/-- Byte i of a 16-byte line, byte 0 most significant. -/
def lineByte (data : BitVec 128) (i : Nat) : Byte := data.extractLsb' (8 * (15 - i)) 8

/-- Replace byte i of a line. -/
def lineSetByte (data : BitVec 128) (i : Nat) (b : Byte) : BitVec 128 :=
  (data &&& ~~~((0xFF#128) <<< (8 * (15 - i)))) ||| (b.setWidth 128 <<< (8 * (15 - i)))

/-- Write consecutive bytes of a line from an offset; an aligned access never passes the end of the line. -/
def lineWrite (data : BitVec 128) (i : Nat) : List Byte → BitVec 128
  | [] => data
  | b :: t => lineWrite (lineSetByte data i b) (i + 1) t

/-- The bytes of a line. -/
def lineBytes (data : BitVec 128) : Nat → List Byte
  | 0 => []
  | n + 1 => lineByte data (15 - n) :: lineBytes data n

/-- A line from its sixteen bytes. -/
def lineOf (bs : List Byte) : BitVec 128 := bs.foldl (fun v b => (v <<< 8) ||| b.setWidth 128) 0#128

/-- The bits hi..lo that a mask names are clear in a value. -/
def maskedEq (a b ignore : Long) : Bool := ((a ^^^ b) &&& ~~~ignore) == 0#32

end Sys2Proof.Machine
end

