-- ==== Sys2Proof/Machine/Bus.lean ====
section
/-! DEFINITION. Sys2Proof/Machine/Bus.lean: the path of an access (spec/20_memory.md R85, R95 to R107): local RAM, local
ROM, cache, fill buffer, store and push buffers, M-Bus; the cache protocol of spec/21_cache_and_local_memory.md
(R140 to R170, R180 to R188). Every operation is total and changes the memory system alone. -/

namespace Sys2Proof.Machine

/-- What decides where an access goes: the control registers, the pins, CSR.MAP, and whether the core is in emulator
mode with CSR.MAP = 1 (R165). -/
structure Route where
  ctl : Ctl
  pins : Pins
  map : Bool
  emuMap : Bool
deriving DecidableEq, Repr

/-- n of R44 and R180: log2 of the size of a local memory. -/
def localBits : LocalSize → Nat
  | .absent => 0
  | .b512 => 9
  | .k1 => 10
  | .k2 => 11
  | .k4 => 12
  | .k8 => 13
  | .k16 => 14
  | .k32 => 15

/-- log2 of the number of sets (R131). -/
def setBits : CacheSize → Nat
  | .absent => 0
  | .k2 => 5
  | .k4 => 6
  | .k8 => 7
  | .k16 => 8
  | .k32 => 9

/-- The address space mask bit of RAMBAR and ROMBAR that an access tests (R181, D31). DESIGN CHOICE (log entry 12): the
table has no row for what only the BAAR can make: reserved modifiers, TT = 01, and TT = 10 at the RAM while CSR.MAP = 0
are read by TM[2:1] as if TT were 00. -/
def maskBit (sp : Space) : Nat :=
  if sp.tt = 3#2 then 5
  else if sp.tm.getLsbD 2 then (if sp.tm.getLsbD 1 then 4 else 3)
  else (if sp.tm.getLsbD 1 then 2 else 1)

/-- The hit test of a local memory (R180, R185): valid, base match, space not masked. -/
def localHit (size : LocalSize) (bar : Long) (sp : Space) (a : Long) : Bool :=
  (size != .absent) && bar.getLsbD 0 && (a >>> localBits size == bar >>> localBits size)
    && !bar.getLsbD (maskBit sp)

/-- The RAM claims the access (R180); not in emulator mode with MAP = 1 (R165), nor an access with TT = 10 while
MAP = 1 (R181). -/
def ramClaims (r : Route) (sp : Space) (a : Long) : Bool :=
  !(r.emuMap || (r.map && sp.tt == 2#2)) && localHit r.pins.kramSize r.ctl.rambar sp a

/-- The ROM claims the access, if the RAM does not (R185, R188). -/
def romClaims (r : Route) (sp : Space) (a : Long) : Bool :=
  !ramClaims r sp a && localHit r.pins.kromSize r.ctl.rombar sp a

/-- The offset of an address in a local memory. -/
def localOff (size : LocalSize) (a : Long) : Nat := a.toNat % 2 ^ localBits size

/-- ACR matching (R142). -/
def acrMatch (acr : Long) (a : Long) (tm : BitVec 3) : Bool :=
  acr.getLsbD 15
    && ((a.extractLsb' 24 8 ^^^ acr.extractLsb' 24 8) &&& ~~~(acr.extractLsb' 16 8)) == 0#8
    && (acr.getLsbD 14 || (acr.getLsbD 13 == tm.getLsbD 2))

/-- The effective cache mode (R141); acknowledge and CPU space is noncachable and precise (R143). -/
def cacheMode (r : Route) (sp : Space) (a : Long) : BitVec 2 :=
  if sp.tt = 3#2 then 2#2
  else if sp.tt = 0#2 && acrMatch r.ctl.acr0 a sp.tm then r.ctl.acr0.extractLsb' 5 2
  else if sp.tt = 0#2 && acrMatch r.ctl.acr1 a sp.tm then r.ctl.acr1.extractLsb' 5 2
  else r.ctl.cacr.extractLsb' 8 2

/-- The effective write protection (R141). -/
def writeProtected (r : Route) (sp : Space) (a : Long) : Bool :=
  if sp.tt = 0#2 && acrMatch r.ctl.acr0 a sp.tm then r.ctl.acr0.getLsbD 2
  else if sp.tt = 0#2 && acrMatch r.ctl.acr1 a sp.tm then r.ctl.acr1.getLsbD 2
  else r.ctl.cacr.getLsbD 5

/-- The access is looked up in the cache (R143, R168). -/
def usesCache (r : Route) (sp : Space) (fetch : Bool) (a : Long) : Bool :=
  (r.pins.cacheSize != .absent) && r.ctl.cacr.getLsbD 31 && !ramClaims r sp a && !romClaims r sp a
    && (sp.tt == 0#2) && !(cacheMode r sp a).getLsbD 1 && !(if fetch then r.pins.ucnoif else r.pins.ucnoop)
    && !r.emuMap

/-- The set index of an address (R131). -/
def setOf (r : Route) (a : Long) : Nat := (a.toNat / 16) % 2 ^ setBits r.pins.cacheSize

/-- The tag of an address (R131). -/
def tagOf (r : Route) (a : Long) : Long := a >>> (4 + setBits r.pins.cacheSize)

/-- The line of a set and a level. -/
def lineAt (m : MemSys) (set level : Nat) : Line := sparseGet Line.empty m.cache (4 * set + level)

/-- Replace the line of a set and a level. -/
def setLine (m : MemSys) (set level : Nat) (l : Line) : MemSys :=
  { m with cache := sparseSet Line.empty m.cache (4 * set + level) l }

/-- A level holds a valid line with this tag (R143). -/
def levelHits (m : MemSys) (set : Nat) (tag : Long) (level : Nat) : Bool :=
  (lineAt m set level).v && (lineAt m set level).tag == tag

/-- The level that hits, if any (R143). -/
def hitLevel (m : MemSys) (set : Nat) (tag : Long) : Option Nat :=
  if levelHits m set tag 0 then some 0
  else if levelHits m set tag 1 then some 1
  else if levelHits m set tag 2 then some 2
  else if levelHits m set tag 3 then some 3
  else none

/-- The level to fill (R150): the lowest invalid one, else the replacement pointer's, in levels 2 and 3 alone under
HLCK. -/
def chooseLevel (r : Route) (m : MemSys) (set : Nat) : Nat :=
  if !(lineAt m set 0).v then 0
  else if !(lineAt m set 1).v then 1
  else if !(lineAt m set 2).v then 2
  else if !(lineAt m set 3).v then 3
  else if r.ctl.cacr.getLsbD 27 then 2 + m.rp.toNat % 2
  else m.rp.toNat

/-- `msiz` of a transfer of so many bytes (R89). -/
def busSize : Nat → BitVec 2
  | 1 => 1#2
  | 2 => 2#2
  | 16 => 3#2
  | _ => 0#2

/-- Record a transfer on the M-Bus: a read or a write of these bytes (R89). -/
def busNote (m : MemSys) (read : Bool) (sp : Space) (a : Long) (bs : List Byte) : MemSys :=
  { m with bus := m.bus ++ [{ addr := a, siz := busSize bs.length, read := read, sp := sp, data := bs }] }

/-- A write transfer, to the memory behind the M-Bus, or to the emulator's for TT = 10. -/
def busWrite (m : MemSys) (sp : Space) (a : Long) (bs : List Byte) : MemSys :=
  if sp.tt = 2#2 then { busNote m false sp a bs with emem := memWrite m.emem a bs }
  else { busNote m false sp a bs with mem := memWrite m.mem a bs }

/-- One byte behind the M-Bus. -/
def busByte (m : MemSys) (sp : Space) (a : Nat) : Byte :=
  if sp.tt = 2#2 then memByte m.emem a else memByte m.mem a

/-- The address of a line number. -/
def lineAddr (n : BitVec 28) : Long := n ++ 0#4

/-- Mark a transfer on the M-Bus: it never ends when the acknowledge is withheld (R89). -/
def busTouch (r : Route) (m : MemSys) : MemSys := { m with stuck := m.stuck || r.pins.noAck }

/-- The attributes of a cache push (R92): TT = 00, TM = 000. -/
def pushSpace : Space := { tt := 0#2, tm := 0#3 }

/-- Write the push buffer's line to memory (R151), from its first longword on (spec/21_cache_and_local_memory.md
R152). -/
def drainPush (m : MemSys) : MemSys :=
  match m.push with
  | none => m
  | some p => busWrite { m with push := none } pushSpace (lineAddr p.line) (lineBytes p.data 16)

/-- Perform the buffered writes in order (R104). -/
def drainStores (m : MemSys) : List Pending → MemSys
  | [] => { m with stores := [] }
  | p :: t => drainStores (busWrite m p.sp p.addr (beBytes p.len p.data)) t

/-- Empty both buffers (R106). DESIGN CHOICE (log entry 14): the push buffer is written before the store buffer; their
order is not stated (R107). -/
def settle (m : MemSys) : MemSys := drainStores (drainPush m) m.stores

/-- Empty the buffers through the M-Bus (R106). -/
def drain (r : Route) (m : MemSys) : MemSys :=
  if m.stores.isEmpty && m.push.isNone then m else busTouch r (settle m)

/-- A write that goes to the M-Bus: through the store buffer where R103 says so, a full buffer first performing its
oldest entry (R104), the push buffer before it (DESIGN CHOICE, log entry 14); else at once. A line, which no entry holds,
goes at once (a buffer may drain at once, R104). DESIGN CHOICE (log entry 14): a write that goes at once, of whatever size,
first empties both buffers; its order with buffered writes to other regions is not stated (R106, R107). DESIGN CHOICE (log
entry 41): a line written to a noncachable region is no burst that ends the fill buffer's validity (R121,
spec/21_cache_and_local_memory.md R160). -/
def externalWrite (r : Route) (m : MemSys) (sp : Space) (a : Long) (bs : List Byte) : MemSys :=
  if r.ctl.cacr.getLsbD 29 && ((cacheMode r sp a) == 0#2 || (cacheMode r sp a) == 3#2) && decide (bs.length ≤ 4) then
    let e : Pending := { sp := sp, addr := a, len := bs.length, data := beValue bs }
    match m.stores with
    | p :: q :: u :: v :: t =>
      let m1 := busTouch r (drainPush m)
      { busWrite m1 p.sp p.addr (beBytes p.len p.data) with stores := q :: u :: v :: t ++ [e] }
    | l => { m with stores := l ++ [e] }
  else busWrite (busTouch r (settle m)) sp a bs

/-- The bytes of a line in the order in which a line transfer that begins at `a` moves them (R91, Table 3-12). -/
def lineFrom (data : BitVec 128) (a : Long) : List Byte :=
  (lineBytes data 16).drop (a.toNat % 16 / 4 * 4) ++ (lineBytes data 16).take (a.toNat % 16 / 4 * 4)

/-- A line read from the M-Bus, after the buffers are empty (R106 a): the longword at `a` first (R91, R152). The fill
buffer receives it (spec/10_state.md R66), and no longer serves what it held (R160). -/
def busLine (r : Route) (m : MemSys) (sp : Space) (a : Long) : BitVec 128 × MemSys :=
  let m1 := busTouch r (settle m)
  let data := lineOf (readBytes (busByte m1 sp) (a &&& 0xFFFFFFF0#32) 16)
  (data,
    { busNote m1 true sp (a &&& 0xFFFFFFFC#32) (lineFrom data a) with
      fill := { valid := false, line := a.extractLsb' 4 28, data := data } })

/-- Put a line into the cache (R146, R147, R150, R151): a dirty victim moves to the push buffer, which is empty. -/
def placeLine (r : Route) (m : MemSys) (a : Long) (data : BitVec 128) (dirty : Bool) : MemSys :=
  let set := setOf r a
  let lv := chooseLevel r m set
  let old := lineAt m set lv
  let push : Option Push :=
    if old.v && old.d then
      some { line := ((old.tag <<< setBits r.pins.cacheSize) ||| BitVec.ofNat 32 set).setWidth 28, data := old.data }
    else none
  { setLine m set lv { tag := tagOf r a, v := true, d := dirty, data := data } with rp := m.rp + 1#2, push := push }

/-- A read from the M-Bus, after the buffers are empty (R106 a); a line by `busLine`. An instruction fetch reads the
longword that holds the word (R149). -/
def busRead (r : Route) (m : MemSys) (sp : Space) (fetch : Bool) (a : Long) (n : Nat) : List Byte × MemSys :=
  if n = 16 then (lineBytes (busLine r m sp a).1 16, (busLine r m sp a).2)
  else
    let m1 := busTouch r (settle m)
    let a1 := if fetch then a &&& 0xFFFFFFFC#32 else a
    (readBytes (busByte m1 sp) a n,
      busNote m1 true sp a1 (readBytes (busByte m1 sp) a1 (if fetch then 4 else n)))

/-- The fill buffer serves the instruction fetch (R160). DESIGN CHOICE (log entry 58), here and in `fillLoads`: the cache
mode alone says whether the region is noncachable, so a fetch in a cachable region that UCNOIF blocks (R168) does not
use the buffer. -/
def fillServes (r : Route) (m : MemSys) (sp : Space) (a : Long) : Bool :=
  (sp.tt == 0#2) && (cacheMode r sp a).getLsbD 1 && m.fill.valid && (m.fill.line == a.extractLsb' 4 28)

/-- A noncachable instruction fetch loads the fill buffer (R160). -/
def fillLoads (r : Route) (sp : Space) (a : Long) : Bool :=
  (sp.tt == 0#2) && (cacheMode r sp a).getLsbD 1 && r.ctl.cacr.getLsbD 10 && (a.extractLsb' 2 2 != 3#2)

/-- The bytes of an access inside a line. -/
def lineRead (data : BitVec 128) (a : Long) (n : Nat) : List Byte :=
  readBytes (fun i => lineByte data (i % 16)) a n

/-- One aligned read of one, two or four bytes, or of a line (R95, R144, R146, R149, R160, R180, R185). -/
def readPiece (r : Route) (m : MemSys) (sp : Space) (fetch : Bool) (a : Long) (n : Nat) : List Byte × MemSys :=
  if ramClaims r sp a then
    (readBytes (fun i => memByte m.ram (i % 2 ^ localBits r.pins.kramSize)) a n, m)
  else if romClaims r sp a then
    (readBytes (fun i => memByte r.pins.romImage (i % 2 ^ localBits r.pins.kromSize)) a n, m)
  else if usesCache r sp fetch a then
    match hitLevel m (setOf r a) (tagOf r a) with
    | some lv => (lineRead (lineAt m (setOf r a) lv).data a n, m)
    | none =>
      let (data, m1) := busLine r m sp a
      (lineRead data a n, placeLine r m1 a data false)
  else if fetch && fillServes r m sp a then (lineRead m.fill.data a n, m)
  else if fetch && fillLoads r sp a then
    let (data, m1) := busLine r m sp a
    (lineRead data a n, { m1 with fill := { m1.fill with valid := true } })
  else busRead r m sp fetch a n

/-- Write bytes of a cached line. -/
def writeLine (m : MemSys) (set lv : Nat) (a : Long) (bs : List Byte) (dirty : Bool) : MemSys :=
  setLine m set lv
    { lineAt m set lv with data := lineWrite (lineAt m set lv).data (a.toNat % 16) bs, d := dirty }

/-- Write bytes of the local RAM. -/
def ramWrite (size : LocalSize) (ram : List Host.Cell) (a : Long) : List Byte → List Host.Cell
  | [] => ram
  | b :: t => ramWrite size (memSetByte ram (localOff size a) b) (a + 1#32) t

/-- A write to protected space is not performed and leaves an access error pending (R112, R113). -/
def rejectWrite (m : MemSys) : MemSys := { m with writeError := true }

/-- A write that misses in copyback mode (R147): the line is filled, but for a line write, which needs no fill, and the
bytes are written into it. The buffers are emptied first. -/
def writeMiss (r : Route) (m : MemSys) (sp : Space) (a : Long) (bs : List Byte) : MemSys :=
  if bs.length = 16 then placeLine r (drain r m) a (lineOf bs) true
  else
    let (data, m1) := busLine r m sp a
    placeLine r m1 a (lineWrite data (a.toNat % 16) bs) true

/-- One aligned write of one, two or four bytes, or of a line (R95, R145, R147 to R149, R180, R185, R186). -/
def writePiece (r : Route) (m : MemSys) (sp : Space) (a : Long) (bs : List Byte) : MemSys :=
  if ramClaims r sp a then
    if r.ctl.rambar.getLsbD 8 then rejectWrite m
    else { m with ram := ramWrite r.pins.kramSize m.ram a bs }
  else if romClaims r sp a then
    if r.ctl.rombar.getLsbD 8 then rejectWrite m else m
  else if writeProtected r sp a then rejectWrite m
  else if usesCache r sp false a then
    if (cacheMode r sp a).getLsbD 0 then
      match hitLevel m (setOf r a) (tagOf r a) with
      | some lv => writeLine m (setOf r a) lv a bs true
      | none => writeMiss r m sp a bs
    else
      match hitLevel m (setOf r a) (tagOf r a) with
      | some lv => externalWrite r (writeLine m (setOf r a) lv a bs false) sp a bs
      | none => externalWrite r m sp a bs
  else externalWrite r m sp a bs

/-- The aligned pieces of an operand (R85, Table B-1), ascending (D25). -/
def pieces (a : Long) (sz : Size) : List (Long × Nat) :=
  match sz with
  | .b => [(a, 1)]
  | .w => if a.getLsbD 0 then [(a, 1), (a + 1#32, 1)] else [(a, 2)]
  | .l =>
    if a.getLsbD 0 then [(a, 1), (a + 1#32, 2), (a + 3#32, 1)]
    else if a.getLsbD 1 then [(a, 2), (a + 2#32, 2)]
    else [(a, 4)]

/-- An access as the breakpoint logic sees it: a line as its four longwords, each a transfer of its own (DESIGN CHOICE,
log entry 41). -/
def xferBeats (read : Bool) (sp : Space) (a : Long) : List Byte → List Xfer
  | b0 :: b1 :: b2 :: b3 :: b4 :: t =>
    { read := read, sp := sp, addr := a, len := 4, data := beValue [b0, b1, b2, b3] }
      :: xferBeats read sp (a + 4#32) (b4 :: t)
  | bs => [{ read := read, sp := sp, addr := a, len := bs.length, data := beValue bs }]

/-- Record accesses for the breakpoint logic. -/
def note (m : MemSys) (xs : List Xfer) : MemSys := { m with xfers := m.xfers ++ xs }

/-- Read the pieces of an operand in order, noting each. DESIGN CHOICES: each is read once, where imprecise and cachable
regions allow a repetition (R102 c, log entry 57); an access of the debug module is an operand access to UCNOOP, whatever
its TM (R168, log entry 58). -/
def readPieces (r : Route) (m : MemSys) (sp : Space) : List (Long × Nat) → List Byte × MemSys
  | [] => ([], m)
  | (a, n) :: t =>
    let (bs, m1) := readPiece r m sp false a n
    let (cs, m2) := readPieces r (note m1 (xferBeats true sp a bs)) sp t
    (bs ++ cs, m2)

/-- One byte as a read of this kind would return it, with nothing changed: the view that statements about memory
use. -/
def peekByte (r : Route) (m : MemSys) (sp : Space) (fetch : Bool) (a : Long) : Byte :=
  if ramClaims r sp a then memByte m.ram (localOff r.pins.kramSize a)
  else if romClaims r sp a then memByte r.pins.romImage (localOff r.pins.kromSize a)
  else if usesCache r sp fetch a then
    match hitLevel m (setOf r a) (tagOf r a) with
    | some lv => lineByte (lineAt m (setOf r a) lv).data (a.toNat % 16)
    | none => busByte (settle m) sp a.toNat
  else if fetch && fillServes r m sp a then lineByte m.fill.data (a.toNat % 16)
  else busByte (settle m) sp a.toNat

/-- The attributes that instruction fetches may carry (spec/20_memory.md R97): the privilege mode and CSR.MAP may change
with no change of flow, so all are considered. -/
def codeSpaces : List Space := [{ tt := 0#2, tm := 6#3 }, { tt := 0#2, tm := 2#3 }, { tt := 2#2, tm := 6#3 }]

/-- What routes an instruction fetch with these attributes: TT = 10 is emulator mode with CSR.MAP = 1, TT = 00 is not
(R97). -/
def codeRoute (r : Route) (sp : Space) : Route :=
  { r with map := r.map || sp.tt == 2#2, emuMap := sp.tt == 2#2 }

/-- An instruction word as a fetch with these attributes would find it. -/
def peekCode (r : Route) (m : MemSys) (sp : Space) (a : Long) : Word :=
  peekByte (codeRoute r sp) m sp true a ++ peekByte (codeRoute r sp) m sp true (a + 1#32)

/-- The k instruction words from an even address on, as fetches would find them now. -/
def staleWords (r : Route) (m : MemSys) (a : Long) : Nat → List Stale
  | 0 => []
  | k + 1 =>
    codeSpaces.map (fun sp => { sp := sp, addr := a, word := peekCode r m sp a }) ++ staleWords r m (a + 2#32) k

/-- The instruction words that n bytes at an address touch, as fetches would find them now. -/
def wordsUnder (r : Route) (m : MemSys) (a : Long) (n : Nat) : List Stale :=
  staleWords r m (a &&& 0xFFFFFFFE#32) ((n + 1) / 2)

/-- Remember the instruction words that a write of n bytes is about to touch: the prefetch may still hold them
(R120). -/
def rememberStale (r : Route) (m : MemSys) (a : Long) (n : Nat) : MemSys :=
  { m with stale := m.stale ++ wordsUnder r m a n }

/-- Write the pieces of an operand in order, noting each. DESIGN CHOICE (log entry 59): a write that write protection
rejects is noted like any other, so that the address and data breakpoints see it (spec/61_debug_and_bdm.md R656). -/
def writePieces (r : Route) (m : MemSys) (sp : Space) : List (Long × Nat) → List Byte → MemSys
  | [], _ => m
  | (a, n) :: t, bs =>
    let m1 := writePiece r (rememberStale r m a n) sp a (bs.take n)
    writePieces r (note m1 (xferBeats false sp a (bs.take n))) sp t (bs.drop n)

/-- Read an operand (R81, R85). -/
def readOperand (r : Route) (m : MemSys) (sp : Space) (a : Long) (sz : Size) : Long × MemSys :=
  let (bs, m1) := readPieces r m sp (pieces a sz)
  (beValue bs, m1)

/-- Write an operand (R81, R85). -/
def writeOperand (r : Route) (m : MemSys) (sp : Space) (a : Long) (sz : Size) (v : Long) : MemSys :=
  writePieces r m sp (pieces a sz) (beBytes sz.bytes v)

/-- The old words that a fetch may still find (R120). -/
def oldWords (m : MemSys) (sp : Space) (a : Long) : List Word :=
  (m.stale.filter (fun e => e.sp == sp && e.addr == a)).map (fun e => e.word)

/-- The words that buffered stores will replace, each as a fetch finds it after the stores before its own, `done`, have
been performed. -/
def pendingWords (r : Route) (m : MemSys) (done : List Pending) : List Pending → List Stale
  | [] => []
  | p :: t => wordsUnder r { m with stores := done } p.addr p.len ++ pendingWords r m (done ++ [p]) t

/-- A fetch of this word is served by neither a local memory nor the cache. -/
def reachesBus (r : Route) (e : Stale) : Bool :=
  let v := codeRoute r e.sp
  !(ramClaims v e.sp e.addr || romClaims v e.sp e.addr || usesCache v e.sp true e.addr)

/-- The old words that a fetch begun after a change of flow may find: nothing fetched before is left (R74), so they are
what stands under a store that has not been performed yet, with some or none of the stores before it performed (R120,
D24). A local memory is written at once (R103), and a fetch through the cache finds the line that the store updated or
reads one after the store was performed (R105): both are new after the change of flow (spec/70_reset_and_hazards.md
R704). DESIGN CHOICE (log entry 16): a line in the push buffer counts as written. -/
def stalePending (r : Route) (m : MemSys) : List Stale := (pendingWords r m [] m.stores).filter (reachesBus r)

/-- Choose between the new word and the old ones. -/
def chooseWord (new : Word) (olds : List Word) (k : Nat) : Word :=
  match k % (olds.length + 1) with
  | 0 => new
  | n + 1 => olds.getD n new

/-- Fetch an instruction word as code (R97); where stores have touched it that were not performed before the last change
of flow, the new word or an old one, as the free value n says (R120). -/
def fetchWord (r : Route) (m : MemSys) (sp : Space) (a : Long) (n : Nat) : Word × MemSys :=
  let (bs, m1) := readPiece r m sp true a 2
  let new : Word := bs.getD 0 0#8 ++ bs.getD 1 0#8
  let olds := oldWords m sp a
  (if olds.isEmpty then new else chooseWord new olds (Config.staleChoice n), m1)

/-- CPUSHL's operation on the cache (R170). -/
def cpushLine (r : Route) (m : MemSys) (an : Long) : MemSys :=
  let k := setBits r.pins.cacheSize
  let set := (an.toNat / 16) % 2 ^ k
  let lv := an.toNat % 4
  let l := lineAt m set lv
  let m1 : MemSys :=
    if l.v && l.d then
      { m with push := some { line := ((l.tag <<< k) ||| BitVec.ofNat 32 set).setWidth 28, data := l.data } }
    else m
  let v' := if r.ctl.cacr.getLsbD 28 then l.v else false
  if r.pins.cacheSize == .absent then m else setLine m1 set lv { l with v := v', d := false }

/-- CACR.CINVA: every line loses V and D, the fill buffer its validity (R158, R160). DESIGN
CHOICE (log entry 37): the replacement pointer, which is not said to be reset, is kept. -/
def invalidateCache (m : MemSys) : MemSys :=
  { m with
    cache := (m.cache.map (fun c => (c.1, { c.2 with v := false, d := false }))).filter (fun c => c.2 != Line.empty)
    fill := { m.fill with valid := false } }

end Sys2Proof.Machine
end

