-- ==== Sys2Proof/Machine/Ops.lean ====
section
/-! DEFINITION. Sys2Proof/Machine/Ops.lean: the named operations over registers, status, memory and the trace port, and
taking an exception (spec/60_exceptions.md R505) with the return from one (spec/43_program_control.md R396). All are
total: what cannot go on is a state (halted, stuck), not a missing answer. -/

namespace Sys2Proof.Machine

/-! ### Registers (spec/10_state.md R21 to R26) -/

/-- D[r] (R21). -/
def State.getD (s : State) (r : Reg) : Long := s.cpu.d[r.toNat]'r.isLt

/-- A[r] (R23, R25). -/
def State.getA (s : State) (r : Reg) : Long := s.cpu.a[r.toNat]'r.isLt

/-- D[r] <- v. -/
def State.setD (s : State) (r : Reg) (v : Long) : State :=
  { s with cpu := { s.cpu with d := s.cpu.d.set r.toNat v r.isLt } }

/-- A[r] <- v. -/
def State.setA (s : State) (r : Reg) (v : Long) : State :=
  { s with cpu := { s.cpu with a := s.cpu.a.set r.toNat v r.isLt } }

/-- The register number of A7, the stack pointer (R25). -/
def spReg : Reg := 7#3

/-- SP (R25). -/
def State.sp (s : State) : Long := s.getA spReg

/-- SP <- v. -/
def State.setSp (s : State) (v : Long) : State := s.setA spReg v

/-- R[k] (spec/00_scope.md R9): D for 0 to 7, A for 8 to 15. -/
def State.getR (s : State) (k : RegX) : Long :=
  if k.getLsbD 3 then s.getA (k.extractLsb' 0 3) else s.getD (k.extractLsb' 0 3)

/-- R[k] <- v. -/
def State.setR (s : State) (k : RegX) (v : Long) : State :=
  if k.getLsbD 3 then s.setA (k.extractLsb' 0 3) v else s.setD (k.extractLsb' 0 3) v

/-- PC <- v. -/
def State.setPc (s : State) (v : Long) : State := { s with cpu := { s.cpu with pc := v } }

/-- The address after an instruction with n extension words (R27). -/
def State.nextPc (s : State) (n : Nat) : Long := s.cpu.pc + 2#32 + BitVec.ofNat 32 (2 * n)

/-- PC <- next_pc (R27). -/
def State.advance (s : State) (n : Nat) : State := s.setPc (s.nextPc n)

/-! ### Status register (R28 to R34) -/

/-- The implemented bits of SR (R28): T, S, M, I, P, X, N, Z, V, C. -/
def srMask : Word := 0xB79F#16

/-- SR <- v, the reserved bits staying zero (R28, R46). -/
def State.setSr (s : State) (v : Word) : State := { s with cpu := { s.cpu with sr := v &&& srMask } }

/-- SR.T (R29). -/
def State.trace (s : State) : Bool := s.cpu.sr.getLsbD 15

/-- SR.S (R30). -/
def State.super (s : State) : Bool := s.cpu.sr.getLsbD 13

/-- SR.I (R32). -/
def State.ipl (s : State) : BitVec 3 := s.cpu.sr.extractLsb' 8 3

/-- The CCR as a byte (R33). -/
def State.ccr (s : State) : Byte := s.cpu.sr.extractLsb' 0 8

/-- CCR <- v: SR[15:8] keep their value, bits 6 and 5 stay zero (R34). -/
def State.setCcr (s : State) (v : Byte) : State :=
  s.setSr ((s.cpu.sr &&& 0xFF00#16) ||| v.setWidth 16)

/-! ### The free values' counter -/

/-- Draw: the number of this draw is the present `free`; the next draw has another. -/
def State.drawn (s : State) : State := { s with free := s.free + 1 }

/-! ### The trace port (spec/61_debug_and_bdm.md R580 to R594) -/

/-- Put an event on the port, unless CSR.PCD stops it (R581). -/
def State.event (s : State) (e : PortEvent) : State :=
  if s.dbg.csr.getLsbD 17 then s else { s with port := s.port ++ [e] }

/-- What DDATA carries while it shows no item (R583): the breakpoint status, CSR[31:28] (R651). -/
def State.ddataIdle (s : State) : BitVec 4 := s.dbg.csr.extractLsb' 28 4

/-- emit PST = v. -/
def State.pst (s : State) (v : BitVec 4) : State := s.event { pst := v, status := s.ddataIdle, dd := [] }

/-- The low nibbles of a value, least significant first (R583). -/
def nibbles : Nat → Long → List (BitVec 4)
  | 0, _ => []
  | n + 1, v => v.extractLsb' 0 4 :: nibbles n (v >>> 4)

/-- An item of n bytes: the marker and its nibbles (R583). -/
def State.item (s : State) (n : Nat) (v : Long) : State :=
  s.event { pst := BitVec.ofNat 4 (7 + n), status := s.ddataIdle, dd := nibbles (2 * n) v }

/-- The branch target of a variant change of flow, as CSR.BTB says (R587). -/
def State.target (s : State) (t : Long) : State :=
  match (s.dbg.csr.extractLsb' 8 2).toNat with
  | 0 => s
  | 1 => s.item 2 t
  | 2 => s.item 3 t
  | _ => s.item 4 t

/-! ### Memory (spec/20_memory.md R81, R96, R97) -/

/-- In emulator mode with CSR.MAP = 1 (spec/61_debug_and_bdm.md R660). -/
def State.emuMap (s : State) : Bool := s.ev.emulator && s.dbg.csr.getLsbD 15

/-- What routes an access now. -/
def State.route (s : State) : Route :=
  { ctl := s.ctl, pins := s.pins, map := s.dbg.csr.getLsbD 15, emuMap := s.emuMap }

/-- The attributes of an operand access (R96). -/
def State.dataSpace (s : State) : Space :=
  if s.emuMap then { tt := 2#2, tm := 5#3 }
  else if s.super then { tt := 0#2, tm := 5#3 } else { tt := 0#2, tm := 1#3 }

/-- The attributes of an instruction fetch (R97). -/
def State.codeSpace (s : State) : Space :=
  if s.emuMap then { tt := 2#2, tm := 6#3 }
  else if s.super then { tt := 0#2, tm := 6#3 } else { tt := 0#2, tm := 2#3 }

/-- Replace the memory system. -/
def State.setMs (s : State) (m : MemSys) : State := { s with ms := m }

/-- Replace the run state and pending events. -/
def State.setEv (s : State) (e : Ev) : State := { s with ev := e }

/-- MemRead without a capture on DDATA: the value, and the state after. -/
def State.loadQuiet (s : State) (a : Long) (sz : Size) : Long × State :=
  let (v, m) := readOperand s.route s.ms s.dataSpace a sz
  (v, s.setMs m)

/-- Show an operand that was read, when CSR.DDC captures reads (R584). -/
def State.showRead (s : State) (sz : Size) (v : Long) : State :=
  if s.dbg.csr.getLsbD 12 then s.item sz.bytes v else s

/-- Show an operand that is written, when CSR.DDC captures writes (R584). -/
def State.showWrite (s : State) (sz : Size) (v : Long) : State :=
  if s.dbg.csr.getLsbD 11 then s.item sz.bytes v else s

/-- MemRead (R81, R96). -/
def State.load (s : State) (a : Long) (sz : Size) : Long × State :=
  ((s.loadQuiet a sz).1, (s.loadQuiet a sz).2.showRead sz (s.loadQuiet a sz).1)

/-- MemWrite without a capture on DDATA. -/
def State.storeQuiet (s : State) (a : Long) (sz : Size) (v : Long) : State :=
  s.setMs (writeOperand s.route s.ms s.dataSpace a sz v)

/-- MemWrite (R81, R96). DESIGN CHOICE (log entry 59): a write that write protection rejects is shown on DDATA like one
that is performed (R584). -/
def State.store (s : State) (a : Long) (sz : Size) (v : Long) : State :=
  (s.storeQuiet a sz v).showWrite sz v

/-- The longwords of a line. -/
def longsOf : List Byte → List Long
  | b0 :: b1 :: b2 :: b3 :: t => beValue [b0, b1, b2, b3] :: longsOf t
  | _ => []

/-- Read a line as four longwords, in one access, without a capture (spec/40_data_movement.md R277). -/
def State.loadLine (s : State) (a : Long) : List Long × State :=
  let (bs, m) := readPieces s.route s.ms s.dataSpace [(a, 16)]
  (longsOf bs, s.setMs m)

/-- Write four longwords as a line, in one access, without a capture (spec/40_data_movement.md R277). -/
def State.storeLine (s : State) (a : Long) (vs : List Long) : State :=
  s.setMs (writePieces s.route s.ms s.dataSpace [(a, 16)] (vs.flatMap (beBytes 4)))

/-- Empty the store and push buffers (R106). -/
def State.drainBuffers (s : State) : State := s.setMs (drain s.route s.ms)

/-- Discard the prefetched instructions, as a change of flow does (R74, R381): every fetch is new but for the words under
a store that is still in the store buffer, which are new or as they stand before that store is performed, unless a local
memory or the cache serves the fetch (R120, spec/70_reset_and_hazards.md R704). -/
def State.flush (s : State) : State := s.setMs { s.ms with stale := stalePending s.route s.ms }

/-- Discard every prefetched instruction, as the reset does (R74). -/
def State.emptyPrefetch (s : State) : State := s.setMs { s.ms with stale := [] }

/-- The byte a program would read at an address now, as data: the view of memory for statements. -/
def State.peek (s : State) (a : Long) : Byte := peekByte s.route s.ms s.dataSpace false a

/-! ### Halting (spec/61_debug_and_bdm.md R596) -/

/-- CSR[27:24] <- the bit of a halt source alone (R596). -/
def State.setHaltSource (s : State) (n : Nat) : State :=
  { s with dbg := { s.dbg with csr := (s.dbg.csr &&& 0xF0FFFFFF#32) ||| (1#32 <<< n) } }

/-- Enter the halted state: buffers empty (R106), PST = $F. -/
def State.enterHalted (s : State) : State :=
  let s1 := s.drainBuffers
  (s1.setEv { s1.ev with run := .halted }).pst 0xF#4

/-- Enter the halted state for a halt source (R596): its bit alone in the CSR, the halt requests done with. -/
def State.haltFor (s : State) (bit : Nat) : State :=
  ((s.setEv { s.ev with haltTrg := false, haltBkpt := false }).setHaltSource bit).enterHalted

/-- Fault-on-fault (spec/60_exceptions.md R550): halted until reset, CSR.FOF set, the PC unspecified. -/
def State.faultOnFault (s : State) : State :=
  let s1 := (s.setHaltSource 27).enterHalted
  let s2 := s1.setEv { s1.ev with faultOnFault := true, inException := true }
  (s2.setPc (Config.faultPc s2.free)).drawn

/-! ### Taking an exception (spec/60_exceptions.md R505) -/

/-- What an exception entry needs to know. -/
structure Entry where
  /-- The PC that the frame saves: fault or next (R503). -/
  stackedPc : Long
  /-- The fault status (R508). -/
  fs : BitVec 4
  /-- The vector number (R501); an interrupt's comes from the acknowledge cycle. -/
  vector : Byte
  /-- The level of an interrupt. -/
  irq : Option (BitVec 3)
  /-- The entry enters emulator mode. -/
  emulator : Bool
deriving DecidableEq, Repr

/-- The acknowledge cycle of a level (spec/20_memory.md R93): a byte read at $FFFF_FFE0 + 4 L with TT = 3, TM = L,
that a local memory may claim; else the host answers. The breakpoints see it (spec/61_debug_and_bdm.md R656). -/
def State.iackCycle (s : State) (l : BitVec 3) : Byte × State :=
  let a : Long := 0xFFFFFFE0#32 + (l.setWidth 32 <<< 2)
  let sp : Space := { tt := 3#2, tm := l }
  let (b, m) : Byte × MemSys :=
    if ramClaims s.route sp a || romClaims s.route sp a then
      ((readPiece s.route s.ms sp false a 1).1.getD 0 0#8, s.ms)
    else
      (s.pins.iack[l.toNat]'l.isLt,
        busNote (busTouch s.route s.ms) true sp a [s.pins.iack[l.toNat]'l.isLt])
  (b, s.setMs (note m (xferBeats true sp a [b])))

/-- The SR of the handler: S set, T clear; an interrupt clears M and sets the mask to its level. -/
def entrySr (sr : Word) (irq : Option (BitVec 3)) : Word :=
  let v := (sr ||| 0x2000#16) &&& 0x7FFF#16
  match irq with
  | none => v
  | some l => (v &&& 0xE8FF#16) ||| (l.setWidth 16 <<< 8)

/-- The address of the frame (R507): A7 - 8 with bits 1 and 0 cleared. -/
def frameAddr (a7 : Long) : Long := (a7 - 8#32) &&& 0xFFFFFFFC#32

/-- The format field (R507): 4 + A7[1:0]. -/
def frameFormat (a7 : Long) : BitVec 4 := 4#4 + (a7.extractLsb' 0 2).setWidth 4

/-- The first longword of the frame (R506). -/
def frameWord (a7 : Long) (fs : BitVec 4) (vector : Byte) (sr : Word) : Long :=
  frameFormat a7 ++ fs.extractLsb' 2 2 ++ vector ++ fs.extractLsb' 0 2 ++ sr

/-- Step 1 of R505: buffers empty, the SR of the handler, emulator mode where the exception enters it. -/
def State.entryMode (s : State) (e : Entry) : State :=
  let s1 := s.drainBuffers
  let s2 := s1.setSr (entrySr s.cpu.sr e.irq)
  s2.setEv { s2.ev with emulator := s2.ev.emulator || e.emulator, inException := true }

/-- Step 2 of R505: the vector number. -/
def State.entryVector (s : State) (e : Entry) : Byte × State :=
  match e.irq with
  | some l => s.iackCycle l
  | none => (e.vector, s)

/-- Step 3 of R505: the two longwords of the frame, ascending (R511). -/
def State.entryFrame (s : State) (e : Entry) (v : Byte) (sr : Word) : State :=
  let fp := frameAddr s.sp
  ((s.store fp .l (frameWord s.sp e.fs v sr)).store (fp + 4#32) .l e.stackedPc)

/-- Step 4 of R505: A7, the handler's address, and the handler's first instruction to come. -/
def State.entryVectorFetch (s : State) (v : Byte) : State :=
  let s1 := s.setSp (frameAddr s.sp)
  let (h, s2) := s1.load (s1.ctl.vbr + (v.setWidth 32 <<< 2)) .l
  if h.getLsbD 0 then s2.faultOnFault
  else
    let s3 := (s2.setPc h).flush
    let s4 := s3.setEv { s3.ev with inhibitInt := true, inException := false }
    (s4.pst 5#4).target h

/-- Take an exception (R505): the whole entry. A frame write into protected space is a fault-on-fault (R550), which
leaves A7 alone. DESIGN CHOICE (log entry 26): the second longword of the frame is written even if the first was
rejected. -/
def State.takeException (s : State) (e : Entry) : State :=
  if s.ev.inException then s.faultOnFault
  else
    let s1 := (s.entryMode e).pst (if e.emulator then 0xD#4 else 0xC#4)
    let (v, s2) := s1.entryVector e
    let s3 := (s2.setMs { s2.ms with writeError := false }).entryFrame e v s.cpu.sr
    if s3.ms.writeError then s3.faultOnFault
    else (s3.setMs { s3.ms with writeError := s2.ms.writeError }).entryVectorFetch v

/-- An exception an instruction raises with the address of its own operation word stacked (R503), FS = 0. -/
def State.raiseFault (s : State) (vector : Byte) : State :=
  s.takeException { stackedPc := s.cpu.pc, fs := 0#4, vector := vector, irq := none, emulator := false }

/-- An exception that stacks another address, FS = 0. -/
def State.raiseNext (s : State) (vector : Byte) (next : Long) : State :=
  s.takeException { stackedPc := next, fs := 0#4, vector := vector, irq := none, emulator := false }

/-- The fault status of an address error: one of the encodings of Table 4-4, which one is not given (R516, V2). -/
def addressFs (n : BitVec 3) : BitVec 4 :=
  match n.toNat with
  | 0 => 4#4
  | 1 => 8#4
  | 2 => 9#4
  | 3 => 12#4
  | _ => 0#4

/-- Address error (R516): vector 3, the stacked PC that of the instruction at `pc`, FS unspecified. -/
def State.addressErrorAt (s : State) (pc : Long) : State :=
  s.drawn.takeException
    { stackedPc := pc, fs := addressFs (Config.addressErrorFs s.free), vector := 3#8, irq := none,
      emulator := false }

/-- Address error of the instruction being executed. -/
def State.addressError (s : State) : State := s.addressErrorAt s.cpu.pc

/-- Illegal instruction (R517). -/
def State.illegalInstruction (s : State) : State := s.raiseFault 4#8

/-- Divide by zero (R526). -/
def State.divideByZero (s : State) : State := s.raiseFault 5#8

/-- Privilege violation (R520). -/
def State.privilegeViolation (s : State) : State := s.raiseFault 8#8

/-- Unimplemented line-A operation word (R518). -/
def State.lineAException (s : State) : State := s.raiseFault 10#8

/-- Unimplemented line-F operation word (R519). -/
def State.lineFException (s : State) : State := s.raiseFault 11#8

/-- Format error (R524). -/
def State.formatError (s : State) : State := s.raiseFault 14#8

/-- Non-supported instruction (R522). -/
def State.nonSupported (s : State) : State := s.raiseFault 61#8

/-- Trace (R525), in emulator mode with CSR.TRC. -/
def State.traceException (s : State) (next : Long) : State :=
  s.takeException
    { stackedPc := next, fs := 0#4, vector := 9#8, irq := none, emulator := s.dbg.csr.getLsbD 14 }

/-- Access error (R515): the pending write error is taken, FS = 1001. -/
def State.accessError (s : State) (next : Long) : State :=
  (s.setMs { s.ms with writeError := false }).takeException
    { stackedPc := next, fs := 9#4, vector := 2#8, irq := none, emulator := false }

/-- Debug interrupt (R523): emulator mode, M and I as they are. -/
def State.debugInterrupt (s : State) : State :=
  (s.setEv { s.ev with debugInt := false, run := .running }).takeException
    { stackedPc := s.cpu.pc, fs := 0#4, vector := 12#8, irq := none, emulator := true }

/-- Interrupt of a level (R542). -/
def State.interrupt (s : State) (l : BitVec 3) : State :=
  (s.setEv { s.ev with run := .running, nmiTaken := s.ev.nmiTaken || l == 7#3 }).takeException
    { stackedPc := s.cpu.pc, fs := 0#4, vector := 0#8, irq := some l, emulator := false }

/-! ### Changes of flow (spec/43_program_control.md R380, R381) -/

/-- Continue at a target known to be even: the prefetched instructions are discarded. -/
def State.jumpTo (s : State) (t : Long) : State := (s.setPc t).flush

/-! ### Return from exception (spec/43_program_control.md R396) -/

/-- The entry into user mode shown on the port (spec/61_debug_and_bdm.md R588). -/
def State.showUser (old s : State) : State := if old.super && !s.super then s.pst 3#4 else s

/-- The format field of a frame is 4, 5, 6 or 7. -/
def formatOk (w : Long) : Bool := w.extractLsb' 30 2 == 1#2

/-- Return from exception, in supervisor mode: validate the format, reload SR, fetch the PC, adjust A7, leave emulator
mode, continue. Both reads are supervisor data accesses (D38). DESIGN CHOICE (log entry 54): what the trace port shows
of an RTE that faults: nothing before a format error; all but the mark of the branch before an odd PC. -/
def State.returnFromException (s : State) : State :=
  let s0 := (s.drainBuffers).pst 7#4
  let (w, s1) := s0.load s0.sp .l
  if !formatOk w then { s1 with port := s.port }.formatError
  else
    let (t, s2) := s1.loadQuiet (s1.sp + 4#32) .l
    let s3 := s2.setSr (w.extractLsb' 0 16)
    let s4 := (State.showUser s s3).showRead .l t
    let s5 := s4.setSp (s4.sp + 4#32 + (w.extractLsb' 28 4).setWidth 32)
    let s6 := s5.setEv { s5.ev with emulator := false, inhibitBp := s5.ev.inhibitBp || s5.ev.emulator }
    if t.getLsbD 0 then s6.addressErrorAt s.cpu.pc
    else ((s6.jumpTo t).pst 5#4).target t

end Sys2Proof.Machine
end

