-- ==== Sys2Proof/Machine/Operands.lean ====
section
/-! DEFINITION. Sys2Proof/Machine/Operands.lean: effective-address evaluation (spec/30_encoding.md R210, R215 to R232). An
operand is first located (its address computed, its postincrement or predecrement applied), then read or written,
so that a read-modify-write operand is located once (R230). -/

namespace Sys2Proof.Machine

/-- An index word that raises the address error (R210): full format, word index, or scale 8. -/
def badIndex (xw : Word) : Bool := xw.getLsbD 8 || !xw.getLsbD 11 || (xw.extractLsb' 9 2 == 3#2)

/-- The effective address raises the address error (R210). -/
def eaBad : Ea → Bool
  | .idx _ xw => badIndex xw
  | .pcIdx xw => badIndex xw
  | _ => false

/-- Xi * SF + d8 (R210, R223). -/
def State.index (s : State) (xw : Word) : Long :=
  (s.getR (xw.extractLsb' 12 4) <<< (xw.extractLsb' 9 2).toNat) + (xw.extractLsb' 0 8).signExtend 32

/-- Where an operand is. -/
inductive Loc where
  | dreg (r : Reg)
  | areg (r : Reg)
  | mem (addr : Long)
  | imm (v : Long)
deriving DecidableEq, Repr

/-- Locate an operand (R215 to R227): the side effect of (An)+ and -(An) is applied. The base of the PC-relative modes
is the address of the extension word, PC + 2 (R222). -/
def State.locate (s : State) (ea : Ea) (sz : Size) : Loc × State :=
  match ea with
  | .dn r => (.dreg r, s)
  | .an r => (.areg r, s)
  | .ind r => (.mem (s.getA r), s)
  | .postinc r => (.mem (s.getA r), s.setA r (s.getA r + BitVec.ofNat 32 sz.bytes))
  | .predec r =>
    (.mem (s.getA r - BitVec.ofNat 32 sz.bytes), s.setA r (s.getA r - BitVec.ofNat 32 sz.bytes))
  | .disp r d => (.mem (s.getA r + d.signExtend 32), s)
  | .idx r xw => (.mem (s.getA r + s.index xw), s)
  | .absW w => (.mem (w.signExtend 32), s)
  | .absL v => (.mem v, s)
  | .pcDisp d => (.mem (s.cpu.pc + 2#32 + d.signExtend 32), s)
  | .pcIdx xw => (.mem (s.cpu.pc + 2#32 + s.index xw), s)
  | .immW v => (.imm (v.setWidth 32), s)
  | .immL v => (.imm v, s)

/-- The low bytes of a value that an operand size keeps, zero above (R8). -/
def sized (sz : Size) (v : Long) : Long :=
  match sz with
  | .b => (v.extractLsb' 0 8).setWidth 32
  | .w => (v.extractLsb' 0 16).setWidth 32
  | .l => v

/-- Read a located operand (R216, R228); the value has zeros above the size. -/
def State.readLoc (s : State) (loc : Loc) (sz : Size) : Long × State :=
  match loc with
  | .dreg r => (sized sz (s.getD r), s)
  | .areg r => (sized sz (s.getA r), s)
  | .mem a => s.load a sz
  | .imm v => (sized sz v, s)

/-- A register with its low bytes replaced (R22). -/
def merge (sz : Size) (old v : Long) : Long :=
  match sz with
  | .b => old.extractLsb' 8 24 ++ v.extractLsb' 0 8
  | .w => old.extractLsb' 16 16 ++ v.extractLsb' 0 16
  | .l => v

/-- The value an address register takes: a word is sign-extended (R24). -/
def extendA (sz : Size) (v : Long) : Long :=
  match sz with
  | .w => (v.extractLsb' 0 16).signExtend 32
  | _ => v

/-- Write a located operand (R229). -/
def State.writeLoc (s : State) (loc : Loc) (sz : Size) (v : Long) : State :=
  match loc with
  | .dreg r => s.setD r (merge sz (s.getD r) v)
  | .areg r => s.setA r (extendA sz v)
  | .mem a => s.store a sz v
  | .imm _ => s

/-- ea_read (R228): locate and read. -/
def State.eaRead (s : State) (ea : Ea) (sz : Size) : Long × State :=
  (s.locate ea sz).2.readLoc (s.locate ea sz).1 sz

/-- ea_write (R229): locate and write. -/
def State.eaWrite (s : State) (ea : Ea) (sz : Size) (v : Long) : State :=
  (s.locate ea sz).2.writeLoc (s.locate ea sz).1 sz v

/-- The address of a located operand; registers and immediates have none. -/
def Loc.addr : Loc → Long
  | .mem a => a
  | _ => 0#32

/-- ea_addr of a control addressing mode (R215): no memory access, no side effect. -/
def State.eaAddr (s : State) (ea : Ea) : Long := (s.locate ea .l).1.addr

/-- Index words are checked before anything else (R231): a bad one raises the address error of this instruction. -/
def checked (s : State) (ea : Ea) (k : Res) : Res := if eaBad ea then .next s.addressError else k

/-- Reserved bits in an extension word: the operation is undefined (R202, D8). -/
def extChecked (ok : Bool) (k : Res) : Res := if ok then k else .refused .undefinedExtensionWord

/-- A privileged instruction (spec/60_exceptions.md R520, R560). -/
def privileged (s : State) (k : Res) : Res := if s.super then k else .next s.privilegeViolation

/-- An instruction of the MAC unit (spec/44_mul_div_mac.md R420). -/
def withMac (s : State) (k : Res) : Res := if s.pins.hasMac then k else .next s.nonSupported

/-- An instruction of the divide unit (R420). -/
def withDiv (s : State) (k : Res) : Res := if s.pins.hasDiv then k else .next s.nonSupported

end Sys2Proof.Machine
end

