-- ==== Sys2Proof/Machine/Flags.lean ====
section
/-! DEFINITION. Sys2Proof/Machine/Flags.lean: the condition codes (spec/10_state.md R33), their computation
(spec/41_integer_arithmetic.md R300, spec/40_data_movement.md R260, spec/42_logical_shift_bit.md R340, R355, R365) and the
condition tests (spec/30_encoding.md R236). -/

namespace Sys2Proof.Machine

/-- The five flags that instructions compute. -/
structure Flags where
  x : Bool
  n : Bool
  z : Bool
  v : Bool
  c : Bool
deriving DecidableEq, Repr

/-- The flags of a status register. -/
def flagsOf (sr : Word) : Flags :=
  { x := sr.getLsbD 4, n := sr.getLsbD 3, z := sr.getLsbD 2, v := sr.getLsbD 1, c := sr.getLsbD 0 }

def State.flags (s : State) : Flags := flagsOf s.cpu.sr

/-- One bit as a word. -/
def bitWord (b : Bool) : Word := if b then 1#16 else 0#16

/-- The five flags in SR[4:0]. -/
def flagBits (f : Flags) : Word :=
  bitWord f.x <<< 4 ||| bitWord f.n <<< 3 ||| bitWord f.z <<< 2 ||| bitWord f.v <<< 1 ||| bitWord f.c

/-- A status register with the five flags replaced. -/
def withFlags (sr : Word) (f : Flags) : Word := (sr &&& 0xFFE0#16) ||| flagBits f

/-- Commit the five flags: nothing else of SR changes. -/
def State.setFlags (s : State) (f : Flags) : State := { s with cpu := { s.cpu with sr := withFlags s.cpu.sr f } }

/-- The sign bit of a value of an operand size. -/
def signBit (sz : Size) (v : Long) : Bool := v.getLsbD (8 * sz.bytes - 1)

/-- The value is zero in an operand size. -/
def isZero (sz : Size) (v : Long) : Bool := sized sz v == 0#32

/-- set_NZ (R260), logic_flags (R340): N and Z from the value, V and C clear, X as it was. -/
def nzFlags (old : Flags) (sz : Size) (v : Long) : Flags :=
  { x := old.x, n := signBit sz v, z := isZero sz v, v := false, c := false }

/-- A carry as a number. -/
def carryNat (x : Bool) : Nat := if x then 1 else 0

/-- The sum of add_flags (R300). -/
def addResult (s d : Long) (x : Bool) : Long := s + d + BitVec.ofNat 32 (carryNat x)

/-- add_flags (R300): X is a copy of C. -/
def addFlags (s d : Long) (x : Bool) : Flags :=
  let r := addResult s d x
  let c := decide (2 ^ 32 ≤ s.toNat + d.toNat + carryNat x)
  { x := c, n := r.getLsbD 31, z := r == 0#32, c := c
    v := (s.getLsbD 31 == d.getLsbD 31) && (r.getLsbD 31 != d.getLsbD 31) }

/-- The difference d - s - x of sub_flags (R300). -/
def subResult (s d : Long) (x : Bool) : Long := d - s - BitVec.ofNat 32 (carryNat x)

/-- sub_flags (R300): X is a copy of C. -/
def subFlags (s d : Long) (x : Bool) : Flags :=
  let r := subResult s d x
  let c := decide (d.toNat < s.toNat + carryNat x)
  { x := c, n := r.getLsbD 31, z := r == 0#32, c := c
    v := (s.getLsbD 31 != d.getLsbD 31) && (r.getLsbD 31 != d.getLsbD 31) }

/-- Compare: the flags of the subtraction, X as it was (R313). -/
def keepX (old new : Flags) : Flags := { new with x := old.x }

/-- The extended forms: Z is cleared by a non-zero result and else kept (R306, R312, R317). -/
def stickyZ (old new : Flags) : Flags := { new with z := old.z && new.z }

/-- Z alone (R365). -/
def onlyZ (old : Flags) (z : Bool) : Flags := { old with z := z }

/-! ### Shifts (R355 to R359) -/

/-- The count of the immediate form: 0 encodes 8. -/
def quick (q : Reg) : Nat := if q = 0#3 then 8 else q.toNat

/-- The count of the register form: modulo 64. -/
def regCount (v : Long) : Nat := v.toNat % 64

/-- A left shift (R356, R358). -/
def shiftLeft (d : Long) (n : Nat) : Long := if 32 ≤ n then 0#32 else d <<< n

/-- The last bit a left shift moves out, for a count other than 0. -/
def leftOut (d : Long) (n : Nat) : Bool := if n ≤ 32 then d.getLsbD (32 - n) else false

/-- A logical right shift (R359). -/
def shiftRightL (d : Long) (n : Nat) : Long := if 32 ≤ n then 0#32 else d >>> n

/-- The last bit a logical right shift moves out. -/
def rightOutL (d : Long) (n : Nat) : Bool := if n ≤ 32 then d.getLsbD (n - 1) else false

/-- An arithmetic right shift (R357). -/
def shiftRightA (d : Long) (n : Nat) : Long :=
  if 32 ≤ n then (if d.getLsbD 31 then 0xFFFFFFFF#32 else 0#32) else d.sshiftRight n

/-- The last bit an arithmetic right shift moves out. -/
def rightOutA (d : Long) (n : Nat) : Bool := if n ≤ 32 then d.getLsbD (n - 1) else d.getLsbD 31

/-- The flags of a shift: a count of 0 clears C and keeps X; else both are the last bit out; V clear. -/
def shiftFlags (old : Flags) (n : Nat) (out : Bool) (r : Long) : Flags :=
  { x := if n = 0 then old.x else out, n := r.getLsbD 31, z := r == 0#32, v := false
    c := if n = 0 then false else out }

/-! ### Condition tests (R236) -/

/-- cond(cc). -/
def cond (f : Flags) (cc : BitVec 4) : Bool :=
  match cc.toNat with
  | 0 => true
  | 1 => false
  | 2 => !f.c && !f.z
  | 3 => f.c || f.z
  | 4 => !f.c
  | 5 => f.c
  | 6 => !f.z
  | 7 => f.z
  | 8 => !f.v
  | 9 => f.v
  | 10 => !f.n
  | 11 => f.n
  | 12 => f.n == f.v
  | 13 => f.n != f.v
  | 14 => !f.z && (f.n == f.v)
  | _ => f.z || (f.n != f.v)

end Sys2Proof.Machine
end

