-- ==== Sys2Proof/Machine/Arith.lean ====
section
/-! DEFINITION. Sys2Proof/Machine/Arith.lean: integer arithmetic (spec/41_integer_arithmetic.md R300 to R321). -/

namespace Sys2Proof.Machine

open Dec (eaLen)

/-- A register-to-register or immediate operation on Dx: the new value, the flags, PC + 2 (1 + n). -/
def onD (s : State) (dx : Reg) (r : Long) (f : Flags) (n : Nat) : Res :=
  .next ((((s.pst 1#4).setFlags f).setD dx r).advance n)

/-- A longword source read, then an operation on Dx (R301, R307, R341, R344). -/
def eaToD (ea : Ea) (dx : Reg) (s : State) (r : Long → Long → Long) (f : Flags → Long → Long → Flags) : Res :=
  checked s ea <|
    let (v, s1) := (s.pst 1#4).eaRead ea .l
    .next (((s1.setFlags (f s1.flags v (s1.getD dx))).setD dx (r v (s1.getD dx))).advance (eaLen ea))

/-- A read-modify-write of a longword operand with a source value (R302, R308, R342, R345, R347): the address is
computed once (spec/30_encoding.md R230). -/
def toEa (v : Long) (ea : Ea) (s : State) (r : Long → Long → Long) (f : Flags → Long → Long → Flags) : Res :=
  checked s ea <|
    let (loc, s1) := (s.pst 1#4).locate ea .l
    let (d, s2) := s1.readLoc loc .l
    .next (((s2.setFlags (f s2.flags v d)).writeLoc loc .l (r v d)).advance (eaLen ea))

/-- The sum without an incoming bit. -/
def addL (s d : Long) : Long := addResult s d false

/-- The difference without an incoming bit. -/
def subL (s d : Long) : Long := subResult s d false

/-- ADD.L ea,Dx (R301). -/
def execAddToD (ea : Ea) (dx : Reg) (s : State) : Res := eaToD ea dx s addL (fun _ v d => addFlags v d false)

/-- ADD.L Dy,ea (R302). -/
def execAddToEa (dy : Reg) (ea : Ea) (s : State) : Res :=
  toEa (s.getD dy) ea s addL (fun _ v d => addFlags v d false)

/-- An address register destination: 32 bits, no flags (R303, R309). -/
def eaToA (ea : Ea) (ax : Reg) (s : State) (r : Long → Long → Long) : Res :=
  checked s ea <|
    let (v, s1) := (s.pst 1#4).eaRead ea .l
    .next ((s1.setA ax (r v (s1.getA ax))).advance (eaLen ea))

/-- ADDA.L (R303). -/
def execAddaL (ea : Ea) (ax : Reg) (s : State) : Res := eaToA ea ax s addL

/-- ADDI.L (R304). -/
def execAddiL (dx : Reg) (imm : Long) (s : State) : Res :=
  onD s dx (addL imm (s.getD dx)) (addFlags imm (s.getD dx) false) 2

/-- The immediate data of ADDQ and SUBQ: 0 encodes 8 (R305). -/
def quickLong (q : Reg) : Long := BitVec.ofNat 32 (quick q)

/-- ADDQ and SUBQ (R305, R311): no flags when the destination is an address register. -/
def quickOp (q : Reg) (ea : Ea) (s : State) (r : Long → Long → Long) (f : Long → Long → Flags) : Res :=
  match ea with
  | .an a => .next (((s.pst 1#4).setA a (r (quickLong q) (s.getA a))).advance 0)
  | _ => toEa (quickLong q) ea s r (fun _ v d => f v d)

/-- ADDQ.L (R305). -/
def execAddqL (q : Reg) (ea : Ea) (s : State) : Res := quickOp q ea s addL (fun v d => addFlags v d false)

/-- ADDX.L (R306). -/
def execAddxL (dy dx : Reg) (s : State) : Res :=
  onD s dx (addResult (s.getD dy) (s.getD dx) s.flags.x)
    (stickyZ s.flags (addFlags (s.getD dy) (s.getD dx) s.flags.x)) 0

/-- SUB.L ea,Dx (R307). -/
def execSubToD (ea : Ea) (dx : Reg) (s : State) : Res := eaToD ea dx s subL (fun _ v d => subFlags v d false)

/-- SUB.L Dy,ea (R308). -/
def execSubToEa (dy : Reg) (ea : Ea) (s : State) : Res :=
  toEa (s.getD dy) ea s subL (fun _ v d => subFlags v d false)

/-- SUBA.L (R309). -/
def execSubaL (ea : Ea) (ax : Reg) (s : State) : Res := eaToA ea ax s subL

/-- SUBI.L (R310). -/
def execSubiL (dx : Reg) (imm : Long) (s : State) : Res :=
  onD s dx (subL imm (s.getD dx)) (subFlags imm (s.getD dx) false) 2

/-- SUBQ.L (R311). -/
def execSubqL (q : Reg) (ea : Ea) (s : State) : Res := quickOp q ea s subL (fun v d => subFlags v d false)

/-- SUBX.L (R312). -/
def execSubxL (dy dx : Reg) (s : State) : Res :=
  onD s dx (subResult (s.getD dy) (s.getD dx) s.flags.x)
    (stickyZ s.flags (subFlags (s.getD dy) (s.getD dx) s.flags.x)) 0

/-- A comparison: flags only, X as it was (R313, R314). -/
def compareOp (ea : Ea) (s : State) (d : State → Long) : Res :=
  checked s ea <|
    let (v, s1) := (s.pst 1#4).eaRead ea .l
    .next ((s1.setFlags (keepX s1.flags (subFlags v (d s1) false))).advance (eaLen ea))

/-- CMP.L (R313). -/
def execCmpL (ea : Ea) (dx : Reg) (s : State) : Res := compareOp ea s (fun t => t.getD dx)

/-- CMPA.L (R314). -/
def execCmpaL (ea : Ea) (ax : Reg) (s : State) : Res := compareOp ea s (fun t => t.getA ax)

/-- CMPI.L (R315). -/
def execCmpiL (dx : Reg) (imm : Long) (s : State) : Res :=
  .next (((s.pst 1#4).setFlags (keepX s.flags (subFlags imm (s.getD dx) false))).advance 2)

/-- NEG.L (R316). -/
def execNegL (dx : Reg) (s : State) : Res :=
  onD s dx (subL (s.getD dx) 0#32) (subFlags (s.getD dx) 0#32 false) 0

/-- NEGX.L (R317). -/
def execNegxL (dx : Reg) (s : State) : Res :=
  onD s dx (subResult (s.getD dx) 0#32 s.flags.x)
    (stickyZ s.flags (subFlags (s.getD dx) 0#32 s.flags.x)) 0

/-- EXT.W (R318): the low word alone is written. -/
def execExtW (dx : Reg) (s : State) : Res :=
  let v : Long := ((s.getD dx).extractLsb' 0 8).signExtend 32
  onD s dx (merge .w (s.getD dx) v) (nzFlags s.flags .w v) 0

/-- EXT.L (R319). -/
def execExtL (dx : Reg) (s : State) : Res :=
  let v : Long := ((s.getD dx).extractLsb' 0 16).signExtend 32
  onD s dx v (nzFlags s.flags .l v) 0

/-- EXTB.L (R320). -/
def execExtbL (dx : Reg) (s : State) : Res :=
  let v : Long := ((s.getD dx).extractLsb' 0 8).signExtend 32
  onD s dx v (nzFlags s.flags .l v) 0

/-- TST (R321): read once, flags only. -/
def tstOp (sz : Size) (ea : Ea) (s : State) : Res :=
  checked s ea <|
    let (v, s1) := (s.pst 1#4).eaRead ea sz
    .next ((s1.setFlags (nzFlags s1.flags sz v)).advance (eaLen ea))

/-- TST.B (R321). -/
def execTstB (ea : Ea) (s : State) : Res := tstOp .b ea s

/-- TST.W (R321). -/
def execTstW (ea : Ea) (s : State) : Res := tstOp .w ea s

/-- TST.L (R321). -/
def execTstL (ea : Ea) (s : State) : Res := tstOp .l ea s

end Sys2Proof.Machine
end

