-- ==== Sys2Proof/Machine/MulDiv.lean ====
section
/-! DEFINITION. Sys2Proof/Machine/MulDiv.lean: multiply, divide and remainder (spec/44_mul_div_mac.md R420 to R431). -/

namespace Sys2Proof.Machine

open Dec (eaLen)

/-- A word as a longword: sign- or zero-extended. -/
def wordAs (signed : Bool) (v : Long) : Long :=
  if signed then (v.extractLsb' 0 16).signExtend 32 else (v.extractLsb' 0 16).setWidth 32

/-- A longword as an integer. -/
def asInt (signed : Bool) (v : Long) : Int := if signed then v.toInt else (v.toNat : Int)

/-- A multiply into Dx (R421 to R424): N and Z from the product, V and C clear. -/
def mulOp (sz : Size) (ea : Ea) (dx : Reg) (n : Nat) (s : State) (f : Long → Long → Long) : Res :=
  checked s ea <|
    let (v, s1) := (s.pst 1#4).eaRead ea sz
    let p := f v (s1.getD dx)
    .next (((s1.setFlags (nzFlags s1.flags .l p)).setD dx p).advance n)

/-- The product of two words. -/
def mulWord (signed : Bool) (v d : Long) : Long := wordAs signed v * wordAs signed d

/-- MULS.W (R421). -/
def execMulsW (ea : Ea) (dx : Reg) (s : State) : Res := mulOp .w ea dx (eaLen ea) s (mulWord true)

/-- MULU.W (R422). -/
def execMuluW (ea : Ea) (dx : Reg) (s : State) : Res := mulOp .w ea dx (eaLen ea) s (mulWord false)

/-- The low 32 bits of the product, the same for signed and unsigned (R423). -/
def mulLong (v d : Long) : Long := v * d

/-- MULS.L (R423). -/
def execMulsL (rsv : BitVec 12) (dx : Reg) (ea : Ea) (s : State) : Res :=
  extChecked (rsv == 0#12) (mulOp .l ea dx (1 + eaLen ea) s mulLong)

/-- MULU.L (R424). -/
def execMuluL (rsv : BitVec 12) (dx : Reg) (ea : Ea) (s : State) : Res :=
  extChecked (rsv == 0#12) (mulOp .l ea dx (1 + eaLen ea) s mulLong)

/-- A quotient and a remainder: division truncates toward zero, the remainder has the dividend's sign (R425). -/
structure Quot where
  q : Int
  r : Int
deriving DecidableEq, Repr

/-- Divide (R425); the divisor is not zero. -/
def divide (d v : Int) : Quot := { q := Int.tdiv d v, r := d - Int.tdiv d v * v }

/-- The quotient fits a field of n bits (R425). -/
def fits (signed : Bool) (n : Nat) (q : Int) : Bool :=
  if signed then decide (-(2 ^ (n - 1) : Int) ≤ q) && decide (q < (2 ^ (n - 1) : Int))
  else decide (0 ≤ q) && decide (q < (2 ^ n : Int))

/-- Divide by zero (R425): vector 5, Dx and CCR as they were; whether a postincrement or predecrement of the source is
kept is a free value. The cache keeps what the read brought in. DESIGN CHOICE (log entry 54): the trace port shows
nothing of the instruction. -/
def divZero (s s1 : State) : State :=
  let keep := Config.divZeroKeepsUpdate s.free == 1#1
  ({ s1 with cpu := if keep then s1.cpu else s.cpu, port := s.port }.drawn).divideByZero

/-- Overflow (R425): V set, C clear, N and Z free, the destination as it was. -/
def divOverflow (s1 : State) (n : Nat) : State :=
  let nz := Config.divOverflowNz s1.free
  ((s1.setFlags
    { s1.flags with n := nz.getLsbD 1, z := nz.getLsbD 0, v := true, c := false }).drawn).advance n

/-- The flags of a division: N and Z from the quotient (R425). -/
def divFlags (old : Flags) (sz : Size) (q : Int) : Flags := nzFlags old sz (BitVec.ofInt 32 q)

/-- The common course of divide and remainder (R425 to R431): `w` is the register that takes the result `res`. -/
def divOp (sz : Size) (signed : Bool) (ea : Ea) (dx w : Reg) (n : Nat) (s : State) (res : Quot → Long) : Res :=
  checked s ea <|
    let (v, s1) := (s.pst 1#4).eaRead ea sz
    let dv := asInt signed (match sz with | .w => wordAs signed v | _ => v)
    if v = 0#32 then .next (divZero s s1)
    else
      let qr := divide (asInt signed (s1.getD dx)) dv
      if !fits signed (8 * sz.bytes) qr.q then .next (divOverflow s1 n)
      else .next (((s1.setFlags (divFlags s1.flags sz qr.q)).setD w (res qr)).advance n)

/-- The 16-bit remainder over the 16-bit quotient (R426). -/
def packWord (x : Quot) : Long := (BitVec.ofInt 16 x.r) ++ (BitVec.ofInt 16 x.q)

/-- The 32-bit quotient. -/
def quotLong (x : Quot) : Long := BitVec.ofInt 32 x.q

/-- The 32-bit remainder. -/
def remLong (x : Quot) : Long := BitVec.ofInt 32 x.r

/-- DIVS.W (R426). -/
def execDivsW (ea : Ea) (dx : Reg) (s : State) : Res := withDiv s (divOp .w true ea dx dx (eaLen ea) s packWord)

/-- DIVU.W (R427). -/
def execDivuW (ea : Ea) (dx : Reg) (s : State) : Res := withDiv s (divOp .w false ea dx dx (eaLen ea) s packWord)

/-- DIVS.L (R428). -/
def execDivsL (rsv : BitVec 9) (dx : Reg) (ea : Ea) (s : State) : Res :=
  withDiv s (extChecked (rsv == 0#9) (divOp .l true ea dx dx (1 + eaLen ea) s quotLong))

/-- DIVU.L (R429). -/
def execDivuL (rsv : BitVec 9) (dx : Reg) (ea : Ea) (s : State) : Res :=
  withDiv s (extChecked (rsv == 0#9) (divOp .l false ea dx dx (1 + eaLen ea) s quotLong))

/-- REMS.L (R430): the remainder into Dw, Dx as it was; N and Z from the quotient. -/
def execRemsL (rsv : BitVec 9) (dw dx : Reg) (ea : Ea) (s : State) : Res :=
  withDiv s (extChecked (rsv == 0#9) (divOp .l true ea dx dw (1 + eaLen ea) s remLong))

/-- REMU.L (R431). -/
def execRemuL (rsv : BitVec 9) (dw dx : Reg) (ea : Ea) (s : State) : Res :=
  withDiv s (extChecked (rsv == 0#9) (divOp .l false ea dx dw (1 + eaLen ea) s remLong))

end Sys2Proof.Machine
end

