-- ==== Sys2Proof/Machine/MacUnit.lean ====
section
/-! DEFINITION. Sys2Proof/Machine/MacUnit.lean: the multiply-accumulate unit (spec/44_mul_div_mac.md R440 to R452). -/

namespace Sys2Proof.Machine

open Dec (eaLen)

/-- MACSR.OMC: saturation (R38). -/
def Mac.omc (m : Mac) : Bool := m.macsr.getLsbD 7
/-- MACSR.S/U: set for unsigned. -/
def Mac.unsigned (m : Mac) : Bool := m.macsr.getLsbD 6
/-- MACSR.F/I: set for fractional. -/
def Mac.frac (m : Mac) : Bool := m.macsr.getLsbD 5
/-- MACSR.R/T: set for rounding. -/
def Mac.round (m : Mac) : Bool := m.macsr.getLsbD 4

/-- What one multiply-accumulate is (R440): subtract or add, long or word, which halves, which scale. -/
structure MacForm where
  sub : Bool
  long : Bool
  ux : Bool
  uy : Bool
  sf : BitVec 2
deriving DecidableEq, Repr

/-- A half of a register (R440). -/
def half (upper : Bool) (v : Long) : Word := if upper then v.extractLsb' 16 16 else v.extractLsb' 0 16

/-- An operand as an integer: a longword or a half, signed or not. -/
def macOperand (long upper signed : Bool) (v : Long) : Int :=
  if long then asInt signed v
  else if signed then (half upper v).toInt else ((half upper v).toNat : Int)

/-- The upper 32 bits of a doubled fractional product, truncated or rounded to nearest, a tie as `up` says (R440 a). -/
def fracUpper (p : Int) (round up : Bool) : Int :=
  let hi := p / 2 ^ 32
  let lo := p % 2 ^ 32
  if round && (decide (2 ^ 31 < lo) || (decide (lo = 2 ^ 31) && up)) then hi + 1 else hi

/-- The product before scaling (R440): integer, or fractional with the doubled product; the product of -1 and -1 is no
32-bit fraction and is a free value. -/
def macProduct (m : Mac) (f : MacForm) (x y : Long) (n : Nat) : Long :=
  let signed := m.frac || !m.unsigned
  let p := macOperand f.long f.ux signed x * macOperand f.long f.uy signed y
  if !m.frac then BitVec.ofInt 32 p
  else
    let q : Int := if f.long then fracUpper (2 * p) m.round (Config.macTie n == 1#1) else 2 * p
    if q = 2 ^ 31 then Config.macMinusOne n else BitVec.ofInt 32 q

/-- The scale factor (R440): 01 shifts left, 11 right, arithmetic if signed. -/
def macScale (signed : Bool) (sf : BitVec 2) (p : Long) : Long :=
  if sf = 1#2 then p <<< 1
  else if sf = 3#2 then (if signed then p.sshiftRight 1 else p >>> 1)
  else p

/-- The exact sum or difference (R440). -/
def macSum (signed sub : Bool) (acc p : Long) : Int :=
  if sub then asInt signed acc - asInt signed p else asInt signed acc + asInt signed p

/-- The saturated accumulator (R440). -/
def saturate (signed : Bool) (t : Int) : Long :=
  if signed then (if t < 0 then 0x80000000#32 else 0x7FFFFFFF#32)
  else (if t < 0 then 0#32 else 0xFFFFFFFF#32)

/-- MACSR with new flags N, Z, V; C is 0 (R440). -/
def macFlags (macsr : Byte) (n z v : Bool) : Byte :=
  (macsr &&& 0xF0#8) ||| ((bitWord n <<< 3 ||| bitWord z <<< 2 ||| bitWord v <<< 1).setWidth 8)

/-- mac_op (R440): the accumulator and MACSR after it. -/
def macStep (m : Mac) (f : MacForm) (x y : Long) (n : Nat) : Mac :=
  let signed := m.frac || !m.unsigned
  let p := macScale signed f.sf (macProduct m f x y n)
  let t := macSum signed f.sub m.acc p
  let ovf := !fits signed 32 t
  let acc := if ovf && m.omc then saturate signed t else BitVec.ofInt 32 t
  { m with acc := acc, macsr := macFlags m.macsr (acc.getLsbD 31) (acc == 0#32) ovf }

/-- mac_op on the machine; the draw is used up whether or not the form needed it. -/
def State.macOp (s : State) (f : MacForm) (x y : Long) : State :=
  ({ s with mac := macStep s.mac f x y s.free }).drawn

/-- MAC and MSAC without load (R441 to R444). -/
def macPlain (rsv : BitVec 10) (f : MacForm) (rx ry : RegX) (s : State) : Res :=
  withMac s <| extChecked (rsv == 0#10 && f.sf != 2#2) <|
    .next (((s.pst 1#4).macOp f (s.getR rx) (s.getR ry)).advance 1)

/-- MAC.W (R441). -/
def execMacW (rsv : BitVec 10) (sf : BitVec 2) (ux uy : Bool) (rx ry : RegX) (s : State) : Res :=
  macPlain rsv { sub := false, long := false, ux := ux, uy := uy, sf := sf } rx ry s

/-- MAC.L (R442). -/
def execMacL (rsv : BitVec 10) (sf : BitVec 2) (ux uy : Bool) (rx ry : RegX) (s : State) : Res :=
  macPlain rsv { sub := false, long := true, ux := ux, uy := uy, sf := sf } rx ry s

/-- MSAC.W (R443). -/
def execMsacW (rsv : BitVec 10) (sf : BitVec 2) (ux uy : Bool) (rx ry : RegX) (s : State) : Res :=
  macPlain rsv { sub := true, long := false, ux := ux, uy := uy, sf := sf } rx ry s

/-- MSAC.L (R444). -/
def execMsacL (rsv : BitVec 10) (sf : BitVec 2) (ux uy : Bool) (rx ry : RegX) (s : State) : Res :=
  macPlain rsv { sub := true, long := true, ux := ux, uy := uy, sf := sf } rx ry s

/-- The address of the load with the mask applied (R445). -/
def maskedAddr (msk : Bool) (mask : Word) (a : Long) : Long := if msk then a &&& (0xFFFF#16 ++ mask) else a

/-- MAC and MSAC with load (R445): the factors are the registers before the load; the masked address is read; Rw is
written last. -/
def macLoad (rsv : Bool) (f : MacForm) (msk : Bool) (rx ry rw : RegX) (ea : Ea) (s : State) : Res :=
  withMac s <| extChecked (!rsv && f.sf != 2#2) <|
    let (loc, s1) := (s.pst 1#4).locate ea .l
    let (v, s2) := s1.load (maskedAddr msk s.mac.mask loc.addr) .l
    .next (((s2.macOp f (s.getR rx) (s.getR ry)).setR rw v).advance (1 + eaLen ea))

/-- MAC.W with load (R445). -/
def execMacWLoad (rsv : Bool) (sf : BitVec 2) (ux uy msk : Bool) (rx ry rw : RegX) (ea : Ea) (s : State) : Res :=
  macLoad rsv { sub := false, long := false, ux := ux, uy := uy, sf := sf } msk rx ry rw ea s

/-- MAC.L with load (R445). -/
def execMacLLoad (rsv : Bool) (sf : BitVec 2) (ux uy msk : Bool) (rx ry rw : RegX) (ea : Ea) (s : State) : Res :=
  macLoad rsv { sub := false, long := true, ux := ux, uy := uy, sf := sf } msk rx ry rw ea s

/-- MSAC.W with load (R445). -/
def execMsacWLoad (rsv : Bool) (sf : BitVec 2) (ux uy msk : Bool) (rx ry rw : RegX) (ea : Ea) (s : State) : Res :=
  macLoad rsv { sub := true, long := false, ux := ux, uy := uy, sf := sf } msk rx ry rw ea s

/-- MSAC.L with load (R445). -/
def execMsacLLoad (rsv : Bool) (sf : BitVec 2) (ux uy msk : Bool) (rx ry rw : RegX) (ea : Ea) (s : State) : Res :=
  macLoad rsv { sub := true, long := true, ux := ux, uy := uy, sf := sf } msk rx ry rw ea s

/-- A move out of the MAC unit: 32 bits to any register, no flags (R39). -/
def macOut (rx : RegX) (v : Long) (s : State) : Res := withMac s (.next (((s.pst 1#4).setR rx v).advance 0))

/-- MASK as a longword: ones above (R39, R446). -/
def maskLong (m : Mac) : Long := 0xFFFF#16 ++ m.mask

/-- MACSR as a longword: zeros above (R39, R448). -/
def macsrLong (m : Mac) : Long := m.macsr.setWidth 32

/-- MOVE.L MASK,Rx (R446). -/
def execMoveFromMask (rx : RegX) (s : State) : Res := macOut rx (maskLong s.mac) s

/-- MOVE.L MACSR,Rx (R448). -/
def execMoveFromMacsr (rx : RegX) (s : State) : Res := macOut rx (macsrLong s.mac) s

/-- MOVE.L ACC,Rx (R452). -/
def execMoveFromAcc (rx : RegX) (s : State) : Res := macOut rx s.mac.acc s

/-- A move into the MAC unit from Dn, An or #imm. -/
def macIn (ea : Ea) (s : State) (f : Mac → Long → Mac) : Res :=
  withMac s <|
    let (v, s1) := (s.pst 1#4).eaRead ea .l
    .next (({ s1 with mac := f s1.mac v }).advance (eaLen ea))

/-- MASK <- v[15:0] (R447). -/
def setMask (m : Mac) (v : Long) : Mac := { m with mask := v.extractLsb' 0 16 }

/-- MACSR <- v[7:1] :: 0 (R449). -/
def setMacsr (m : Mac) (v : Long) : Mac := { m with macsr := v.extractLsb' 0 8 &&& 0xFE#8 }

/-- ACC <- v, with N and Z of MACSR from it, V and C clear (R451). -/
def setAcc (m : Mac) (v : Long) : Mac :=
  { m with acc := v, macsr := macFlags m.macsr (v.getLsbD 31) (v == 0#32) false }

/-- MOVE.L ea,MASK (R447). -/
def execMoveToMask (ea : Ea) (s : State) : Res := macIn ea s setMask

/-- MOVE.L ea,MACSR (R449). -/
def execMoveToMacsr (ea : Ea) (s : State) : Res := macIn ea s setMacsr

/-- MOVE.L ea,ACC (R451). -/
def execMoveToAcc (ea : Ea) (s : State) : Res := macIn ea s setAcc

/-- The flags that MOVE MACSR,CCR leaves (R450): N, Z, V, C from MACSR, X clear. -/
def macCcr (m : Mac) : Flags :=
  { x := false, n := m.macsr.getLsbD 3, z := m.macsr.getLsbD 2, v := m.macsr.getLsbD 1, c := m.macsr.getLsbD 0 }

/-- MOVE.L MACSR,CCR (R450). -/
def execMoveMacsrToCcr (s : State) : Res := withMac s (.next (((s.pst 1#4).setFlags (macCcr s.mac)).advance 0))

end Sys2Proof.Machine
end

