-- ==== Sys2Proof/Machine/Reset.lean ====
section
/-! DEFINITION. Sys2Proof/Machine/Reset.lean: the reset exception (spec/70_reset_and_hazards.md R680 to R685). -/

namespace Sys2Proof.Machine

/-- A register that reset leaves unspecified (spec/10_state.md R79): the free value of this draw and this place. -/
def resetReg (n place : Nat) : Long := Config.resetBits n place

/-- The SR after reset (R681): T = 0, S = 1, M = 0, I = 7, P = 0; X, N, Z, V, C unspecified. -/
def resetSr (n : Nat) : Word := 0x2700#16 ||| ((resetReg n 0).setWidth 16 &&& 0x001F#16)

/-- The CPU registers after reset: all unspecified but SR; PC and A7 are loaded by the vector reads. -/
def resetCpu (n : Nat) : Cpu :=
  { d := Vector.ofFn (fun i : Fin 8 => resetReg n (1 + i.val)), a := Vector.ofFn (fun i : Fin 8 => resetReg n (9 + i.val))
    pc := resetReg n 17, sr := resetSr n }

/-- The MAC registers after reset: unspecified; MACSR bit 0 is no flag of the unit. -/
def resetMac (n : Nat) : Mac :=
  { acc := resetReg n 18, mask := (resetReg n 19).setWidth 16, macsr := (resetReg n 20).setWidth 8 &&& 0xFE#8 }

/-- The control registers after reset (R681, R685): CACR and VBR are cleared, of the others the enable bits alone. -/
def resetCtl (p : Pins) (c : Ctl) : Ctl :=
  { cacr := 0#32, acr0 := c.acr0 &&& 0xFFFF7FFF#32, acr1 := c.acr1 &&& 0xFFFF7FFF#32, vbr := 0#32
    rombar := if p.kromvldrst then 0x00000121#32 else c.rombar &&& 0xFFFFFFFE#32
    rambar := c.rambar &&& 0xFFFFFFFE#32 }

/-- The debug registers after reset (spec/10_state.md R51 to R60). -/
def resetDbg (g : Dbg) : Dbg :=
  { g with csr := 0x00100000#32, baar := 0x05#8, aatr := 0x0005#16, tdr := 0#32 }

/-- The bytes of the RAM after reset, all unspecified (spec/10_state.md R73), in the canonical form. -/
def resetRam (p : Pins) (n : Nat) : List Host.Cell :=
  if p.kramSize = .absent then []
  else
    ((List.range (2 ^ localBits p.kramSize)).map (fun i => (i, (resetReg n (21 + i)).setWidth 8))).filter
      (fun c => c.2 != unwritten)

/-- The memory system after reset: buffers discarded, the cache as it was (R681). -/
def resetMs (p : Pins) (n : Nat) (m : MemSys) : MemSys :=
  { MemSys.reset with mem := m.mem, emem := m.emem, cache := m.cache, rp := m.rp, ram := resetRam p n }

/-- The reset event (R680, R681). The pin is consumed; what the development system has put on DSI stays. -/
def State.performReset (s : State) : State :=
  { cpu := resetCpu s.free, mac := resetMac s.free, ctl := resetCtl s.pins s.ctl, dbg := resetDbg s.dbg
    ms := resetMs s.pins s.free s.ms, ev := { Ev.reset with bkptPrev := s.pins.bkpt }
    pins := { s.pins with rsti := false }
    bdm := { Bdm.reset with rx := s.bdm.rx, tx := s.bdm.tx }, port := [], free := s.free + 1 }

/-- The attributes of the reset exception's reads (R682): supervisor code, whatever SR.S is; the emulator's code with
CSR.EMU and CSR.MAP (R684, spec/61_debug_and_bdm.md R660). -/
def State.resetSpace (s : State) : Space := if s.emuMap then { tt := 2#2, tm := 6#3 } else { tt := 0#2, tm := 6#3 }

/-- One of the two longword reads of the reset exception, an instruction fetch (R682). DESIGN CHOICE (log entry 30): as a
fetch it is not compared with the address and data breakpoints, though it is an access of exception processing
(spec/61_debug_and_bdm.md R656). -/
def State.resetRead (s : State) (a : Long) : Long × State :=
  let (bs, m) := readPiece s.route s.ms s.resetSpace true a 4
  (beValue bs, s.setMs m)

/-- The reset exception proper (R682, R684): A7 and PC from addresses 0 and 4, the branch shown, and then the test of the
PC. Nothing prefetched is left (spec/10_state.md R74). -/
def State.resetException (s : State) : State :=
  let s0 := s.setEv { s.ev with run := .running, resetPending := false, emulator := s.dbg.csr.getLsbD 13 }
  let (sp, s1) := (s0.pst 0xC#4).resetRead 0#32
  let (pc, s2) := s1.resetRead 4#32
  let s3 := ((((s2.setSp sp).setPc pc).emptyPrefetch).pst 5#4).target pc
  if pc.getLsbD 0 then s3.faultOnFault else s3

/-- The reset window (R683): BKPT asserted halts the processor, CSR.BKPT set; else the reset exception. -/
def State.resetWindow (s : State) : State :=
  if s.pins.bkpt then
    ({ s with bdm := { s.bdm with pcLoaded := false } }.setHaltSource 24).enterHalted
  else s.resetException

/-- GO after the reset window (R683): a loaded PC bypasses the reset exception. -/
def State.resetGo (s : State) : State :=
  if s.bdm.pcLoaded then
    s.setEv { s.ev with run := .running, resetPending := false, emulator := s.dbg.csr.getLsbD 13 }
  else s.resetException

end Sys2Proof.Machine
end

