-- ==== Sys2Proof/Machine/Debug.lean ====
section
/-! DEFINITION. Sys2Proof/Machine/Debug.lean: the debug module's registers (spec/10_state.md R50 to R62), their writes
(spec/61_debug_and_bdm.md R632, R640) and the breakpoints (R645 to R656). -/

namespace Sys2Proof.Machine

/-! ### Register writes -/

/-- The writable bits of the CSR but IPW (R51, R632). -/
def csrMask : Long := 0x0006FF70#32

/-- The bit IPW, which the BDM alone writes (R640). -/
def ipwMask : Long := 0x00010000#32

/-- CSR with its status field, CSR[31:28], replaced. -/
def setStatus (csr : Long) (st : BitVec 4) : Long := (csr &&& 0x0FFFFFFF#32) ||| (st.setWidth 32 <<< 28)

/-- Set the breakpoint status (R651). Its low bit, which nothing fixes, is a free value, drawn here and kept until the
status is set anew (DESIGN CHOICE, log entry 27). -/
def State.setStatus (s : State) (st : BitVec 3) : State :=
  { s.drawn with dbg := { s.dbg with csr := Machine.setStatus s.dbg.csr (st ++ Config.statusLow s.free) } }

/-- The status that a write of the TDR leaves (R651), without its low bit. -/
def statusOfTdr (tdr : Long) : BitVec 3 := if tdr.getLsbD 13 then 1#3 else 0#3

/-- Write a debug register (R632), but for the status that a write of the TDR sets: `mask` holds the CSR bits that this
writer may change. Reserved numbers: no effect (R629). -/
def writeDebugReg (g : Dbg) (mask : Long) (drc : BitVec 4) (v : Long) : Dbg :=
  match drc.toNat with
  | 0 => { g with csr := (g.csr &&& ~~~mask) ||| (v &&& mask) }
  | 5 => { g with baar := v.extractLsb' 0 8 }
  | 6 => { g with aatr := v.extractLsb' 0 16, baar := v.extractLsb' 0 8 }
  | 7 => { g with tdr := v }
  | 8 => { g with pbr := v }
  | 9 => { g with pbmr := v }
  | 12 => { g with abhr := v }
  | 13 => { g with ablr := v }
  | 14 => { g with dbr := v }
  | 15 => { g with dbmr := v }
  | _ => g

/-- Write a debug register (R632); a write of the TDR sets the status anew (R651). -/
def State.writeDebug (s : State) (mask : Long) (drc : BitVec 4) (v : Long) : State :=
  let s1 : State := { s with dbg := writeDebugReg s.dbg mask drc v }
  if drc = 7#4 then s1.setStatus (statusOfTdr v) else s1

/-- WDEBUG's write (R640): nothing while IPW is set, and never IPW itself. -/
def State.coreWriteDebug (s : State) (drc : BitVec 4) (v : Long) : State :=
  if s.dbg.csr.getLsbD 16 then s else s.writeDebug csrMask drc v

/-- WDMREG's write (R632). -/
def State.bdmWriteDebug (s : State) (drc : BitVec 4) (v : Long) : State := s.writeDebug (csrMask ||| ipwMask) drc v

/-! ### Breakpoint conditions -/

/-- Bit k of a level's fields in the TDR (R54): level 1 in the low half, level 2 in the high half. -/
def tdrBit (g : Dbg) (level2 : Bool) (k : Nat) : Bool := g.tdr.getLsbD (if level2 then 16 + k else k)

/-- EBL of a level. -/
def levelEnabled (g : Dbg) (level2 : Bool) : Bool := tdrBit g level2 13

/-- L1T and L2T (R54): the OR form. -/
def orForm (g : Dbg) (level2 : Bool) : Bool := if level2 then g.tdr.getLsbD 15 else g.tdr.getLsbD 14

/-- PC condition enabled. -/
def pcEnabled (g : Dbg) (level2 : Bool) : Bool := tdrBit g level2 1

/-- The PC condition (R646). -/
def pcCondition (g : Dbg) (level2 : Bool) (pc : Long) : Bool :=
  pcEnabled g level2 && (maskedEq pc g.pbr g.pbmr != tdrBit g level2 0)

/-- The size coding of the AATR (R53). -/
def sizeCode : Nat → BitVec 2
  | 1 => 1#2
  | 2 => 2#2
  | _ => 0#2

/-- The attribute compare (R648). -/
def attrMatch (g : Dbg) (x : Xfer) : Bool :=
  (g.aatr.getLsbD 15 || (g.aatr.getLsbD 7 == x.read))
    && ((g.aatr.extractLsb' 5 2 ^^^ sizeCode x.len) &&& ~~~(g.aatr.extractLsb' 13 2)) == 0#2
    && ((g.aatr.extractLsb' 3 2 ^^^ x.sp.tt) &&& ~~~(g.aatr.extractLsb' 11 2)) == 0#2
    && ((g.aatr.extractLsb' 0 3 ^^^ x.sp.tm) &&& ~~~(g.aatr.extractLsb' 8 3)) == 0#3

/-- Any of the EA bits (R647). -/
def addrEnabled (g : Dbg) (level2 : Bool) : Bool :=
  tdrBit g level2 4 || tdrBit g level2 3 || tdrBit g level2 2

/-- The address condition (R647, R648). -/
def addrCondition (g : Dbg) (level2 : Bool) (x : Xfer) : Bool :=
  let inRange := decide (g.ablr ≤ x.addr) && decide (x.addr ≤ g.abhr)
  ((tdrBit g level2 2 && x.addr == g.ablr) || (tdrBit g level2 3 && inRange) || (tdrBit g level2 4 && !inRange))
    && attrMatch g x

/-- The data lanes of the bus a transfer drives (R650): the highest and lowest bit. -/
def xferLanes (x : Xfer) : Nat × Nat :=
  match x.len with
  | 1 => (31 - 8 * (x.addr.toNat % 4), 24 - 8 * (x.addr.toNat % 4))
  | 2 => if x.addr.getLsbD 1 then (15, 0) else (31, 16)
  | _ => (31, 0)

/-- The bus with a transfer's data on its lanes. -/
def busData (x : Xfer) : Long := x.data <<< (xferLanes x).2

/-- One comparator (R649, R650): the lane lies inside what the transfer drives, and matches or, inverted, differs. -/
def laneMatch (g : Dbg) (level2 : Bool) (x : Xfer) (bit hi lo : Nat) : Bool :=
  tdrBit g level2 bit && decide (hi ≤ (xferLanes x).1) && decide ((xferLanes x).2 ≤ lo)
    && ((((busData x ^^^ g.dbr) &&& ~~~g.dbmr) >>> lo <<< (31 - (hi - lo)) == 0#32) != tdrBit g level2 5)

/-- Any of the ED bits (R649). -/
def dataEnabled (g : Dbg) (level2 : Bool) : Bool :=
  [6, 7, 8, 9, 10, 11, 12].any (fun k => tdrBit g level2 k)

/-- The data condition (R649). -/
def dataCondition (g : Dbg) (level2 : Bool) (x : Xfer) : Bool :=
  laneMatch g level2 x 12 31 0 || laneMatch g level2 x 10 31 16 || laneMatch g level2 x 11 15 0
    || laneMatch g level2 x 6 31 24 || laneMatch g level2 x 7 23 16 || laneMatch g level2 x 8 15 8
    || laneMatch g level2 x 9 7 0

/-- The address and data conditions that are enabled, of one transfer. -/
def xferConditions (g : Dbg) (level2 : Bool) (x : Xfer) : Bool :=
  (!addrEnabled g level2 || addrCondition g level2 x) && (!dataEnabled g level2 || dataCondition g level2 x)

/-- The trigger of a level from the PC alone (R651, R653): before the instruction. -/
def pcTrigger (g : Dbg) (level2 : Bool) (pc : Long) : Bool :=
  levelEnabled g level2 && pcCondition g level2 pc
    && (orForm g level2 || (!addrEnabled g level2 && !dataEnabled g level2))

/-- The trigger of a level from a transfer that the instruction at `pc` made (R651). -/
def xferTrigger (g : Dbg) (level2 : Bool) (pc : Long) (x : Xfer) : Bool :=
  levelEnabled g level2 && (addrEnabled g level2 || dataEnabled g level2) && xferConditions g level2 x
    && (orForm g level2 || !pcEnabled g level2 || pcCondition g level2 pc)

/-! ### Sequencing -/

/-- What a completed trigger asks for (R652). -/
inductive Response where
  | none
  | halt
  | interrupt
  | reserved
deriving DecidableEq, Repr

/-- TDR.TRC (R652). -/
def responseOf (g : Dbg) : Response :=
  match (g.tdr.extractLsb' 30 2).toNat with
  | 0 => .none
  | 1 => .halt
  | 2 => .interrupt
  | _ => .reserved

/-- The status field, without its low bit, which nothing fixes once the status was set (R651). -/
def statusOf (g : Dbg) : BitVec 3 := g.csr.extractLsb' 29 3

/-- One evaluation of the trigger logic (R651): where the level waited for triggers, the new status and the response.
DESIGN CHOICE (log entry 30): one evaluation advances one level, so the PC match or the transfer that completes level 1
does not complete level 2 at once, though it may meet its conditions too; a later transfer of the same instruction
may. -/
def triggerStep (g : Dbg) (fires : Bool → Bool) : Option (BitVec 3 × Response) :=
  if statusOf g = 1#3 && fires false then
    some (if levelEnabled g true then (5#3, .none) else (2#3, responseOf g))
  else if statusOf g = 5#3 && fires true then some (6#3, responseOf g)
  else none

/-- Carry out a response (R652); the reserved one is refused. -/
def State.respond (s : State) : Option (BitVec 3 × Response) → Res
  | none => .next s
  | some (st, r) =>
    let s1 := s.setStatus st
    match r with
    | .none => .next s1
    | .halt => .next (s1.setEv { s.ev with haltTrg := true })
    | .interrupt => .next (s1.setEv { s.ev with debugInt := true })
    | .reserved => .refused .reservedTriggerResponse

/-- The PC breakpoint at the sample point before the instruction (R646, R653); none while breakpoints are inhibited
(R654). -/
def State.pcBreakpoint (s : State) : Res :=
  if s.ev.inhibitBp then .next s else s.respond (triggerStep s.dbg (fun l2 => pcTrigger s.dbg l2 s.cpu.pc))

/-- The address and data breakpoints on the transfers of one instruction, in order (R651, R656). -/
def State.xferBreakpoints (s : State) (pc : Long) : List Xfer → Res
  | [] => .next s
  | x :: t =>
    match s.respond (triggerStep s.dbg (fun l2 => xferTrigger s.dbg l2 pc x)) with
    | .next s1 => s1.xferBreakpoints pc t
    | .fault f => .fault f
    | .refused f => .refused f

/-- The address and data breakpoints on the accesses recorded so far in this step, which are then done with; none while
breakpoints are inhibited (R654). -/
def State.takeBreakpoints (s : State) : Res :=
  if s.ev.inhibitBp then .next s
  else { s with ms := { s.ms with xfers := [] } }.xferBreakpoints s.cpu.pc s.ms.xfers

end Sys2Proof.Machine
end

