-- ==== Sys2Proof/Machine/SystemControl.lean ====
section
/-! DEFINITION. Sys2Proof/Machine/SystemControl.lean: system control and debug support (spec/45_system_control.md R460 to
R475). -/

namespace Sys2Proof.Machine

open Dec (eaLen)

/-! ### CCR and SR (R462 to R465) -/

/-- MOVE.W CCR,Dx (R462): the upper byte of the word reads as zeros. -/
def execMoveFromCcr (dx : Reg) (s : State) : Res :=
  .next (((s.pst 1#4).setD dx (merge .w (s.getD dx) (s.ccr.setWidth 32))).advance 0)

/-- A move to the CCR (R463): the upper byte of the word is ignored. -/
def moveToCcr (v : Byte) (n : Nat) (s : State) : Res := .next (((s.pst 1#4).setCcr v).advance n)

/-- MOVE.W Dy,CCR (R463). -/
def execMoveToCcrD (dy : Reg) (s : State) : Res := moveToCcr ((s.getD dy).extractLsb' 0 8) 0 s

/-- MOVE.W #imm,CCR (R463). -/
def execMoveToCcrI (imm : Word) (s : State) : Res := moveToCcr (imm.extractLsb' 0 8) 1 s

/-- MOVE.W SR,Dx (R464). -/
def execMoveFromSr (dx : Reg) (s : State) : Res :=
  privileged s (.next (((s.pst 1#4).setD dx (merge .w (s.getD dx) (s.cpu.sr.setWidth 32))).advance 0))

/-- A move to the SR (R465), with the mark of an entry into user mode. -/
def moveToSr (v : Word) (n : Nat) (s : State) : Res :=
  privileged s (.next ((State.showUser s ((s.pst 1#4).setSr v)).advance n))

/-- MOVE.W Dy,SR (R465). -/
def execMoveToSrD (dy : Reg) (s : State) : Res := moveToSr ((s.getD dy).extractLsb' 0 16) 0 s

/-- MOVE.W #imm,SR (R465). -/
def execMoveToSrI (imm : Word) (s : State) : Res := moveToSr imm 1 s

/-! ### Control registers (R466, spec/10_state.md R41 to R46) -/

/-- The stored bits of CACR (R42); CINVA, bit 24, is a command. -/
def cacrMask : Long := 0xB8000720#32

/-- The stored bits of ACR0 and ACR1 (R43). -/
def acrMask : Long := 0xFFFFE064#32

/-- The stored bits of VBR (R41). -/
def vbrMask : Long := 0xFFF00000#32

/-- The stored bits of RAMBAR and ROMBAR (R44, R45). -/
def barMask : Long := 0xFFFFFF3F#32

/-- Write CACR (R42), with the action of CINVA (spec/21_cache_and_local_memory.md R158, R164). -/
def State.setCacr (s : State) (v : Long) : State :=
  let s1 := { s with ctl := { s.ctl with cacr := v &&& cacrMask } }
  if v.getLsbD 24 then s1.setMs (invalidateCache s1.ms) else s1

/-- The control registers that MOVEC, RCREG and WCREG share (R40, R61). -/
inductive CtlReg where
  | cacr
  | acr0
  | acr1
  | vbr
  | rombar
  | rambar
deriving DecidableEq, Repr

/-- The register number of a MOVEC register (R40). -/
def ctlReg (rc : BitVec 12) : Option CtlReg :=
  if rc = 0x002#12 then some .cacr
  else if rc = 0x004#12 then some .acr0
  else if rc = 0x005#12 then some .acr1
  else if rc = 0x801#12 then some .vbr
  else if rc = 0xC00#12 then some .rombar
  else if rc = 0xC04#12 then some .rambar
  else none

/-- Write a control register; reserved bits are not stored (R46). -/
def State.writeCtl (s : State) (r : CtlReg) (v : Long) : State :=
  match r with
  | .cacr => s.setCacr v
  | .acr0 => { s with ctl := { s.ctl with acr0 := v &&& acrMask } }
  | .acr1 => { s with ctl := { s.ctl with acr1 := v &&& acrMask } }
  | .vbr => { s with ctl := { s.ctl with vbr := v &&& vbrMask } }
  | .rombar => { s with ctl := { s.ctl with rombar := v &&& barMask } }
  | .rambar => { s with ctl := { s.ctl with rambar := v &&& barMask } }

/-- Write a control register: the new value governs the fetch of the next instruction (R466), so what was fetched under
the old one is discarded (DEDUCED, log entry 16); VBR decides no fetch. -/
def State.setCtl (s : State) (r : CtlReg) (v : Long) : State :=
  match r with
  | .vbr => s.writeCtl .vbr v
  | r => (s.writeCtl r v).flush

/-- Read a control register, as the debug module does. -/
def State.getCtl (s : State) (r : CtlReg) : Long :=
  match r with
  | .cacr => s.ctl.cacr
  | .acr0 => s.ctl.acr0
  | .acr1 => s.ctl.acr1
  | .vbr => s.ctl.vbr
  | .rombar => s.ctl.rombar
  | .rambar => s.ctl.rambar

/-- MOVEC (R466); a register outside Table 4-1 is undefined (R467). -/
def execMovec (ry : RegX) (rc : BitVec 12) (s : State) : Res :=
  privileged s <|
    match ctlReg rc with
    | some r => .next (((s.pst 1#4).drainBuffers.setCtl r (s.getR ry)).advance 1)
    | none => .refused .movecUnknownRegister

/-! ### HALT, STOP (R468, R470) -/

/-- HALT (R468): privileged unless CSR.UHE. The CSR shows the highest source present (spec/61_debug_and_bdm.md R596): a
trigger whose halt is still pending, CSR bit 26, before HALT, bit 25. DESIGN CHOICE (log entry 40): a halt that a trigger
or the BKPT pin asks for is done with by this halt. -/
def execHalt (s : State) : Res :=
  if s.super || s.dbg.csr.getLsbD 10 then
    .next (((s.pst 1#4).drainBuffers.advance 0).haltFor (if s.ev.haltTrg then 26 else 25))
  else .next s.privilegeViolation

/-- STOP (R470): the trace exception is taken at once when T was or is set; else the core stops. -/
def execStop (imm : Word) (s : State) : Res :=
  privileged s <|
    let s1 := ((s.pst 1#4).drainBuffers.setSr imm).advance 1
    if s.trace || s1.trace then .next (s1.traceException s1.cpu.pc)
    else .next ((s1.setEv { s1.ev with run := .stopped }).pst 0xE#4)

/-! ### Cache maintenance (R472) -/

/-- CPUSHL (R472). -/
def execCpushl (ax : Reg) (s : State) : Res :=
  privileged s <|
    let s1 := (s.pst 1#4).drainBuffers
    .next (((s1.setMs (cpushLine s1.route s1.ms (s.getA ax))).drainBuffers).advance 0)

/-! ### Debug support (R473 to R475) -/

/-- PULSE (R473). -/
def execPulse (s : State) : Res := .next ((s.pst 4#4).advance 0)

/-- WDDATA (R474): the operand is shown whatever CSR.DDC says. -/
def wddataOp (sz : Size) (ea : Ea) (s : State) : Res :=
  checked s ea <|
    let (loc, s1) := (s.pst 4#4).locate ea sz
    let (v, s2) := s1.loadQuiet loc.addr sz
    .next ((s2.item sz.bytes v).advance (eaLen ea))

/-- WDDATA.B (R474). -/
def execWddataB (ea : Ea) (s : State) : Res := wddataOp .b ea s

/-- WDDATA.W (R474). -/
def execWddataW (ea : Ea) (s : State) : Res := wddataOp .w ea s

/-- WDDATA.L (R474). -/
def execWddataL (ea : Ea) (s : State) : Res := wddataOp .l ea s

/-- The first longword of WDEBUG's operand begins with a WDMREG command (R475). -/
def wdebugCommand (w0 : Long) : Bool := w0.extractLsb' 20 12 == 0x2C8#12

/-- WDEBUG (R475): two longwords read, then the debug register written. The write takes effect after the instruction
(spec/61_debug_and_bdm.md R655): its own reads are compared with the breakpoint registers as they were before it
(DEDUCED, log entry 30). -/
def execWdebug (ext : Word) (ea : Ea) (s : State) : Res :=
  privileged s <| extChecked (ext == 0x0003#16) <|
    let a := s.eaAddr ea
    let (w0, s1) := (s.pst 1#4).drainBuffers.load a .l
    let (w1, s2) := s1.load (a + 4#32) .l
    if a.extractLsb' 0 2 = 0#2 ∧ wdebugCommand w0 = true then
      match s2.takeBreakpoints with
      | .next s3 =>
        .next ((s3.coreWriteDebug (w0.extractLsb' 16 4) (w0.extractLsb' 0 16 ++ w1.extractLsb' 16 16)).advance
          (1 + eaLen ea))
      | .fault f => .fault f
      | .refused f => .refused f
    else .refused .wdebugBadOperand

end Sys2Proof.Machine
end

