-- ==== Sys2Proof/Machine/Bdm.lean ====
section
/-! DEFINITION. Sys2Proof/Machine/Bdm.lean: background debug mode (spec/61_debug_and_bdm.md R605 to R634): one 17-bit
exchange takes a word from the development system and answers one. -/

namespace Sys2Proof.Machine

/-! ### Packets (R606) -/

/-- A word of valid data. -/
def dataPacket (w : Word) : BitVec 17 := w.setWidth 17
/-- Command complete. -/
def completePacket : BitVec 17 := 0x0FFFF#17
/-- Not ready with response. -/
def notReadyPacket : BitVec 17 := 0x10000#17
/-- Terminated bus cycle. -/
def errorPacket : BitVec 17 := 0x10001#17
/-- Illegal command. -/
def illegalPacket : BitVec 17 := 0x1FFFF#17

/-! ### Commands (R608, R610) -/

/-- The commands of Table 6-3, with the operands of their operation words. -/
inductive Command where
  | rareg (k : RegX)
  | wareg (k : RegX)
  | read (sz : Size)
  | write (sz : Size)
  | dump (sz : Size)
  | fill (sz : Size)
  | go
  | nop
  | syncPc
  | rcreg
  | wcreg
  | rdmreg (drc : BitVec 4)
  | wdmreg (drc : BitVec 4)
deriving DecidableEq, Repr

/-- A sized memory command: the size field in bits 7 and 6 (R608); size 11 is unassigned. -/
def sizedCommand (w base : Word) (k : Size → Command) : Option Command :=
  if w = base then some (k .b)
  else if w = base ||| 0x0040#16 then some (k .w)
  else if w = base ||| 0x0080#16 then some (k .l)
  else none

/-- The register of RAREG and WAREG: A/D and the number (R608); a register number as in R[k]. -/
def commandReg (w : Word) : RegX := w.extractLsb' 0 4

/-- The command of an operation word (R610); `none` is an illegal command (R628). SYNC_PC's word is presumed. -/
def decodeCommand (w : Word) : Option Command :=
  if w &&& 0xFFF0#16 = 0x2180#16 then some (.rareg (commandReg w))
  else if w &&& 0xFFF0#16 = 0x2080#16 then some (.wareg (commandReg w))
  else if w &&& 0xFF00#16 = 0x1900#16 then sizedCommand w 0x1900#16 .read
  else if w &&& 0xFF00#16 = 0x1800#16 then sizedCommand w 0x1800#16 .write
  else if w &&& 0xFF00#16 = 0x1D00#16 then sizedCommand w 0x1D00#16 .dump
  else if w &&& 0xFF00#16 = 0x1C00#16 then sizedCommand w 0x1C00#16 .fill
  else if w = 0x0C00#16 then some .go
  else if w = 0x0000#16 then some .nop
  else if w = 0x0001#16 then some .syncPc
  else if w = 0x2980#16 then some .rcreg
  else if w = 0x2880#16 then some .wcreg
  else if w &&& 0xFFF0#16 = 0x2D80#16 then some (.rdmreg (w.extractLsb' 0 4))
  else if w &&& 0xFFF0#16 = 0x2C80#16 then some (.wdmreg (w.extractLsb' 0 4))
  else none

/-- The number of words of data of a size (R608). -/
def sizeWords : Size → Nat
  | .l => 2
  | _ => 1

/-- The number of extension words of a command (R610). -/
def commandExt : Command → Nat
  | .rareg _ | .dump _ | .go | .nop | .syncPc | .rdmreg _ => 0
  | .wareg _ | .read _ | .rcreg | .wdmreg _ => 2
  | .write sz => 2 + sizeWords sz
  | .fill sz => sizeWords sz
  | .wcreg => 4

/-- What a command answers. -/
inductive Reply where
  | complete
  | illegal
  /-- Data of a size (R608). -/
  | data (sz : Size) (v : Long)
  /-- The error status in place of the words of a result. -/
  | error (words : Nat)
deriving DecidableEq, Repr

/-- The response words of a reply (R609, R606). The word that the development system sends while it reads an illegal
response is not taken: the module treats the next one as a new command (R628). -/
def replyPackets : Reply → List (BitVec 17)
  | .complete => [completePacket]
  | .illegal => [illegalPacket, completePacket]
  | .data .l v => [dataPacket (v.extractLsb' 16 16), dataPacket (v.extractLsb' 0 16)]
  | .data _ v => [dataPacket (v.extractLsb' 0 16)]
  | .error n => List.replicate n errorPacket

/-! ### Memory commands (R614 to R622) -/

/-- force_align (R620). -/
def forceAlign (a : Long) : Size → Long
  | .b => a
  | .w => a &&& 0xFFFFFFFE#32
  | .l => a &&& 0xFFFFFFFC#32

/-- SZ in the coding of the BAAR (R619). -/
def baarSize : Size → BitVec 2
  | .l => 0#2
  | .b => 1#2
  | .w => 2#2

/-- The BAAR with its bits 7 to 5 loaded from the command (R619). -/
def loadBaar (baar : Byte) (read : Bool) (sz : Size) : Byte :=
  (if read then 1#1 else 0#1) ++ baarSize sz ++ baar.extractLsb' 0 5

/-- The attributes of a BDM access (R619). -/
def State.bdmSpace (s : State) : Space := { tt := s.dbg.baar.extractLsb' 3 2, tm := s.dbg.baar.extractLsb' 0 3 }

/-- After a memory command: the BAAR, the address for DUMP and FILL, the chain (R616 to R619). -/
def State.bdmNext (s : State) (read : Bool) (sz : Size) (a : Long) : State :=
  { s with
    dbg := { s.dbg with baar := loadBaar s.dbg.baar read sz }
    bdm := { s.bdm with
      tempAddr := some (a + BitVec.ofNat 32 sz.bytes), chain := if read then .read else .write } }

/-- READ and DUMP (R614, R616): one aligned access with the attributes of the BAAR; the upper byte of a byte result is
undefined (R622). To UCNOIF and UCNOOP it is an operand access, whatever its TM (DESIGN CHOICE, log entry 58). -/
def State.bdmRead (s : State) (sz : Size) (addr : Long) : Reply × State :=
  let a := forceAlign addr sz
  let (v, m) := readOperand s.route s.ms s.bdmSpace a sz
  let s1 := (s.setMs m).bdmNext true sz a
  match sz with
  | .b => (.data .b ((Config.bdmByteHigh s1.free ++ v.extractLsb' 0 8).setWidth 32), s1.drawn)
  | _ => (.data sz v, s1)

/-- WRITE and FILL (R615, R617): a protected space answers the error, and nothing is written (R621). To
UCNOOP it is an operand access, whatever its TM (DESIGN CHOICE, log entry 58). -/
def State.bdmWrite (s : State) (sz : Size) (addr v : Long) : Reply × State :=
  let a := forceAlign addr sz
  let m := writeOperand s.route { s.ms with writeError := false } s.bdmSpace a sz v
  let s1 := (s.setMs { m with writeError := s.ms.writeError }).bdmNext false sz a
  (if m.writeError then .error 1 else .complete, s1)

/-! ### Control registers (R626, R627, spec/10_state.md R61) -/

/-- The registers of Table 6-5. -/
inductive BdmReg where
  | ctl (r : CtlReg)
  | macsr
  | mask
  | acc
  | sr
  | pc
deriving DecidableEq, Repr

/-- The register of the two address words of RCREG and WCREG (spec/61_debug_and_bdm.md R626); the MAC registers only where
the unit is present. DESIGN CHOICE (log entry 44): a second word that is not $0000, or a third with any of its bits 15 to
12 set, names no register, like an Rc outside the map. -/
def bdmReg (hasMac : Bool) (w1 w2 : Word) : Option BdmReg :=
  if w1 = 0#16 then
    (if w2 = 0x0804#16 ∧ hasMac = true then some .macsr
    else if w2 = 0x0805#16 ∧ hasMac = true then some .mask
    else if w2 = 0x0806#16 ∧ hasMac = true then some .acc
    else if w2 = 0x080E#16 then some .sr
    else if w2 = 0x080F#16 then some .pc
    else if w2 &&& 0xF000#16 = 0#16 then (ctlReg (w2.extractLsb' 0 12)).map .ctl
    else none)
  else none

/-- The value RCREG returns; the bits a narrow register lacks are undefined. -/
def State.readBdmReg (s : State) (r : BdmReg) : Long :=
  let free := Config.rcregBits s.free
  match r with
  | .ctl c => s.getCtl c
  | .macsr => free.extractLsb' 8 24 ++ s.mac.macsr
  | .mask => free.extractLsb' 16 16 ++ s.mac.mask
  | .acc => s.mac.acc
  | .sr => free.extractLsb' 16 16 ++ s.cpu.sr
  | .pc => s.cpu.pc

/-- What WCREG does; a PC loaded in the reset window bypasses the reset exception. DESIGN CHOICE (log entry 14): a write of
the CACR that clears ESB leaves what is buffered in the store buffer, until the buffers are next emptied
(spec/21_cache_and_local_memory.md R159 does not describe the case). -/
def State.writeBdmReg (s : State) (r : BdmReg) (v : Long) : State :=
  match r with
  | .ctl c => s.setCtl c v
  | .macsr => { s with mac := setMacsr s.mac v }
  | .mask => { s with mac := setMask s.mac v }
  | .acc => { s with mac := { s.mac with acc := v } }
  | .sr => s.setSr (v.extractLsb' 0 16)
  | .pc => { s.setPc v with bdm := { s.bdm with pcLoaded := s.bdm.pcLoaded || s.ev.resetPending } }

/-! ### Debug registers (R631) -/

/-- RDMREG: the CSR; its halt sources are cleared. A reserved register reads as anything (R629). -/
def State.readDebugReg (s : State) (drc : BitVec 4) : Long × State :=
  if drc = 0#4 then
    (s.dbg.csr, { s with dbg := { s.dbg with csr := s.dbg.csr &&& 0xF0FFFFFF#32 } })
  else (Config.rdmregBits s.free, s.drawn)

/-! ### Execution -/

/-- GO (R624): nothing while the core is not halted (R611); refused after a fault-on-fault. -/
def State.bdmGo (s : State) : Except Refusal State :=
  if s.ev.run ≠ .halted then .ok s
  else if s.ev.faultOnFault then .error .goAfterFaultOnFault
  else
    let s1 := (s.setEv { s.ev with stepDone := false }).flush
    .ok (if s.ev.resetPending then s1.resetGo else s1.setEv { s1.ev with run := .running })

/-- The chain that a command other than a memory command leaves (R618). -/
def chainAfter (c : Command) (old : Chain) : Chain :=
  match c with
  | .nop => (match old with | .none => .nopOnly | k => k)
  | _ => .none

/-- The word at a place of a command. -/
def commandWord (ws : List Word) (n : Nat) : Word := ws.getD n 0#16

/-- Two words as a longword, the first more significant (R608). -/
def commandLong (ws : List Word) (n : Nat) : Long := commandWord ws n ++ commandWord ws (n + 1)

/-- The data words of a size, from a place on. -/
def commandData (ws : List Word) (n : Nat) : Size → Long
  | .l => commandLong ws n
  | _ => (commandWord ws n).setWidth 32

/-- A command that needs the core halted (R611). -/
def State.whenHalted (s : State) (words : Nat) (k : Reply × State) : Reply × State :=
  if s.ev.run = .halted then k else (.error words, s)

/-- DUMP and FILL (R616 to R618): legal in their own chain; with no address at all the model refuses. -/
def State.chained (s : State) (want : Chain) (k : Long → Reply × State) : Except Refusal (Reply × State) :=
  match s.bdm.tempAddr with
  | some a =>
    if s.bdm.chain = want then .ok (k a) else .ok (.illegal, { s with bdm := { s.bdm with chain := .none } })
  | none =>
    if s.bdm.chain = .nopOnly then .error .bdmNoAddress
    else .ok (.illegal, { s with bdm := { s.bdm with chain := .none } })

/-- Perform a complete command: `ws` are its words, the operation word first. -/
def State.bdmCommand (s : State) (c : Command) (ws : List Word) : Except Refusal (Reply × State) :=
  let s0 : State := { s with bdm := { s.bdm with chain := chainAfter c s.bdm.chain } }
  match c with
  | .rareg k => .ok (s0.whenHalted 2 (.data .l (s0.getR k), s0))
  | .wareg k => .ok (s0.whenHalted 1 (.complete, s0.setR k (commandLong ws 1)))
  | .read sz => .ok (s.bdmRead sz (commandLong ws 1))
  | .write sz => .ok (s.bdmWrite sz (commandLong ws 1) (commandData ws 3 sz))
  | .dump sz => s.chained .read (fun a => s.bdmRead sz a)
  | .fill sz => s.chained .write (fun a => s.bdmWrite sz a (commandData ws 1 sz))
  | .go => s0.bdmGo.map (fun t => (.complete, t))
  | .nop => .ok (.complete, s0)
  | .syncPc => .ok (.complete, { s0 with bdm := { s0.bdm with syncPc := true } })
  | .rcreg =>
    if s.ev.run = .halted then
      match bdmReg s.pins.hasMac (commandWord ws 1) (commandWord ws 2) with
      | some r => .ok (.data .l (s0.readBdmReg r), s0.drawn)
      | none => .error .bdmUnknownRegister
    else .ok (.error 2, s0)
  | .wcreg =>
    if s.ev.run = .halted then
      match bdmReg s.pins.hasMac (commandWord ws 1) (commandWord ws 2) with
      | some r => .ok (.complete, s0.writeBdmReg r (commandLong ws 3))
      | none => .error .bdmUnknownRegister
    else .ok (.error 1, s0)
  | .rdmreg drc => .ok (.data .l (s0.readDebugReg drc).1, (s0.readDebugReg drc).2)
  | .wdmreg drc => .ok (.complete, s0.bdmWriteDebug drc (commandLong ws 1))

/-- Answer a packet and remember what is still to be answered. -/
def State.answer (s : State) (p : BitVec 17) (resp : List (BitVec 17)) : State :=
  { s with bdm := { s.bdm with tx := s.bdm.tx ++ [p], resp := resp } }

/-- Take the words of a command so far: perform it when it is complete (R609). The accesses of the command are no
concern of the breakpoints (R656). DESIGN CHOICE (log entry 28): a FILL out of its chain (R618) is answered illegal when its
data words have been taken, each answered not ready. -/
def State.assemble (s : State) (ws : List Word) : Except Refusal State :=
  match decodeCommand (commandWord ws 0) with
  | none =>
    .ok { s with bdm := { s.bdm with cmd := [], chain := .none, resp := replyPackets .illegal } }
  | some c =>
    if ws.length = 1 + commandExt c then
      (s.bdmCommand c ws).map (fun rs =>
        { rs.2 with
          bdm := { rs.2.bdm with cmd := [], resp := replyPackets rs.1 }
          ms := { rs.2.ms with xfers := [] } })
    else .ok { s with bdm := { s.bdm with cmd := ws, resp := [] } }

/-- One exchange (R605, R609): the word `p` goes in, one packet comes out. While a command is being assembled the
answer is not ready; the last word of a response, or command complete if there is none, comes out with the next command
word; an earlier word of a response, with a word that is not taken. Bit 16 of what comes in is ignored (R607). -/
def State.exchange (s : State) (p : BitVec 17) : Except Refusal State :=
  let w : Word := p.extractLsb' 0 16
  match s.bdm.cmd, s.bdm.resp with
  | c :: cs, _ => (s.answer notReadyPacket []).assemble (c :: cs ++ [w])
  | [], q :: r :: t => .ok (s.answer q (r :: t))
  | [], [q] => (s.answer q []).assemble [w]
  | [], [] => (s.answer completePacket []).assemble [w]

end Sys2Proof.Machine
end

