-- ==== Sys2Proof/Machine/Boundary.lean ====
section
/-! DEFINITION. Sys2Proof/Machine/Boundary.lean: the boundary between instructions (spec/60_exceptions.md R504), the fetch of
an instruction (spec/20_memory.md R97, spec/30_encoding.md R200), and what follows its execution. -/

namespace Sys2Proof.Machine

/-! ### Sampling the pins -/

/-- The interrupt level on the pins (spec/10_state.md R69). -/
def State.level (s : State) : BitVec 3 := ~~~s.pins.miplb

/-- A falling edge of BKPT with CSR.BKD set asks for a debug interrupt (spec/61_debug_and_bdm.md R597). -/
def State.bkptEdge (s : State) : Bool := s.pins.bkpt && !s.ev.bkptPrev && s.dbg.csr.getLsbD 18

/-- BKPT asserted with CSR.BKD clear asks for a halt (R596); while the core is halted it asks for none (DESIGN CHOICE, log
entry 40). -/
def State.bkptHalt (s : State) : Bool := s.pins.bkpt && !s.dbg.csr.getLsbD 18 && s.ev.run != .halted

/-- Sample the pins: pending requests, and the edge memories (R69, R70). DESIGN CHOICE (log entry 40): a debug interrupt
asked for in emulator mode, which ignores it (spec/61_debug_and_bdm.md R597), is not dropped but stays pending. -/
def State.sample (s : State) : State :=
  s.setEv { s.ev with
    nmiTaken := s.ev.nmiTaken && s.level == 7#3
    debugInt := s.ev.debugInt || s.bkptEdge
    haltBkpt := s.ev.haltBkpt || s.bkptHalt
    bkptPrev := s.pins.bkpt }

/-! ### The boundary (R504) -/

/-- Interrupts and the debug interrupt are not recognised (R504, R510, spec/61_debug_and_bdm.md R598). -/
def State.interruptsOff (s : State) : Bool :=
  s.ev.boundaryTaken || s.ev.inhibitInt || s.ev.emulator || (s.dbg.csr.getLsbD 4 && s.dbg.csr.getLsbD 5)

/-- An interrupt request passes the mask (R540). -/
def State.takesInterrupt (s : State) : Bool :=
  decide (s.ipl < s.level) || (s.level == 7#3 && !s.ev.nmiTaken)

/-- The exception just taken was taken at a boundary (R504). -/
def State.atBoundary (s : State) : State := s.setEv { s.ev with boundaryTaken := true }

/-- What a boundary decides: an event was taken, or execution goes on. -/
inductive Boundary where
  | event (s : State)
  | goOn (s : State)
  | refused (r : Refusal)
deriving DecidableEq, Repr

/-- Items 5 and 6 of R504. A debug interrupt that emulator mode has held back is taken at the boundary after the RTE
(DESIGN CHOICE, log entry 40). -/
def State.boundaryInterrupts (s : State) : Boundary :=
  if s.interruptsOff then .goOn s
  else if s.ev.debugInt then .event s.debugInterrupt.atBoundary
  else if s.takesInterrupt then
    (if s.pins.en000iack then .refused .mc68000AcknowledgeCycle else .event (s.interrupt s.level).atBoundary)
  else .goOn s

/-- Item 4 of R504: the single step made, a halt that a trigger asks for, the BKPT pin. A PC breakpoint that fires now
is reported now (spec/61_debug_and_bdm.md R653), even at a boundary that has taken its event. -/
def State.boundaryHalts (s : State) (fired : Bool) : Boundary :=
  if s.ev.haltTrg && (fired || !s.ev.boundaryTaken) then .event (s.haltFor 26)
  else if s.ev.haltBkpt && !s.ev.boundaryTaken then .event (s.haltFor 24)
  else s.boundaryInterrupts

/-- The single step, the PC breakpoint, then the halts. DESIGN CHOICE (log entry 39): while the core is stopped the PC
breakpoint on the instruction after the STOP is not evaluated, though the core samples for interrupts all the time
(spec/61_debug_and_bdm.md R646, spec/60_exceptions.md R565; spec/45_system_control.md R470 case 4 treats a pending halt
alone); it is evaluated at the first boundary at which the core runs again. DESIGN CHOICE (log entry 36): a halt that a trigger or the BKPT
pin asks for stays pending across the halt of a single step, and is taken after the next GO, before an
instruction. -/
def State.boundaryStop (s : State) : Boundary :=
  if s.ev.stepDone then .event (s.setEv { s.ev with stepDone := false }).enterHalted
  else if s.ev.run = .stopped then s.boundaryHalts false
  else
    match s.pcBreakpoint with
    | .next s1 => s1.boundaryHalts (s1.ev.haltTrg && !s.ev.haltTrg)
    | .refused r => .refused r
    | .fault _ => .goOn s

/-- The boundary before an instruction, items 2 to 6 of R504 in order. -/
def State.boundary (s : State) : Boundary :=
  if s.ms.writeError && !s.ev.boundaryTaken then
    .event ((s.setEv { s.ev with tracePending := false }).accessError s.cpu.pc).atBoundary
  else if s.ev.tracePending && !s.ev.boundaryTaken then
    .event ((s.setEv { s.ev with tracePending := false }).traceException s.cpu.pc).atBoundary
  else s.boundaryStop

/-! ### Fetch -/

/-- Fetch one instruction word as code. -/
def State.fetchCode (s : State) (a : Long) : Word × State :=
  let (w, m) := fetchWord s.route s.ms s.codeSpace a s.free
  (w, (s.setMs m).drawn)

/-- Fetch the instruction at the PC: the operation word, then the extension words it announces (R203). -/
def State.fetchInstr (s : State) : Decoded × State :=
  let (op, s1) := s.fetchCode s.cpu.pc
  match opExtLen op with
  | 0 => (decode op 0#16 0#16, s1)
  | 1 =>
    let (e1, s2) := s1.fetchCode (s.cpu.pc + 2#32)
    (decode op e1 0#16, s2)
  | _ =>
    let (e1, s2) := s1.fetchCode (s.cpu.pc + 2#32)
    let (e2, s3) := s2.fetchCode (s.cpu.pc + 4#32)
    (decode op e1 e2, s3)

/-- The start of an instruction: no boundary has taken its event, and interrupts are sampled again after it (R70 e). -/
def State.beginInstr (s : State) : State := s.setEv { s.ev with inhibitInt := false, boundaryTaken := false }

/-! ### After an instruction -/

/-- The instruction raised an exception (or ended in fault-on-fault). -/
def State.raised (s : State) : Bool := s.ev.inhibitInt || s.ev.faultOnFault

/-- SYNC_PC shows the PC of the next instruction (spec/61_debug_and_bdm.md R625). DESIGN CHOICES (log entry 55): one sent
to a halted or stopped core stays pending until an instruction has executed; one pending when a HALT or STOP executes is
shown at the end of that instruction, after the $F or $E of the state it enters (spec/45_system_control.md R468, R470). -/
def State.showSync (s : State) : State :=
  if s.bdm.syncPc then (({ s with bdm := { s.bdm with syncPc := false } }.pst 5#4).target s.cpu.pc) else s

/-- What follows an instruction that began in state `s0` (R504, R525, spec/61_debug_and_bdm.md R598, R651, R654): the
address and data breakpoints, the trace exception to come, the single step; breakpoints are inhibited after the RTE that
leaves emulator mode, until the next instruction has completed (R70 f). DESIGN
CHOICE (log entry 30): the frame reads of that RTE itself are not compared either. DESIGN CHOICE (log entry 36): CSR.SSM
is read after the instruction, so that the instruction that sets it is a single step itself. DESIGN CHOICE (log entry
55): a pending SYNC_PC is shown after whatever instruction this is, a HALT or STOP too. -/
def State.endInstr (s0 s : State) : Res :=
  let r : Res := if s0.ev.inhibitBp || s.ev.inhibitBp then .next s else s.xferBreakpoints s0.cpu.pc s.ms.xfers
  match r with
  | .next s1 =>
    .next (s1.setEv { s1.ev with
      tracePending := s0.trace && !s.raised, stepDone := s.dbg.csr.getLsbD 4,
      inhibitBp := s0.ev.emulator && !s.ev.emulator }).showSync
  | .fault f => .fault f
  | .refused f => .refused f

end Sys2Proof.Machine
end

