-- ==== Sys2Proof/Machine/DataMove.lean ====
section
/-! DEFINITION. Sys2Proof/Machine/DataMove.lean: MOVE, MOVEA, MOVEQ, MOVEM, CLR, LEA, PEA, LINK, UNLK
(spec/40_data_movement.md R260 to R277). -/

namespace Sys2Proof.Machine

open Dec (eaLen)

/-- MOVE (R261): read the source, locate the destination, set N and Z, write (spec/30_encoding.md R231). -/
def moveOp (sz : Size) (src dst : Ea) (s : State) : Res :=
  checked s src <| checked s dst <|
    let (v, s1) := (s.pst 1#4).eaRead src sz
    let (loc, s2) := s1.locate dst sz
    .next (((s2.setFlags (nzFlags s2.flags sz v)).writeLoc loc sz v).advance (eaLen src + eaLen dst))

/-- MOVE.B (R261). -/
def execMoveB (src dst : Ea) (s : State) : Res := moveOp .b src dst s

/-- MOVE.W (R261). -/
def execMoveW (src dst : Ea) (s : State) : Res := moveOp .w src dst s

/-- MOVE.L (R261). -/
def execMoveL (src dst : Ea) (s : State) : Res := moveOp .l src dst s

/-- MOVEA (R262): the whole register, a word sign-extended; no flags; the load wins over a postincrement. -/
def moveaOp (sz : Size) (src : Ea) (ax : Reg) (s : State) : Res :=
  checked s src <|
    let (v, s1) := (s.pst 1#4).eaRead src sz
    .next ((s1.setA ax (extendA sz v)).advance (eaLen src))

/-- MOVEA.L (R262). -/
def execMoveaL (src : Ea) (ax : Reg) (s : State) : Res := moveaOp .l src ax s

/-- MOVEA.W (R262). -/
def execMoveaW (src : Ea) (ax : Reg) (s : State) : Res := moveaOp .w src ax s

/-- MOVEQ (R263). -/
def execMoveq (d : Byte) (dx : Reg) (s : State) : Res :=
  let v : Long := d.signExtend 32
  .next ((((s.pst 1#4).setFlags (nzFlags s.flags .l v)).setD dx v).advance 0)

/-- CLR (R270): the destination is written, not read. -/
def clrOp (sz : Size) (ea : Ea) (s : State) : Res :=
  checked s ea <|
    .next ((((s.pst 1#4).setFlags (nzFlags s.flags sz 0#32)).eaWrite ea sz 0#32).advance (eaLen ea))

/-- CLR.B (R270). -/
def execClrB (ea : Ea) (s : State) : Res := clrOp .b ea s

/-- CLR.W (R270). -/
def execClrW (ea : Ea) (s : State) : Res := clrOp .w ea s

/-- CLR.L (R270). -/
def execClrL (ea : Ea) (s : State) : Res := clrOp .l ea s

/-- LEA (R271). -/
def execLea (ea : Ea) (ax : Reg) (s : State) : Res :=
  checked s ea <| .next (((s.pst 1#4).setA ax (s.eaAddr ea)).advance (eaLen ea))

/-- Push a longword: SP - 4 -> SP; v -> (SP). -/
def State.push (s : State) (v : Long) : State := (s.setSp (s.sp - 4#32)).store (s.sp - 4#32) .l v

/-- PEA (R272): the address is computed before SP changes. -/
def execPea (ea : Ea) (s : State) : Res :=
  checked s ea <| .next (((s.pst 1#4).push (s.eaAddr ea)).advance (eaLen ea))

/-- LINK (R273), the four steps in order; LINK A7 stores the decremented SP. -/
def execLink (ay : Reg) (d : Word) (s : State) : Res :=
  let s1 := (s.pst 1#4).setSp (s.sp - 4#32)
  let s2 := s1.store s1.sp .l (s1.getA ay)
  let s3 := s2.setA ay s2.sp
  .next ((s3.setSp (s3.sp + d.signExtend 32)).advance 1)

/-- UNLK (R274). The final A7 of UNLK A7 is a free value. -/
def execUnlk (ax : Reg) (s : State) : Res :=
  let s1 := (s.pst 1#4).setSp (s.getA ax)
  let (v, s2) := s1.load s1.sp .l
  if ax = spReg then .next (((s2.setSp (Config.unlkA7 s2.free)).drawn).advance 0)
  else .next (((s2.setA ax v).setSp (s2.sp + 4#32)).advance 0)

/-- The registers of a MOVEM mask, ascending (R275): bit k selects R[k]. -/
def maskRegs (mask : Word) : List RegX :=
  ((List.range 16).filter (fun k => mask.getLsbD k)).map (fun k => BitVec.ofNat 4 k)

/-- The accesses of a MOVEM, in order (R277): the next four registers as one line wherever the running address is
0 modulo 16 and four are left, in every region (DESIGN CHOICE for those not cachable, log entry 41); else one register
as a longword. -/
def movemUnits (a : Long) : List RegX → List (Long × List RegX)
  | k0 :: k1 :: k2 :: k3 :: t =>
    if a.extractLsb' 0 4 = 0#4 then (a, [k0, k1, k2, k3]) :: movemUnits (a + 16#32) t
    else (a, [k0]) :: movemUnits (a + 4#32) (k1 :: k2 :: k3 :: t)
  | k :: t => (a, [k]) :: movemUnits (a + 4#32) t
  | [] => []

/-- Store one unit; a line is not shown on the trace port (R277). -/
def storeUnit (s : State) (a : Long) : List RegX → State
  | [k] => s.store a .l (s.getR k)
  | ks => s.storeLine a (ks.map s.getR)

/-- Load registers from values, in order. -/
def setRegs (s : State) : List RegX → List Long → State
  | k :: ks, v :: vs => setRegs (s.setR k v) ks vs
  | _, _ => s

/-- Load one unit. -/
def loadUnit (s : State) (a : Long) : List RegX → State
  | [k] => (s.load a .l).2.setR k (s.load a .l).1
  | ks => setRegs (s.loadLine a).2 ks (s.loadLine a).1

/-- Store registers at ascending addresses (R275). -/
def storeRegs (s : State) (a : Long) (ks : List RegX) : State :=
  (movemUnits a ks).foldl (fun s u => storeUnit s u.1 u.2) s

/-- Load registers from ascending addresses (R276). -/
def loadRegs (s : State) (a : Long) (ks : List RegX) : State :=
  (movemUnits a ks).foldl (fun s u => loadUnit s u.1 u.2) s

/-- MOVEM.L list,ea (R275). -/
def execMovemStore (mask : Word) (ea : Ea) (s : State) : Res :=
  .next ((storeRegs (s.pst 1#4) (s.eaAddr ea) (maskRegs mask)).advance (1 + eaLen ea))

/-- MOVEM.L ea,list (R276): the address is computed once, before any register is loaded. -/
def execMovemLoad (mask : Word) (ea : Ea) (s : State) : Res :=
  .next ((loadRegs (s.pst 1#4) (s.eaAddr ea) (maskRegs mask)).advance (1 + eaLen ea))

end Sys2Proof.Machine
end

