-- ==== Sys2Proof/Machine/Control.lean ====
section
/-! DEFINITION. Sys2Proof/Machine/Control.lean: program control (spec/43_program_control.md R380 to R396). -/

namespace Sys2Proof.Machine

open Dec (eaLen)

/-- The number of extension words of a branch (R382). -/
def dispLen : Disp → Nat
  | .d8 _ => 0
  | .d16 _ => 1

/-- The displacement of a branch (R382). -/
def dispLong : Disp → Long
  | .d8 d => d.signExtend 32
  | .d16 d => d.signExtend 32

/-- The target of a branch: PC + 2 + d (R382). -/
def State.branchTarget (s : State) (d : Disp) : Long := s.cpu.pc + 2#32 + dispLong d

/-- The test of a target before a transfer of control (R380): an odd one raises the address error of this
instruction, with nothing else changed. DESIGN CHOICE (log entry 54): the trace port shows neither the $5 nor the target of
a transfer that ends so. -/
def evenTarget (s : State) (t : Long) (k : Res) : Res := if t.getLsbD 0 then .next s.addressError else k

/-- BRA (R383). -/
def execBra (d : Disp) (s : State) : Res :=
  evenTarget s (s.branchTarget d) (.next ((s.pst 5#4).jumpTo (s.branchTarget d)))

/-- BSR (R384): the return address is pushed after the test of the target. -/
def execBsr (d : Disp) (s : State) : Res :=
  evenTarget s (s.branchTarget d)
    (.next (((s.pst 5#4).push (s.nextPc (dispLen d))).jumpTo (s.branchTarget d)))

/-- Bcc (R385): the target is tested only if the branch is taken. -/
def execBcc (cc : BitVec 4) (d : Disp) (s : State) : Res :=
  if cond s.flags cc then
    evenTarget s (s.branchTarget d) (.next ((s.pst 5#4).jumpTo (s.branchTarget d)))
  else .next ((s.pst 1#4).advance (dispLen d))

/-- The addressing modes whose target the debug module may show (spec/61_debug_and_bdm.md R587). -/
def variantMode : Ea → Bool
  | .ind _ | .disp _ _ | .idx _ _ | .pcIdx _ => true
  | _ => false

/-- The taken-branch mark of JMP and JSR, with the target of a variant mode. -/
def State.showJump (s : State) (ea : Ea) (t : Long) : State :=
  if variantMode ea then (s.pst 5#4).target t else s.pst 5#4

/-- JMP (R386). -/
def execJmp (ea : Ea) (s : State) : Res :=
  checked s ea <| evenTarget s (s.eaAddr ea) (.next ((s.showJump ea (s.eaAddr ea)).jumpTo (s.eaAddr ea)))

/-- JSR (R387): the target is computed and tested before SP changes. -/
def execJsr (ea : Ea) (s : State) : Res :=
  checked s ea <|
    evenTarget s (s.eaAddr ea)
      (.next (((s.showJump ea (s.eaAddr ea)).push (s.nextPc (eaLen ea))).jumpTo (s.eaAddr ea)))

/-- RTS (R388): the return address is tested before SP is increased. DESIGN CHOICE (log entry 54): the trace port shows
nothing of an RTS to an odd target. -/
def execRts (s : State) : Res :=
  let (t, s1) := (s.pst 1#4).load s.sp .l
  if t.getLsbD 0 then .next { s1 with port := s.port }.addressError
  else .next ((((s1.setSp (s.sp + 4#32)).jumpTo t).pst 5#4).target t)

/-- Scc (R389): the low byte alone is written. -/
def execScc (cc : BitVec 4) (dx : Reg) (s : State) : Res :=
  let v : Long := if cond s.flags cc then 0xFF#32 else 0#32
  .next (((s.pst 1#4).setD dx (merge .b (s.getD dx) v)).advance 0)

/-- NOP (R390): the buffers are emptied; a write error still pending is taken here, its stacked PC the NOP or the next
instruction (U19, a free value). -/
def execNop (s : State) : Res :=
  let s1 := s.drainBuffers
  if s1.ms.writeError then
    .next (s1.drawn.accessError (if Config.nopCollects s.free = 1#1 then s.nextPc 0 else s.cpu.pc))
  else .next ((s1.pst 1#4).advance 0)

/-- TRAP (R391): vector 32 + n, the next instruction stacked. -/
def execTrap (v : BitVec 4) (s : State) : Res :=
  .next ((s.pst 1#4).raiseNext (0x20#8 + v.setWidth 8) (s.nextPc 0))

/-- TRAPF (R392). -/
def execTrapf (s : State) : Res := .next ((s.pst 1#4).advance 0)

/-- TRAPF.W (R392): the extension word is skipped. -/
def execTrapfW (_w1 : Word) (s : State) : Res := .next ((s.pst 1#4).advance 1)

/-- TRAPF.L (R392): both extension words are skipped. -/
def execTrapfL (_w1 _w2 : Word) (s : State) : Res := .next ((s.pst 1#4).advance 2)

/-- ILLEGAL (R393). -/
def execIllegal (s : State) : Res := .next s.illegalInstruction

/-- RTE (R396). -/
def execRte (s : State) : Res := privileged s (.next s.returnFromException)

end Sys2Proof.Machine
end

