-- ==== Sys2Proof/Machine/Logic.lean ====
section
/-! DEFINITION. Sys2Proof/Machine/Logic.lean: logical, shift and bit instructions (spec/42_logical_shift_bit.md R340 to
R369). -/

namespace Sys2Proof.Machine

open Dec (eaLen)

/-- logic_flags (R340) of a two-operand result. -/
def logicFlags (r : Long → Long → Long) (old : Flags) (v d : Long) : Flags := nzFlags old .l (r v d)

def andL (s d : Long) : Long := s &&& d
def orL (s d : Long) : Long := s ||| d
def eorL (s d : Long) : Long := s ^^^ d

/-- AND.L ea,Dx (R341). -/
def execAndToD (ea : Ea) (dx : Reg) (s : State) : Res := eaToD ea dx s andL (logicFlags andL)

/-- AND.L Dy,ea (R342). -/
def execAndToEa (dy : Reg) (ea : Ea) (s : State) : Res := toEa (s.getD dy) ea s andL (logicFlags andL)

/-- An immediate logical operation on Dx (R343, R346, R348). -/
def immLogic (dx : Reg) (r : Long) (s : State) : Res := onD s dx r (nzFlags s.flags .l r) 2

/-- ANDI.L (R343). -/
def execAndiL (dx : Reg) (imm : Long) (s : State) : Res := immLogic dx (andL imm (s.getD dx)) s

/-- OR.L ea,Dx (R344). -/
def execOrToD (ea : Ea) (dx : Reg) (s : State) : Res := eaToD ea dx s orL (logicFlags orL)

/-- OR.L Dy,ea (R345). -/
def execOrToEa (dy : Reg) (ea : Ea) (s : State) : Res := toEa (s.getD dy) ea s orL (logicFlags orL)

/-- ORI.L (R346). -/
def execOriL (dx : Reg) (imm : Long) (s : State) : Res := immLogic dx (orL imm (s.getD dx)) s

/-- EOR.L Dy,ea (R347). -/
def execEorToEa (dy : Reg) (ea : Ea) (s : State) : Res := toEa (s.getD dy) ea s eorL (logicFlags eorL)

/-- EORI.L (R348). -/
def execEoriL (dx : Reg) (imm : Long) (s : State) : Res := immLogic dx (eorL imm (s.getD dx)) s

/-- NOT.L (R349). -/
def execNotL (dx : Reg) (s : State) : Res :=
  onD s dx (~~~(s.getD dx)) (nzFlags s.flags .l (~~~(s.getD dx))) 0

/-- The two halves of a longword exchanged. -/
def swapHalves (v : Long) : Long := v.extractLsb' 0 16 ++ v.extractLsb' 16 16

/-- SWAP (R350). -/
def execSwap (dx : Reg) (s : State) : Res :=
  onD s dx (swapHalves (s.getD dx)) (nzFlags s.flags .l (swapHalves (s.getD dx))) 0

/-- A shift of Dx by n (R355). -/
def shiftOp (dx : Reg) (n : Nat) (s : State) (r : Long → Nat → Long) (out : Long → Nat → Bool) : Res :=
  onD s dx (r (s.getD dx) n) (shiftFlags s.flags n (out (s.getD dx) n) (r (s.getD dx) n)) 0

/-- ASL.L #count,Dx (R356). -/
def execAslI (n dx : Reg) (s : State) : Res := shiftOp dx (quick n) s shiftLeft leftOut

/-- ASL.L Dy,Dx (R356). -/
def execAslD (dy dx : Reg) (s : State) : Res := shiftOp dx (regCount (s.getD dy)) s shiftLeft leftOut

/-- ASR.L #count,Dx (R357). -/
def execAsrI (n dx : Reg) (s : State) : Res := shiftOp dx (quick n) s shiftRightA rightOutA

/-- ASR.L Dy,Dx (R357). -/
def execAsrD (dy dx : Reg) (s : State) : Res := shiftOp dx (regCount (s.getD dy)) s shiftRightA rightOutA

/-- LSL.L #count,Dx (R358). -/
def execLslI (n dx : Reg) (s : State) : Res := shiftOp dx (quick n) s shiftLeft leftOut

/-- LSL.L Dy,Dx (R358). -/
def execLslD (dy dx : Reg) (s : State) : Res := shiftOp dx (regCount (s.getD dy)) s shiftLeft leftOut

/-- LSR.L #count,Dx (R359). -/
def execLsrI (n dx : Reg) (s : State) : Res := shiftOp dx (quick n) s shiftRightL rightOutL

/-- LSR.L Dy,Dx (R359). -/
def execLsrD (dy dx : Reg) (s : State) : Res := shiftOp dx (regCount (s.getD dy)) s shiftRightL rightOutL

/-- The size of a bit operand (R365): the whole register, or one byte of memory. -/
def bitSize : Ea → Size
  | .dn _ => .l
  | _ => .b

/-- The bit that is tested: the number modulo 32 in a register, modulo 8 in memory (R365). -/
def bitNumber (ea : Ea) (b : Long) : Nat := b.toNat % (8 * (bitSize ea).bytes)

/-- The bit instructions (R365): test the bit into Z; write the operand back unless it is a BTST. -/
def bitOp (b : Long) (ea : Ea) (n : Nat) (s : State) (f : Option (Long → Nat → Long)) : Res :=
  checked s ea <|
    let (loc, s1) := (s.pst 1#4).locate ea (bitSize ea)
    let (v, s2) := s1.readLoc loc (bitSize ea)
    let k := bitNumber ea b
    let s3 := s2.setFlags (onlyZ s2.flags (!v.getLsbD k))
    match f with
    | none => .next (s3.advance n)
    | some g => .next ((s3.writeLoc loc (bitSize ea) (g v k)).advance n)

/-- The tested bit inverted. -/
def bitChange (v : Long) (k : Nat) : Long := v ^^^ (1#32 <<< k)
/-- The tested bit cleared. -/
def bitClear (v : Long) (k : Nat) : Long := v &&& ~~~(1#32 <<< k)
/-- The tested bit set. -/
def bitSet (v : Long) (k : Nat) : Long := v ||| (1#32 <<< k)

/-- The #imm forms: the bit number in the low byte of the extension word, its high byte reserved. -/
def bitImm (rsv num : Byte) (ea : Ea) (s : State) (f : Option (Long → Nat → Long)) : Res :=
  extChecked (rsv == 0#8) (bitOp (num.setWidth 32) ea (1 + eaLen ea) s f)

/-- BTST #imm,ea (R366). -/
def execBtstI (rsv num : Byte) (ea : Ea) (s : State) : Res := bitImm rsv num ea s none

/-- BCHG #imm,ea (R367). -/
def execBchgI (rsv num : Byte) (ea : Ea) (s : State) : Res := bitImm rsv num ea s (some bitChange)

/-- BCLR #imm,ea (R368). -/
def execBclrI (rsv num : Byte) (ea : Ea) (s : State) : Res := bitImm rsv num ea s (some bitClear)

/-- BSET #imm,ea (R369). -/
def execBsetI (rsv num : Byte) (ea : Ea) (s : State) : Res := bitImm rsv num ea s (some bitSet)

/-- BTST Dy,ea (R366). -/
def execBtstD (dy : Reg) (ea : Ea) (s : State) : Res := bitOp (s.getD dy) ea (eaLen ea) s none

/-- BCHG Dy,ea (R367). -/
def execBchgD (dy : Reg) (ea : Ea) (s : State) : Res := bitOp (s.getD dy) ea (eaLen ea) s (some bitChange)

/-- BCLR Dy,ea (R368). -/
def execBclrD (dy : Reg) (ea : Ea) (s : State) : Res := bitOp (s.getD dy) ea (eaLen ea) s (some bitClear)

/-- BSET Dy,ea (R369). -/
def execBsetD (dy : Reg) (ea : Ea) (s : State) : Res := bitOp (s.getD dy) ea (eaLen ea) s (some bitSet)

end Sys2Proof.Machine
end

