-- ==== Sys2Proof/Machine/Dispatch.lean ====
section
/-! DEFINITION. Sys2Proof/Machine/Dispatch.lean: the meaning of every instruction, one arm per constructor. -/

namespace Sys2Proof.Machine

def exec (i : Instr) (s : State) : Host.Outcome State Fault Refusal :=
  match i with
  | .oriL dx imm => Sys2Proof.Machine.execOriL dx imm s
  | .andiL dx imm => Sys2Proof.Machine.execAndiL dx imm s
  | .subiL dx imm => Sys2Proof.Machine.execSubiL dx imm s
  | .addiL dx imm => Sys2Proof.Machine.execAddiL dx imm s
  | .eoriL dx imm => Sys2Proof.Machine.execEoriL dx imm s
  | .cmpiL dx imm => Sys2Proof.Machine.execCmpiL dx imm s
  | .btstI rsv num ea => Sys2Proof.Machine.execBtstI rsv num ea s
  | .bchgI rsv num ea => Sys2Proof.Machine.execBchgI rsv num ea s
  | .bclrI rsv num ea => Sys2Proof.Machine.execBclrI rsv num ea s
  | .bsetI rsv num ea => Sys2Proof.Machine.execBsetI rsv num ea s
  | .btstD dy ea => Sys2Proof.Machine.execBtstD dy ea s
  | .bchgD dy ea => Sys2Proof.Machine.execBchgD dy ea s
  | .bclrD dy ea => Sys2Proof.Machine.execBclrD dy ea s
  | .bsetD dy ea => Sys2Proof.Machine.execBsetD dy ea s
  | .moveB src dst => Sys2Proof.Machine.execMoveB src dst s
  | .moveL src dst => Sys2Proof.Machine.execMoveL src dst s
  | .moveaL src ax => Sys2Proof.Machine.execMoveaL src ax s
  | .moveW src dst => Sys2Proof.Machine.execMoveW src dst s
  | .moveaW src ax => Sys2Proof.Machine.execMoveaW src ax s
  | .negxL dx => Sys2Proof.Machine.execNegxL dx s
  | .moveFromSr dx => Sys2Proof.Machine.execMoveFromSr dx s
  | .lea ea ax => Sys2Proof.Machine.execLea ea ax s
  | .clrB ea => Sys2Proof.Machine.execClrB ea s
  | .clrW ea => Sys2Proof.Machine.execClrW ea s
  | .clrL ea => Sys2Proof.Machine.execClrL ea s
  | .moveFromCcr dx => Sys2Proof.Machine.execMoveFromCcr dx s
  | .negL dx => Sys2Proof.Machine.execNegL dx s
  | .moveToCcrD dy => Sys2Proof.Machine.execMoveToCcrD dy s
  | .moveToCcrI imm => Sys2Proof.Machine.execMoveToCcrI imm s
  | .notL dx => Sys2Proof.Machine.execNotL dx s
  | .moveToSrD dy => Sys2Proof.Machine.execMoveToSrD dy s
  | .moveToSrI imm => Sys2Proof.Machine.execMoveToSrI imm s
  | .swap dx => Sys2Proof.Machine.execSwap dx s
  | .pea ea => Sys2Proof.Machine.execPea ea s
  | .extW dx => Sys2Proof.Machine.execExtW dx s
  | .extL dx => Sys2Proof.Machine.execExtL dx s
  | .extbL dx => Sys2Proof.Machine.execExtbL dx s
  | .movemStore mask ea => Sys2Proof.Machine.execMovemStore mask ea s
  | .movemLoad mask ea => Sys2Proof.Machine.execMovemLoad mask ea s
  | .tstB ea => Sys2Proof.Machine.execTstB ea s
  | .tstW ea => Sys2Proof.Machine.execTstW ea s
  | .tstL ea => Sys2Proof.Machine.execTstL ea s
  | .halt => Sys2Proof.Machine.execHalt s
  | .pulse => Sys2Proof.Machine.execPulse s
  | .illegal => Sys2Proof.Machine.execIllegal s
  | .muluL rsv dx ea => Sys2Proof.Machine.execMuluL rsv dx ea s
  | .mulsL rsv dx ea => Sys2Proof.Machine.execMulsL rsv dx ea s
  | .divuL rsv dx ea => Sys2Proof.Machine.execDivuL rsv dx ea s
  | .divsL rsv dx ea => Sys2Proof.Machine.execDivsL rsv dx ea s
  | .remuL rsv dw dx ea => Sys2Proof.Machine.execRemuL rsv dw dx ea s
  | .remsL rsv dw dx ea => Sys2Proof.Machine.execRemsL rsv dw dx ea s
  | .trap v => Sys2Proof.Machine.execTrap v s
  | .link ay d => Sys2Proof.Machine.execLink ay d s
  | .unlk ax => Sys2Proof.Machine.execUnlk ax s
  | .nop => Sys2Proof.Machine.execNop s
  | .stop imm => Sys2Proof.Machine.execStop imm s
  | .rte => Sys2Proof.Machine.execRte s
  | .rts => Sys2Proof.Machine.execRts s
  | .movec ry rc => Sys2Proof.Machine.execMovec ry rc s
  | .jsr ea => Sys2Proof.Machine.execJsr ea s
  | .jmp ea => Sys2Proof.Machine.execJmp ea s
  | .addqL q ea => Sys2Proof.Machine.execAddqL q ea s
  | .subqL q ea => Sys2Proof.Machine.execSubqL q ea s
  | .scc cc dx => Sys2Proof.Machine.execScc cc dx s
  | .trapfW w1 => Sys2Proof.Machine.execTrapfW w1 s
  | .trapfL w1 w2 => Sys2Proof.Machine.execTrapfL w1 w2 s
  | .trapf => Sys2Proof.Machine.execTrapf s
  | .bra d => Sys2Proof.Machine.execBra d s
  | .bsr d => Sys2Proof.Machine.execBsr d s
  | .bcc cc d => Sys2Proof.Machine.execBcc cc d s
  | .moveq d dx => Sys2Proof.Machine.execMoveq d dx s
  | .orToD ea dx => Sys2Proof.Machine.execOrToD ea dx s
  | .divuW ea dx => Sys2Proof.Machine.execDivuW ea dx s
  | .orToEa dy ea => Sys2Proof.Machine.execOrToEa dy ea s
  | .divsW ea dx => Sys2Proof.Machine.execDivsW ea dx s
  | .subToD ea dx => Sys2Proof.Machine.execSubToD ea dx s
  | .subxL dy dx => Sys2Proof.Machine.execSubxL dy dx s
  | .subToEa dy ea => Sys2Proof.Machine.execSubToEa dy ea s
  | .subaL ea ax => Sys2Proof.Machine.execSubaL ea ax s
  | .macW rsv sf ux uy rx ry => Sys2Proof.Machine.execMacW rsv sf ux uy rx ry s
  | .macL rsv sf ux uy rx ry => Sys2Proof.Machine.execMacL rsv sf ux uy rx ry s
  | .msacW rsv sf ux uy rx ry => Sys2Proof.Machine.execMsacW rsv sf ux uy rx ry s
  | .msacL rsv sf ux uy rx ry => Sys2Proof.Machine.execMsacL rsv sf ux uy rx ry s
  | .macWLoad rsv sf ux uy msk rx ry rw ea => Sys2Proof.Machine.execMacWLoad rsv sf ux uy msk rx ry rw ea s
  | .macLLoad rsv sf ux uy msk rx ry rw ea => Sys2Proof.Machine.execMacLLoad rsv sf ux uy msk rx ry rw ea s
  | .msacWLoad rsv sf ux uy msk rx ry rw ea => Sys2Proof.Machine.execMsacWLoad rsv sf ux uy msk rx ry rw ea s
  | .msacLLoad rsv sf ux uy msk rx ry rw ea => Sys2Proof.Machine.execMsacLLoad rsv sf ux uy msk rx ry rw ea s
  | .moveToAcc ea => Sys2Proof.Machine.execMoveToAcc ea s
  | .moveFromAcc rx => Sys2Proof.Machine.execMoveFromAcc rx s
  | .moveToMacsr ea => Sys2Proof.Machine.execMoveToMacsr ea s
  | .moveFromMacsr rx => Sys2Proof.Machine.execMoveFromMacsr rx s
  | .moveMacsrToCcr => Sys2Proof.Machine.execMoveMacsrToCcr s
  | .moveToMask ea => Sys2Proof.Machine.execMoveToMask ea s
  | .moveFromMask rx => Sys2Proof.Machine.execMoveFromMask rx s
  | .cmpL ea dx => Sys2Proof.Machine.execCmpL ea dx s
  | .eorToEa dy ea => Sys2Proof.Machine.execEorToEa dy ea s
  | .cmpaL ea ax => Sys2Proof.Machine.execCmpaL ea ax s
  | .andToD ea dx => Sys2Proof.Machine.execAndToD ea dx s
  | .muluW ea dx => Sys2Proof.Machine.execMuluW ea dx s
  | .andToEa dy ea => Sys2Proof.Machine.execAndToEa dy ea s
  | .mulsW ea dx => Sys2Proof.Machine.execMulsW ea dx s
  | .addToD ea dx => Sys2Proof.Machine.execAddToD ea dx s
  | .addxL dy dx => Sys2Proof.Machine.execAddxL dy dx s
  | .addToEa dy ea => Sys2Proof.Machine.execAddToEa dy ea s
  | .addaL ea ax => Sys2Proof.Machine.execAddaL ea ax s
  | .asrI n dx => Sys2Proof.Machine.execAsrI n dx s
  | .lsrI n dx => Sys2Proof.Machine.execLsrI n dx s
  | .asrD dy dx => Sys2Proof.Machine.execAsrD dy dx s
  | .lsrD dy dx => Sys2Proof.Machine.execLsrD dy dx s
  | .aslI n dx => Sys2Proof.Machine.execAslI n dx s
  | .lslI n dx => Sys2Proof.Machine.execLslI n dx s
  | .aslD dy dx => Sys2Proof.Machine.execAslD dy dx s
  | .lslD dy dx => Sys2Proof.Machine.execLslD dy dx s
  | .cpushl ax => Sys2Proof.Machine.execCpushl ax s
  | .wddataB ea => Sys2Proof.Machine.execWddataB ea s
  | .wddataW ea => Sys2Proof.Machine.execWddataW ea s
  | .wddataL ea => Sys2Proof.Machine.execWddataL ea s
  | .wdebug ext ea => Sys2Proof.Machine.execWdebug ext ea s

end Sys2Proof.Machine
end

