-- ==== Sys2Proof/Machine/Execute.lean ====
section
/-! DEFINITION. Sys2Proof/Machine/Execute.lean: what one step of the core and of the debug module does
(spec/00_scope.md R10, spec/60_exceptions.md R504). -/

namespace Sys2Proof.Machine

/-- Execute what was fetched, or raise what an unassigned operation word raises (spec/30_encoding.md R201). -/
def execDecoded (d : Decoded) (s : State) : Res :=
  match d with
  | .ok i => exec i s
  | .illegal => .next s.illegalInstruction
  | .lineA => .next s.lineAException
  | .lineF => .next s.lineFException

/-- Execute the instruction at the PC. User privilege in emulator mode with CSR.MAP = 1 is refused (V16); an odd PC,
which only the debug module can load, raises the address error (spec/61_debug_and_bdm.md R627). -/
def State.execInstr (s : State) : Res :=
  if s.emuMap && !s.super then .refused .userCodeInEmulatorSpace
  else
    let r : Res :=
      if s.cpu.pc.getLsbD 0 then .next s.beginInstr.addressError
      else execDecoded s.beginInstr.fetchInstr.1 s.beginInstr.fetchInstr.2
    match r with
    | .next s1 => s.endInstr s1
    | .fault f => .fault f
    | .refused f => .refused f

/-- What follows an event of the boundary: the breakpoints on the accesses of its exception processing
(spec/61_debug_and_bdm.md R656). DESIGN CHOICE (log entry 55): a SYNC_PC that is pending is not shown here but after the
next instruction, the first of the handler (R625). -/
def State.endEvent (s0 s : State) : Res :=
  if s0.ev.inhibitBp then .next s else s.xferBreakpoints s0.cpu.pc s.ms.xfers

/-- The core after the pins were sampled: halted, it does nothing; stopped, it waits for an event; running, it takes the
event of the boundary or executes one instruction (R504). -/
def State.runCore (s : State) : Res :=
  if s.ev.run = .halted then .next s
  else
    match s.boundary with
    | .event s1 => s.endEvent s1
    | .refused r => .refused r
    | .goOn s1 => if s1.ev.run = .stopped then .next s1 else s1.execInstr

/-- One exchange of the debug module. -/
def State.bdmStep (s : State) (p : BitVec 17) (rest : List (BitVec 17)) : Res :=
  match { s with bdm := { s.bdm with rx := rest } }.exchange p with
  | .ok s1 => .next s1
  | .error r => .refused r

/-- The step's own records start empty: the trace port, the accesses and the M-Bus transfers of the step. -/
def State.fresh (s : State) : State := { s with port := [], ms := { s.ms with xfers := [], bus := [] } }

/-- One step of the machine: reset; then the reset window (spec/70_reset_and_hazards.md R682, R683), which no exchange
of the debug module enters but through the halt (R684); then the debug module if the development system has sent a word;
then the core. The pins are sampled in every step but those of the reset (log entry 39). -/
def State.stepInner (s : State) : Res :=
  if s.pins.encf5307kram || s.pins.enraptorkram then .refused .ramStyleNotDescribed
  else if s.pins.rsti then .next s.performReset
  else if s.ev.resetPending && s.ev.run != .halted then .next s.fresh.resetWindow
  else
    match s.bdm.rx with
    | p :: rest => s.fresh.sample.bdmStep p rest
    | [] => s.fresh.sample.runCore

/-- A transfer that is never acknowledged stops the machine for good (spec/20_memory.md R89). -/
def checkStuck : Res → Res
  | .next s => if s.ms.stuck then .fault .busNeverAcknowledged else .next s
  | .fault f => .fault f
  | .refused r => .refused r

/-- The bytes of an instruction placed at an address of the memory behind the M-Bus. -/
def State.placeCode (s : State) (a : Long) (ws : List Word) : State :=
  s.setMs { s.ms with mem := memWrite s.ms.mem a (bytesOf ws) }

/-- The run state in which the next step executes the instruction at the PC: the reset exception done, running. -/
def State.readyToRun (s : State) : State := s.setEv { s.ev with run := .running, resetPending := false }

end Sys2Proof.Machine
end

