-- ==== Sys2Proof/Machine/Step.lean ====
section
/-! DEFINITION. Sys2Proof/Machine/Step.lean: one step of the machine, and the placing of an instruction where the step
fetches. -/

namespace Sys2Proof.Machine

/-- One step (spec/00_scope.md R10): reset, an exchange of the debug module, an event of the boundary, or one
instruction. -/
def step (s : State) : Host.Outcome State Fault Refusal := checkStuck s.stepInner

/-- The instruction whose bits are w, stored at the PC in the memory behind the M-Bus, with the reset exception taken as
done (log entry 4): the state after reset fetches there, its cache and local memories being disabled. -/
def State.withFetchWord (s : State) (nbits w : Nat) : State :=
  (s.readyToRun).placeCode s.cpu.pc (tableWords nbits w)

end Sys2Proof.Machine
end

