-- ==== Sys2Proof/Machine/Outputs.lean ====
section
/-! DEFINITION. Sys2Proof/Machine/Outputs.lean: the output pins as views of the state (spec/10_state.md R75, R78). The trace
port's `pst` and `ddata` are the events of `State.port`, `dsdo` the packets of `Bdm.tx`; `maddr`, `msiz`, `mrw`, `mtt`
and `mtm` are the fields of a transfer (spec/20_memory.md R89); its data lanes are below. The signals that only tell the
phases of a transfer apart (`mapb`, `mdpb`, `mwdataoe`, and the input `mahb`) are time (spec/00_scope.md R4 c,
spec/71_timing.md R740). -/

namespace Sys2Proof.Machine

/-- `cpustopb`, active low: low while the processor is stopped (R75). -/
def State.cpustopb (s : State) : Bool := s.ev.run != .stopped

/-- `cpuhaltb`, active low: low while the processor is halted (R75). -/
def State.cpuhaltb (s : State) : Bool := s.ev.run != .halted

/-- `enpstclk`, the enable of the clock of the trace port: negated when CSR.PCD = 1 (R78). -/
def State.enpstclk (s : State) : Bool := !s.dbg.csr.getLsbD 17

/-- `ddata` while it shows no item: the breakpoint status (spec/61_debug_and_bdm.md R583); quiescent under PCD. -/
def State.ddata (s : State) : Option (BitVec 4) := if s.enpstclk then some s.ddataIdle else none

/-- `mrw`: high for a read (spec/20_memory.md R89). -/
def BusXfer.mrw (x : BusXfer) : Bool := x.read

/-- The four lanes of the data bus, the highest first, in one data phase of a read (Table 3-10): a lane that the core
ignores is none. -/
def readLanes (off : Nat) (bs : List Byte) : List (Option Byte) :=
  (List.replicate off none ++ bs.map some ++ List.replicate 4 none).take 4

/-- The four lanes in one data phase of a write, the data repeated for narrower ports (Table 3-11): a lane the table does
not define is none. -/
def writeLanes (off : Nat) : List Byte → List (Option Byte)
  | [b] =>
    match off with
    | 0 => [some b, none, none, none]
    | 1 => [some b, some b, none, none]
    | 2 => [some b, none, some b, none]
    | _ => [some b, some b, none, some b]
  | [b, c] => if off = 2 then [some b, some c, some b, some c] else [some b, some c, none, none]
  | bs => bs.map some

/-- The data phases of a transfer: one, or a line's four (R91). -/
def dataPhases : List Byte → List (List Byte)
  | b0 :: b1 :: b2 :: b3 :: b4 :: t => [b0, b1, b2, b3] :: dataPhases (b4 :: t)
  | bs => [bs]

/-- The lanes of `mrdata` or `mwdata` in each data phase of a transfer (spec/20_memory.md R90). -/
def BusXfer.lanes (x : BusXfer) : List (List (Option Byte)) :=
  (dataPhases x.data).map (if x.read then readLanes (x.addr.toNat % 4) else writeLanes (x.addr.toNat % 4))

/-- The longword addresses of a transfer's data phases (Table 3-12). -/
def BusXfer.addrs (x : BusXfer) : List Long :=
  (List.range (dataPhases x.data).length).map
    (fun k => (x.addr &&& 0xFFFFFFF0#32) ||| ((x.addr + BitVec.ofNat 32 (4 * k)) &&& 0xF#32))

end Sys2Proof.Machine
end

