-- ==== Sys2Proof/Safety.lean ====
section
/-! DEFINITION. Sys2Proof/Safety.lean: the terms in which statements are made: what completes, what a memory read shows,
what an instruction of a shape leaves, what an exception entry leaves, and the invariant of the machine. -/

namespace Sys2Proof

/-- The effective addresses of an instruction that can have an index word. -/
def Instr.eas : Instr → List Ea
  | .moveB s d | .moveW s d | .moveL s d => [s, d]
  | .moveaW s _ | .moveaL s _ => [s]
  | .btstD _ e | .bchgD _ e | .bclrD _ e | .bsetD _ e => [e]
  | .lea e _ | .pea e | .jsr e | .jmp e => [e]
  | .clrB e | .clrW e | .clrL e | .tstB e | .tstW e | .tstL e => [e]
  | .addqL _ e | .subqL _ e => [e]
  | .orToD e _ | .andToD e _ | .addToD e _ | .subToD e _ | .cmpL e _ => [e]
  | .addaL e _ | .subaL e _ | .cmpaL e _ => [e]
  | .orToEa _ e | .andToEa _ e | .eorToEa _ e | .addToEa _ e | .subToEa _ e => [e]
  | .divuW e _ | .divsW e _ | .muluW e _ | .mulsW e _ => [e]
  | .wddataB e | .wddataW e | .wddataL e => [e]
  | _ => []

/-- The instructions of the MAC unit (spec/44_mul_div_mac.md R420). -/
def Instr.usesMac : Instr → Bool
  | .macW .. | .macL .. | .msacW .. | .msacL .. | .macWLoad .. | .macLLoad .. | .msacWLoad .. | .msacLLoad .. => true
  | .moveToAcc _ | .moveFromAcc _ | .moveToMacsr _ | .moveFromMacsr _ | .moveMacsrToCcr => true
  | .moveToMask _ | .moveFromMask _ => true
  | _ => false

/-- The instructions of the divide unit (R420). -/
def Instr.usesDiv : Instr → Bool
  | .divuW .. | .divsW .. | .divuL .. | .divsL .. | .remuL .. | .remsL .. => true
  | _ => false

/-- The instructions that are always privileged (spec/45_system_control.md R460): all of the eight but HALT. -/
def Instr.privileged : Instr → Bool
  | .cpushl _ | .moveFromSr _ | .moveToSrD _ | .moveToSrI _ | .movec .. | .rte | .stop _ | .wdebug .. => true
  | _ => false

end Sys2Proof

namespace Sys2Proof.Machine

/-- The step answers a next state. -/
def Steps (s : State) : Prop := ∃ t, step s = .next t

/-- A run of k steps meets neither a fault nor a refusal. -/
def Safe (s : State) (k : Nat) : Prop := ∃ t, Host.Core.run Sys2Proof.core k s = .next t

/-! ### What a read shows -/

/-- The cache is disabled: CACR.EC = 0 (spec/10_state.md R42). -/
def Route.Off (r : Route) : Prop := r.ctl.cacr.getLsbD 31 = false

/-- The cache is disabled now. -/
def State.cacheOff (s : State) : Prop := s.route.Off

/-- The bytes that data reads with these attributes show. -/
def peekBytes (r : Route) (m : MemSys) (sp : Space) (a : Long) (n : Nat) : List Byte :=
  readBytes (fun i => peekByte r m sp false (BitVec.ofNat 32 i)) a n

/-- The byte that a data read with these attributes shows. -/
def State.peekIn (s : State) (sp : Space) (a : Long) : Byte := peekByte s.route s.ms sp false a

/-- The bytes at an address, as a program would read them now. -/
def State.bytes (s : State) (a : Long) (n : Nat) : List Byte := peekBytes s.route s.ms s.dataSpace a n

/-- The longword at an address, as a program would read it now (spec/20_memory.md R81). -/
def State.longAt (s : State) (a : Long) : Long := beValue (s.bytes a 4)

/-- Nothing protects the byte at an address from a write of this kind (spec/20_memory.md R113,
spec/21_cache_and_local_memory.md R186): the RAM, where it claims the address, is not write-protected; the ROM does not
claim it; else neither the ACRs nor CACR protect it. -/
def byteWritable (r : Route) (sp : Space) (a : Long) : Prop :=
  if ramClaims r sp a then r.ctl.rambar.getLsbD 8 = false
  else romClaims r sp a = false ∧ writeProtected r sp a = false

/-- Nothing protects the n bytes at an address from the program's writes. -/
def State.Writable (s : State) (a : Long) (n : Nat) : Prop :=
  ∀ i < n, byteWritable s.route s.dataSpace (a + BitVec.ofNat 32 i)

/-- The address lies outside the n bytes at `a`. -/
def Outside (a : Long) (n : Nat) (b : Long) : Prop := ∀ i < n, b ≠ a + BitVec.ofNat 32 i

/-- Every byte of memory reads as before. -/
def SameMem (s t : State) : Prop := ∀ a, t.peek a = s.peek a

/-- Every byte outside the n bytes at `a` reads as before. -/
def MemBut (s t : State) (a : Long) (n : Nat) : Prop := ∀ b, Outside a n b → t.peek b = s.peek b

/-- A store of an operand at `a`: nothing but its bytes changes, and they hold the value, most significant byte first,
unless something protects them. -/
def Stored (s t : State) (a : Long) (sz : Size) (v : Long) : Prop :=
  MemBut s t a sz.bytes ∧ (s.Writable a sz.bytes → t.bytes a sz.bytes = beBytes sz.bytes v)

/-! ### Frames -/

/-- The number of D[r] among R[0] to R[15]. -/
def dNum (r : Reg) : RegX := 0#1 ++ r

/-- The number of A[r] among R[0] to R[15]. -/
def aNum (r : Reg) : RegX := 1#1 ++ r

/-- One register of a file replaced. -/
def withReg (g : RegX → Long) (k : RegX) (v : Long) : RegX → Long := fun j => if j = k then v else g j

/-- Nothing but general registers, PC, SR, memory system and trace port has changed. -/
structure SameUnits (s t : State) : Prop where
  mac : t.mac = s.mac
  ctl : t.ctl = s.ctl
  dbg : t.dbg = s.dbg
  ev : t.ev = s.ev
  pins : t.pins = s.pins
  bdm : t.bdm = s.bdm
  free : t.free = s.free

/-- The five flags are `f`; every other bit of SR is as it was. -/
def FlagsNow (s t : State) (f : Flags) : Prop :=
  t.flags = f ∧ t.cpu.sr &&& 0xFFE0#16 = s.cpu.sr &&& 0xFFE0#16

/-- The registers after the operand of an effective address was evaluated (spec/30_encoding.md R218, R220): (An)+ and
-(An) move An by the size of the operand. -/
def State.regsAfter (s : State) (ea : Ea) (sz : Size) : RegX → Long :=
  match ea with
  | .postinc r => withReg s.getR (aNum r) (s.getA r + BitVec.ofNat 32 sz.bytes)
  | .predec r => withReg s.getR (aNum r) (s.getA r - BitVec.ofNat 32 sz.bytes)
  | _ => s.getR

/-- The value that reading an operand returns. -/
def State.operand (s : State) (ea : Ea) (sz : Size) : Long := (s.eaRead ea sz).1

/-- The memory system after reading an operand. -/
def State.msAfter (s : State) (ea : Ea) (sz : Size) : MemSys := (s.eaRead ea sz).2.ms

/-- The state in which the next operand is evaluated: the first one's postincrement or predecrement done. -/
def State.located (s : State) (ea : Ea) (sz : Size) : State := (s.locate ea sz).2

/-- The address of a memory operand. -/
def State.address (s : State) (ea : Ea) (sz : Size) : Long := (s.locate ea sz).1.addr

/-- The address after an instruction of n extension words (spec/10_state.md R27). -/
def State.after (s : State) (n : Nat) : Long := s.cpu.pc + 2#32 + BitVec.ofNat 32 (2 * n)

/-- The displacement of a branch, signed (spec/43_program_control.md R382). -/
def dispInt : Disp → Int
  | .d8 b => b.toInt
  | .d16 w => w.toInt

/-- The extension words of a branch. -/
def dispWords : Disp → Nat
  | .d8 _ => 0
  | .d16 _ => 1

/-- The target of a branch: PC + 2 + d (R382). -/
def State.branchTo (s : State) (d : Disp) : Long := s.cpu.pc + 2#32 + BitVec.ofInt 32 (dispInt d)

/-! ### Results, in integers -/

/-- A number is no value of 32 bits, signed. -/
def overflows (i : Int) : Bool := decide (i < -2 ^ 31) || decide ((2 : Int) ^ 31 ≤ i)

/-- The flags of s + d + x (spec/10_state.md R33, spec/41_integer_arithmetic.md R300): V when the exact signed sum is no
32-bit value, C and X when the exact unsigned sum is none. -/
def sumFlags (s d : Long) (x : Bool) : Flags :=
  { x := decide (2 ^ 32 ≤ s.toNat + d.toNat + x.toNat)
    n := (s + d + BitVec.ofNat 32 x.toNat).msb
    z := decide (s + d + BitVec.ofNat 32 x.toNat = 0#32)
    v := overflows (s.toInt + d.toInt + x.toNat)
    c := decide (2 ^ 32 ≤ s.toNat + d.toNat + x.toNat) }

/-- The flags of d - s - x: V when the exact signed difference is no 32-bit value, C and X for a borrow. -/
def diffFlags (s d : Long) (x : Bool) : Flags :=
  { x := decide (d.toNat < s.toNat + x.toNat)
    n := (d - s - BitVec.ofNat 32 x.toNat).msb
    z := decide (d - s - BitVec.ofNat 32 x.toNat = 0#32)
    v := overflows (d.toInt - s.toInt - x.toNat)
    c := decide (d.toNat < s.toNat + x.toNat) }

/-- The flags of a value of n bits (spec/40_data_movement.md R260): V and C clear, X as it was. -/
def valueFlags (old : Flags) (n : Nat) (v : Long) : Flags :=
  { x := old.x, n := decide (2 ^ (n - 1) ≤ v.toNat % 2 ^ n), z := decide (v.toNat % 2 ^ n = 0), v := false, c := false }

/-- The flags of a shift by n whose last bit out is `out` (spec/42_logical_shift_bit.md R355). -/
def shiftedFlags (old : Flags) (n : Nat) (out : Bool) (r : Long) : Flags :=
  { x := if n = 0 then old.x else out, n := r.msb, z := decide (r = 0#32), v := false, c := decide (n ≠ 0) && out }

/-- A register with its low n bits replaced. -/
def putLow (n : Nat) (old v : Long) : Long := BitVec.ofNat 32 (old.toNat / 2 ^ n * 2 ^ n + v.toNat % 2 ^ n)

/-- The value of a word that MAC or a division takes: signed or not. -/
def asNumber {n : Nat} (signed : Bool) (v : BitVec n) : Int := if signed then v.toInt else (v.toNat : Int)

/-- A number is a value of n bits. -/
def inRange (signed : Bool) (n : Nat) (i : Int) : Prop :=
  if signed then -2 ^ (n - 1) ≤ i ∧ i < 2 ^ (n - 1) else 0 ≤ i ∧ i < 2 ^ n

/-- A number modulo 2^32, as a signed or unsigned value. -/
def wrapped (signed : Bool) (i : Int) : Int := if signed then i.bmod (2 ^ 32) else i % 2 ^ 32

/-- A condition holds (spec/30_encoding.md R236): bit 0 of the code inverts the test that its upper bits name. -/
def holds (f : Flags) (cc : BitVec 4) : Bool :=
  (match (cc.extractLsb' 1 3).toNat with
    | 0 => true
    | 1 => !f.c && !f.z
    | 2 => !f.c
    | 3 => !f.z
    | 4 => !f.v
    | 5 => !f.n
    | 6 => f.n == f.v
    | _ => !f.z && f.n == f.v) != cc.getLsbD 0

/-- How many registers below k a MOVEM mask names. -/
def maskCount (mask : Word) (k : Nat) : Nat := ((List.range k).filter (fun j => mask.getLsbD j)).length

/-- A write of this kind to the address is rejected (spec/20_memory.md R113): by the RAM or the ROM that claims it, else
by an ACR or CACR. -/
def byteRejected (r : Route) (sp : Space) (a : Long) : Prop :=
  if ramClaims r sp a then r.ctl.rambar.getLsbD 8 = true
  else if romClaims r sp a then r.ctl.rombar.getLsbD 8 = true
  else writeProtected r sp a = true

/-- The half of a register that MAC.W takes. -/
def macHalf (upper : Bool) (v : Long) : Word := if upper then v.extractLsb' 16 16 else v.extractLsb' 0 16

/-- `p` is a product that a MAC may form of two registers (spec/44_mul_div_mac.md R440): the integer product modulo 2^32;
in fractional mode the doubled product, its upper 32 bits for long operands, truncated, or rounded to a nearest. The
product of -1 and -1 may be any value. -/
def MacProduct (m : Mac) (f : MacForm) (x y : Long) (p : Int) : Prop :=
  let frac := m.macsr.getLsbD 5
  let signed := frac || !m.macsr.getLsbD 6
  let ab := if f.long then asNumber signed x * asNumber signed y
    else asNumber signed (macHalf f.ux x) * asNumber signed (macHalf f.uy y)
  if frac = false then p = wrapped signed ab
  else if ab = (if f.long then 2 ^ 62 else 2 ^ 30) then inRange true 32 p
  else if f.long = false then p = 2 * ab
  else if m.macsr.getLsbD 4 = false then p = 2 * ab / 2 ^ 32
  else -2 ^ 31 ≤ p * 2 ^ 32 - 2 * ab ∧ p * 2 ^ 32 - 2 * ab ≤ 2 ^ 31

/-- What a multiply-accumulate leaves in the MAC registers (R440): the product scaled, the sum or difference exact, V if
it is no 32-bit value, and then the accumulator saturated under OMC, else the sum modulo 2^32; N and Z of the
accumulator, C clear, the configuration and MASK as they were. -/
def MacResult (m m' : Mac) (f : MacForm) (x y : Long) : Prop :=
  let signed := m.macsr.getLsbD 5 || !m.macsr.getLsbD 6
  ∃ p : Int, MacProduct m f x y p ∧
    let q : Int := if f.sf = 1#2 then wrapped signed (2 * p) else if f.sf = 3#2 then p / 2 else p
    let t : Int := if f.sub then asNumber signed m.acc - q else asNumber signed m.acc + q
    let top : Int := if signed then 2 ^ 31 - 1 else 2 ^ 32 - 1
    let low : Int := if signed then -2 ^ 31 else 0
    m'.acc = BitVec.ofInt 32 (if m.macsr.getLsbD 7 then max low (min top t) else t) ∧ m'.mask = m.mask ∧
      m'.macsr = m.macsr.extractLsb' 4 4 ++ BitVec.ofBool m'.acc.msb ++ BitVec.ofBool (m'.acc == 0#32)
        ++ BitVec.ofBool (decide (t < low ∨ top < t)) ++ 0#1

/-- The debug registers after a write by the core (spec/61_debug_and_bdm.md R632, R640): of the CSR the writable bits but
IPW; a write of the TDR sets the trigger status to waiting for level 1, or to none, with a low bit `low`. -/
def debugWritten (g : Dbg) (drc : BitVec 4) (v : Long) (low : Bool) : Dbg :=
  match drc.toNat with
  | 0 => { g with csr := (g.csr &&& 0xFFF9008F#32) ||| (v &&& 0x0006FF70#32) }
  | 5 => { g with baar := v.setWidth 8 }
  | 6 => { g with aatr := v.setWidth 16, baar := v.setWidth 8 }
  | 7 =>
    { g with
      tdr := v
      csr := (g.csr &&& 0x0FFFFFFF#32) ||| (if v.getLsbD 13 then 0x20000000#32 else 0#32) ||| (if low then 0x10000000#32 else 0#32) }
  | 8 => { g with pbr := v }
  | 9 => { g with pbmr := v }
  | 12 => { g with abhr := v }
  | 13 => { g with ablr := v }
  | 14 => { g with dbr := v }
  | 15 => { g with dbmr := v }
  | _ => g

/-! ### Shapes of completion -/

/-- The instruction completes; it writes registers, flags and PC, and touches no memory. -/
def OnRegs (i : Instr) (s : State) (regs : RegX → Long) (f : Flags) (pc : Long) : Prop :=
  ∃ t, exec i s = .next t ∧ t.getR = regs ∧ FlagsNow s t f ∧ t.cpu.pc = pc ∧ t.ms = s.ms ∧ SameUnits s t ∧
    SameMem s t

/-- The instruction completes; it reads its operand, writes registers, flags and PC, and stores nothing. -/
def Reads (i : Instr) (s : State) (ea : Ea) (sz : Size) (regs : RegX → Long) (f : Flags) (pc : Long) : Prop :=
  ∃ t, exec i s = .next t ∧ t.getR = regs ∧ FlagsNow s t f ∧ t.cpu.pc = pc ∧ t.ms = s.msAfter ea sz ∧
    SameUnits s t ∧ (s.cacheOff → SameMem s t)

/-- The instruction completes; it writes registers, flags and PC, and stores an operand at `a`. -/
def Stores (i : Instr) (s : State) (regs : RegX → Long) (f : Flags) (pc a : Long) (sz : Size) (v : Long) : Prop :=
  ∃ t, exec i s = .next t ∧ t.getR = regs ∧ FlagsNow s t f ∧ t.cpu.pc = pc ∧ SameUnits s t ∧
    (s.cacheOff → Stored s t a sz v)

/-- The instruction completes by going on at `pc`: prefetched instructions are discarded; a later fetch from the M-Bus may
still find what stands under a store that is in the store buffer (spec/20_memory.md R120); nothing else changes but the
registers. -/
def Jumps (i : Instr) (s : State) (regs : RegX → Long) (pc : Long) : Prop :=
  ∃ t, exec i s = .next t ∧ t.getR = regs ∧ t.cpu.sr = s.cpu.sr ∧ t.cpu.pc = pc ∧
    t.ms = { s.ms with stale := stalePending s.route s.ms } ∧ SameUnits s t ∧ SameMem s t

/-! ### Exceptions -/

/-- The attributes of a data access in supervisor mode (spec/20_memory.md R96). -/
def State.superSpace (s : State) : Space := if s.emuMap then { tt := 2#2, tm := 5#3 } else { tt := 0#2, tm := 5#3 }

/-- Nothing protects the frame of an exception taken now. -/
def State.frameWritable (s : State) : Prop :=
  ∀ i < 8, byteWritable s.route s.superSpace (frameAddr s.sp + BitVec.ofNat 32 i)

/-- The SR of a handler (spec/60_exceptions.md R505): S set, T clear, the rest as it was. -/
def handlerSr (sr : Word) : Word := (sr ||| 0x2000#16) &&& 0x7FFF#16 &&& srMask

/-- The CSR with its halt source, CSR[27:24], naming one source alone (spec/61_debug_and_bdm.md R596). -/
def haltSource (csr : Long) (n : Nat) : Long := (csr &&& 0xF0FFFFFF#32) ||| (1#32 <<< n)

/-- What taking an exception from `s` leaves (spec/60_exceptions.md R505 to R507, R509, R550), for an exception that
enters no emulator mode: the SR of the handler, the frame below A7, the handler's address from the vector table, or the
fault-on-fault halt if that is odd; everything else as it was. -/
structure EntersAs (s t : State) (sr : Word) (vector : Byte) (fs : BitVec 4) (pc : Long) : Prop where
  sr : t.cpu.sr = sr
  regs : t.getR = withReg s.getR (aNum spReg) ((s.sp - 8#32) &&& 0xFFFFFFFC#32)
  frame : t.bytes t.sp 8 = beBytes 4 (frameWord s.sp fs vector s.cpu.sr) ++ beBytes 4 pc
  rest : ∀ a, Outside t.sp 8 a → t.peek a = s.peekIn s.superSpace a
  handler : (t.longAt (s.ctl.vbr + 4#32 * vector.setWidth 32)).getLsbD 0 = false →
    t.cpu.pc = t.longAt (s.ctl.vbr + 4#32 * vector.setWidth 32) ∧ t.dbg = s.dbg ∧
      t.ev = { s.ev with inhibitInt := true, inException := false }
  odd : (t.longAt (s.ctl.vbr + 4#32 * vector.setWidth 32)).getLsbD 0 = true →
    t.ev.run = .halted ∧ t.ev.faultOnFault = true ∧ t.dbg.csr = haltSource s.dbg.csr 27
  mac : t.mac = s.mac
  ctl : t.ctl = s.ctl
  pins : t.pins = s.pins
  bdm : t.bdm = s.bdm

/-- What taking an exception that is no interrupt leaves. -/
def Enters (s t : State) (vector : Byte) (fs : BitVec 4) (pc : Long) : Prop :=
  EntersAs s t (handlerSr s.cpu.sr) vector fs pc

/-- What an address error leaves (spec/60_exceptions.md R516): vector 3, a fault status of Table 4-4 that is not said. -/
def EntersAddressError (s t : State) (pc : Long) : Prop :=
  ∃ fs ∈ [0#4, 4#4, 8#4, 9#4, 12#4], Enters s t 3#8 fs pc

/-- The conditions under which the statements follow an exception to its handler: the cache disabled, the frame not
protected, no exception processing in progress. -/
structure State.CanEnter (s : State) : Prop where
  cache : s.cacheOff
  frame : s.frameWritable
  idle : s.ev.inException = false

/-! ### The cache in use (spec/21_cache_and_local_memory.md) -/

/-- The conditions under which an operand access is looked up in the cache (R143, R165, R168). -/
structure State.Cachable (s : State) (a : Long) : Prop where
  present : s.pins.cacheSize ≠ .absent
  enabled : s.ctl.cacr.getLsbD 31 = true
  ram : ramClaims s.route s.dataSpace a = false
  rom : romClaims s.route s.dataSpace a = false
  mode : cacheMode s.route s.dataSpace a = 0#2 ∨ cacheMode s.route s.dataSpace a = 1#2
  operands : s.pins.ucnoop = false
  emulator : s.emuMap = false

/-- The set of an address (R131). -/
def State.setIndex (s : State) (a : Long) : Nat := a.toNat / 16 % 2 ^ setBits s.pins.cacheSize

/-- The line of an address in a level. -/
def State.lineOf (s : State) (a : Long) (lv : Nat) : Line := lineAt s.ms (s.setIndex a) lv

/-- A level holds a valid line of the address (R131, R143). -/
def State.levelHolds (s : State) (a : Long) (lv : Nat) : Prop :=
  (s.lineOf a lv).v = true ∧ (s.lineOf a lv).tag.toNat = a.toNat / 2 ^ (4 + setBits s.pins.cacheSize)

/-- The address hits in this level and in no other (R143). -/
def State.HitsIn (s : State) (a : Long) (lv : Nat) : Prop :=
  lv < 4 ∧ s.levelHolds a lv ∧ ∀ k < 4, k ≠ lv → ¬s.levelHolds a k

/-- The address hits in no level. -/
def State.Misses (s : State) (a : Long) : Prop := ∀ k < 4, ¬s.levelHolds a k

/-- No line but that of the address in this level has changed. -/
def OtherLines (s t : State) (a : Long) (lv : Nat) : Prop :=
  ∀ set, ∀ k < 4, (set, k) ≠ (s.setIndex a, lv) → lineAt t.ms set k = lineAt s.ms set k

/-- The level that is filled is one that R150 allows: the lowest invalid one; if all are valid any, but under HLCK level 2
or 3. -/
def State.FillsLevel (s : State) (a : Long) (lv : Nat) : Prop :=
  lv < 4 ∧ (∀ k < lv, (s.lineOf a k).v = true) ∧
    ((s.lineOf a lv).v = true → (∀ k < 4, (s.lineOf a k).v = true) ∧ (s.ctl.cacr.getLsbD 27 = true → 2 ≤ lv))

/-- What bringing in a line leaves (R146, R147, R150, R151): in a level that may be filled the line of the address, valid,
with these bytes; the other lines as they were; a dirty victim in the push buffer, the store buffer empty. -/
structure Allocates (s t : State) (a : Long) (lv : Nat) (dirty : Bool) (byte : Nat → Byte) : Prop where
  level : s.FillsLevel a lv
  holds : t.levelHolds a lv
  dirty : (t.lineOf a lv).d = dirty
  bytes : ∀ i < 16, lineByte (t.lineOf a lv).data i = byte i
  others : OtherLines s t a lv
  stores : t.ms.stores = []
  victim : (s.lineOf a lv).v = true → (s.lineOf a lv).d = true →
    ∃ p, t.ms.push = some p ∧ p.data = (s.lineOf a lv).data ∧
      lineAddr p.line = ((s.lineOf a lv).tag <<< setBits s.pins.cacheSize ||| BitVec.ofNat 32 (s.setIndex a)) <<< 4
  clean : ¬((s.lineOf a lv).v = true ∧ (s.lineOf a lv).d = true) → t.ms.push = none

/-- The byte behind the M-Bus, of the line of an address, once the buffers are empty. -/
def State.behind (s : State) (a : Long) (i : Nat) : Byte :=
  busByte (settle s.ms) s.dataSpace ((a &&& 0xFFFFFFF0#32).toNat + i)

/-! ### From the boundary to the instruction -/

/-- Nothing stands between the boundary and the instruction: no reset, no word from the development system, no reset
exception to come, the core running, no event at the boundary, which `s1` is after, no user code in emulator space, an
even PC. -/
structure State.Ready (s s1 : State) : Prop where
  rsti : s.pins.rsti = false
  ram : (s.pins.encf5307kram || s.pins.enraptorkram) = false
  bdm : s.bdm.rx = []
  noReset : s.ev.resetPending = false
  running : s1.ev.run = .running
  boundary : s.fresh.sample.boundary = .goOn s1
  user : (s1.emuMap && !s1.super) = false
  even : s1.cpu.pc.getLsbD 0 = false

/-- No request, trace or breakpoint is pending or can fire at the boundary (spec/60_exceptions.md R504). -/
structure State.Quiet (s : State) : Prop where
  running : s.ev.run = .running
  write : s.ms.writeError = false
  trace : s.ev.tracePending = false
  single : s.ev.stepDone = false
  halts : s.ev.haltTrg = false ∧ s.ev.haltBkpt = false
  debug : s.ev.debugInt = false
  pins : s.pins.bkpt = false ∧ s.pins.miplb = 7#3
  triggers : s.dbg.tdr.getLsbD 13 = false ∧ s.dbg.tdr.getLsbD 29 = false

/-- The bytes at an address, as an instruction fetch would read them now. -/
def State.codeBytes (s : State) (a : Long) (n : Nat) : List Byte :=
  readBytes (fun i => peekByte s.route s.ms s.codeSpace true (BitVec.ofNat 32 i)) a n

/-- The bytes at an address, as a fetch of supervisor code (TT = 00, TM = 110) would read them now. -/
def State.superCodeBytes (s : State) (a : Long) (n : Nat) : List Byte :=
  readBytes (fun i => peekByte s.route s.ms { tt := 0#2, tm := 6#3 } true (BitVec.ofNat 32 i)) a n

/-- Instructions are fetched from memory alone: cache disabled, nothing in the fill buffer, nothing stale prefetched. -/
structure State.FetchPlain (s : State) : Prop where
  cache : s.cacheOff
  fill : s.ms.fill.valid = false
  stale : s.ms.stale = []

/-- What fetching an instruction of n extension words leaves: everything that a program can see, with the marks of
the boundary before it cleared. -/
structure Fetched (s u : State) (n : Nat) : Prop where
  cpu : u.cpu = s.cpu
  mac : u.mac = s.mac
  ctl : u.ctl = s.ctl
  dbg : u.dbg = s.dbg
  pins : u.pins = s.pins
  bdm : u.bdm = s.bdm
  port : u.port = s.port
  free : u.free = s.free + (n + 1)
  ev : u.ev = { s.ev with inhibitInt := false, boundaryTaken := false }
  mem : ∀ sp a, u.peekIn sp a = s.peekIn sp a

/-! ### The invariant -/

/-- A memory in its canonical form, over the whole address space (R80). -/
def memOk (m : List Host.Cell) : Bool := memWf (2 ^ 32) m

/-- The memories of a memory system are in their canonical form, and the store buffer has at most four entries
(spec/10_state.md R67). -/
structure MemSys.Ok (p : Pins) (m : MemSys) : Prop where
  mem : memOk m.mem = true
  emem : memOk m.emem = true
  ram : memWf (2 ^ localBits p.kramSize) m.ram = true
  cache : sparseWf Line.empty m.cache = true
  stores : m.stores.length ≤ 4

/-- The memories of the machine are in their canonical form. -/
def State.MemInv (s : State) : Prop := s.ms.Ok s.pins

/-- The reserved bits of the registers read as zero (spec/10_state.md R28, R41 to R46), the CSR names Revision B and its
own reserved bits read as zero (R51), MACSR's low bit is zero. -/
structure State.RegInv (s : State) : Prop where
  sr : s.cpu.sr &&& ~~~srMask = 0#16
  cacr : s.ctl.cacr &&& ~~~cacrMask = 0#32
  acr0 : s.ctl.acr0 &&& ~~~acrMask = 0#32
  acr1 : s.ctl.acr1 &&& ~~~acrMask = 0#32
  vbr : s.ctl.vbr &&& ~~~vbrMask = 0#32
  rombar : s.ctl.rombar &&& ~~~barMask = 0#32
  rambar : s.ctl.rambar &&& ~~~barMask = 0#32
  csr : s.dbg.csr &&& 0x00F8008F#32 = 0x00100000#32
  macsr : s.mac.macsr &&& 0x01#8 = 0#8

/-- The run state is one the machine can be in (spec/10_state.md R70): after a fault-on-fault it is halted, and exception
processing is in progress only then. -/
structure State.RunInv (s : State) : Prop where
  fof : s.ev.faultOnFault = true → s.ev.run = .halted
  busy : s.ev.inException = true → s.ev.faultOnFault = true
  ends : s.ms.stuck = false

/-- The invariant of the machine. -/
structure State.Inv (s : State) : Prop where
  mem : s.MemInv
  reg : s.RegInv
  run : s.RunInv

end Sys2Proof.Machine
end

