-- ==== Sys2Proof/Certificates/Slice0/Obligations.lean ====
section
/-! DEFINITION. Sys2Proof/Certificates/Slice0/Obligations.lean: the statements for the provers. `s.after n` is the address
after an instruction of n extension words, `s.operand ea sz` the value of an operand, `s.address ea sz` the address the
meanings use for it, `s.regsAfter ea sz` the registers with its postincrement or predecrement done. -/

section Obligations

open Sys2Proof Sys2Proof.Machine
open Sys2Proof.Dec (eaLen)

/-! ### Encoding (spec/30_encoding.md) -/

/-- R200 to R214, R239: the words of every instruction that has words decode to it, with every operand at every value its
fields admit, whatever follows. -/
def Obligations.DecodeEncode : Prop :=
  ∀ (i : Instr) (rest : List Byte), i.encodable = true →
    decodeBytes (bytesOf (encode i) ++ rest) = .ok (i, rest)

/-- The other direction: what decodes is an instruction the encoding admits, and its words are the bytes read. -/
def Obligations.EncodeDecode : Prop :=
  ∀ (bs rest : List Byte) (i : Instr), decodeBytes bs = .ok (i, rest) →
    i.encodable = true ∧ bs = bytesOf (encode i) ++ rest

/-- Words written out from the rows of R239: $41FA $0010 (R271), $5088 (R305), $70FF (R263), $48D7 $0103 (R275),
$4E7B $0C04 (R466), $A001 $0900 (R444), $4C41 $0802 (R430), $51FB $1234 $5678 (R392), $F4E8 (R472), $FBD0 $0003 (R475). -/
def Obligations.WordsOfTheTable : Prop :=
  decodeWords [0x41FA#16, 0x0010#16] = .ok (.lea (.pcDisp 0x0010#16) 0#3) ∧
  decodeWords [0x5088#16] = .ok (.addqL 0#3 (.an 0#3)) ∧
  decodeWords [0x70FF#16] = .ok (.moveq 0xFF#8 0#3) ∧
  decodeWords [0x48D7#16, 0x0103#16] = .ok (.movemStore 0x0103#16 (.ind 7#3)) ∧
  decodeWords [0x4E7B#16, 0x0C04#16] = .ok (.movec 0#4 0xC04#12) ∧
  decodeWords [0xA001#16, 0x0900#16] = .ok (.msacL 0#10 0#2 false false 0#4 1#4) ∧
  decodeWords [0x4C41#16, 0x0802#16] = .ok (.remsL 0#9 2#3 0#3 (.dn 1#3)) ∧
  decodeWords [0x51FB#16, 0x1234#16, 0x5678#16] = .ok (.trapfL 0x1234#16 0x5678#16) ∧
  decodeWords [0xF4E8#16] = .ok (.cpushl 0#3) ∧
  decodeWords [0xFBD0#16, 0x0003#16] = .ok (.wdebug 0x0003#16 (.ind 0#3))

/-- R202, R213, R214: the operation word alone decides whether there is an instruction, how many words it takes, and
which exception there is otherwise. -/
def Obligations.OpwordDecides : Prop :=
  ∀ (op a b c d : Word),
    match decode op a b with
    | .ok i => ∃ j, decode op c d = .ok j ∧ extLen j = extLen i ∧ extLen i ≤ 2
    | r => decode op c d = r

/-- R201: an operation word that selects no instruction raises vector 10 in line A, 11 in line F, else 4, with its own
address stacked and nothing changed before it. -/
def Obligations.UnassignedOpwords : Prop :=
  ∀ (op a b : Word) (s : State), s.CanEnter → (∀ i, decode op a b ≠ .ok i) →
    ∃ t, execDecoded (decode op a b) s = .next t ∧
      Enters s t (if op.extractLsb' 12 4 = 0xA#4 then 10#8 else if op.extractLsb' 12 4 = 0xF#4 then 11#8 else 4#8)
        0#4 s.cpu.pc

/-! ### Steps -/

/-- A step runs the decoded instruction: when nothing stands between the boundary and the instruction and the bytes at the
PC decode to `i`, the step is `exec i` after the fetch, then what follows an instruction (breakpoints, trace, single
step), and a fault if a transfer is never acknowledged (spec/20_memory.md R89). -/
def Obligations.StepRunsDecoded : Prop :=
  ∀ (s s1 : State) (i : Instr) (rest : List Byte), s.Ready s1 → s1.FetchPlain →
    decodeBytes (s1.codeBytes s1.cpu.pc 6) = .ok (i, rest) →
    ∃ u, Fetched s1 u (extLen i) ∧
      step s = checkStuck (match exec i u with
        | .next t => s1.endInstr t
        | .fault f => .fault f
        | .refused r => .refused r)

/-- R504, R646: where nothing is pending and no breakpoint can fire, the boundary goes on to the instruction with the state
as it was, but for the samples of the pins; that they are sampled once a step is the model's (log entry 39). -/
def Obligations.QuietBoundary : Prop :=
  ∀ s : State, s.Quiet → s.fresh.sample.boundary = .goOn s.fresh.sample ∧ s.fresh.sample.cpu = s.cpu ∧
    s.fresh.sample.ms = { s.ms with xfers := [], bus := [] } ∧ s.fresh.sample.dbg = s.dbg

/-- R525: after an instruction that began with T set and raised no exception, a trace exception is pending; the single step
of CSR.SSM is made; breakpoints are inhibited after an RTE that leaves emulator mode (spec/61_debug_and_bdm.md R654);
nothing else changes unless a breakpoint or SYNC_PC was waiting. These clauses are the model's choice: that T counts as it
was when the instruction began (D39, log entry 52), that the single step is made also by an instruction that raised an
exception, and by the one that sets CSR.SSM (D41, log entry 36), that a HALT too leaves the trace pending (log entry
47). -/
def Obligations.AfterInstruction : Prop :=
  ∀ s0 t : State, t.bdm.syncPc = false → statusOf t.dbg ≠ 1#3 → statusOf t.dbg ≠ 5#3 →
    s0.endInstr t = .next (t.setEv { t.ev with
      tracePending := s0.trace && !(t.ev.inhibitInt || t.ev.faultOnFault), stepDone := t.dbg.csr.getLsbD 4,
      inhibitBp := s0.ev.emulator && !t.ev.emulator })

/-! ### Invariants -/

/-- The machine after reset meets the invariant, at the reset values of which the model names some (log entries 3, 5,
6). -/
def Obligations.ResetInvariant : Prop := State.reset.Inv

/-- Every step keeps the invariant: the memories in their canonical form and the store buffer of at most four entries,
the reserved bits of the registers at the values they read as, the run state one the machine can be in. The
canonical form is the model's (log entry 2). -/
def Obligations.StepInvariant : Prop := ∀ s t : State, s.Inv → step s = .next t → t.Inv

/-! ### Operands (spec/30_encoding.md) -/

/-- R216 to R228: the address of a memory operand; the value of a register or immediate operand is its low bytes; that of
a memory operand is, the cache being disabled, the big-endian value of the bytes at its address (spec/20_memory.md R81). -/
def Obligations.Operands : Prop :=
  ∀ (s : State) (sz : Size) (r : Reg) (d xw : Word) (v : Long),
    (let x := s.getR (xw.extractLsb' 12 4) * BitVec.ofNat 32 (2 ^ (xw.extractLsb' 9 2).toNat)
       + BitVec.ofInt 32 (xw.extractLsb' 0 8).toInt
     s.address (.ind r) sz = s.getA r ∧
     s.address (.postinc r) sz = s.getA r ∧
     s.address (.predec r) sz = s.getA r - BitVec.ofNat 32 sz.bytes ∧
     s.address (.disp r d) sz = s.getA r + BitVec.ofInt 32 d.toInt ∧
     s.address (.idx r xw) sz = s.getA r + x ∧
     s.address (.absW d) sz = BitVec.ofInt 32 d.toInt ∧
     s.address (.absL v) sz = v ∧
     s.address (.pcDisp d) sz = s.cpu.pc + 2#32 + BitVec.ofInt 32 d.toInt ∧
     s.address (.pcIdx xw) sz = s.cpu.pc + 2#32 + x ∧
     s.operand (.dn r) sz = putLow (8 * sz.bytes) 0#32 (s.getD r) ∧
     s.operand (.an r) sz = putLow (8 * sz.bytes) 0#32 (s.getA r) ∧
     s.operand (.immW d) sz = putLow (8 * sz.bytes) 0#32 (d.setWidth 32) ∧
     s.operand (.immL v) sz = putLow (8 * sz.bytes) 0#32 v ∧
     ∀ ea, eaMemAlter ea = true ∨ eaPcRel ea = true → s.cacheOff →
       s.operand ea sz = beValue (s.bytes (s.address ea sz) sz.bytes))

/-- R210, R516: in every instruction with an indexed address, a full-format index word, a word index and a scale of 8
raise the address error of the instruction, with nothing changed before it; its fault status is one of Table 4-4,
which one is not said (log entry 25). -/
def Obligations.BadIndexWord : Prop :=
  ∀ (i : Instr) (s : State), i.wf = true → i.eas.any eaBad = true → s.pins.hasDiv = true → s.CanEnter →
    ∃ t, exec i s = .next t ∧ EntersAddressError s t s.cpu.pc

/-! ### Data movement (spec/40_data_movement.md) -/

/-- R261, R262: MOVE to a data register: the low bytes are replaced, N and Z from the value of the operand's size. MOVEA: the
whole register, a word sign-extended, no flags; the value read wins over a postincrement. -/
def Obligations.MoveToRegister : Prop :=
  ∀ (s : State) (src : Ea) (r : Reg), eaBad src = false →
    Reads (.moveB src (.dn r)) s src .b (withReg (s.regsAfter src .b) (dNum r) (putLow 8 (s.getD r) (s.operand src .b)))
      (valueFlags s.flags 8 (s.operand src .b)) (s.after (eaLen src)) ∧
    Reads (.moveW src (.dn r)) s src .w (withReg (s.regsAfter src .w) (dNum r) (putLow 16 (s.getD r) (s.operand src .w)))
      (valueFlags s.flags 16 (s.operand src .w)) (s.after (eaLen src)) ∧
    Reads (.moveL src (.dn r)) s src .l (withReg (s.regsAfter src .l) (dNum r) (s.operand src .l))
      (valueFlags s.flags 32 (s.operand src .l)) (s.after (eaLen src)) ∧
    Reads (.moveaW src r) s src .w
      (withReg (s.regsAfter src .w) (aNum r) (BitVec.ofInt 32 ((s.operand src .w).setWidth 16).toInt)) s.flags
      (s.after (eaLen src)) ∧
    Reads (.moveaL src r) s src .l (withReg (s.regsAfter src .l) (aNum r) (s.operand src .l)) s.flags
      (s.after (eaLen src))

/-- R261, R231: MOVE to memory: the source is read first, the destination's address computed after the source's
postincrement or predecrement; the value is stored there. Where the source is the address register that the destination
moves, the value stored is the register's before the instruction: R232 allows either, and that is the model's choice
(D33, log entry 52). -/
def Obligations.MoveToMemory : Prop :=
  ∀ (s : State) (src dst : Ea), eaBad src = false → eaBad dst = false → eaMemAlter dst = true →
    Stores (.moveB src dst) s ((s.located src .b).regsAfter dst .b) (valueFlags s.flags 8 (s.operand src .b))
      (s.after (eaLen src + eaLen dst)) ((s.located src .b).address dst .b) .b (s.operand src .b) ∧
    Stores (.moveW src dst) s ((s.located src .w).regsAfter dst .w) (valueFlags s.flags 16 (s.operand src .w))
      (s.after (eaLen src + eaLen dst)) ((s.located src .w).address dst .w) .w (s.operand src .w) ∧
    Stores (.moveL src dst) s ((s.located src .l).regsAfter dst .l) (valueFlags s.flags 32 (s.operand src .l))
      (s.after (eaLen src + eaLen dst)) ((s.located src .l).address dst .l) .l (s.operand src .l)

/-- R263, R318 to R320, R349, R350: MOVEQ, EXT, EXTB, NOT, SWAP. -/
def Obligations.OneRegister : Prop :=
  ∀ (s : State) (dx : Reg) (d : Byte),
    (let v := BitVec.ofInt 32 d.toInt
     OnRegs (.moveq d dx) s (withReg s.getR (dNum dx) v) (valueFlags s.flags 32 v) (s.after 0)) ∧
    (let v := BitVec.ofInt 32 ((s.getD dx).setWidth 8).toInt
     OnRegs (.extW dx) s (withReg s.getR (dNum dx) (putLow 16 (s.getD dx) v)) (valueFlags s.flags 16 v) (s.after 0)) ∧
    (let v := BitVec.ofInt 32 ((s.getD dx).setWidth 16).toInt
     OnRegs (.extL dx) s (withReg s.getR (dNum dx) v) (valueFlags s.flags 32 v) (s.after 0)) ∧
    (let v := BitVec.ofInt 32 ((s.getD dx).setWidth 8).toInt
     OnRegs (.extbL dx) s (withReg s.getR (dNum dx) v) (valueFlags s.flags 32 v) (s.after 0)) ∧
    (let v := ~~~(s.getD dx)
     OnRegs (.notL dx) s (withReg s.getR (dNum dx) v) (valueFlags s.flags 32 v) (s.after 0)) ∧
    (let v := BitVec.ofNat 32 ((s.getD dx).toNat % 2 ^ 16 * 2 ^ 16 + (s.getD dx).toNat / 2 ^ 16)
     OnRegs (.swap dx) s (withReg s.getR (dNum dx) v) (valueFlags s.flags 32 v) (s.after 0))

/-- R270: CLR of a data register and of memory: the operand becomes zero; N clear, Z set, V and C clear, X as it was. -/
def Obligations.Clear : Prop :=
  ∀ (s : State) (ea : Ea) (r : Reg), eaBad ea = false → eaMemAlter ea = true →
    (let f : Flags := { x := s.flags.x, n := false, z := true, v := false, c := false }
     OnRegs (.clrB (.dn r)) s (withReg s.getR (dNum r) (putLow 8 (s.getD r) 0#32)) f (s.after 0) ∧
     OnRegs (.clrW (.dn r)) s (withReg s.getR (dNum r) (putLow 16 (s.getD r) 0#32)) f (s.after 0) ∧
     OnRegs (.clrL (.dn r)) s (withReg s.getR (dNum r) 0#32) f (s.after 0) ∧
     Stores (.clrB ea) s (s.regsAfter ea .b) f (s.after (eaLen ea)) (s.address ea .b) .b 0#32 ∧
     Stores (.clrW ea) s (s.regsAfter ea .w) f (s.after (eaLen ea)) (s.address ea .w) .w 0#32 ∧
     Stores (.clrL ea) s (s.regsAfter ea .l) f (s.after (eaLen ea)) (s.address ea .l) .l 0#32)

/-- R271, R272: LEA and PEA: the address itself, into An or pushed; PEA computes it before SP changes. -/
def Obligations.EffectiveAddress : Prop :=
  ∀ (s : State) (ea : Ea) (ax : Reg), eaControl ea = true → eaBad ea = false →
    OnRegs (.lea ea ax) s (withReg s.getR (aNum ax) (s.address ea .l)) s.flags (s.after (eaLen ea)) ∧
    Stores (.pea ea) s (withReg s.getR (aNum spReg) (s.sp - 4#32)) s.flags (s.after (eaLen ea)) (s.sp - 4#32) .l
      (s.address ea .l)

/-- R273, R274: LINK: SP - 4 -> SP; Ay -> (SP); SP -> Ay; SP + d16 -> SP. UNLK: Ax -> SP; (SP) -> Ax; SP + 4 -> SP. Of
LINK A7 the model stores the decremented SP, the literal reading of the four steps (log entry 18); what A7 holds
after UNLK A7 is not said, a free value (log entry 19), and no other register changes. -/
def Obligations.Frames : Prop :=
  ∀ (s : State) (r : Reg) (d : Word),
    Stores (.link r d) s
      (withReg (withReg s.getR (aNum r) (s.sp - 4#32)) (aNum spReg) (s.sp - 4#32 + BitVec.ofInt 32 d.toInt)) s.flags
      (s.after 1) (s.sp - 4#32) .l (if r = spReg then s.sp - 4#32 else s.getA r) ∧
    (r ≠ spReg → Reads (.unlk r) s (.ind r) .l
      (withReg (withReg s.getR (aNum r) (s.operand (.ind r) .l)) (aNum spReg) (s.getA r + 4#32)) s.flags
      (s.after 0)) ∧
    ∃ t v, exec (.unlk spReg) s = .next t ∧ t.getR = withReg s.getR (aNum spReg) v ∧ t.cpu.sr = s.cpu.sr ∧
      t.cpu.pc = s.after 0 ∧ t.mac = s.mac ∧ t.ctl = s.ctl ∧ t.dbg = s.dbg ∧ t.ev = s.ev ∧ t.pins = s.pins ∧
      t.bdm = s.bdm ∧ (s.cacheOff → SameMem s t)

/-- R275, R276: MOVEM: register k of the mask and the longword whose number is the count of lower registers in the mask are
moved, to memory or from it; nothing else changes, an empty mask moves nothing; the address is computed before any
register is loaded. -/
def Obligations.Movem : Prop :=
  ∀ (s : State) (mask : Word) (ea : Ea),
    (∃ t, exec (.movemStore mask ea) s = .next t ∧ t.getR = s.getR ∧ t.cpu.sr = s.cpu.sr ∧
      t.cpu.pc = s.after (1 + eaLen ea) ∧ SameUnits s t ∧
      (s.cacheOff → MemBut s t (s.address ea .l) (4 * maskCount mask 16) ∧
        (s.Writable (s.address ea .l) (4 * maskCount mask 16) →
          ∀ k < 16, mask.getLsbD k = true →
            t.bytes (s.address ea .l + BitVec.ofNat 32 (4 * maskCount mask k)) 4
              = beBytes 4 (s.getR (BitVec.ofNat 4 k))))) ∧
    (∃ t, exec (.movemLoad mask ea) s = .next t ∧ t.cpu.sr = s.cpu.sr ∧ t.cpu.pc = s.after (1 + eaLen ea) ∧
      SameUnits s t ∧ (∀ k < 16, mask.getLsbD k = false → t.getR (BitVec.ofNat 4 k) = s.getR (BitVec.ofNat 4 k)) ∧
      (s.cacheOff → SameMem s t ∧ ∀ k < 16, mask.getLsbD k = true →
        t.getR (BitVec.ofNat 4 k) = s.longAt (s.address ea .l + BitVec.ofNat 32 (4 * maskCount mask k))))

/-! ### Arithmetic (spec/41_integer_arithmetic.md) -/

/-- R304 to R306, R310 to R312, R315 to R317: the forms whose operands are registers and immediate data; the extended forms
add or take away X and only clear Z; ADDQ and SUBQ of an address register write no flags. -/
def Obligations.RegisterArithmetic : Prop :=
  ∀ (s : State) (dx dy q : Reg) (v : Long),
    (let d := s.getD dx
     let y := s.getD dy
     let x := BitVec.ofNat 32 s.flags.x.toNat
     let k : Long := if q = 0#3 then 8#32 else q.setWidth 32
     OnRegs (.addiL dx v) s (withReg s.getR (dNum dx) (d + v)) (sumFlags v d false) (s.after 2) ∧
     OnRegs (.subiL dx v) s (withReg s.getR (dNum dx) (d - v)) (diffFlags v d false) (s.after 2) ∧
     OnRegs (.cmpiL dx v) s s.getR { diffFlags v d false with x := s.flags.x } (s.after 2) ∧
     OnRegs (.addqL q (.dn dx)) s (withReg s.getR (dNum dx) (d + k)) (sumFlags k d false) (s.after 0) ∧
     OnRegs (.subqL q (.dn dx)) s (withReg s.getR (dNum dx) (d - k)) (diffFlags k d false) (s.after 0) ∧
     OnRegs (.addqL q (.an dx)) s (withReg s.getR (aNum dx) (s.getA dx + k)) s.flags (s.after 0) ∧
     OnRegs (.subqL q (.an dx)) s (withReg s.getR (aNum dx) (s.getA dx - k)) s.flags (s.after 0) ∧
     OnRegs (.negL dx) s (withReg s.getR (dNum dx) (0#32 - d)) (diffFlags d 0#32 false) (s.after 0) ∧
     OnRegs (.addxL dy dx) s (withReg s.getR (dNum dx) (d + y + x))
       { sumFlags y d s.flags.x with z := s.flags.z && decide (d + y + x = 0#32) } (s.after 0) ∧
     OnRegs (.subxL dy dx) s (withReg s.getR (dNum dx) (d - y - x))
       { diffFlags y d s.flags.x with z := s.flags.z && decide (d - y - x = 0#32) } (s.after 0) ∧
     OnRegs (.negxL dx) s (withReg s.getR (dNum dx) (0#32 - d - x))
       { diffFlags d 0#32 s.flags.x with z := s.flags.z && decide (0#32 - d - x = 0#32) } (s.after 0))

/-- R301, R303, R307, R309, R313, R314, R321: ADD, SUB and CMP with a data or an address register, and TST, from any source.
ADDA and SUBA write no flag, CMPA does; an address register destination is taken after the source's postincrement or
predecrement (spec/30_encoding.md R231). -/
def Obligations.SourceToRegister : Prop :=
  ∀ (s : State) (ea : Ea) (r : Reg), eaBad ea = false →
    (let v := s.operand ea .l
     let g := s.regsAfter ea .l
     let d := s.getD r
     let a := g (aNum r)
     let pc := s.after (eaLen ea)
     Reads (.addToD ea r) s ea .l (withReg g (dNum r) (d + v)) (sumFlags v d false) pc ∧
     Reads (.subToD ea r) s ea .l (withReg g (dNum r) (d - v)) (diffFlags v d false) pc ∧
     Reads (.cmpL ea r) s ea .l g { diffFlags v d false with x := s.flags.x } pc ∧
     Reads (.addaL ea r) s ea .l (withReg g (aNum r) (a + v)) s.flags pc ∧
     Reads (.subaL ea r) s ea .l (withReg g (aNum r) (a - v)) s.flags pc ∧
     Reads (.cmpaL ea r) s ea .l g { diffFlags v a false with x := s.flags.x } pc ∧
     Reads (.tstB ea) s ea .b (s.regsAfter ea .b) (valueFlags s.flags 8 (s.operand ea .b)) pc ∧
     Reads (.tstW ea) s ea .w (s.regsAfter ea .w) (valueFlags s.flags 16 (s.operand ea .w)) pc ∧
     Reads (.tstL ea) s ea .l g (valueFlags s.flags 32 v) pc)

/-- R302, R305, R308, R311: the forms that add to or subtract from a longword of memory, the address computed once. -/
def Obligations.ArithmeticToMemory : Prop :=
  ∀ (s : State) (ea : Ea) (dy q : Reg), eaMemAlter ea = true → eaBad ea = false →
    (let d := s.operand ea .l
     let g := s.regsAfter ea .l
     let a := s.address ea .l
     let pc := s.after (eaLen ea)
     let k : Long := if q = 0#3 then 8#32 else q.setWidth 32
     Stores (.addToEa dy ea) s g (sumFlags (s.getD dy) d false) pc a .l (d + s.getD dy) ∧
     Stores (.subToEa dy ea) s g (diffFlags (s.getD dy) d false) pc a .l (d - s.getD dy) ∧
     Stores (.addqL q ea) s g (sumFlags k d false) pc a .l (d + k) ∧
     Stores (.subqL q ea) s g (diffFlags k d false) pc a .l (d - k))

/-! ### Logic, shifts, bits (spec/42_logical_shift_bit.md) -/

/-- R341, R343, R344, R346, R348: AND and OR from any source, and the immediate forms. -/
def Obligations.LogicToData : Prop :=
  ∀ (s : State) (ea : Ea) (dx : Reg) (w : Long), eaBad ea = false →
    (let v := s.operand ea .l
     let d := s.getD dx
     let g := s.regsAfter ea .l
     Reads (.andToD ea dx) s ea .l (withReg g (dNum dx) (d &&& v)) (valueFlags s.flags 32 (d &&& v)) (s.after (eaLen ea)) ∧
     Reads (.orToD ea dx) s ea .l (withReg g (dNum dx) (d ||| v)) (valueFlags s.flags 32 (d ||| v)) (s.after (eaLen ea)) ∧
     OnRegs (.andiL dx w) s (withReg s.getR (dNum dx) (d &&& w)) (valueFlags s.flags 32 (d &&& w)) (s.after 2) ∧
     OnRegs (.oriL dx w) s (withReg s.getR (dNum dx) (d ||| w)) (valueFlags s.flags 32 (d ||| w)) (s.after 2) ∧
     OnRegs (.eoriL dx w) s (withReg s.getR (dNum dx) (d ^^^ w)) (valueFlags s.flags 32 (d ^^^ w)) (s.after 2))

/-- R342, R345, R347: AND, OR and EOR of a data register into memory; EOR also into a data register. -/
def Obligations.LogicToMemory : Prop :=
  ∀ (s : State) (ea : Ea) (dy r : Reg), eaMemAlter ea = true → eaBad ea = false →
    (let d := s.operand ea .l
     let y := s.getD dy
     let g := s.regsAfter ea .l
     let a := s.address ea .l
     let pc := s.after (eaLen ea)
     Stores (.andToEa dy ea) s g (valueFlags s.flags 32 (d &&& y)) pc a .l (d &&& y) ∧
     Stores (.orToEa dy ea) s g (valueFlags s.flags 32 (d ||| y)) pc a .l (d ||| y) ∧
     Stores (.eorToEa dy ea) s g (valueFlags s.flags 32 (d ^^^ y)) pc a .l (d ^^^ y) ∧
     OnRegs (.eorToEa dy (.dn r)) s (withReg s.getR (dNum r) (s.getD r ^^^ y)) (valueFlags s.flags 32 (s.getD r ^^^ y))
       (s.after 0))

/-- R355 to R359: the shifts as multiplication and division by a power of two, for every count 1 to 8 and 0 to 63. -/
def Obligations.Shifts : Prop :=
  ∀ (s : State) (dx dy q : Reg),
    (let d := s.getD dx
     let k : Nat := if q = 0#3 then 8 else q.toNat
     let n : Nat := (s.getD dy).toNat % 64
     let Does (i : Instr) (n : Nat) (r : Long) (out : Bool) : Prop :=
       OnRegs i s (withReg s.getR (dNum dx) r) (shiftedFlags s.flags n out r) (s.after 0)
     let left (n : Nat) : Long := BitVec.ofNat 32 (d.toNat * 2 ^ n)
     let leftOut (n : Nat) : Bool := (d.toNat * 2 ^ n).testBit 32
     let right (n : Nat) : Long := BitVec.ofNat 32 (d.toNat / 2 ^ n)
     let rightOut (n : Nat) : Bool := d.toNat.testBit (n - 1)
     let arith (n : Nat) : Long := BitVec.ofInt 32 (d.toInt / 2 ^ n)
     let arithOut (n : Nat) : Bool := decide (d.toInt / 2 ^ (n - 1) % 2 = 1)
     Does (.aslI q dx) k (left k) (leftOut k) ∧ Does (.lslI q dx) k (left k) (leftOut k) ∧
     Does (.lsrI q dx) k (right k) (rightOut k) ∧ Does (.asrI q dx) k (arith k) (arithOut k) ∧
     Does (.aslD dy dx) n (left n) (leftOut n) ∧ Does (.lslD dy dx) n (left n) (leftOut n) ∧
     Does (.lsrD dy dx) n (right n) (rightOut n) ∧ Does (.asrD dy dx) n (arith n) (arithOut n))

/-- R365 to R369: the bit instructions: on a data register the bit number is taken modulo 32, on a byte of memory modulo 8;
Z is the complement of the bit, no other flag changes; BTST writes nothing. -/
def Obligations.Bits : Prop :=
  ∀ (s : State) (ea : Ea) (dy r : Reg) (num : Byte),
    (let v := s.getD r
     let n := num.toNat % 32
     let m := (s.getD dy).toNat % 32
     let OnD (i : Instr) (k len : Nat) (new : Long) : Prop :=
       OnRegs i s (withReg s.getR (dNum r) new) { s.flags with z := !v.getLsbD k } (s.after len)
     OnD (.btstI 0#8 num (.dn r)) n 1 v ∧ OnD (.btstD dy (.dn r)) m 0 v ∧
     OnD (.bchgI 0#8 num (.dn r)) n 1 (v ^^^ BitVec.twoPow 32 n) ∧
     OnD (.bchgD dy (.dn r)) m 0 (v ^^^ BitVec.twoPow 32 m) ∧
     OnD (.bclrI 0#8 num (.dn r)) n 1 (v &&& ~~~BitVec.twoPow 32 n) ∧
     OnD (.bclrD dy (.dn r)) m 0 (v &&& ~~~BitVec.twoPow 32 m) ∧
     OnD (.bsetI 0#8 num (.dn r)) n 1 (v ||| BitVec.twoPow 32 n) ∧
     OnD (.bsetD dy (.dn r)) m 0 (v ||| BitVec.twoPow 32 m)) ∧
    (eaMemAlter ea = true ∨ eaPcRel ea = true → eaBad ea = false →
     let v := s.operand ea .b
     let n := num.toNat % 8
     let m := (s.getD dy).toNat % 8
     let f (k : Nat) : Flags := { s.flags with z := !v.getLsbD k }
     let OnMem (i : Instr) (k len : Nat) (new : Long) : Prop :=
       Stores i s (s.regsAfter ea .b) (f k) (s.after len) (s.address ea .b) .b new
     Reads (.btstI 0#8 num ea) s ea .b (s.regsAfter ea .b) (f n) (s.after (1 + eaLen ea)) ∧
     Reads (.btstD dy ea) s ea .b (s.regsAfter ea .b) (f m) (s.after (eaLen ea)) ∧
     (eaMemAlter ea = true →
       OnMem (.bchgI 0#8 num ea) n (1 + eaLen ea) (v ^^^ BitVec.twoPow 32 n) ∧
       OnMem (.bchgD dy ea) m (eaLen ea) (v ^^^ BitVec.twoPow 32 m) ∧
       OnMem (.bclrI 0#8 num ea) n (1 + eaLen ea) (v &&& ~~~BitVec.twoPow 32 n) ∧
       OnMem (.bclrD dy ea) m (eaLen ea) (v &&& ~~~BitVec.twoPow 32 m) ∧
       OnMem (.bsetI 0#8 num ea) n (1 + eaLen ea) (v ||| BitVec.twoPow 32 n) ∧
       OnMem (.bsetD dy ea) m (eaLen ea) (v ||| BitVec.twoPow 32 m)))

/-! ### Program control (spec/43_program_control.md) -/

/-- R236, R382, R383, R385: BRA and Bcc: taken, to PC + 2 + d; else the next instruction. Which old words a fetch may still
find after the jump is the model's (log entry 16). -/
def Obligations.Branches : Prop :=
  ∀ (s : State) (d : Disp) (cc : BitVec 4),
    (let t := s.branchTo d
     let n : Nat := dispWords d
     (t.getLsbD 0 = false → Jumps (.bra d) s s.getR t) ∧
     (t.getLsbD 0 = false → holds s.flags cc = true → Jumps (.bcc cc d) s s.getR t) ∧
     (holds s.flags cc = false → OnRegs (.bcc cc d) s s.getR s.flags (s.after n)))

/-- R384, R386, R387: JMP, JSR and BSR: JSR and BSR push the address of the next instruction; JSR computes its target before
SP changes. Which old words a fetch may still find after the JMP is the model's (log entry 16). -/
def Obligations.JumpsAndCalls : Prop :=
  ∀ (s : State) (d : Disp) (ea : Ea), eaControl ea = true → eaBad ea = false →
    (let t := s.branchTo d
     let n : Nat := dispWords d
     let g := withReg s.getR (aNum spReg) (s.sp - 4#32)
     (t.getLsbD 0 = false → Stores (.bsr d) s g s.flags t (s.sp - 4#32) .l (s.after n)) ∧
     ((s.address ea .l).getLsbD 0 = false →
       Jumps (.jmp ea) s s.getR (s.address ea .l) ∧
       Stores (.jsr ea) s g s.flags (s.address ea .l) (s.sp - 4#32) .l (s.after (eaLen ea))))

/-- R388: RTS: to the address at (SP), SP + 4; an odd one raises the address error. That SP is then as it was is the
model's choice (D37, log entry 43), and so is that the fault status is one of Table 4-4 and not said (log entry
25). -/
def Obligations.ReturnFromSubroutine : Prop :=
  ∀ s : State,
    (let v := s.operand (.ind spReg) .l
     (v.getLsbD 0 = false →
       ∃ t, exec .rts s = .next t ∧ t.getR = withReg s.getR (aNum spReg) (s.sp + 4#32) ∧ t.cpu.sr = s.cpu.sr ∧
         t.cpu.pc = v ∧ SameUnits s t ∧ (s.cacheOff → v = s.longAt s.sp ∧ SameMem s t)) ∧
     (v.getLsbD 0 = true → s.CanEnter → ∃ t, exec .rts s = .next t ∧ EntersAddressError s t s.cpu.pc))

/-- R380, R516: an odd target of BRA, a taken Bcc, BSR, JMP or JSR raises the address error of the instruction with
nothing changed before it: that BSR and JSR test the target before they push is the model's choice (D37, log entry 43);
its fault status is one of Table 4-4, which one is not said (log entry 25). -/
def Obligations.OddTarget : Prop :=
  ∀ (s : State) (d : Disp) (cc : BitVec 4) (ea : Ea), s.CanEnter → eaControl ea = true → eaBad ea = false →
    (let odd (i : Instr) : Prop := ∃ t, exec i s = .next t ∧ EntersAddressError s t s.cpu.pc
     let t := s.branchTo d
     (t.getLsbD 0 = true → odd (.bra d) ∧ odd (.bsr d) ∧ (holds s.flags cc = true → odd (.bcc cc d))) ∧
     ((s.address ea .l).getLsbD 0 = true → odd (.jmp ea) ∧ odd (.jsr ea)))

/-- R389, R392: Scc writes the low byte; the three forms of TRAPF skip their extension words. -/
def Obligations.SetAndSkip : Prop :=
  ∀ (s : State) (dx : Reg) (cc : BitVec 4) (v w : Word),
    OnRegs (.scc cc dx) s (withReg s.getR (dNum dx) (putLow 8 (s.getD dx) (if holds s.flags cc then 0xFF#32 else 0#32)))
      s.flags (s.after 0) ∧
    OnRegs .trapf s s.getR s.flags (s.after 0) ∧
    OnRegs (.trapfW v) s s.getR s.flags (s.after 1) ∧
    OnRegs (.trapfL v w) s s.getR s.flags (s.after 2)

/-- R390, spec/20_memory.md R106: NOP goes on when the buffers are empty, and changes nothing else; a write error still
pending is taken on it, with the NOP or the next instruction stacked: which one is not said, a free value (log entry
24). -/
def Obligations.NopSynchronises : Prop :=
  ∀ s : State, (s.ms.writeError = false → ∃ t, exec .nop s = .next t ∧ t.getR = s.getR ∧ t.cpu.sr = s.cpu.sr ∧
      t.cpu.pc = s.after 0 ∧ t.ms.stores = [] ∧ t.ms.push = none ∧ t.ms.writeError = false ∧ SameUnits s t ∧
      (s.cacheOff → SameMem s t)) ∧
    (s.ms.writeError = true → s.CanEnter → ∃ t pc, exec .nop s = .next t ∧ (pc = s.cpu.pc ∨ pc = s.after 0) ∧
      Enters s t 2#8 9#4 pc)

/-- R391, R393, R517, R521: TRAP #n takes vector 32 + n with the next instruction stacked, ILLEGAL vector 4 with its own. -/
def Obligations.Traps : Prop :=
  ∀ (s : State) (n : BitVec 4), s.CanEnter →
    (∃ t, exec (.trap n) s = .next t ∧ Enters s t (BitVec.ofNat 8 (32 + n.toNat)) 0#4 (s.after 0)) ∧
    (∃ t, exec .illegal s = .next t ∧ Enters s t 4#8 0#4 s.cpu.pc)

/-! ### Multiply, divide, multiply-accumulate (spec/44_mul_div_mac.md) -/

/-- R421 to R424: the multiplies: the exact product modulo 2^32; N and Z from it, V and C clear. -/
def Obligations.Multiply : Prop :=
  ∀ (s : State) (ea : Ea) (dx : Reg), eaBad ea = false →
    (let w := (s.operand ea .w).setWidth 16
     let d := s.getD dx
     let Does (i : Instr) (sz : Size) (n : Nat) (p : Long) : Prop :=
       Reads i s ea sz (withReg (s.regsAfter ea sz) (dNum dx) p) (valueFlags s.flags 32 p) (s.after n)
     Does (.mulsW ea dx) .w (eaLen ea) (BitVec.ofInt 32 (w.toInt * (d.setWidth 16).toInt)) ∧
     Does (.muluW ea dx) .w (eaLen ea) (BitVec.ofNat 32 (w.toNat * (d.setWidth 16).toNat)) ∧
     Does (.mulsL 0#12 dx ea) .l (1 + eaLen ea) (BitVec.ofInt 32 ((s.operand ea .l).toInt * d.toInt)) ∧
     Does (.muluL 0#12 dx ea) .l (1 + eaLen ea) (BitVec.ofNat 32 ((s.operand ea .l).toNat * d.toNat)))

/-- R425 to R431: divide and remainder where the divisor is not zero and the quotient fits: the quotient truncated, the
remainder of the dividend's sign; REMS and REMU write Dw and leave the dividend; N and Z from the quotient, V and C
clear. -/
def Obligations.Divide : Prop :=
  ∀ (s : State) (ea : Ea) (dw dx : Reg) (signed : Bool), eaBad ea = false → s.pins.hasDiv = true →
    (let d := asNumber signed (s.getD dx)
     let w := asNumber signed ((s.operand ea .w).setWidth 16)
     let v := asNumber signed (s.operand ea .l)
     (w ≠ 0 → inRange signed 16 (d.tdiv w) →
       Reads (if signed then .divsW ea dx else .divuW ea dx) s ea .w
         (withReg (s.regsAfter ea .w) (dNum dx) (BitVec.ofInt 16 (d.tmod w) ++ BitVec.ofInt 16 (d.tdiv w)))
         (valueFlags s.flags 16 (BitVec.ofInt 32 (d.tdiv w))) (s.after (eaLen ea))) ∧
     (v ≠ 0 → inRange signed 32 (d.tdiv v) →
       Reads (if signed then .divsL 0#9 dx ea else .divuL 0#9 dx ea) s ea .l
         (withReg (s.regsAfter ea .l) (dNum dx) (BitVec.ofInt 32 (d.tdiv v)))
         (valueFlags s.flags 32 (BitVec.ofInt 32 (d.tdiv v))) (s.after (1 + eaLen ea)) ∧
       Reads (if signed then .remsL 0#9 dw dx ea else .remuL 0#9 dw dx ea) s ea .l
         (withReg (s.regsAfter ea .l) (dNum dw) (BitVec.ofInt 32 (d.tmod v)))
         (valueFlags s.flags 32 (BitVec.ofInt 32 (d.tdiv v))) (s.after (1 + eaLen ea))))

/-- R425: where the quotient does not fit: V set, C clear, X and the destination as they were; what N and Z are is not
said, a free value (log entry 23). -/
def Obligations.DivideOverflow : Prop :=
  ∀ (s : State) (ea : Ea) (dw dx : Reg) (signed : Bool), eaBad ea = false → s.pins.hasDiv = true →
    (let d := asNumber signed (s.getD dx)
     let w := asNumber signed ((s.operand ea .w).setWidth 16)
     let v := asNumber signed (s.operand ea .l)
     let Over (i : Instr) (sz : Size) (n : Nat) : Prop :=
       ∃ t, exec i s = .next t ∧ t.getR = s.regsAfter ea sz ∧
         (∃ n z, FlagsNow s t { x := s.flags.x, n := n, z := z, v := true, c := false }) ∧ t.cpu.pc = s.after n ∧
         t.mac = s.mac ∧ t.ctl = s.ctl ∧ t.dbg = s.dbg ∧ t.ev = s.ev ∧ t.pins = s.pins ∧ t.bdm = s.bdm ∧
         (s.cacheOff → SameMem s t)
     (w ≠ 0 → ¬inRange signed 16 (d.tdiv w) →
       Over (if signed then .divsW ea dx else .divuW ea dx) .w (eaLen ea)) ∧
     (v ≠ 0 → ¬inRange signed 32 (d.tdiv v) →
       Over (if signed then .divsL 0#9 dx ea else .divuL 0#9 dx ea) .l (1 + eaLen ea) ∧
       Over (if signed then .remsL 0#9 dw dx ea else .remuL 0#9 dw dx ea) .l (1 + eaLen ea)))

/-- R425, R526: a divisor of zero raises vector 5 (log entry 48) with registers and flags as they were, but for the
postincrement or predecrement of the source, which is kept or not: not said, a free value (log entry 23). -/
def Obligations.DivideByZero : Prop :=
  ∀ (s : State) (ea : Ea) (dw dx : Reg), eaBad ea = false → s.pins.hasDiv = true → s.CanEnter →
    (let Raises (i : Instr) (sz : Size) : Prop := s.operand ea sz = 0#32 → (s.located ea sz).CanEnter →
       ∃ t u, exec i s = .next t ∧ (u = s ∨ u = s.located ea sz) ∧ Enters u t 5#8 0#4 s.cpu.pc
     Raises (.divsW ea dx) .w ∧ Raises (.divuW ea dx) .w ∧ Raises (.divsL 0#9 dx ea) .l ∧
       Raises (.divuL 0#9 dx ea) .l ∧ Raises (.remsL 0#9 dw dx ea) .l ∧ Raises (.remuL 0#9 dw dx ea) .l)

/-- R420, R522: without the MAC or the divide unit, every one of its instructions raises vector 61, nothing changed. -/
def Obligations.AbsentUnits : Prop :=
  ∀ (s : State) (i : Instr), s.CanEnter →
    (i.usesMac = true ∧ s.pins.hasMac = false ∨ i.usesDiv = true ∧ s.pins.hasDiv = false) →
    ∃ t, exec i s = .next t ∧ Enters s t 61#8 0#4 s.cpu.pc

/-- R440 to R444: MAC and MSAC: the product, scaled, is added to or subtracted from ACC in the signedness of MACSR; N, Z
and V of MACSR from the result, saturation under OMC; nothing else but the PC. The model's readings: the fractional
mode is modelled and accumulates signed (log entry 20), V is that of this operation (log entry 21). What the product
of -1 and -1 is in fractional mode, and which way a tie is rounded, is not said. -/
def Obligations.MultiplyAccumulate : Prop :=
  ∀ (s : State) (rx ry : RegX) (sf : BitVec 2) (ux uy : Bool), s.pins.hasMac = true → sf ≠ 2#2 →
    (let Does (i : Instr) (f : MacForm) : Prop :=
       ∃ t, exec i s = .next t ∧ MacResult s.mac t.mac f (s.getR rx) (s.getR ry) ∧ t.cpu.d = s.cpu.d ∧
         t.cpu.a = s.cpu.a ∧ t.cpu.sr = s.cpu.sr ∧ t.cpu.pc = s.after 1 ∧ t.ms = s.ms ∧ t.ctl = s.ctl ∧
         t.dbg = s.dbg ∧ t.ev = s.ev ∧ t.pins = s.pins ∧ t.bdm = s.bdm ∧ SameMem s t
     Does (.macW 0#10 sf ux uy rx ry) { sub := false, long := false, ux := ux, uy := uy, sf := sf } ∧
     Does (.macL 0#10 sf ux uy rx ry) { sub := false, long := true, ux := ux, uy := uy, sf := sf } ∧
     Does (.msacW 0#10 sf ux uy rx ry) { sub := true, long := false, ux := ux, uy := uy, sf := sf } ∧
     Does (.msacL 0#10 sf ux uy rx ry) { sub := true, long := true, ux := ux, uy := uy, sf := sf })

/-- R445: MAC and MSAC with load: the factors are the registers before the load, the address may be masked, Rw is
written last; the accumulation as without load (log entries 20, 21). -/
def Obligations.MultiplyAccumulateLoad : Prop :=
  ∀ (s : State) (rx ry rw : RegX) (sf : BitVec 2) (ux uy msk : Bool) (ea : Ea), s.pins.hasMac = true → sf ≠ 2#2 →
    eaLoad ea = true →
    (let a := if msk then s.address ea .l &&& (0xFFFF0000#32 ||| s.mac.mask.setWidth 32) else s.address ea .l
     let Does (i : Instr) (f : MacForm) : Prop :=
       ∃ t v, exec i s = .next t ∧ MacResult s.mac t.mac f (s.getR rx) (s.getR ry) ∧
         t.getR = withReg (s.regsAfter ea .l) rw v ∧ t.cpu.sr = s.cpu.sr ∧ t.cpu.pc = s.after (1 + eaLen ea) ∧
         t.ctl = s.ctl ∧ t.dbg = s.dbg ∧ t.ev = s.ev ∧ t.pins = s.pins ∧ t.bdm = s.bdm ∧
         (s.cacheOff → v = s.longAt a ∧ SameMem s t)
     Does (.macWLoad false sf ux uy msk rx ry rw ea) { sub := false, long := false, ux := ux, uy := uy, sf := sf } ∧
     Does (.macLLoad false sf ux uy msk rx ry rw ea) { sub := false, long := true, ux := ux, uy := uy, sf := sf } ∧
     Does (.msacWLoad false sf ux uy msk rx ry rw ea) { sub := true, long := false, ux := ux, uy := uy, sf := sf } ∧
     Does (.msacLLoad false sf ux uy msk rx ry rw ea) { sub := true, long := true, ux := ux, uy := uy, sf := sf })

/-- R446 to R452: the moves between the MAC registers, general registers and the CCR. What MOVE MACSR,CCR does to X and P
is not said (V7): that it clears X and keeps P is the model's choice (log entry 22). -/
def Obligations.MacMoves : Prop :=
  ∀ (s : State) (rx : RegX) (ea : Ea), s.pins.hasMac = true → eaMacSrc ea = true →
    (let v := s.operand ea .l
     let Into (i : Instr) (m : Mac) : Prop :=
       ∃ t, exec i s = .next t ∧ t.mac = m ∧ t.cpu = { s.cpu with pc := s.after (eaLen ea) } ∧ t.ms = s.ms ∧
         t.ctl = s.ctl ∧ t.dbg = s.dbg ∧ t.ev = s.ev ∧ t.pins = s.pins ∧ t.bdm = s.bdm ∧ SameMem s t
     OnRegs (.moveFromAcc rx) s (withReg s.getR rx s.mac.acc) s.flags (s.after 0) ∧
     OnRegs (.moveFromMacsr rx) s (withReg s.getR rx (s.mac.macsr.setWidth 32)) s.flags (s.after 0) ∧
     OnRegs (.moveFromMask rx) s (withReg s.getR rx (0xFFFF0000#32 ||| s.mac.mask.setWidth 32)) s.flags (s.after 0) ∧
     OnRegs .moveMacsrToCcr s s.getR
       { x := false, n := s.mac.macsr.getLsbD 3, z := s.mac.macsr.getLsbD 2, v := s.mac.macsr.getLsbD 1
         c := s.mac.macsr.getLsbD 0 } (s.after 0) ∧
     Into (.moveToMask ea) { s.mac with mask := v.setWidth 16 } ∧
     Into (.moveToMacsr ea) { s.mac with macsr := (v >>> 1).setWidth 7 ++ 0#1 } ∧
     Into (.moveToAcc ea) { s.mac with
       acc := v, macsr := (s.mac.macsr >>> 4).setWidth 4 ++ BitVec.ofBool v.msb ++ BitVec.ofBool (v == 0#32) ++ 0#2 })

/-! ### System control (spec/45_system_control.md) -/

/-- R462 to R465: the moves from and to the CCR and, in supervisor mode, the SR: of the CCR the upper byte reads as zero and is
not written; of the SR the reserved bits stay zero. -/
def Obligations.StatusMoves : Prop :=
  ∀ (s : State) (r : Reg) (v : Word),
    (let Into (i : Instr) (sr : Word) (n : Nat) : Prop :=
       ∃ t, exec i s = .next t ∧ t.cpu.sr = sr &&& 0xB79F#16 ∧ t.getR = s.getR ∧ t.cpu.pc = s.after n ∧
         t.ms = s.ms ∧ SameUnits s t ∧ ∀ sp a, t.peekIn sp a = s.peekIn sp a
     let ccr (v : Word) : Word := (s.cpu.sr &&& 0xFF00#16) ||| (v &&& 0x00FF#16)
     OnRegs (.moveFromCcr r) s (withReg s.getR (dNum r) (putLow 16 (s.getD r) (s.cpu.sr.setWidth 32 &&& 0xFF#32)))
       s.flags (s.after 0) ∧
     Into (.moveToCcrD r) (ccr ((s.getD r).setWidth 16)) 0 ∧ Into (.moveToCcrI v) (ccr v) 1 ∧
     (s.super = true →
       OnRegs (.moveFromSr r) s (withReg s.getR (dNum r) (putLow 16 (s.getD r) (s.cpu.sr.setWidth 32))) s.flags
         (s.after 0) ∧
       Into (.moveToSrD r) ((s.getD r).setWidth 16) 0 ∧ Into (.moveToSrI v) v 1))

/-- R460, R520, R560: the eight privileged instructions raise the privilege violation in user mode, nothing changed; HALT
only while CSR.UHE is clear. -/
def Obligations.Privilege : Prop :=
  ∀ (s : State) (i : Instr), s.super = false → s.CanEnter →
    (i.privileged = true ∨ i = .halt ∧ s.dbg.csr.getLsbD 10 = false) →
    ∃ t, exec i s = .next t ∧ Enters s t 8#8 0#4 s.cpu.pc

/-- R466, R46, R40 to R45: MOVEC writes the implemented bits of the register it names, and empties the buffers; CINVA
invalidates every line of the cache. -/
def Obligations.MoveToControl : Prop :=
  ∀ (s : State) (ry : RegX), s.super = true →
    (let v := s.getR ry
     let Does (rc : BitVec 12) (c : Ctl) : Prop :=
       ∃ t, exec (.movec ry rc) s = .next t ∧ t.ctl = c ∧ t.getR = s.getR ∧ t.cpu.sr = s.cpu.sr ∧
         t.cpu.pc = s.after 1 ∧ t.mac = s.mac ∧ t.dbg = s.dbg ∧ t.ev = s.ev ∧ t.pins = s.pins ∧ t.bdm = s.bdm ∧
         t.ms.stores = [] ∧ t.ms.push = none ∧ t.ms.ram = s.ms.ram ∧
         (∀ sp a, busByte t.ms sp a = busByte (settle s.ms) sp a) ∧
         (rc = 0x002#12 → v.getLsbD 24 = true →
           t.ms.fill.valid = false ∧ ∀ set lv, (lineAt t.ms set lv).v = false ∧ (lineAt t.ms set lv).d = false) ∧
         (rc ≠ 0x002#12 ∨ v.getLsbD 24 = false → t.ms.cache = s.ms.cache)
     Does 0x002#12 { s.ctl with cacr := v &&& 0xB8000720#32 } ∧
     Does 0x004#12 { s.ctl with acr0 := v &&& 0xFFFFE064#32 } ∧
     Does 0x005#12 { s.ctl with acr1 := v &&& 0xFFFFE064#32 } ∧
     Does 0x801#12 { s.ctl with vbr := v &&& 0xFFF00000#32 } ∧
     Does 0xC00#12 { s.ctl with rombar := v &&& 0xFFFFFF3F#32 } ∧
     Does 0xC04#12 { s.ctl with rambar := v &&& 0xFFFFFF3F#32 })

/-- R468, R470, spec/61_debug_and_bdm.md R596: HALT: the buffers emptied, of the halt sources CSR.HALT alone set, or CSR.TRG
alone while the halt of a trigger is pending, the core halted at the next instruction; that this halt is done with the
requests of a trigger and of the BKPT pin is the model's choice (log entry 40). STOP: SR from the operand, then the
stopped state at the next instruction; with T set before it or by it, the trace exception at once instead, in emulator
mode with CSR.TRC. No other register changes. -/
def Obligations.HaltAndStop : Prop :=
  ∀ (s : State) (v : Word),
    (s.super = true ∨ s.dbg.csr.getLsbD 10 = true →
      ∃ t, exec .halt s = .next t ∧ t.getR = s.getR ∧ t.cpu.sr = s.cpu.sr ∧ t.cpu.pc = s.after 0 ∧ t.mac = s.mac ∧
        t.ctl = s.ctl ∧ t.dbg = { s.dbg with csr := haltSource s.dbg.csr (if s.ev.haltTrg then 26 else 25) } ∧
        t.ev = { s.ev with run := .halted, haltTrg := false, haltBkpt := false } ∧ t.pins = s.pins ∧ t.bdm = s.bdm ∧
        t.ms.stores = [] ∧ t.ms.push = none ∧
        (s.cacheOff → SameMem s t)) ∧
    (s.super = true → (s.trace || v.getLsbD 15) = false →
      ∃ t, exec (.stop v) s = .next t ∧ t.getR = s.getR ∧ t.cpu.sr = v &&& 0xB79F#16 ∧ t.cpu.pc = s.after 1 ∧
        t.mac = s.mac ∧ t.ctl = s.ctl ∧ t.dbg = s.dbg ∧ t.ev = { s.ev with run := .stopped } ∧ t.pins = s.pins ∧
        t.bdm = s.bdm ∧ t.ms.stores = [] ∧ t.ms.push = none ∧
        (s.cacheOff → ∀ sp a, t.peekIn sp a = s.peekIn sp a)) ∧
    (s.super = true → (s.trace || v.getLsbD 15) = true →
      let u := (s.setSr v).setEv { s.ev with emulator := s.ev.emulator || s.dbg.csr.getLsbD 14 }
      u.CanEnter → ∃ t, exec (.stop v) s = .next t ∧ Enters u t 9#8 0#4 (s.after 1))

/-- R472, spec/21_cache_and_local_memory.md R170: CPUSHL: a dirty line goes to memory, and is clean after it, and invalid
unless CACR.DPI; the line is named by the set and the level in An; no other line, register or byte changes. Which
transfer types then read the pushed line in memory is the model's choice: all but TT = 10, which has a memory of its own
(D20 leaves it to the system; log entry 17). -/
def Obligations.PushLine : Prop :=
  ∀ (s : State) (ax : Reg), s.super = true → s.pins.cacheSize ≠ .absent →
    (let k := setBits s.pins.cacheSize
     let set := (s.getA ax).toNat / 16 % 2 ^ k
     let lv := (s.getA ax).toNat % 4
     let l := lineAt s.ms set lv
     let at0 : Long := (l.tag <<< k ||| BitVec.ofNat 32 set) <<< 4
     ∃ t, exec (.cpushl ax) s = .next t ∧ t.getR = s.getR ∧ t.cpu.sr = s.cpu.sr ∧ t.cpu.pc = s.after 0 ∧
       SameUnits s t ∧ t.ms.stores = [] ∧ t.ms.push = none ∧ t.ms.ram = s.ms.ram ∧
       lineAt t.ms set lv = { l with v := l.v && s.ctl.cacr.getLsbD 28, d := false } ∧
       (∀ set', ∀ lv' < 4, (set', lv') ≠ (set, lv) → lineAt t.ms set' lv' = lineAt s.ms set' lv') ∧
       (∀ sp : Space, ∀ a : Long, busByte t.ms sp a.toNat =
         if sp.tt ≠ 2#2 ∧ l.v = true ∧ l.d = true ∧ a &&& 0xFFFFFFF0#32 = at0 then lineByte l.data (a.toNat % 16)
         else busByte (settle s.ms) sp a.toNat))

/-- R473, R474, R581, R583: PULSE and WDDATA, with CSR.PCD clear: the mark 4 on the trace port, for WDDATA with the operand,
whatever CSR.DDC says; while no item is shown DDATA carries the breakpoint status, its low bit any (R651); a
postincrement or predecrement is done, nothing else changes. -/
def Obligations.TraceInstructions : Prop :=
  ∀ (s : State) (ea : Ea), s.dbg.csr.getLsbD 17 = false →
    (∃ t x, exec .pulse s = .next t ∧ t.port = s.port ++ [{ pst := 4#4, status := statusOf s.dbg ++ (x : BitVec 1), dd := [] }] ∧
      t.getR = s.getR ∧
      t.cpu.sr = s.cpu.sr ∧ t.cpu.pc = s.after 0 ∧ t.ms = s.ms ∧ SameUnits s t ∧ SameMem s t) ∧
    (eaMemAlter ea = true → eaBad ea = false →
      let Does (i : Instr) (sz : Size) (pst : BitVec 4) : Prop :=
        Reads i s ea sz (s.regsAfter ea sz) s.flags (s.after (eaLen ea)) ∧
        ∃ t dd, ∃ x y : BitVec 1, exec i s = .next t ∧
          t.port = s.port ++ [{ pst := 4#4, status := statusOf s.dbg ++ x, dd := [] },
            { pst := pst, status := statusOf s.dbg ++ y, dd := dd }] ∧
          dd.length = 2 * sz.bytes ∧
          ∀ k (h : k < dd.length), dd[k].toNat = (s.operand ea sz).toNat / 16 ^ k % 16
      Does (.wddataB ea) .b 8#4 ∧ Does (.wddataW ea) .w 9#4 ∧ Does (.wddataL ea) .l 0xB#4)

/-- R475, spec/61_debug_and_bdm.md R632, R640: WDEBUG of a WDMREG command at a longword address, the operand laid out as
in log entry 11: the debug register is written, unless CSR.IPW is set; CSR keeps IPW, its status and its reserved
bits; a write of the TDR sets the status anew, with any low bit (U17; a free value that the CSR then keeps, log entry
27). Where a trigger waits for accesses, the instruction's own reads may complete it first, with the registers
as they were before the write (log entry 30): of the registers the status in the CSR alone may differ then, and a halt
or a debug interrupt may be pending. -/
def Obligations.WriteDebugRegister : Prop :=
  ∀ (s : State) (ea : Ea) (drc : BitVec 4) (v : Long) (low : Word), eaBase ea = true → s.super = true → s.cacheOff →
    (s.address ea .l).extractLsb' 0 2 = 0#2 →
    s.bytes (s.address ea .l) 8 = beBytes 4 (0x2C8#12 ++ drc ++ v.extractLsb' 16 16) ++ beBytes 4 (v.extractLsb' 0 16 ++ low) →
    (let Does (g : Dbg) (e : Ev) : Prop :=
       ∃ t, exec (.wdebug 0x0003#16 ea) s = .next t ∧ t.getR = s.getR ∧ t.cpu.sr = s.cpu.sr ∧
         t.cpu.pc = s.after (1 + eaLen ea) ∧ t.mac = s.mac ∧ t.ctl = s.ctl ∧ t.ev = e ∧ t.pins = s.pins ∧
         t.bdm = s.bdm ∧ (∃ b, t.dbg = if s.dbg.csr.getLsbD 16 = true then g else debugWritten g drc v b) ∧
         (t.dbg.csr.getLsbD 15 = s.dbg.csr.getLsbD 15 → SameMem s t)
     (s.ev.inhibitBp = true ∨ statusOf s.dbg ≠ 1#3 ∧ statusOf s.dbg ≠ 5#3 → Does s.dbg s.ev) ∧
     (s.dbg.tdr.extractLsb' 30 2 ≠ 3#2 →
       ∃ (st : BitVec 4) (halt int : Bool), (s.ev.haltTrg = true → halt = true) ∧ (s.ev.debugInt = true → int = true) ∧
         Does { s.dbg with csr := st ++ s.dbg.csr.extractLsb' 0 28 } { s.ev with haltTrg := halt, debugInt := int }))

/-! ### Exceptions (spec/60_exceptions.md) -/

/-- R396, R524: RTE in supervisor mode: of a frame of format 4 to 7, SR, PC and A7 from it, emulator mode left, memory
as it was; of any other format, the format error, with A7, SR and memory not changed before it. The model's choices:
both reads of the frame are supervisor data reads (D38), and an odd PC raises the address error of the RTE after SR and
A7 are restored and emulator mode is left (D37, V4; log entry 43), its fault status not said (log entry 25). -/
def Obligations.ReturnFromException : Prop :=
  ∀ s : State, s.super = true → s.cacheOff →
    (let w := s.longAt s.sp
     let fmt := w.toNat / 2 ^ 28
     let pc := s.longAt (s.sp + 4#32)
     (4 ≤ fmt → fmt ≤ 7 → pc.getLsbD 0 = false →
       ∃ t, exec .rte s = .next t ∧ t.cpu.sr = w.setWidth 16 &&& 0xB79F#16 ∧ t.cpu.pc = pc ∧
         t.getR = withReg s.getR (aNum spReg) (s.sp + 4#32 + BitVec.ofNat 32 fmt) ∧ t.mac = s.mac ∧ t.ctl = s.ctl ∧
         t.dbg = s.dbg ∧ t.pins = s.pins ∧ t.bdm = s.bdm ∧
         t.ev = { s.ev with emulator := false, inhibitBp := s.ev.inhibitBp || s.ev.emulator } ∧
         ∀ sp a, peekByte s.route t.ms sp false a = s.peekIn sp a) ∧
     (4 ≤ fmt → fmt ≤ 7 → pc.getLsbD 0 = true →
       (let u := ((s.setSr (w.setWidth 16)).setSp (s.sp + 4#32 + BitVec.ofNat 32 fmt)).setEv
          { s.ev with emulator := false, inhibitBp := s.ev.inhibitBp || s.ev.emulator }
        u.CanEnter → ∃ t, exec .rte s = .next t ∧ EntersAddressError u t s.cpu.pc)) ∧
     (fmt < 4 ∨ 7 < fmt → s.CanEnter → ∃ t, exec .rte s = .next t ∧ Enters s t 14#8 0#4 s.cpu.pc))

/-- R505, R507, R396: TRAP and then RTE, whatever A7 was: the return goes on after the TRAP with every register, SR, A7
and all memory outside the frame as they were. -/
def Obligations.TrapAndReturn : Prop :=
  ∀ (s t : State) (n : BitVec 4), s.CanEnter → exec (.trap n) s = .next t → t.ev.faultOnFault = false →
    s.ev.emulator = false → (s.after 0).getLsbD 0 = false → s.cpu.sr &&& ~~~0xB79F#16 = 0#16 →
    ∃ u, exec .rte t = .next u ∧ u.getR = s.getR ∧ u.cpu.sr = s.cpu.sr ∧ u.cpu.pc = s.after 0 ∧ u.mac = s.mac ∧
      u.ctl = s.ctl ∧ u.dbg = s.dbg ∧
      ∀ a, Outside (frameAddr s.sp) 8 a → u.peekIn s.superSpace a = s.peekIn s.superSpace a

/-- R504 items 5 and 6, R510, R540, R550: at a boundary where nothing else is pending, a request above the mask, or a
new one of level 7 (the edge is presumed, log entry 13), is taken; a request at or below it is not, and none is at
the boundary before the first instruction of a handler, or in emulator mode. -/
def Obligations.InterruptRecognition : Prop :=
  ∀ s : State, s.ev.run = .running → s.ms.writeError = false → s.ev.tracePending = false → s.ev.stepDone = false →
    s.ev.haltTrg = false → s.ev.haltBkpt = false → s.ev.debugInt = false → s.ev.boundaryTaken = false →
    s.dbg.tdr.getLsbD 13 = false → s.dbg.tdr.getLsbD 29 = false → s.pins.en000iack = false →
    (s.dbg.csr.getLsbD 4 && s.dbg.csr.getLsbD 5) = false →
    s.boundary =
      if (s.ev.inhibitInt || s.ev.emulator) = false ∧
          (s.ipl.toNat < 7 - s.pins.miplb.toNat ∨ s.pins.miplb = 0#3 ∧ s.ev.nmiTaken = false)
      then .event (s.interrupt (7#3 - s.pins.miplb)).atBoundary
      else .goOn s

/-- R541 to R543, R505: taking an interrupt of a level that no local memory answers for: the vector that the host gives
in the acknowledge cycle (a field of the pins, log entry 31), M clear, the mask at the level, the address of the
instruction about to begin stacked. -/
def Obligations.InterruptEntry : Prop :=
  ∀ (s : State) (l : BitVec 3), s.CanEnter →
    ramClaims s.route { tt := 3#2, tm := l } (0xFFFFFFE0#32 + 4#32 * l.setWidth 32) = false →
    romClaims s.route { tt := 3#2, tm := l } (0xFFFFFFE0#32 + 4#32 * l.setWidth 32) = false →
    (let r := s.setEv { s.ev with run := .running, nmiTaken := s.ev.nmiTaken || l == 7#3 }
     EntersAs r (s.interrupt l) (handlerSr s.cpu.sr &&& 0xE8FF#16 ||| l.setWidth 16 <<< 8) (s.pins.iack[l.toNat]'l.isLt) 0#4 s.cpu.pc)

/-- R504, R515, spec/20_memory.md R112: at the first boundary after a write to protected space the access error is taken,
before any other event, FS 1001, with the address of the instruction about to begin stacked (log entry 15). That it goes
before every other event, and that a trace pending with it is dropped, is the model's choice (D14, log entry 39). -/
def Obligations.AccessErrorTaken : Prop :=
  ∀ s : State, s.CanEnter → s.ms.writeError = true → s.ev.boundaryTaken = false →
    ∃ u, s.boundary = .event u.atBoundary ∧ u.ms.writeError = false ∧
      Enters (s.setEv { s.ev with tracePending := false }) u 2#8 9#4 s.cpu.pc

/-- R550: an exception whose first frame write is rejected by write protection ends in the fault-on-fault halt: CSR.FOF
alone set of the halt sources, SR that of the handler (shown for TRAP). The model's choices: write protection binds the
frame writes (D27, log entry 52), and A7 is as it was (log entry 26). -/
def Obligations.FaultOnFault : Prop :=
  ∀ (s : State) (n : BitVec 4), s.cacheOff → s.ev.inException = false →
    byteRejected s.route s.superSpace (frameAddr s.sp) →
    ∃ t, exec (.trap n) s = .next t ∧ t.ev.run = .halted ∧ t.ev.faultOnFault = true ∧
      t.dbg = { s.dbg with csr := haltSource s.dbg.csr 27 } ∧ t.getR = s.getR ∧
      t.cpu.sr = handlerSr s.cpu.sr ∧ t.mac = s.mac ∧ t.ctl = s.ctl

/-! ### Reset (spec/70_reset_and_hazards.md) -/

/-- R680, R681, R685, spec/10_state.md R51 to R54: the reset event: SR, VBR, CACR, the enables of the other control
registers, the debug registers, the run state; the memory and the cache are not touched, what is buffered is lost.
That the event is one step that consumes the pin is the model's (log entry 50). -/
def Obligations.ResetEvent : Prop :=
  ∀ s : State, s.pins.rsti = true → (s.pins.encf5307kram || s.pins.enraptorkram) = false →
    ∃ t, step s = .next t ∧ t.cpu.sr &&& 0xFFE0#16 = 0x2700#16 ∧ t.ctl.vbr = 0#32 ∧ t.ctl.cacr = 0#32 ∧
      t.ctl.acr0 = s.ctl.acr0 &&& ~~~0x8000#32 ∧ t.ctl.acr1 = s.ctl.acr1 &&& ~~~0x8000#32 ∧
      t.ctl.rambar = s.ctl.rambar &&& ~~~1#32 ∧
      t.ctl.rombar = (if s.pins.kromvldrst then 0x00000121#32 else s.ctl.rombar &&& ~~~1#32) ∧
      t.dbg = { s.dbg with csr := 0x00100000#32, tdr := 0#32, baar := 0x05#8, aatr := 0x0005#16 } ∧
      t.ev.run = .running ∧ t.ev.resetPending = true ∧ t.ev.emulator = false ∧ t.ev.faultOnFault = false ∧
      t.ms.mem = s.ms.mem ∧ t.ms.cache = s.ms.cache ∧ t.ms.stores = [] ∧ t.ms.push = none ∧
      t.ms.fill.valid = false ∧ t.pins = { s.pins with rsti := false }

/-- R682: the reset exception: A7 from address 0, the PC from address 4, read as supervisor code whatever SR.S is, before
any exchange of the debug module; an odd PC is a fault-on-fault, after the branch was shown on the trace port;
nothing prefetched is left. -/
def Obligations.ResetException : Prop :=
  ∀ s : State, s.cacheOff → s.ms.fill.valid = false → s.dbg.csr.getLsbD 13 = false →
    s.ev.resetPending = true → s.ev.run = .running → s.ev.emulator = false → s.pins.rsti = false → s.pins.bkpt = false →
    s.pins.noAck = false → s.ms.stuck = false → (s.pins.encf5307kram || s.pins.enraptorkram) = false →
    (let pc := beValue (s.superCodeBytes 4#32 4)
     ∃ t, step s = .next t ∧ t.getR = withReg s.getR (aNum spReg) (beValue (s.superCodeBytes 0#32 4)) ∧
       (pc.getLsbD 0 = false → t.cpu.pc = pc ∧ t.ev.run = .running ∧ t.ev.resetPending = false) ∧
       (pc.getLsbD 0 = true → t.ev.run = .halted ∧ t.ev.faultOnFault = true) ∧
       (s.dbg.csr.getLsbD 17 = false → s.dbg.csr.extractLsb' 8 2 = 0#2 →
         t.port.map (fun e => e.pst) = if pc.getLsbD 0 then [0xC#4, 5#4, 0xF#4] else [0xC#4, 5#4]) ∧
       t.ms.stale = [] ∧ t.cpu.sr = s.cpu.sr ∧ t.ctl = s.ctl)

/-! ### Memory (spec/20_memory.md, spec/21_cache_and_local_memory.md) -/

/-- R103, R104, R112, R113: a byte written to protected space is not written, and leaves the access error pending; one
written to writethrough or imprecise space with CACR.ESB set waits in the store buffer (log entry 14), the memory
behind the M-Bus as it was, and is what the program reads there at once. With the cache in use (R145, R147, R148): a
copyback write that hits changes its byte of the line, sets D and leaves memory; a writethrough write that hits
changes the line, D clear, and memory once the buffers are empty, one that misses memory alone; a copyback write that
misses brings in the line, with its byte written, valid and dirty; a line write that misses brings it in without a
read on the M-Bus, the fill buffer as it was. The model's choices: when what is buffered goes to memory, so that a miss,
a line write's too, has emptied the store buffer, and leaves a dirty victim in the push buffer, memory as the emptied
buffers left it, by log entry 14 (R106, R146 and R151 fix no such time); and which transfer types read what was written,
all but TT = 10 (D20; log entry 17). -/
def Obligations.ByteWrites : Prop :=
  ∀ (s : State) (a v : Long),
    (s.cacheOff → byteRejected s.route s.dataSpace a → (s.store a .b v).ms.writeError = true ∧ SameMem s (s.store a .b v)) ∧
    (s.cacheOff → s.ctl.cacr.getLsbD 29 = true → s.ms.stores.length < 4 → ramClaims s.route s.dataSpace a = false →
      byteWritable s.route s.dataSpace a →
      cacheMode s.route s.dataSpace a = 0#2 ∨ cacheMode s.route s.dataSpace a = 3#2 →
      (s.store a .b v).ms.mem = s.ms.mem ∧ (s.store a .b v).ms.stores.length = s.ms.stores.length + 1 ∧
        (s.store a .b v).peek a = v.setWidth 8) ∧
    (s.Cachable a → writeProtected s.route s.dataSpace a = false →
      (let t := s.store a .b v
       let put (old : Nat → Byte) (i : Nat) : Byte := if i = a.toNat % 16 then v.setWidth 8 else old i
       let Hit (lv : Nat) (d : Bool) : Prop :=
         (t.lineOf a lv).v = true ∧ (t.lineOf a lv).tag = (s.lineOf a lv).tag ∧ (t.lineOf a lv).d = d ∧
           (∀ i < 16, lineByte (t.lineOf a lv).data i = put (lineByte (s.lineOf a lv).data) i) ∧ OtherLines s t a lv
       let Through : Prop :=
         ∀ sp b, busByte (settle t.ms) sp b =
           if sp.tt ≠ 2#2 ∧ b = a.toNat then v.setWidth 8 else busByte (settle s.ms) sp b
       (cacheMode s.route s.dataSpace a = 1#2 →
         (∀ lv, s.HitsIn a lv → Hit lv true ∧ t.ms.mem = s.ms.mem ∧ t.ms.emem = s.ms.emem ∧ t.ms.stores = s.ms.stores) ∧
         (s.Misses a → (∃ lv, Allocates s t a lv true (put (s.behind a))) ∧ t.ms.mem = (settle s.ms).mem) ∧
         (s.Misses a → a.toNat % 16 = 0 → ∀ w0 w1 w2 w3, let u := s.storeLine a [w0, w1, w2, w3]
           (∃ lv, Allocates s u a lv true (fun i => ([w0, w1, w2, w3].flatMap (beBytes 4)).getD i 0#8)) ∧
             u.ms.fill = s.ms.fill ∧ u.ms.mem = (settle s.ms).mem)) ∧
       (cacheMode s.route s.dataSpace a = 0#2 →
         (∀ lv, s.HitsIn a lv → Hit lv false ∧ Through) ∧ (s.Misses a → t.ms.cache = s.ms.cache ∧ Through))))

/-- R95, R188: the RAM answers before the ROM, and both before the memory behind the M-Bus, which is plain memory in the
model (log entry 34); with neither, and the cache disabled, the memory behind the M-Bus as it is once the buffers
are empty. With the cache in use (R144, R146, R150, R151), an aligned operand read that hits answers the bytes of the
line and changes nothing; one that misses brings in the line, valid and not dirty, answers its bytes, and leaves the
line in the fill buffer (spec/10_state.md R66), which then serves no fetch. Which of the levels that R150 allows is
filled is not said. When a dirty victim goes to memory is the model's choice, log entry 14: a miss leaves it in the
push buffer, memory as the emptied buffers left it (R146 fixes no time). -/
def Obligations.WhoAnswers : Prop :=
  (∀ (s : State) (sp : Space) (a : Long), s.cacheOff →
    s.peekIn sp a =
      if ramClaims s.route sp a then memByte s.ms.ram (a.toNat % 2 ^ localBits s.pins.kramSize)
      else if localHit s.pins.kromSize s.ctl.rombar sp a then
        memByte s.pins.romImage (a.toNat % 2 ^ localBits s.pins.kromSize)
      else busByte (settle s.ms) sp a.toNat) ∧
  ∀ (s : State) (sz : Size) (a : Long), s.Cachable a → a.toNat % sz.bytes = 0 →
    (let t := (s.load a sz).2
     let answers (byte : Nat → Byte) : Prop :=
       (s.load a sz).1 = beValue ((List.range sz.bytes).map (fun i => byte (a.toNat % 16 + i)))
     (∀ lv, s.HitsIn a lv →
       answers (lineByte (s.lineOf a lv).data) ∧ ∃ xs, t.ms = { s.ms with xfers := xs }) ∧
     (s.Misses a → answers (s.behind a) ∧ (∃ lv, Allocates s t a lv false (s.behind a)) ∧
       t.ms.mem = (settle s.ms).mem ∧ t.ms.fill.valid = false ∧ t.ms.fill.line = a.extractLsb' 4 28 ∧
       ∀ i < 16, lineByte t.ms.fill.data i = s.behind a i))

/-! ### Debug (spec/61_debug_and_bdm.md) -/

/-- R646, R651, R652, R596: a PC breakpoint of level 1 alone, with the halt response: the core halts before the
instruction at the PC, with the trigger status (but for its low bit, which nothing fixes) and the halt source alone in
the CSR; at another PC it does nothing. When a breakpoint is reported is the model's reading (log entry 30). -/
def Obligations.PcBreakpoint : Prop :=
  ∀ s : State, s.ev.run = .running → s.ms.writeError = false → s.ev.tracePending = false → s.ev.stepDone = false →
    s.ev.inhibitBp = false → s.dbg.tdr = 0x40002002#32 → statusOf s.dbg = 1#3 → s.dbg.pbmr = 0#32 →
    s.ev.haltTrg = false →
    (s.cpu.pc = s.dbg.pbr →
      ∃ t, s.boundary = .event t ∧ t.ev.run = .halted ∧ t.cpu = s.cpu ∧ t.dbg.csr.extractLsb' 24 4 = 4#4 ∧
        statusOf t.dbg = 2#3) ∧
    (s.cpu.pc ≠ s.dbg.pbr → s.pcBreakpoint = .next s)

/-- R605 to R610, R612, R613: the BDM and the registers of a halted core. The command word of a register read makes the
two halves of the register the words to be answered next; a register write takes three words, is answered not ready
twice, writes the register and nothing else of the file, and leaves the completion to be answered. That an exchange
is one step, answered before the core moves, is the model's (log entry 28). -/
def Obligations.BdmRegisters : Prop :=
  ∀ (s : State) (k : RegX) (v : Long), s.ev.run = .halted → s.bdm.cmd = [] → s.bdm.resp = [] →
    (∃ t, s.exchange ((0x2180#16 ||| k.setWidth 16).setWidth 17) = .ok t ∧
      t.bdm.resp = [((s.getR k).extractLsb' 16 16).setWidth 17, ((s.getR k).extractLsb' 0 16).setWidth 17] ∧
      t.bdm.tx = s.bdm.tx ++ [0x0FFFF#17] ∧ t.cpu = s.cpu) ∧
    (∃ t1 t2 t3, s.exchange ((0x2080#16 ||| k.setWidth 16).setWidth 17) = .ok t1 ∧
      t1.exchange ((v.extractLsb' 16 16).setWidth 17) = .ok t2 ∧
      t2.exchange ((v.extractLsb' 0 16).setWidth 17) = .ok t3 ∧ t3.getR = withReg s.getR k v ∧
      t3.bdm.resp = [0x0FFFF#17] ∧ t3.bdm.tx = s.bdm.tx ++ [0x0FFFF#17, 0x10000#17, 0x10000#17])

end Obligations
end

