-- ==== Sys2Proof/Laws/Memory.lean ====
section
/-! SUPPORT. Sys2Proof/Laws/Memory.lean: the laws of the sparse maps (read after write, the canonical form is kept) and of
the big-endian bytes. -/

namespace Sys2Proof.Machine

variable {α : Type}

/-! ### Sparse maps -/

theorem sparseGet_del_self (z : α) (l : List (Nat × α)) (a : Nat) : sparseGet z (sparseDel l a) a = z := by
  induction l with
  | nil => rfl
  | cons c t ih =>
    obtain ⟨k, v⟩ := c
    by_cases h : k = a <;> simp [sparseDel, sparseGet, h, ih]

theorem sparseGet_del_ne (z : α) (l : List (Nat × α)) {a b : Nat} (h : b ≠ a) :
    sparseGet z (sparseDel l a) b = sparseGet z l b := by
  induction l with
  | nil => rfl
  | cons c t ih =>
    obtain ⟨k, v⟩ := c
    by_cases hk : k = a
    · have : ¬ a = b := fun e => h e.symm
      simp [sparseDel, sparseGet, hk, ih, this]
    · simp [sparseDel, sparseGet, hk, ih]

/-- A read after a write to the same key gives the value written. -/
@[simp] theorem sparseGet_set_self [DecidableEq α] (z : α) (l : List (Nat × α)) (a : Nat) (v : α) :
    sparseGet z (sparseSet z l a v) a = v := by
  induction l with
  | nil => by_cases h : v = z <;> simp [sparseSet, sparseGet, h]
  | cons c t ih =>
    obtain ⟨k, w⟩ := c
    simp only [sparseSet]
    split
    · split
      · next h => simp [h, sparseGet_del_self]
      · simp [sparseGet]
    · next hk =>
      split
      · split
        · next h => simp [h, sparseGet, hk, sparseGet_del_self]
        · simp [sparseGet]
      · simp [sparseGet, hk, ih]

/-- A write leaves every other key alone. -/
theorem sparseGet_set_ne [DecidableEq α] (z : α) (l : List (Nat × α)) {a b : Nat} (v : α) (h : b ≠ a) :
    sparseGet z (sparseSet z l a v) b = sparseGet z l b := by
  have h' : ¬ a = b := fun e => h e.symm
  induction l with
  | nil => by_cases hv : v = z <;> simp [sparseSet, sparseGet, hv, h']
  | cons c t ih =>
    obtain ⟨k, w⟩ := c
    simp only [sparseSet]
    split
    · next hk =>
      subst hk
      split <;> simp [sparseGet, h', sparseGet_del_ne z t h]
    · split
      · split <;> simp [sparseGet, h', sparseGet_del_ne z t h]
      · simp [sparseGet, ih]

theorem sparseDel_above [DecidableEq α] (z : α) (l : List (Nat × α)) {a n : Nat} (h : sparseWfFrom z n l = true)
    (ha : a < n) : sparseDel l a = l := by
  induction l generalizing n with
  | nil => rfl
  | cons c t ih =>
    obtain ⟨k, w⟩ := c
    simp only [sparseWfFrom, Bool.and_eq_true, decide_eq_true_eq] at h
    have hk : ¬ k = a := by omega
    simp [sparseDel, hk, ih h.2 (by omega)]

theorem sparseWfFrom_mono [DecidableEq α] (z : α) (l : List (Nat × α)) {m n : Nat} (h : sparseWfFrom z n l = true)
    (hm : m ≤ n) : sparseWfFrom z m l = true := by
  cases l with
  | nil => rfl
  | cons c t =>
    simp only [sparseWfFrom, Bool.and_eq_true, decide_eq_true_eq] at h ⊢
    exact ⟨⟨by omega, h.1.2⟩, h.2⟩

theorem sparseWfFrom_set [DecidableEq α] (z : α) (l : List (Nat × α)) {n a : Nat} (v : α)
    (h : sparseWfFrom z n l = true) (hn : n ≤ a) : sparseWfFrom z n (sparseSet z l a v) = true := by
  induction l generalizing n with
  | nil => by_cases hv : v = z <;> simp [sparseSet, sparseWfFrom, hv, hn]
  | cons c t ih =>
    obtain ⟨k, w⟩ := c
    simp only [sparseWfFrom, Bool.and_eq_true, decide_eq_true_eq] at h
    obtain ⟨⟨h1, h2⟩, h3⟩ := h
    simp only [sparseSet]
    split
    · next hk =>
      subst hk
      rw [sparseDel_above z t h3 (by omega)]
      split
      · exact sparseWfFrom_mono z t h3 (by omega)
      · next hv => simp [sparseWfFrom, h1, hv, h3]
    · next hk =>
      split
      · next hlt =>
        rw [sparseDel_above z t h3 (by omega)]
        split
        · simp [sparseWfFrom, h1, h2, h3]
        · next hv =>
          simp [sparseWfFrom, hn, hv, h2, h3]
          omega
      · simp [sparseWfFrom, h1, h2, ih h3 (by omega)]

/-- Setting a key keeps the canonical form. -/
theorem sparseWf_set [DecidableEq α] (z : α) (l : List (Nat × α)) (a : Nat) (v : α) (h : sparseWf z l = true) :
    sparseWf z (sparseSet z l a v) = true := sparseWfFrom_set z l v h (Nat.zero_le a)

theorem sparseDel_all (p : Nat × α → Bool) (l : List (Nat × α)) (a : Nat) (h : l.all p = true) :
    (sparseDel l a).all p = true := by
  induction l with
  | nil => rfl
  | cons c t ih =>
    obtain ⟨k, w⟩ := c
    simp only [List.all_cons, Bool.and_eq_true] at h
    by_cases hk : k = a <;> simp [sparseDel, hk, ih h.2, h.1]

theorem sparseSet_all [DecidableEq α] (p : Nat × α → Bool) (z : α) (l : List (Nat × α)) (a : Nat) (v : α)
    (h : l.all p = true) (ha : p (a, v) = true) : (sparseSet z l a v).all p = true := by
  induction l with
  | nil => by_cases hv : v = z <;> simp [sparseSet, hv, ha]
  | cons c t ih =>
    obtain ⟨k, w⟩ := c
    simp only [List.all_cons, Bool.and_eq_true] at h
    have hd := sparseDel_all p t a h.2
    simp only [sparseSet]
    split
    · split <;> simp [ha, hd]
    · split
      · split <;> simp [ha, hd, h.1]
      · simp [h.1, ih h.2]

/-! ### Memories -/

@[simp] theorem memByte_set_self (m : List Host.Cell) (a : Nat) (b : Byte) : memByte (memSetByte m a b) a = b :=
  sparseGet_set_self _ _ _ _

theorem memByte_set_ne (m : List Host.Cell) {a c : Nat} (b : Byte) (h : c ≠ a) :
    memByte (memSetByte m a b) c = memByte m c := sparseGet_set_ne _ _ _ h

/-- Writing a byte below the limit keeps the canonical form. -/
theorem memWf_setByte (n : Nat) (m : List Host.Cell) (a : Nat) (b : Byte) (h : memWf n m = true) (ha : a < n) :
    memWf n (memSetByte m a b) = true := by
  simp only [memWf, Bool.and_eq_true] at h ⊢
  exact ⟨sparseWf_set _ _ _ _ h.1, sparseSet_all _ _ _ _ _ h.2 (by simpa using ha)⟩

/-- Writing bytes keeps the canonical form of a memory over the whole address space. -/
theorem memWf_write (m : List Host.Cell) (a : Long) (bs : List Byte) (h : memWf (2 ^ 32) m = true) :
    memWf (2 ^ 32) (memWrite m a bs) = true := by
  induction bs generalizing m a with
  | nil => exact h
  | cons b t ih => exact ih _ _ (memWf_setByte _ _ _ _ h a.isLt)

/-- A byte outside what is written is as it was. -/
theorem memByte_write_ne (m : List Host.Cell) (a : Long) (bs : List Byte) (c : Long)
    (h : ∀ i < bs.length, c ≠ a + BitVec.ofNat 32 i) : memByte (memWrite m a bs) c.toNat = memByte m c.toNat := by
  induction bs generalizing m a with
  | nil => rfl
  | cons b t ih =>
    have h0 : c ≠ a := by simpa using h 0 (by simp)
    rw [memWrite, ih, memByte_set_ne]
    · exact fun e => h0 (BitVec.eq_of_toNat_eq e)
    · intro i hi
      have := h (i + 1) (by simpa using hi)
      rwa [BitVec.ofNat_add, BitVec.add_comm (BitVec.ofNat 32 i), ← BitVec.add_assoc] at this

/-- The bytes that are written, for a write shorter than the address space. -/
theorem memByte_write_at (m : List Host.Cell) (a : Long) (bs : List Byte) (i : Nat) (hi : i < bs.length)
    (hl : bs.length ≤ 2 ^ 32) : memByte (memWrite m a bs) (a + BitVec.ofNat 32 i).toNat = bs[i] := by
  induction bs generalizing m a i with
  | nil => simp at hi
  | cons b t ih =>
    simp only [List.length_cons] at hl hi
    cases i with
    | zero =>
      rw [memWrite]
      have := memByte_write_ne (memSetByte m a.toNat b) (a + 1#32) t a (by
        intro j hj e
        have := congrArg BitVec.toNat e
        simp only [BitVec.toNat_add, BitVec.toNat_ofNat] at this
        have := a.isLt
        omega)
      simpa using this
    | succ j =>
      have e : a + BitVec.ofNat 32 (j + 1) = a + 1#32 + BitVec.ofNat 32 j := by
        rw [BitVec.ofNat_add, BitVec.add_comm (BitVec.ofNat 32 j), ← BitVec.add_assoc]
      rw [memWrite, e]
      simpa using ih (memSetByte m a.toNat b) (a + 1#32) j (by omega) (by omega)

/-! ### Bytes -/

@[simp] theorem beBytes_length (n : Nat) (v : Long) : (beBytes n v).length = n := by
  induction n with
  | zero => rfl
  | succ n ih => simp [beBytes, ih]

@[simp] theorem readBytes_length (g : Nat → Byte) (a : Long) (n : Nat) : (readBytes g a n).length = n := by
  induction n generalizing a with
  | zero => rfl
  | succ n ih => simp [readBytes, ih]

/-- The bytes of a read, one by one. -/
theorem readBytes_getElem (g : Nat → Byte) (a : Long) (n i : Nat) (h : i < (readBytes g a n).length) :
    (readBytes g a n)[i] = g (a + BitVec.ofNat 32 i).toNat := by
  induction n generalizing a i with
  | zero => simp [readBytes] at h
  | succ n ih =>
    cases i with
    | zero => simp [readBytes]
    | succ j =>
      have e : a + BitVec.ofNat 32 (j + 1) = a + 1#32 + BitVec.ofNat 32 j := by
        rw [BitVec.ofNat_add, BitVec.add_comm (BitVec.ofNat 32 j), ← BitVec.add_assoc]
      simp only [readBytes, List.getElem_cons_succ, ih, e]

/-- Two reads that agree on every byte agree. -/
theorem readBytes_congr (f g : Nat → Byte) (a b : Long) (n : Nat)
    (h : ∀ i < n, f (a + BitVec.ofNat 32 i).toNat = g (b + BitVec.ofNat 32 i).toNat) :
    readBytes f a n = readBytes g b n := by
  apply List.ext_getElem (by simp)
  intro i h1 h2
  rw [readBytes_getElem, readBytes_getElem]
  exact h i (by simpa using h1)

/-- Reading n + k bytes is reading n and then k. -/
theorem readBytes_append (g : Nat → Byte) (a : Long) (n k : Nat) :
    readBytes g a (n + k) = readBytes g a n ++ readBytes g (a + BitVec.ofNat 32 n) k := by
  induction n generalizing a with
  | zero => simp [readBytes]
  | succ n ih =>
    have e : a + BitVec.ofNat 32 (n + 1) = a + 1#32 + BitVec.ofNat 32 n := by
      rw [BitVec.ofNat_add, BitVec.add_comm (BitVec.ofNat 32 n), ← BitVec.add_assoc]
    rw [Nat.succ_add]
    simp [readBytes, ih, e]

/-- The value of at most four bytes gives the bytes back. -/
theorem beBytes_beValue (bs : List Byte) (h : bs.length ≤ 4) : beBytes bs.length (beValue bs) = bs := by
  match bs, h with
  | [], _ => rfl
  | [a], _ =>
    simp only [beBytes, beValue, List.foldl, List.length]
    refine List.cons_eq_cons.mpr ⟨?_, rfl⟩
    ext i hi
    interval_cases i <;> simp
  | [a, b], _ =>
    simp only [beBytes, beValue, List.foldl, List.length]
    refine List.cons_eq_cons.mpr ⟨?_, List.cons_eq_cons.mpr ⟨?_, rfl⟩⟩ <;>
      · ext i hi
        interval_cases i <;> simp
  | [a, b, c], _ =>
    simp only [beBytes, beValue, List.foldl, List.length]
    refine List.cons_eq_cons.mpr ⟨?_, List.cons_eq_cons.mpr ⟨?_, List.cons_eq_cons.mpr ⟨?_, rfl⟩⟩⟩ <;>
      · ext i hi
        interval_cases i <;> simp
  | [a, b, c, d], _ =>
    simp only [beBytes, beValue, List.foldl, List.length]
    refine List.cons_eq_cons.mpr ⟨?_, List.cons_eq_cons.mpr ⟨?_, List.cons_eq_cons.mpr
      ⟨?_, List.cons_eq_cons.mpr ⟨?_, rfl⟩⟩⟩⟩ <;>
      · ext i hi
        interval_cases i <;> simp

end Sys2Proof.Machine
end

