-- ==== Sys2Proof/Laws/Bus.lean ====
section
/-! SUPPORT. Sys2Proof/Laws/Bus.lean: every operation on the memory system keeps the canonical form of the memories and
the bound on the store buffer; what the prefetch may hold after a change of flow. -/

namespace Sys2Proof.Machine

/-- The form depends on the memories, the cache and the store buffer alone. -/
theorem MemSys.Ok.congr {p : Pins} {m n : MemSys} (h : m.Ok p) (h1 : n.mem = m.mem) (h2 : n.emem = m.emem)
    (h3 : n.ram = m.ram) (h4 : n.cache = m.cache) (h5 : n.stores = m.stores) : n.Ok p :=
  ⟨h1 ▸ h.mem, h2 ▸ h.emem, h3 ▸ h.ram, h4 ▸ h.cache, h5 ▸ h.stores⟩

variable {p : Pins} {r : Route} {m : MemSys}

theorem busWrite_ok (sp : Space) (a : Long) (bs : List Byte) (h : m.Ok p) : (busWrite m sp a bs).Ok p := by
  unfold busWrite
  split
  · exact ⟨h.mem, memWf_write _ _ _ h.emem, h.ram, h.cache, h.stores⟩
  · exact ⟨memWf_write _ _ _ h.mem, h.emem, h.ram, h.cache, h.stores⟩

@[simp] theorem busWrite_stores (m : MemSys) (sp : Space) (a : Long) (bs : List Byte) :
    (busWrite m sp a bs).stores = m.stores := by
  unfold busWrite
  split <;> rfl

theorem setLine_ok (set lv : Nat) (l : Line) (h : m.Ok p) : (setLine m set lv l).Ok p :=
  ⟨h.mem, h.emem, h.ram, sparseWf_set _ _ _ _ h.cache, h.stores⟩

theorem busTouch_ok (h : m.Ok p) : (busTouch r m).Ok p := h.congr rfl rfl rfl rfl rfl

theorem note_ok (x : List Xfer) (h : m.Ok p) : (note m x).Ok p := h.congr rfl rfl rfl rfl rfl

theorem drainPush_ok (h : m.Ok p) : (drainPush m).Ok p := by
  unfold drainPush
  split
  · exact h
  · exact busWrite_ok _ _ _ (h.congr rfl rfl rfl rfl rfl)

theorem drainStores_ok (l : List Pending) (h : m.Ok p) : (drainStores m l).Ok p := by
  induction l generalizing m with
  | nil => exact ⟨h.mem, h.emem, h.ram, h.cache, Nat.zero_le 4⟩
  | cons q t ih => exact ih (busWrite_ok _ _ _ h)

theorem settle_ok (h : m.Ok p) : (settle m).Ok p := drainStores_ok _ (drainPush_ok h)

theorem drain_ok (h : m.Ok p) : (drain r m).Ok p := by
  unfold drain
  split
  · exact h
  · exact busTouch_ok (settle_ok h)

theorem externalWrite_ok (sp : Space) (a : Long) (bs : List Byte) (h : m.Ok p) : (externalWrite r m sp a bs).Ok p := by
  have hs := h.stores
  unfold externalWrite
  split
  · dsimp only
    split
    · next q1 q2 q3 q4 t e =>
      have hb := busWrite_ok q1.sp q1.addr (beBytes q1.len q1.data) (busTouch_ok (r := r) (drainPush_ok h))
      refine ⟨hb.mem, hb.emem, hb.ram, hb.cache, ?_⟩
      rw [e] at hs
      simp only [List.length_cons] at hs
      simp only [List.cons_append, List.length_cons, List.length_append, List.length_nil]
      omega
    · next hne =>
      refine ⟨h.mem, h.emem, h.ram, h.cache, ?_⟩
      simp only [List.length_append, List.length_cons, List.length_nil]
      match hl : m.stores with
      | [] | [_] | [_, _] | [_, _, _] => simp
      | q1 :: q2 :: q3 :: q4 :: t => exact absurd hl (hne q1 q2 q3 q4 t)
  · exact busWrite_ok _ _ _ (busTouch_ok (settle_ok h))

theorem busLine_ok (sp : Space) (a : Long) (h : m.Ok p) : (busLine r m sp a).2.Ok p :=
  (busTouch_ok (r := r) (settle_ok h)).congr rfl rfl rfl rfl rfl

theorem placeLine_ok (a : Long) (data : BitVec 128) (d : Bool) (h : m.Ok p) : (placeLine r m a data d).Ok p :=
  (setLine_ok (setOf r a) (chooseLevel r m (setOf r a)) { tag := tagOf r a, v := true, d := d, data := data } h).congr
    rfl rfl rfl rfl rfl

theorem busRead_ok (sp : Space) (f : Bool) (a : Long) (n : Nat) (h : m.Ok p) : (busRead r m sp f a n).2.Ok p := by
  unfold busRead
  split
  · exact busLine_ok _ _ h
  · exact (busTouch_ok (r := r) (settle_ok h)).congr rfl rfl rfl rfl rfl

theorem readPiece_ok (sp : Space) (f : Bool) (a : Long) (n : Nat) (h : m.Ok p) : (readPiece r m sp f a n).2.Ok p := by
  unfold readPiece
  split
  · exact h
  split
  · exact h
  split
  · split
    · exact h
    · exact placeLine_ok _ _ _ (busLine_ok _ _ h)
  split
  · exact h
  split
  · exact (busLine_ok (r := r) sp a h).congr rfl rfl rfl rfl rfl
  · exact busRead_ok _ _ _ _ h

theorem ramWrite_wf (size : LocalSize) (ram : List Host.Cell) (a : Long) (bs : List Byte)
    (h : memWf (2 ^ localBits size) ram = true) : memWf (2 ^ localBits size) (ramWrite size ram a bs) = true := by
  induction bs generalizing ram a with
  | nil => exact h
  | cons b t ih => exact ih _ _ (memWf_setByte _ _ _ _ h (Nat.mod_lt _ (Nat.two_pow_pos _)))

theorem writeLine_ok (set lv : Nat) (a : Long) (bs : List Byte) (d : Bool) (h : m.Ok p) :
    (writeLine m set lv a bs d).Ok p := setLine_ok _ _ _ h

theorem writeMiss_ok (sp : Space) (a : Long) (bs : List Byte) (h : m.Ok p) : (writeMiss r m sp a bs).Ok p := by
  unfold writeMiss
  split
  · exact placeLine_ok _ _ _ (drain_ok h)
  · exact placeLine_ok _ _ _ (busLine_ok _ _ h)

theorem writePiece_ok (sp : Space) (a : Long) (bs : List Byte) (hp : r.pins = p) (h : m.Ok p) :
    (writePiece r m sp a bs).Ok p := by
  have hr : (rejectWrite m).Ok p := h.congr rfl rfl rfl rfl rfl
  unfold writePiece
  split
  · split
    · exact hr
    · subst hp
      exact ⟨h.mem, h.emem, ramWrite_wf _ _ _ _ h.ram, h.cache, h.stores⟩
  split
  · split
    · exact hr
    · exact h
  split
  · exact hr
  split
  · split
    · split
      · exact writeLine_ok _ _ _ _ _ h
      · exact writeMiss_ok _ _ _ h
    · split
      · exact externalWrite_ok _ _ _ (writeLine_ok _ _ _ _ _ h)
      · exact externalWrite_ok _ _ _ h
  · exact externalWrite_ok _ _ _ h

theorem readPieces_ok (sp : Space) (l : List (Long × Nat)) (h : m.Ok p) : (readPieces r m sp l).2.Ok p := by
  induction l generalizing m with
  | nil => exact h
  | cons c t ih => exact ih (note_ok _ (readPiece_ok _ _ _ _ h))

theorem writePieces_ok (sp : Space) (l : List (Long × Nat)) (bs : List Byte) (hp : r.pins = p) (h : m.Ok p) :
    (writePieces r m sp l bs).Ok p := by
  induction l generalizing m bs with
  | nil => exact h
  | cons c t ih =>
    exact ih _ (note_ok _ (writePiece_ok _ _ _ hp (h.congr rfl rfl rfl rfl rfl)))

/-- Reading an operand keeps the form. -/
theorem readOperand_ok (sp : Space) (a : Long) (sz : Size) (h : m.Ok p) : (readOperand r m sp a sz).2.Ok p :=
  readPieces_ok _ _ h

/-- Writing an operand keeps the form. -/
theorem writeOperand_ok (sp : Space) (a : Long) (sz : Size) (v : Long) (hp : r.pins = p) (h : m.Ok p) :
    (writeOperand r m sp a sz v).Ok p := writePieces_ok _ _ _ hp h

/-- Fetching a word keeps the form. -/
theorem fetchWord_ok (sp : Space) (a : Long) (n : Nat) (h : m.Ok p) : (fetchWord r m sp a n).2.Ok p :=
  readPiece_ok _ _ _ _ h

/-- CPUSHL keeps the form. -/
theorem cpushLine_ok (an : Long) (h : m.Ok p) : (cpushLine r m an).Ok p := by
  unfold cpushLine
  dsimp only
  split
  · exact h
  · refine setLine_ok _ _ _ ?_
    split
    · exact h.congr rfl rfl rfl rfl rfl
    · exact h

theorem sparseWfFrom_map_filter (f : Line → Line) (n : Nat) (l : List (Nat × Line))
    (h : sparseWfFrom Line.empty n l = true) :
    sparseWfFrom Line.empty n ((l.map (fun c => (c.1, f c.2))).filter (fun c => c.2 != Line.empty)) = true := by
  induction l generalizing n with
  | nil => rfl
  | cons c t ih =>
    simp only [sparseWfFrom, Bool.and_eq_true, decide_eq_true_eq] at h
    simp only [List.map_cons, List.filter_cons]
    split
    · next hne =>
      simp only [sparseWfFrom, Bool.and_eq_true, decide_eq_true_eq]
      exact ⟨⟨h.1.1, by simpa using hne⟩, ih _ h.2⟩
    · exact sparseWfFrom_mono _ _ (ih _ h.2) (by omega)

/-- Invalidating the cache keeps the form. -/
theorem invalidateCache_ok (h : m.Ok p) : (invalidateCache m).Ok p :=
  ⟨h.mem, h.emem, h.ram, sparseWfFrom_map_filter (fun l => { l with v := false, d := false }) _ _ h.cache, h.stores⟩

/-! ### What the prefetch may hold -/

/-- The words remembered from an address on are those that fetches would find there. -/
theorem mem_staleWords {e : Stale} {a : Long} {k : Nat} (h : e ∈ staleWords r m a k) :
    e.sp ∈ codeSpaces ∧ e.word = peekCode r m e.sp e.addr ∧ ∃ i < k, e.addr = a + BitVec.ofNat 32 (2 * i) := by
  induction k generalizing a with
  | zero => simp [staleWords] at h
  | succ k ih =>
    rcases List.mem_append.mp h with h | h
    · obtain ⟨sp, hsp, rfl⟩ := List.mem_map.mp h
      exact ⟨hsp, rfl, 0, by omega, by simp⟩
    · obtain ⟨hsp, hw, i, hi, ha⟩ := ih h
      refine ⟨hsp, hw, i + 1, by omega, ?_⟩
      rw [ha]
      bv_omega

/-- Each word under buffered stores is seen with the stores before one of them performed. -/
theorem mem_pendingWords {e : Stale} {done todo : List Pending} (h : e ∈ pendingWords r m done todo) :
    ∃ pre p post, todo = pre ++ p :: post ∧ e ∈ wordsUnder r { m with stores := done ++ pre } p.addr p.len := by
  induction todo generalizing done with
  | nil => simp [pendingWords] at h
  | cons q t ih =>
    rcases List.mem_append.mp h with h | h
    · exact ⟨[], q, t, rfl, by simpa using h⟩
    · obtain ⟨pre, p, post, rfl, he⟩ := ih h
      exact ⟨q :: pre, p, post, rfl, by simpa using he⟩

/-- All that a change of flow leaves to an early fetch: a word from behind the M-Bus that a buffered store is about to
replace, as it stands when the stores before that one have been performed (spec/20_memory.md R120). -/
theorem mem_stalePending {e : Stale} (h : e ∈ stalePending r m) :
    e.sp ∈ codeSpaces ∧ reachesBus r e = true ∧
      ∃ pre p post, m.stores = pre ++ p :: post ∧ e.word = peekCode r { m with stores := pre } e.sp e.addr ∧
        ∃ i < (p.len + 1) / 2, e.addr = (p.addr &&& 0xFFFFFFFE#32) + BitVec.ofNat 32 (2 * i) := by
  obtain ⟨h, hb⟩ := List.mem_filter.mp h
  obtain ⟨pre, p, post, hs, he⟩ := mem_pendingWords h
  obtain ⟨hsp, hw, ha⟩ := mem_staleWords he
  exact ⟨hsp, hb, pre, p, post, hs, hw, ha⟩

/-- With the store buffer empty a change of flow leaves nothing (spec/10_state.md R74). -/
theorem stalePending_nil (h : m.stores = []) : stalePending r m = [] := by
  simp [stalePending, h, pendingWords]

end Sys2Proof.Machine
end

