-- ==== Sys2Proof/Laws/Access.lean ====
section
/-! SUPPORT. Sys2Proof/Laws/Access.lean: what reads and writes do to what later reads show, while the cache is disabled
(CACR.EC = 0): a read shows the big-endian bytes (spec/20_memory.md R81, R85) and changes nothing; a write changes the bytes
of its operand alone, and where nothing protects them it changes them to the bytes written. -/

namespace Sys2Proof.Machine

/-! ### The memories behind the M-Bus -/

/-- The two memories behind the M-Bus. -/
def busPair (m : MemSys) : List Host.Cell × List Host.Cell := (m.mem, m.emem)

/-- A write to one of the two memories. -/
def pairWrite (b : List Host.Cell × List Host.Cell) (sp : Space) (a : Long) (bs : List Byte) :
    List Host.Cell × List Host.Cell :=
  if sp.tt = 2#2 then (b.1, memWrite b.2 a bs) else (memWrite b.1 a bs, b.2)

/-- A byte of one of the two memories. -/
def pairByte (b : List Host.Cell × List Host.Cell) (sp : Space) (a : Nat) : Byte :=
  if sp.tt = 2#2 then memByte b.2 a else memByte b.1 a

theorem busPair_busWrite (m : MemSys) (sp : Space) (a : Long) (bs : List Byte) :
    busPair (busWrite m sp a bs) = pairWrite (busPair m) sp a bs := by
  unfold busPair busWrite pairWrite
  split <;> rfl

@[simp] theorem busPair_busNote (m : MemSys) (rd : Bool) (sp : Space) (a : Long) (bs : List Byte) :
    busPair (busNote m rd sp a bs) = busPair m := rfl

theorem busByte_eq (m : MemSys) (sp : Space) (a : Nat) : busByte m sp a = pairByte (busPair m) sp a := rfl

/-- The memories with a displaced line written. -/
def pairPush (b : List Host.Cell × List Host.Cell) : Option Push → List Host.Cell × List Host.Cell
  | none => b
  | some p => (memWrite b.1 (lineAddr p.line) (lineBytes p.data 16), b.2)

/-- The memories with the buffered writes performed. -/
def pairStores (b : List Host.Cell × List Host.Cell) (l : List Pending) : List Host.Cell × List Host.Cell :=
  l.foldl (fun b p => pairWrite b p.sp p.addr (beBytes p.len p.data)) b

theorem busPair_drainPush (m : MemSys) : busPair (drainPush m) = pairPush (busPair m) m.push := by
  unfold drainPush
  split
  · next h => simp [pairPush, h]
  · next p h =>
    rw [busPair_busWrite, h]
    rfl

theorem busPair_drainStores (m : MemSys) (l : List Pending) :
    busPair (drainStores m l) = pairStores (busPair m) l := by
  induction l generalizing m with
  | nil => rfl
  | cons p t ih => simp [drainStores, ih, pairStores, busPair_busWrite]

/-- What the memories hold once the buffers are empty. -/
theorem busPair_settle (m : MemSys) :
    busPair (settle m) = pairStores (pairPush (busPair m) m.push) m.stores := by
  rw [settle, busPair_drainStores, busPair_drainPush]

theorem push_busWrite (m : MemSys) (sp : Space) (a : Long) (bs : List Byte) : (busWrite m sp a bs).push = m.push := by
  unfold busWrite
  split <;> rfl

theorem drainPush_push (m : MemSys) : (drainPush m).push = none := by
  unfold drainPush
  split
  · assumption
  · rw [push_busWrite]

theorem drainStores_push (m : MemSys) (l : List Pending) : (drainStores m l).push = m.push := by
  induction l generalizing m with
  | nil => rfl
  | cons p t ih => rw [drainStores, ih, push_busWrite]

theorem drainStores_stores (m : MemSys) (l : List Pending) : (drainStores m l).stores = [] := by
  induction l generalizing m with
  | nil => rfl
  | cons p t ih => rw [drainStores, ih]

@[simp] theorem settle_push (m : MemSys) : (settle m).push = none := by
  rw [settle, drainStores_push, drainPush_push]

@[simp] theorem settle_stores (m : MemSys) : (settle m).stores = [] := drainStores_stores _ _

theorem ram_busWrite (m : MemSys) (sp : Space) (a : Long) (bs : List Byte) : (busWrite m sp a bs).ram = m.ram := by
  unfold busWrite
  split <;> rfl

theorem ram_drainStores (m : MemSys) (l : List Pending) : (drainStores m l).ram = m.ram := by
  induction l generalizing m with
  | nil => rfl
  | cons p t ih => rw [drainStores, ih, ram_busWrite]

theorem ram_drainPush (m : MemSys) : (drainPush m).ram = m.ram := by
  unfold drainPush
  split
  · rfl
  · rw [ram_busWrite]

@[simp] theorem settle_ram (m : MemSys) : (settle m).ram = m.ram := by
  rw [settle, ram_drainStores, ram_drainPush]

/-- Emptying empty buffers changes no memory. -/
theorem busPair_settle_settle (m : MemSys) : busPair (settle (settle m)) = busPair (settle m) := by
  rw [busPair_settle (settle m)]
  simp [pairStores, pairPush]

/-- A write that goes to the M-Bus, buffered or not, is in the memories once the buffers are empty. -/
theorem busPair_externalWrite (r : Route) (m : MemSys) (sp : Space) (a : Long) (bs : List Byte) :
    busPair (settle (externalWrite r m sp a bs)) = pairWrite (busPair (settle m)) sp a bs := by
  unfold externalWrite
  split
  · next h =>
    have hb := beBytes_beValue bs (by simp only [Bool.and_eq_true, decide_eq_true_eq] at h; exact h.2)
    dsimp only
    split
    · next p q u v t e =>
      have hd : busPair (busTouch r (drainPush m)) = busPair (drainPush m) := rfl
      rw [busPair_settle, busPair_settle, e]
      have hp : (busWrite (busTouch r (drainPush m)) p.sp p.addr (beBytes p.len p.data)).push = none := by
        rw [push_busWrite]
        exact drainPush_push m
      change pairStores (pairPush (busPair (busWrite (busTouch r (drainPush m)) p.sp p.addr (beBytes p.len p.data)))
        (busWrite (busTouch r (drainPush m)) p.sp p.addr (beBytes p.len p.data)).push) _ = _
      rw [hp, busPair_busWrite, hd, busPair_drainPush]
      simp [pairStores, pairPush, hb, List.foldl_append]
    · rw [busPair_settle, busPair_settle]
      simp [pairStores, hb, List.foldl_append, busPair]
  · rw [busPair_settle]
    rw [push_busWrite, busWrite_stores, busPair_busWrite]
    change pairStores (pairPush (pairWrite (busPair (settle m)) sp a bs) (settle m).push) (settle m).stores = _
    simp [pairStores, pairPush]

theorem ram_externalWrite (r : Route) (m : MemSys) (sp : Space) (a : Long) (bs : List Byte) :
    (externalWrite r m sp a bs).ram = m.ram := by
  unfold externalWrite
  split
  · dsimp only
    split
    · change (busWrite _ _ _ _).ram = _
      rw [ram_busWrite]
      exact ram_drainPush m
    · rfl
  · rw [ram_busWrite]
    exact settle_ram m

theorem pairByte_write_ne (b : List Host.Cell × List Host.Cell) (sp sp' : Space) (a : Long) (bs : List Byte) (c : Long)
    (h : ∀ i < bs.length, c ≠ a + BitVec.ofNat 32 i) :
    pairByte (pairWrite b sp a bs) sp' c.toNat = pairByte b sp' c.toNat := by
  unfold pairByte pairWrite
  split <;> split <;> simp_all [memByte_write_ne]

theorem pairByte_write_at (b : List Host.Cell × List Host.Cell) (sp : Space) (a : Long) (bs : List Byte) (i : Nat)
    (hi : i < bs.length) (hl : bs.length ≤ 16) :
    pairByte (pairWrite b sp a bs) sp (a + BitVec.ofNat 32 i).toNat = bs[i] := by
  unfold pairByte pairWrite
  split <;> exact memByte_write_at _ _ _ _ _ (by omega)

/-! ### Aligned pieces -/

/-- One access: one, two or four bytes, or a line of sixteen, aligned (R85, R88). -/
def Aligned (c : Long × Nat) : Prop := (c.2 = 1 ∨ c.2 = 2 ∨ c.2 = 4 ∨ c.2 = 16) ∧ c.1.toNat % c.2 = 0

theorem pieces_aligned (a : Long) (sz : Size) : ∀ c ∈ pieces a sz, Aligned c := by
  have h0 : a.getLsbD 0 = decide (a.toNat % 2 = 1) := by
    simp [BitVec.getLsbD, Nat.testBit_zero]
  have h1 : a.getLsbD 1 = decide (a.toNat / 2 % 2 = 1) := by
    simp [BitVec.getLsbD, Nat.testBit_succ, Nat.testBit_zero]
  have ha := a.isLt
  have e1 : (a + 1#32).toNat = (a.toNat + 1) % 2 ^ 32 := by simp [BitVec.toNat_add]
  have e2 : (a + 2#32).toNat = (a.toNat + 2) % 2 ^ 32 := by simp [BitVec.toNat_add]
  have e3 : (a + 3#32).toNat = (a.toNat + 3) % 2 ^ 32 := by simp [BitVec.toNat_add]
  intro c hc
  cases sz
  · simp only [pieces, List.mem_singleton] at hc
    subst hc
    exact ⟨.inl rfl, Nat.mod_one _⟩
  · simp only [pieces] at hc
    split at hc
    · next hb =>
      simp only [List.mem_cons, List.not_mem_nil, or_false] at hc
      rcases hc with rfl | rfl <;> exact ⟨.inl rfl, Nat.mod_one _⟩
    · next hb =>
      simp only [List.mem_singleton] at hc
      subst hc
      simp only [h0, decide_eq_true_eq] at hb
      exact ⟨.inr (.inl rfl), by simp only; omega⟩
  · simp only [pieces] at hc
    split at hc
    · next hb =>
      simp only [h0, decide_eq_true_eq] at hb
      simp only [List.mem_cons, List.not_mem_nil, or_false] at hc
      rcases hc with rfl | rfl | rfl
      · exact ⟨.inl rfl, Nat.mod_one _⟩
      · exact ⟨.inr (.inl rfl), by simp only [e1]; omega⟩
      · exact ⟨.inl rfl, Nat.mod_one _⟩
    · next hb =>
      simp only [h0, decide_eq_true_eq] at hb
      split at hc
      · simp only [List.mem_cons, List.not_mem_nil, or_false] at hc
        rcases hc with rfl | rfl
        · exact ⟨.inr (.inl rfl), by simp only; omega⟩
        · exact ⟨.inr (.inl rfl), by simp only [e2]; omega⟩
      · next hb1 =>
        simp only [h1, decide_eq_true_eq] at hb1
        simp only [List.mem_singleton] at hc
        subst hc
        exact ⟨.inr (.inr (.inl rfl)), by simp only; omega⟩

/-- Inside an aligned piece no carry leaves the low bits. -/
theorem aligned_add {a : Long} {n : Nat} (h : Aligned (a, n)) {i : Nat} (hi : i < n) :
    (a + BitVec.ofNat 32 i).toNat = a.toNat + i := by
  obtain ⟨h1, h2⟩ := h
  simp only at h1 h2
  have := a.isLt
  simp only [BitVec.toNat_add, BitVec.toNat_ofNat]
  rcases h1 with rfl | rfl | rfl | rfl <;> omega

theorem localBits_ge (size : LocalSize) (h : size ≠ .absent) : 9 ≤ localBits size := by
  cases size <;> simp_all [localBits]

/-- A local memory claims the whole of an aligned piece or none of it (R180, R185). -/
theorem localHit_aligned (size : LocalSize) (bar : Long) (sp : Space) {a : Long} {n : Nat} (h : Aligned (a, n))
    {i : Nat} (hi : i < n) : localHit size bar sp (a + BitVec.ofNat 32 i) = localHit size bar sp a := by
  by_cases hs : size = .absent
  · simp [localHit, hs]
  · have hb := localBits_ge size hs
    have e : (a + BitVec.ofNat 32 i) >>> localBits size = a >>> localBits size := by
      apply BitVec.eq_of_toNat_eq
      simp only [BitVec.toNat_ushiftRight, aligned_add h hi, Nat.shiftRight_eq_div_pow]
      obtain ⟨k, hk⟩ : ∃ k, 2 ^ localBits size = 16 * k :=
        ⟨2 ^ (localBits size - 4), by rw [show (16 : Nat) = 2 ^ 4 from rfl, ← Nat.pow_add]; congr 1; omega⟩
      have hk0 : 0 < k := by
        have := Nat.two_pow_pos (localBits size)
        omega
      rw [hk, ← Nat.div_div_eq_div_mul, ← Nat.div_div_eq_div_mul]
      congr 1
      obtain ⟨h1, h2⟩ := h
      simp only at h1 h2
      rcases h1 with rfl | rfl | rfl | rfl <;> omega
    unfold localHit
    rw [e]

theorem ramClaims_aligned (r : Route) (sp : Space) {a : Long} {n : Nat} (h : Aligned (a, n)) {i : Nat} (hi : i < n) :
    ramClaims r sp (a + BitVec.ofNat 32 i) = ramClaims r sp a := by
  unfold ramClaims
  rw [localHit_aligned _ _ _ h hi]

theorem romClaims_aligned (r : Route) (sp : Space) {a : Long} {n : Nat} (h : Aligned (a, n)) {i : Nat} (hi : i < n) :
    romClaims r sp (a + BitVec.ofNat 32 i) = romClaims r sp a := by
  unfold romClaims
  rw [ramClaims_aligned _ _ h hi, localHit_aligned _ _ _ h hi]

/-! ### Reads -/

theorem usesCache_off {r : Route} (h : r.Off) (sp : Space) (f : Bool) (a : Long) : usesCache r sp f a = false := by
  unfold usesCache
  rw [h]
  simp

/-- What a data read shows, with the cache disabled. -/
theorem peekByte_off {r : Route} (h : r.Off) (m : MemSys) (sp : Space) (a : Long) :
    peekByte r m sp false a =
      if ramClaims r sp a then memByte m.ram (localOff r.pins.kramSize a)
      else if romClaims r sp a then memByte r.pins.romImage (localOff r.pins.kromSize a)
      else pairByte (busPair (settle m)) sp a.toNat := by
  unfold peekByte
  rw [usesCache_off h]
  simp [busByte_eq]

/-- What a data read shows depends on the RAM and on what the memories hold once the buffers are empty. -/
theorem peekByte_congr {r : Route} (h : r.Off) {m n : MemSys} (h1 : n.ram = m.ram)
    (h2 : busPair (settle n) = busPair (settle m)) (sp : Space) (a : Long) :
    peekByte r n sp false a = peekByte r m sp false a := by
  rw [peekByte_off h, peekByte_off h, h1, h2]

/-- A read changes nothing that a later read shows. -/
theorem peekByte_readPiece {r : Route} (h : r.Off) (m : MemSys) (sp sp' : Space) (f : Bool) (a : Long) (n : Nat) (b : Long) :
    peekByte r (readPiece r m sp f a n).2 sp' false b = peekByte r m sp' false b := by
  have hset : ∀ m1 : MemSys, m1.ram = (settle m).ram → m1.mem = (settle m).mem → m1.emem = (settle m).emem →
      m1.push = none → m1.stores = [] → peekByte r m1 sp' false b = peekByte r m sp' false b := by
    intro m1 h1 h2 h3 h4 h5
    refine peekByte_congr h (by rw [h1, settle_ram]) ?_ _ _
    rw [busPair_settle m1, h4, h5]
    simp [pairStores, pairPush, busPair, h2, h3]
  unfold readPiece
  rw [usesCache_off h]
  split
  · rfl
  split
  · rfl
  split
  · next hc => simp at hc
  split
  · rfl
  split
  · exact hset _ rfl rfl rfl (settle_push m) (settle_stores m)
  · unfold busRead
    split <;> exact hset _ rfl rfl rfl (settle_push m) (settle_stores m)

/-- Byte k from the end of the bytes of which a line is made. -/
theorem lineOf_extract (bs : List Byte) (h : bs.length ≤ 16) (k : Nat) (hk : k < bs.length) :
    (lineOf bs).extractLsb' (8 * k) 8 = bs[bs.length - 1 - k] := by
  induction bs using List.reverseRecOn generalizing k with
  | nil => simp at hk
  | append_singleton l b ih =>
    have e : lineOf (l ++ [b]) = (lineOf l <<< 8) ||| b.setWidth 128 := by simp [lineOf]
    simp only [List.length_append, List.length_cons, List.length_nil] at h hk ⊢
    rw [e]
    cases k with
    | zero =>
      have hx : l.length + (0 + 1) - 1 - 0 = l.length := by omega
      simp only [hx, List.getElem_concat_length]
      ext i hi
      have h8 : i < 128 := by omega
      simp [hi, h8]
    | succ k =>
      have hx : l.length + (0 + 1) - 1 - (k + 1) = l.length - 1 - k := by omega
      have hlt : l.length - 1 - k < l.length := by omega
      simp only [hx]
      rw [List.getElem_append_left hlt, ← ih (by omega) k (by omega)]
      ext i hi
      have h1 : 8 * (k + 1) + i < 128 := by omega
      have h2 : ¬ 8 * (k + 1) + i < 8 := by omega
      have h3 : 8 * (k + 1) + i - 8 = 8 * k + i := by omega
      have h4 : b.getLsbD (8 * (k + 1) + i) = false := BitVec.getLsbD_of_ge _ _ (by omega)
      have h5 : 8 * k + i < 128 := by omega
      simp [h1, h2, h3, h4, BitVec.getLsbD_eq_getElem h5]

theorem lineBytes_getElem (d : BitVec 128) (n i : Nat) (hn : n ≤ 16) (h : i < (lineBytes d n).length) :
    (lineBytes d n)[i] = lineByte d (16 - n + i) := by
  induction n generalizing i with
  | zero => simp [lineBytes] at h
  | succ n ih =>
    cases i with
    | zero =>
      simp only [lineBytes, List.getElem_cons_zero]
      congr 1
      omega
    | succ j =>
      simp only [lineBytes, List.getElem_cons_succ]
      rw [ih j (by omega)]
      congr 1
      omega

@[simp] theorem lineBytes_length (d : BitVec 128) (n : Nat) : (lineBytes d n).length = n := by
  induction n with
  | zero => rfl
  | succ n ih => simp [lineBytes, ih]

/-- A line made of sixteen bytes has those bytes. -/
theorem lineBytes_lineOf (bs : List Byte) (h : bs.length = 16) : lineBytes (lineOf bs) 16 = bs := by
  apply List.ext_getElem (by simp [h])
  intro i h1 h2
  rw [lineBytes_getElem _ _ _ (Nat.le_refl _), lineByte, lineOf_extract bs (by omega) _ (by omega)]
  congr 1
  omega

/-- A line begins at an address whose low four bits are zero. -/
theorem lineBase_aligned {a : Long} (h : a.toNat % 16 = 0) : a &&& 0xFFFFFFF0#32 = a := by
  have hb : ∀ i < 4, a.getLsbD i = false := by
    intro i hi
    rw [BitVec.getLsbD, Nat.testBit_eq_decide_div_mod_eq]
    interval_cases i <;> simp <;> omega
  ext i hi
  by_cases h4 : i < 4
  · have := hb i h4
    rw [BitVec.getLsbD_eq_getElem (by omega)] at this
    simp [this]
  · have : (0xFFFFFFF0#32).getLsbD i = true := by
      interval_cases i <;> simp_all
    rw [BitVec.getLsbD_eq_getElem hi] at this
    simp only [BitVec.getElem_and, this, Bool.and_true]

/-- An aligned read returns the bytes it shows. -/
theorem readPiece_val {r : Route} (h : r.Off) (m : MemSys) (sp : Space) {a : Long} {n : Nat} (ha : Aligned (a, n)) :
    (readPiece r m sp false a n).1 = peekBytes r m sp a n := by
  unfold readPiece peekBytes
  rw [usesCache_off h]
  simp only [Bool.false_and, Bool.false_eq_true, if_false]
  split
  · next hr =>
    refine readBytes_congr _ _ _ _ _ fun i hi => ?_
    simp only [BitVec.ofNat_toNat, BitVec.setWidth_eq]
    rw [peekByte_off h, ramClaims_aligned r sp ha hi, if_pos hr]
    rfl
  · next hr =>
    split
    · next ho =>
      refine readBytes_congr _ _ _ _ _ fun i hi => ?_
      simp only [BitVec.ofNat_toNat, BitVec.setWidth_eq]
      rw [peekByte_off h, ramClaims_aligned r sp ha hi, romClaims_aligned r sp ha hi, if_neg hr, if_pos ho]
      rfl
    · next ho =>
      have hb : (busRead r m sp false a n).1 = readBytes (busByte (busTouch r (settle m)) sp) a n := by
        unfold busRead
        split
        · next h16 =>
          subst h16
          have := ha.2
          simp only at this
          dsimp only [busLine]
          rw [lineBase_aligned this, lineBytes_lineOf _ (readBytes_length _ _ _)]
        · rfl
      rw [hb]
      refine readBytes_congr _ _ _ _ _ fun i hi => ?_
      simp only [BitVec.ofNat_toNat, BitVec.setWidth_eq]
      rw [peekByte_off h, ramClaims_aligned r sp ha hi, romClaims_aligned r sp ha hi, if_neg hr, if_neg ho]
      rfl

theorem peekByte_note (r : Route) (m : MemSys) (x : List Xfer) (sp : Space) (f : Bool) (b : Long) :
    peekByte r (note m x) sp f b = peekByte r m sp f b := by
  have hs : busPair (settle (note m x)) = busPair (settle m) := by rw [busPair_settle, busPair_settle]; rfl
  unfold peekByte
  simp only [busByte_eq, hs]
  rfl

/-- Reading pieces changes nothing that a later read shows. -/
theorem peekByte_readPieces {r : Route} (h : r.Off) (m : MemSys) (sp sp' : Space) (l : List (Long × Nat)) (b : Long) :
    peekByte r (readPieces r m sp l).2 sp' false b = peekByte r m sp' false b := by
  induction l generalizing m with
  | nil => rfl
  | cons c t ih =>
    change peekByte r (readPieces r (note (readPiece r m sp false c.1 c.2).2 _) sp t).2 sp' false b = _
    rw [ih, peekByte_note, peekByte_readPiece h]

theorem peekBytes_congr {r : Route} {m n : MemSys} {sp : Space}
    (h : ∀ b, peekByte r m sp false b = peekByte r n sp false b) (a : Long) (k : Nat) :
    peekBytes r m sp a k = peekBytes r n sp a k := readBytes_congr _ _ _ _ _ fun _ _ => h _

/-- Aligned pieces, read in order, return the bytes they show. -/
theorem readPieces_val {r : Route} (h : r.Off) (m : MemSys) (sp : Space) (l : List (Long × Nat))
    (hl : ∀ c ∈ l, Aligned c) : (readPieces r m sp l).1 = l.flatMap (fun c => peekBytes r m sp c.1 c.2) := by
  induction l generalizing m with
  | nil => rfl
  | cons c t ih =>
    change (readPiece r m sp false c.1 c.2).1 ++ (readPieces r (note (readPiece r m sp false c.1 c.2).2 _) sp t).1 = _
    rw [ih _ (fun d hd => hl d (List.mem_cons_of_mem _ hd)), readPiece_val h m sp (hl c List.mem_cons_self),
      List.flatMap_cons]
    congr 1
    congr 1
    funext d
    exact peekBytes_congr (fun b => by rw [peekByte_note, peekByte_readPiece h]) _ _

/-- The pieces of an operand cover its bytes, in order. -/
theorem pieces_flatMap {β : Type} (g : Nat → Byte) (f : List Byte → β) (a : Long) (sz : Size) :
    f ((pieces a sz).flatMap (fun c => readBytes g c.1 c.2)) = f (readBytes g a sz.bytes) := by
  have e13 : a + 3#32 = a + 1#32 + 2#32 := by rw [BitVec.add_assoc]; rfl
  cases sz
  · simp [pieces]
  · simp only [pieces]
    split
    · rw [show (Size.w).bytes = 1 + 1 from rfl, readBytes_append]
      simp
    · simp
  · simp only [pieces]
    split
    · rw [show (Size.l).bytes = 1 + (2 + 1) from rfl, readBytes_append, readBytes_append]
      simp [e13]
    · split
      · rw [show (Size.l).bytes = 2 + 2 from rfl, readBytes_append]
        simp
      · simp

/-- An operand read returns the big-endian value of the bytes a read shows (R81, R85). -/
theorem readOperand_val {r : Route} (h : r.Off) (m : MemSys) (sp : Space) (a : Long) (sz : Size) :
    (readOperand r m sp a sz).1 = beValue (peekBytes r m sp a sz.bytes) := by
  change beValue (readPieces r m sp (pieces a sz)).1 = _
  rw [readPieces_val h m sp _ (pieces_aligned a sz)]
  exact pieces_flatMap _ beValue a sz

/-- An operand read changes nothing that a later read shows. -/
theorem peekByte_readOperand {r : Route} (h : r.Off) (m : MemSys) (sp sp' : Space) (a : Long) (sz : Size) (b : Long) :
    peekByte r (readOperand r m sp a sz).2 sp' false b = peekByte r m sp' false b :=
  peekByte_readPieces h _ _ _ _ _

/-! ### Writes -/

/-- Two addresses that a local memory claims have different offsets. -/
theorem localOff_inj (size : LocalSize) (bar : Long) (sp sp' : Space) {a b : Long} (ha : localHit size bar sp a = true)
    (hb : localHit size bar sp' b = true) (h : localOff size a = localOff size b) : a = b := by
  simp only [localHit, Bool.and_eq_true, beq_iff_eq] at ha hb
  have e : a.toNat / 2 ^ localBits size = b.toNat / 2 ^ localBits size := by
    have := congrArg BitVec.toNat (ha.1.2.trans hb.1.2.symm)
    simpa [BitVec.toNat_ushiftRight, Nat.shiftRight_eq_div_pow] using this
  apply BitVec.eq_of_toNat_eq
  unfold localOff at h
  rw [← Nat.div_add_mod a.toNat (2 ^ localBits size), ← Nat.div_add_mod b.toNat (2 ^ localBits size), e, h]

theorem memByte_ramWrite_ne (size : LocalSize) (ram : List Host.Cell) (a : Long) (bs : List Byte) (k : Nat)
    (h : ∀ i < bs.length, k ≠ localOff size (a + BitVec.ofNat 32 i)) :
    memByte (ramWrite size ram a bs) k = memByte ram k := by
  induction bs generalizing ram a with
  | nil => rfl
  | cons b t ih =>
    rw [ramWrite, ih, memByte_set_ne]
    · simpa using h 0 (by simp)
    · intro i hi
      have := h (i + 1) (by simpa using hi)
      rwa [BitVec.ofNat_add, BitVec.add_comm (BitVec.ofNat 32 i), ← BitVec.add_assoc] at this

theorem memByte_ramWrite_at (size : LocalSize) (ram : List Host.Cell) (a : Long) (bs : List Byte) (i : Nat)
    (hi : i < bs.length)
    (hinj : ∀ j < bs.length, ∀ k < bs.length,
      localOff size (a + BitVec.ofNat 32 j) = localOff size (a + BitVec.ofNat 32 k) → j = k) :
    memByte (ramWrite size ram a bs) (localOff size (a + BitVec.ofNat 32 i)) = bs[i] := by
  have hs : ∀ (a : Long) (j : Nat), a + BitVec.ofNat 32 (j + 1) = a + 1#32 + BitVec.ofNat 32 j := by
    intro a j
    rw [BitVec.ofNat_add, BitVec.add_comm (BitVec.ofNat 32 j), ← BitVec.add_assoc]
  induction bs generalizing ram a i with
  | nil => simp at hi
  | cons b t ih =>
    cases i with
    | zero =>
      rw [ramWrite, memByte_ramWrite_ne]
      · simp
      · intro j hj e
        have := hinj 0 (by simp) (j + 1) (by simpa using hj) (by rw [hs]; exact e)
        omega
    | succ j =>
      rw [ramWrite, hs a j]
      simp only [List.getElem_cons_succ]
      refine ih _ _ _ (by simpa using hi) ?_
      intro x hx y hy e
      have := hinj (x + 1) (by simpa using hx) (y + 1) (by simpa using hy) (by rw [hs a x, hs a y]; exact e)
      omega

theorem rejectWrite_peek {r : Route} (m : MemSys) (sp : Space) (f : Bool) (b : Long) :
    peekByte r (rejectWrite m) sp f b = peekByte r m sp f b := by
  have hs : busPair (settle (rejectWrite m)) = busPair (settle m) := by rw [busPair_settle, busPair_settle]; rfl
  unfold peekByte
  simp only [busByte_eq, hs]
  rfl

/-- An aligned write leaves every other byte as it was. -/
theorem peekByte_writePiece_ne {r : Route} (h : r.Off) (m : MemSys) (sp sp' : Space) {a : Long} {bs : List Byte}
    (ha : Aligned (a, bs.length)) (b : Long) (hb : ∀ i < bs.length, b ≠ a + BitVec.ofNat 32 i) :
    peekByte r (writePiece r m sp a bs) sp' false b = peekByte r m sp' false b := by
  have hext : peekByte r (externalWrite r m sp a bs) sp' false b = peekByte r m sp' false b := by
    rw [peekByte_off h, peekByte_off h, ram_externalWrite, busPair_externalWrite,
      pairByte_write_ne _ _ _ _ _ _ hb]
  unfold writePiece
  rw [usesCache_off h]
  split
  · next hr =>
    split
    · exact rejectWrite_peek _ _ _ _
    · have hs : busPair (settle { m with ram := ramWrite r.pins.kramSize m.ram a bs }) = busPair (settle m) := by
        rw [busPair_settle, busPair_settle]
        rfl
      rw [peekByte_off h, peekByte_off h, hs]
      split
      · next hr' =>
        rw [memByte_ramWrite_ne]
        intro i hi e
        have h1 : localHit r.pins.kramSize r.ctl.rambar sp (a + BitVec.ofNat 32 i) = true := by
          rw [localHit_aligned _ _ _ ha hi]
          exact (Bool.and_eq_true _ _ ▸ hr).2
        exact hb i hi (localOff_inj _ _ _ _ (Bool.and_eq_true _ _ ▸ hr').2 h1 e)
      · rfl
  split
  · split
    · exact rejectWrite_peek _ _ _ _
    · rfl
  split
  · exact rejectWrite_peek _ _ _ _
  split
  · next hc => simp at hc
  · exact hext

/-- An aligned write to bytes that nothing protects is seen by the next read. -/
theorem peekByte_writePiece_at {r : Route} (h : r.Off) (m : MemSys) (sp : Space) {a : Long} {bs : List Byte}
    (ha : Aligned (a, bs.length)) (hw : byteWritable r sp a) (i : Nat) (hi : i < bs.length) :
    peekByte r (writePiece r m sp a bs) sp false (a + BitVec.ofNat 32 i) = bs[i] := by
  have hlen : bs.length ≤ 16 := by rcases ha.1 with h | h | h | h <;> simp only at h <;> omega
  unfold writePiece
  unfold byteWritable at hw
  rw [usesCache_off h]
  split
  · next hr =>
    rw [if_pos hr] at hw
    rw [if_neg (by rw [hw]; simp), peekByte_off h, ramClaims_aligned r sp ha hi, if_pos hr,
      memByte_ramWrite_at _ _ _ _ _ hi]
    intro j hj k hk e
    have hcl : ∀ x, x < bs.length → localHit r.pins.kramSize r.ctl.rambar sp (a + BitVec.ofNat 32 x) = true := by
      intro x hx
      rw [localHit_aligned _ _ _ ha hx]
      exact (Bool.and_eq_true _ _ ▸ hr).2
    have := congrArg BitVec.toNat (localOff_inj _ _ _ _ (hcl j hj) (hcl k hk) e)
    rw [aligned_add ha hj, aligned_add ha hk] at this
    omega
  · next hr =>
    rw [if_neg hr] at hw
    rw [if_neg (by rw [hw.1]; simp), if_neg (by rw [hw.2]; simp), if_neg (by simp), peekByte_off h,
      ramClaims_aligned r sp ha hi, romClaims_aligned r sp ha hi, if_neg hr, if_neg (by rw [hw.1]; simp),
      busPair_externalWrite, pairByte_write_at _ _ _ _ _ hi hlen]

theorem peekByte_stale (r : Route) (m : MemSys) (l : List Stale) (sp : Space) (f : Bool) (b : Long) :
    peekByte r { m with stale := l } sp f b = peekByte r m sp f b := by
  have hs : busPair (settle { m with stale := l }) = busPair (settle m) := by rw [busPair_settle, busPair_settle]; rfl
  unfold peekByte
  simp only [busByte_eq, hs]
  rfl

/-- One step of writing pieces. -/
theorem writePieces_cons (r : Route) (m : MemSys) (sp : Space) (c : Long × Nat) (t : List (Long × Nat)) (bs : List Byte) :
    ∃ l x, writePieces r m sp (c :: t) bs =
      writePieces r (note (writePiece r { m with stale := l } sp c.1 (bs.take c.2)) x) sp t (bs.drop c.2) :=
  ⟨_, _, rfl⟩

/-- Writing pieces leaves every byte outside them as it was. -/
theorem peekByte_writePieces_ne {r : Route} (h : r.Off) (m : MemSys) (sp sp' : Space) (l : List (Long × Nat))
    (bs : List Byte) (hl : ∀ c ∈ l, Aligned c) (hn : (l.map (·.2)).sum ≤ bs.length) (b : Long)
    (hb : ∀ c ∈ l, ∀ i < c.2, b ≠ c.1 + BitVec.ofNat 32 i) :
    peekByte r (writePieces r m sp l bs) sp' false b = peekByte r m sp' false b := by
  induction l generalizing m bs with
  | nil => rfl
  | cons c t ih =>
    simp only [List.map_cons, List.sum_cons] at hn
    have hc : (bs.take c.2).length = c.2 := by simp; omega
    have ha : Aligned (c.1, (bs.take c.2).length) := by rw [hc]; exact hl c List.mem_cons_self
    obtain ⟨st, x, e⟩ := writePieces_cons r m sp c t bs
    rw [e, ih _ _ (fun d hd => hl d (List.mem_cons_of_mem _ hd)) (by simp; omega)
      (fun d hd => hb d (List.mem_cons_of_mem _ hd)), peekByte_note, peekByte_writePiece_ne h _ _ _ ha _
        (fun i hi => hb c List.mem_cons_self i (by omega)), peekByte_stale]

/-- Pieces that follow one another from an address on. -/
def Chained : Long → List (Long × Nat) → Prop
  | _, [] => True
  | a, c :: t => c.1 = a ∧ Chained (a + BitVec.ofNat 32 c.2) t

theorem pieces_chained (a : Long) (sz : Size) : Chained a (pieces a sz) := by
  have e13 : a + 3#32 = a + 1#32 + 2#32 := by rw [BitVec.add_assoc]; rfl
  cases sz <;> simp only [pieces] <;> (repeat' split) <;> simp [Chained, e13]

theorem pieces_sum (a : Long) (sz : Size) : ((pieces a sz).map (·.2)).sum = sz.bytes := by
  cases sz <;> simp only [pieces] <;> (repeat' split) <;> rfl

theorem chained_mem {a : Long} {l : List (Long × Nat)} (h : Chained a l) {c : Long × Nat} (hc : c ∈ l) {i : Nat}
    (hi : i < c.2) : ∃ k < (l.map (·.2)).sum, c.1 + BitVec.ofNat 32 i = a + BitVec.ofNat 32 k := by
  induction l generalizing a with
  | nil => simp at hc
  | cons d t ih =>
    simp only [List.map_cons, List.sum_cons]
    rcases List.mem_cons.mp hc with rfl | hc
    · exact ⟨i, by omega, by rw [h.1]⟩
    · obtain ⟨k, hk, e⟩ := ih h.2 hc
      exact ⟨d.2 + k, by omega, by rw [e, BitVec.add_assoc, ← BitVec.ofNat_add]⟩

theorem add_ofNat_inj {a : Long} {i j : Nat} (hi : i < 2 ^ 32) (hj : j < 2 ^ 32)
    (h : a + BitVec.ofNat 32 i = a + BitVec.ofNat 32 j) : i = j := by
  have := congrArg BitVec.toNat ((BitVec.add_right_inj a).mp h)
  simp only [BitVec.toNat_ofNat] at this
  omega

/-- Pieces written in order are seen by the next reads. -/
theorem peekByte_writePieces_at {r : Route} (h : r.Off) (m : MemSys) (sp : Space) (l : List (Long × Nat)) (a : Long)
    (bs : List Byte) (hl : ∀ c ∈ l, Aligned c) (hch : Chained a l) (hn : (l.map (·.2)).sum = bs.length)
    (h4 : bs.length ≤ 64) (hw : ∀ i < bs.length, byteWritable r sp (a + BitVec.ofNat 32 i)) (i : Nat)
    (hi : i < bs.length) :
    peekByte r (writePieces r m sp l bs) sp false (a + BitVec.ofNat 32 i) = bs[i] := by
  induction l generalizing m a bs i with
  | nil => simp at hn; omega
  | cons c t ih =>
    simp only [List.map_cons, List.sum_cons] at hn
    obtain ⟨hc1, hch⟩ := hch
    have hc : (bs.take c.2).length = c.2 := by simp; omega
    have hd : (bs.drop c.2).length = (t.map (·.2)).sum := by simp; omega
    have ha : Aligned (c.1, (bs.take c.2).length) := by rw [hc]; exact hl c List.mem_cons_self
    have ht : ∀ d ∈ t, Aligned d := fun d hd => hl d (List.mem_cons_of_mem _ hd)
    obtain ⟨st, x, e⟩ := writePieces_cons r m sp c t bs
    rw [e]
    by_cases hlt : i < c.2
    · rw [peekByte_writePieces_ne h _ _ _ _ _ ht (by omega), peekByte_note]
      · have hw0 : byteWritable r sp c.1 := by
          have := hw 0 (by omega)
          rw [hc1]
          simpa using this
        have := peekByte_writePiece_at h { m with stale := st } sp ha hw0 i (by omega)
        rw [hc1] at this ⊢
        rw [this, List.getElem_take]
      · intro d hdm j hj e
        obtain ⟨k, hk, e2⟩ := chained_mem hch hdm hj
        rw [e2, BitVec.add_assoc, ← BitVec.ofNat_add] at e
        have := add_ofNat_inj (by omega) (by omega) e
        omega
    · obtain ⟨j, rfl⟩ : ∃ j, i = c.2 + j := ⟨i - c.2, by omega⟩
      have e3 : ∀ k : Nat, a + BitVec.ofNat 32 (c.2 + k) = a + BitVec.ofNat 32 c.2 + BitVec.ofNat 32 k := by
        intro k
        rw [BitVec.ofNat_add, BitVec.add_assoc]
      rw [e3, ih _ (a + BitVec.ofNat 32 c.2) (bs.drop c.2) ht hch hd.symm (by omega)
        (fun k hk => by rw [← e3]; exact hw _ (by omega)) j (by omega), List.getElem_drop]

/-- An operand write leaves every byte outside the operand as it was (R81). -/
theorem peekByte_writeOperand_ne {r : Route} (h : r.Off) (m : MemSys) (sp sp' : Space) (a : Long) (sz : Size) (v b : Long)
    (hb : ∀ i < sz.bytes, b ≠ a + BitVec.ofNat 32 i) :
    peekByte r (writeOperand r m sp a sz v) sp' false b = peekByte r m sp' false b := by
  refine peekByte_writePieces_ne h _ _ _ _ _ (pieces_aligned a sz) (by simp [pieces_sum]) _ ?_
  intro c hc i hi e
  obtain ⟨k, hk, e2⟩ := chained_mem (pieces_chained a sz) hc hi
  rw [pieces_sum] at hk
  exact hb k hk (e.trans e2)

/-- An operand write to bytes that nothing protects is seen by the next reads: the big-endian bytes of the value
(R81). -/
theorem peekByte_writeOperand_at {r : Route} (h : r.Off) (m : MemSys) (sp : Space) (a : Long) (sz : Size) (v : Long)
    (hw : ∀ i < sz.bytes, byteWritable r sp (a + BitVec.ofNat 32 i)) (i : Nat) (hi : i < sz.bytes) :
    peekByte r (writeOperand r m sp a sz v) sp false (a + BitVec.ofNat 32 i)
      = (beBytes sz.bytes v)[i]'(by simpa using hi) := by
  refine peekByte_writePieces_at h _ _ _ _ _ (pieces_aligned a sz) (pieces_chained a sz) (by simp [pieces_sum])
    ?_ (by simpa using hw) _ _
  cases sz <;> simp [Size.bytes]

/-- The bytes of an operand after it was written, all at once. -/
theorem peekBytes_writeOperand {r : Route} (h : r.Off) (m : MemSys) (sp : Space) (a : Long) (sz : Size) (v : Long)
    (hw : ∀ i < sz.bytes, byteWritable r sp (a + BitVec.ofNat 32 i)) :
    peekBytes r (writeOperand r m sp a sz v) sp a sz.bytes = beBytes sz.bytes v := by
  apply List.ext_getElem (by simp [peekBytes])
  intro i h1 h2
  refine (readBytes_getElem ..).trans ?_
  simp only [BitVec.ofNat_toNat, BitVec.setWidth_eq]
  exact peekByte_writeOperand_at h m sp a sz v hw i (by simpa using h2)

end Sys2Proof.Machine
end

