-- ==== Sys2Proof/Laws/Cache.lean ====
section
/-! SUPPORT. Sys2Proof/Laws/Cache.lean: what the operations of the cache do (spec/21_cache_and_local_memory.md R143 to
R151): which level hits, what a line read brings, what placing a line or writing into one leaves, and what one aligned
access does in each case. -/

namespace Sys2Proof.Machine

variable (r : Route) (m : MemSys) (sp : Space) (a : Long)

/-! ### Lines -/

@[simp] theorem lineAt_setLine_self (set lv : Nat) (l : Line) : lineAt (setLine m set lv l) set lv = l :=
  sparseGet_set_self _ _ _ _

theorem lineAt_setLine_ne {set set' lv lv' : Nat} (l : Line) (hlv : lv < 4) (hlv' : lv' < 4)
    (h : (set', lv') ≠ (set, lv)) : lineAt (setLine m set lv l) set' lv' = lineAt m set' lv' := by
  refine sparseGet_set_ne _ _ _ fun e => h ?_
  rw [Prod.mk.injEq]
  omega

/-- Byte `i` of a line after a byte was replaced. -/
theorem lineByte_lineSetByte (data : BitVec 128) {i j : Nat} (b : Byte) (hi : i < 16) (hj : j < 16) :
    lineByte (lineSetByte data j b) i = if i = j then b else lineByte data i := by
  unfold lineByte lineSetByte
  apply BitVec.eq_of_getLsbD_eq
  intro k hk
  have key : ∀ n, n < 8 → (0xFF#128).getLsbD n = true := by decide
  have key2 : ∀ n, 8 ≤ n → (0xFF#128).getLsbD n = false := by
    intro n hn
    by_cases h : n < 128
    · have : ∀ x : Fin 128, 8 ≤ x.val → (0xFF#128).getLsbD x.val = false := by decide
      exact this ⟨n, h⟩ hn
    · exact BitVec.getLsbD_of_ge _ _ (by omega)
  simp only [BitVec.getLsbD_extractLsb', hk, decide_true, Bool.true_and, BitVec.getLsbD_or, BitVec.getLsbD_and,
    BitVec.getLsbD_not, BitVec.getLsbD_shiftLeft, BitVec.getLsbD_setWidth]
  have h1 : 8 * (15 - i) + k < 128 := by omega
  simp only [h1, decide_true, Bool.true_and]
  by_cases e : i = j
  · subst e
    have h2 : 8 * (15 - i) + k - 8 * (15 - i) = k := by omega
    have h3 : ¬ 8 * (15 - i) + k < 8 * (15 - i) := by omega
    have h4 : k < 128 := by omega
    simp [h2, key k hk, h4]
  · rw [if_neg e, BitVec.getLsbD_extractLsb']
    simp only [hk, decide_true, Bool.true_and]
    by_cases hlt : 8 * (15 - i) + k < 8 * (15 - j)
    · simp [hlt]
    · have h2 : 8 ≤ 8 * (15 - i) + k - 8 * (15 - j) := by omega
      have h3 : b.getLsbD (8 * (15 - i) + k - 8 * (15 - j)) = false := BitVec.getLsbD_of_ge _ _ h2
      simp [hlt, key2 _ h2, h3]

/-- Byte `i` of a line after bytes were written from an offset on. -/
theorem lineByte_lineWrite (data : BitVec 128) (j : Nat) (bs : List Byte) {i : Nat} (hi : i < 16)
    (h : j + bs.length ≤ 16) :
    lineByte (lineWrite data j bs) i =
      if h : j ≤ i ∧ i < j + bs.length then bs[i - j]'(by omega) else lineByte data i := by
  induction bs generalizing data j with
  | nil =>
    rw [dif_neg]
    · rfl
    · simp only [List.length_nil]
      omega
  | cons b t ih =>
    simp only [List.length_cons] at h ⊢
    rw [lineWrite, ih _ _ (by omega), lineByte_lineSetByte data b hi (by omega)]
    by_cases e : i = j
    · subst e
      rw [dif_neg (by omega), if_pos rfl, dif_pos (by omega)]
      simp
    · by_cases hin : j ≤ i ∧ i < j + (t.length + 1)
      · rw [dif_pos (by omega), dif_pos hin]
        obtain ⟨d, rfl⟩ : ∃ d, i = j + 1 + d := ⟨i - (j + 1), by omega⟩
        have e1 : j + 1 + d - (j + 1) = d := by omega
        have e2 : j + 1 + d - j = d + 1 := by omega
        simp [e1, e2]
      · rw [dif_neg (by omega), if_neg e, dif_neg hin]

/-- A line made of sixteen bytes holds them. -/
theorem lineByte_lineOf (bs : List Byte) (h : bs.length = 16) {i : Nat} (hi : i < 16) :
    lineByte (lineOf bs) i = bs[i] := by
  unfold lineByte
  rw [lineOf_extract bs (by omega) _ (by omega)]
  congr 1
  omega

/-- The bytes of an access that stays inside a line. -/
theorem lineRead_eq (data : BitVec 128) {a : Long} {n : Nat} (h : a.toNat % 16 + n ≤ 16) :
    lineRead data a n = (List.range n).map (fun i => lineByte data (a.toNat % 16 + i)) := by
  apply List.ext_getElem (by simp [lineRead])
  intro i h1 h2
  simp only [List.length_map, List.length_range] at h2
  refine (readBytes_getElem ..).trans ?_
  simp only [List.getElem_map, List.getElem_range, BitVec.toNat_add, BitVec.toNat_ofNat]
  congr 1
  omega

/-! ### Which level hits (R143) -/

/-- The address is in one level alone: that one hits. -/
theorem hitLevel_unique {set : Nat} {tag : Long} {lv : Nat} (hlv : lv < 4) (h : levelHits m set tag lv = true)
    (hne : ∀ k < 4, k ≠ lv → levelHits m set tag k = false) : hitLevel m set tag = some lv := by
  unfold hitLevel
  interval_cases lv <;> simp_all

/-- The address is in no level. -/
theorem hitLevel_none {set : Nat} {tag : Long} (h : ∀ k < 4, levelHits m set tag k = false) :
    hitLevel m set tag = none := by
  unfold hitLevel
  simp [h 0 (by omega), h 1 (by omega), h 2 (by omega), h 3 (by omega)]

/-- The level to fill (R150): the lowest invalid one; if all are valid any, but under HLCK level 2 or 3. -/
theorem chooseLevel_spec (set : Nat) :
    chooseLevel r m set < 4 ∧ (∀ k < chooseLevel r m set, (lineAt m set k).v = true) ∧
      ((lineAt m set (chooseLevel r m set)).v = true →
        (∀ k < 4, (lineAt m set k).v = true) ∧ (r.ctl.cacr.getLsbD 27 = true → 2 ≤ chooseLevel r m set)) := by
  have hall : ∀ {P : Nat → Prop} {n : Nat}, n ≤ 4 → P 0 → P 1 → P 2 → P 3 → ∀ k < n, P k := by
    intro P n hn h0 h1 h2 h3 k hk
    have : k < 4 := by omega
    interval_cases k <;> assumption
  unfold chooseLevel
  split
  · next h => simp_all
  split
  · next h => refine ⟨by omega, ?_, by simp_all⟩; intro k hk; interval_cases k; simp_all
  split
  · next h => refine ⟨by omega, ?_, by simp_all⟩; intro k hk; interval_cases k <;> simp_all
  split
  · next h => refine ⟨by omega, ?_, by simp_all⟩; intro k hk; interval_cases k <;> simp_all
  · next h0 h1 h2 h3 =>
    simp only [Bool.not_eq_true', Bool.not_eq_false] at h0 h1 h2 h3
    have h4 := m.rp.isLt
    split
    · exact ⟨by omega, hall (by omega) h0 h1 h2 h3, fun _ => ⟨hall (by omega) h0 h1 h2 h3, fun _ => by omega⟩⟩
    · next h => exact ⟨by omega, hall (by omega) h0 h1 h2 h3, fun _ => ⟨hall (by omega) h0 h1 h2 h3,
        fun e => absurd e h⟩⟩

/-! ### Bringing in a line -/

/-- The line that a line read brings: the bytes behind the M-Bus once the buffers are empty (R106). -/
theorem busLine_byte {i : Nat} (hi : i < 16) :
    lineByte (busLine r m sp a).1 i = busByte (settle m) sp ((a &&& 0xFFFFFFF0#32).toNat + i) := by
  have hb : (a &&& 0xFFFFFFF0#32).toNat % 16 = 0 := by
    have : (a &&& 0xFFFFFFF0#32).toNat % 2 ^ 4 = 0 := by
      rw [← BitVec.toNat_setWidth]
      have : (a &&& 0xFFFFFFF0#32).setWidth 4 = 0#4 := by
        apply BitVec.eq_of_getLsbD_eq
        intro k hk
        interval_cases k <;> simp
      rw [this]
      rfl
    exact this
  have hlt := (a &&& 0xFFFFFFF0#32).isLt
  unfold busLine
  rw [lineByte_lineOf _ (by simp) hi, readBytes_getElem]
  rw [show ((a &&& 0xFFFFFFF0#32) + BitVec.ofNat 32 i).toNat = (a &&& 0xFFFFFFF0#32).toNat + i by
    rw [BitVec.toNat_add, BitVec.toNat_ofNat]; omega]
  rfl

/-- What a line read leaves: the buffers empty, the line in the fill buffer, which serves no fetch (spec/10_state.md
R66). -/
theorem busLine_spec :
    (busLine r m sp a).2.mem = (settle m).mem ∧ (busLine r m sp a).2.emem = (settle m).emem ∧
      (busLine r m sp a).2.ram = m.ram ∧ (busLine r m sp a).2.cache = (settle m).cache ∧
      (busLine r m sp a).2.stores = [] ∧ (busLine r m sp a).2.push = none ∧
      (busLine r m sp a).2.fill = { valid := false, line := a.extractLsb' 4 28, data := (busLine r m sp a).1 } :=
  ⟨rfl, rfl, settle_ram m, rfl, settle_stores m, settle_push m, rfl⟩

theorem busWrite_cache (bs : List Byte) : (busWrite m sp a bs).cache = m.cache := by
  unfold busWrite
  split <;> rfl

theorem drainPush_cache : (drainPush m).cache = m.cache := by
  unfold drainPush
  split
  · rfl
  · rw [busWrite_cache]

theorem drainStores_cache (l : List Pending) : (drainStores m l).cache = m.cache := by
  induction l generalizing m with
  | nil => rfl
  | cons p t ih => rw [drainStores, ih, busWrite_cache]

/-- Emptying the buffers leaves the cache as it is. -/
@[simp] theorem settle_cache : (settle m).cache = m.cache := by rw [settle, drainStores_cache, drainPush_cache]

theorem busWrite_fill (bs : List Byte) : (busWrite m sp a bs).fill = m.fill := by
  unfold busWrite
  split <;> rfl

theorem drainPush_fill : (drainPush m).fill = m.fill := by
  unfold drainPush
  split
  · rfl
  · rw [busWrite_fill]

theorem drainStores_fill (l : List Pending) : (drainStores m l).fill = m.fill := by
  induction l generalizing m with
  | nil => rfl
  | cons p t ih => rw [drainStores, ih, busWrite_fill]

/-- Emptying the buffers leaves the fill buffer as it is. -/
@[simp] theorem settle_fill : (settle m).fill = m.fill := by rw [settle, drainStores_fill, drainPush_fill]

/-- What emptying the buffers through the M-Bus leaves (R106). -/
theorem drain_spec :
    (drain r m).mem = (settle m).mem ∧ (drain r m).emem = (settle m).emem ∧ (drain r m).cache = m.cache ∧
      (drain r m).fill = m.fill ∧ (drain r m).stores = [] ∧ (drain r m).push = none := by
  unfold drain
  split
  · next h =>
    simp only [Bool.and_eq_true, List.isEmpty_iff, Option.isNone_iff_eq_none] at h
    have e := busPair_settle m
    rw [h.1, h.2] at e
    exact ⟨(congrArg Prod.fst e).symm, (congrArg Prod.snd e).symm, rfl, rfl, h.1, h.2⟩
  · exact ⟨rfl, rfl, settle_cache m, settle_fill m, settle_stores m, settle_push m⟩

/-- A write to the M-Bus leaves the cache as it is. -/
@[simp] theorem externalWrite_cache (bs : List Byte) : (externalWrite r m sp a bs).cache = m.cache := by
  unfold externalWrite
  split
  · dsimp only
    split
    · exact (busWrite_cache ..).trans (drainPush_cache m)
    · rfl
  · rw [busWrite_cache]
    exact settle_cache m

theorem lineAt_congr {m n : MemSys} (h : n.cache = m.cache) (set lv : Nat) : lineAt n set lv = lineAt m set lv := by
  unfold lineAt
  rw [h]

/-- What placing a line leaves: the line in the level to fill, the other lines as they were, a dirty victim in the push
buffer (R146, R150, R151). -/
theorem placeLine_spec (data : BitVec 128) (dirty : Bool) :
    let set := setOf r a
    let lv := chooseLevel r m set
    let n := placeLine r m a data dirty
    lineAt n set lv = { tag := tagOf r a, v := true, d := dirty, data := data } ∧
      (∀ set', ∀ k < 4, (set', k) ≠ (set, lv) → lineAt n set' k = lineAt m set' k) ∧
      n.mem = m.mem ∧ n.emem = m.emem ∧ n.ram = m.ram ∧ n.stores = m.stores ∧ n.fill = m.fill ∧
      n.push =
        if (lineAt m set lv).v && (lineAt m set lv).d then
          some { line := (((lineAt m set lv).tag <<< setBits r.pins.cacheSize) ||| BitVec.ofNat 32 set).setWidth 28
                 data := (lineAt m set lv).data }
        else none :=
  ⟨lineAt_setLine_self _ _ _ _,
    fun _ _ hk hne => lineAt_setLine_ne m _ (chooseLevel_spec r m _).1 hk hne, rfl, rfl, rfl, rfl, rfl, rfl⟩

/-! ### One aligned access, case by case -/

/-- A cachable read that hits answers the bytes of the line and changes nothing (R144). -/
theorem readPiece_hit {f : Bool} {n lv : Nat} (hram : ramClaims r sp a = false) (hrom : romClaims r sp a = false)
    (huse : usesCache r sp f a = true) (h : hitLevel m (setOf r a) (tagOf r a) = some lv) :
    readPiece r m sp f a n = (lineRead (lineAt m (setOf r a) lv).data a n, m) := by
  simp [readPiece, hram, hrom, huse, h]

/-- A cachable read that misses brings in the line (R146). -/
theorem readPiece_miss {f : Bool} {n : Nat} (hram : ramClaims r sp a = false) (hrom : romClaims r sp a = false)
    (huse : usesCache r sp f a = true) (h : hitLevel m (setOf r a) (tagOf r a) = none) :
    readPiece r m sp f a n =
      (lineRead (busLine r m sp a).1 a n, placeLine r (busLine r m sp a).2 a (busLine r m sp a).1 false) := by
  simp [readPiece, hram, hrom, huse, h]

/-- A write of a cachable region that nothing rejects (R145, R147, R148). -/
theorem writePiece_cachable {bs : List Byte} (hram : ramClaims r sp a = false) (hrom : romClaims r sp a = false)
    (hw : writeProtected r sp a = false) (huse : usesCache r sp false a = true) :
    writePiece r m sp a bs =
      match (cacheMode r sp a).getLsbD 0, hitLevel m (setOf r a) (tagOf r a) with
      | true, some lv => writeLine m (setOf r a) lv a bs true
      | true, none => writeMiss r m sp a bs
      | false, some lv => externalWrite r (writeLine m (setOf r a) lv a bs false) sp a bs
      | false, none => externalWrite r m sp a bs := by
  cases hm : (cacheMode r sp a).getLsbD 0 <;> cases hl : hitLevel m (setOf r a) (tagOf r a) <;>
    rw [writePiece, hram, hrom, hw, huse, hm, hl] <;> rfl

/-! ### In the terms of the statements -/

/-- A cachable operand access is looked up in the cache. -/
theorem State.Cachable.uses {s : State} {a : Long} (h : s.Cachable a) :
    usesCache s.route s.dataSpace false a = true := by
  have hs : s.dataSpace.tt = 0#2 := by
    unfold State.dataSpace
    rw [h.emulator]
    cases s.super <;> rfl
  unfold usesCache
  rw [h.ram, h.rom, hs]
  have h1 : (cacheMode s.route s.dataSpace a).getLsbD 1 = false := by
    rcases h.mode with e | e <;> rw [e] <;> rfl
  have h2 : s.route.emuMap = false := h.emulator
  have h3 : s.route.ctl.cacr.getLsbD 31 = true := h.enabled
  have h4 : s.route.pins.ucnoop = false := h.operands
  have h5 : s.route.pins.cacheSize ≠ .absent := h.present
  rw [h1, h2, h3, h4]
  simpa using h5

/-- The tag of an address (R131). -/
theorem tagOf_toNat (r : Route) (a : Long) : (tagOf r a).toNat = a.toNat / 2 ^ (4 + setBits r.pins.cacheSize) := by
  simp [tagOf, Nat.shiftRight_eq_div_pow]

/-- A level hits when it holds a valid line of the address. -/
theorem levelHits_iff (s : State) (a : Long) (lv : Nat) :
    levelHits s.ms (setOf s.route a) (tagOf s.route a) lv = true ↔ s.levelHolds a lv := by
  unfold levelHits State.levelHolds State.lineOf State.setIndex setOf
  rw [Bool.and_eq_true, beq_iff_eq]
  refine and_congr Iff.rfl ?_
  constructor
  · exact fun h => (congrArg BitVec.toNat h).trans (tagOf_toNat s.route a)
  · exact fun h => BitVec.eq_of_toNat_eq (h.trans (tagOf_toNat s.route a).symm)

/-- The level that an address hits in. -/
theorem hitLevel_in {s : State} {a : Long} {lv : Nat} (h : s.HitsIn a lv) :
    hitLevel s.ms (setOf s.route a) (tagOf s.route a) = some lv :=
  hitLevel_unique _ h.1 ((levelHits_iff s a lv).mpr h.2.1)
    fun k hk hne => by
      rw [← Bool.not_eq_true, levelHits_iff]; exact h.2.2 k hk hne

/-- An address that hits in no level. -/
theorem hitLevel_miss {s : State} {a : Long} (h : s.Misses a) :
    hitLevel s.ms (setOf s.route a) (tagOf s.route a) = none :=
  hitLevel_none _ fun k hk => by
    rw [← Bool.not_eq_true, levelHits_iff]; exact h k hk

/-- A state whose cache and buffers are those of a line placed into an emptied memory system has allocated it. -/
theorem allocates_of {s t : State} {a : Long} {n : MemSys} {data : BitVec 128} {d : Bool} {byte : Nat → Byte}
    (hc : n.cache = s.ms.cache) (hst : n.stores = []) (hp : t.pins = s.pins) (hb : ∀ i < 16, lineByte data i = byte i)
    (h1 : t.ms.cache = (placeLine s.route n a data d).cache)
    (h2 : t.ms.stores = (placeLine s.route n a data d).stores)
    (h3 : t.ms.push = (placeLine s.route n a data d).push) :
    Allocates s t a (chooseLevel s.route n (setOf s.route a)) d byte := by
  obtain ⟨e1, e2, -, -, -, e6, -, e8⟩ := placeLine_spec s.route n a data d
  have hl : ∀ set k, lineAt n set k = lineAt s.ms set k := fun set k => lineAt_congr hc set k
  have hl' : ∀ set k, lineAt t.ms set k = lineAt (placeLine s.route n a data d) set k :=
    fun set k => lineAt_congr h1 set k
  have hset : s.setIndex a = setOf s.route a := rfl
  have htl : t.lineOf a (chooseLevel s.route n (setOf s.route a)) =
      { tag := tagOf s.route a, v := true, d := d, data := data } := by
    unfold State.lineOf State.setIndex
    rw [hp, hl']
    exact e1
  have hsl : ∀ k, s.lineOf a k = lineAt n (setOf s.route a) k := fun k => (hl _ _).symm
  have hch := chooseLevel_spec s.route n (setOf s.route a)
  refine ⟨?_, ?_, by rw [htl], by rw [htl]; exact hb, ?_, by rw [h2, e6, hst], ?_, ?_⟩
  · unfold State.FillsLevel
    simp only [hsl]
    exact hch
  · unfold State.levelHolds
    rw [htl, hp]
    exact ⟨rfl, tagOf_toNat s.route a⟩
  · intro set k hk hne
    rw [hl', e2 set k hk (by rw [← hset]; exact hne), hl]
  · intro hv hd
    rw [hsl] at hv hd ⊢
    rw [hv, hd] at e8
    refine ⟨_, h3.trans e8, rfl, ?_⟩
    apply BitVec.eq_of_getLsbD_eq
    intro i hi
    simp only [lineAddr, BitVec.getLsbD_append, BitVec.getLsbD_shiftLeft, hi, decide_true, Bool.true_and,
      BitVec.getLsbD_setWidth]
    by_cases h : i < 4
    · simp [h]
    · simp only [h, decide_false, Bool.not_false, Bool.true_and]
      rw [show decide (i - 4 < 28) = true by simp; omega]
      rfl
  · intro h
    rw [h3, e8, if_neg]
    rw [hsl] at h
    simpa using h

end Sys2Proof.Machine
end

