-- ==== Sys2Proof/Laws/State.lean ====
section
/-! SUPPORT. Sys2Proof/Laws/State.lean: what each update of the state leaves in each field. A field that an update does
not name is as it was. -/

namespace Sys2Proof.Machine

/-! #### setD -/

@[simp] theorem State.getA_setD (s : State) (q : Reg) (v : Long) (r : Reg) :
    (s.setD q v).getA r = s.getA r := rfl

@[simp] theorem State.pc_setD (s : State) (q : Reg) (v : Long) :
    (s.setD q v).cpu.pc = s.cpu.pc := rfl

@[simp] theorem State.sr_setD (s : State) (q : Reg) (v : Long) :
    (s.setD q v).cpu.sr = s.cpu.sr := rfl

@[simp] theorem State.mac_setD (s : State) (q : Reg) (v : Long) :
    (s.setD q v).mac = s.mac := rfl

@[simp] theorem State.ctl_setD (s : State) (q : Reg) (v : Long) :
    (s.setD q v).ctl = s.ctl := rfl

@[simp] theorem State.dbg_setD (s : State) (q : Reg) (v : Long) :
    (s.setD q v).dbg = s.dbg := rfl

@[simp] theorem State.ms_setD (s : State) (q : Reg) (v : Long) :
    (s.setD q v).ms = s.ms := rfl

@[simp] theorem State.ev_setD (s : State) (q : Reg) (v : Long) :
    (s.setD q v).ev = s.ev := rfl

@[simp] theorem State.pins_setD (s : State) (q : Reg) (v : Long) :
    (s.setD q v).pins = s.pins := rfl

@[simp] theorem State.bdm_setD (s : State) (q : Reg) (v : Long) :
    (s.setD q v).bdm = s.bdm := rfl

@[simp] theorem State.port_setD (s : State) (q : Reg) (v : Long) :
    (s.setD q v).port = s.port := rfl

@[simp] theorem State.free_setD (s : State) (q : Reg) (v : Long) :
    (s.setD q v).free = s.free := rfl

/-! #### setA -/

@[simp] theorem State.getD_setA (s : State) (q : Reg) (v : Long) (r : Reg) :
    (s.setA q v).getD r = s.getD r := rfl

@[simp] theorem State.pc_setA (s : State) (q : Reg) (v : Long) :
    (s.setA q v).cpu.pc = s.cpu.pc := rfl

@[simp] theorem State.sr_setA (s : State) (q : Reg) (v : Long) :
    (s.setA q v).cpu.sr = s.cpu.sr := rfl

@[simp] theorem State.mac_setA (s : State) (q : Reg) (v : Long) :
    (s.setA q v).mac = s.mac := rfl

@[simp] theorem State.ctl_setA (s : State) (q : Reg) (v : Long) :
    (s.setA q v).ctl = s.ctl := rfl

@[simp] theorem State.dbg_setA (s : State) (q : Reg) (v : Long) :
    (s.setA q v).dbg = s.dbg := rfl

@[simp] theorem State.ms_setA (s : State) (q : Reg) (v : Long) :
    (s.setA q v).ms = s.ms := rfl

@[simp] theorem State.ev_setA (s : State) (q : Reg) (v : Long) :
    (s.setA q v).ev = s.ev := rfl

@[simp] theorem State.pins_setA (s : State) (q : Reg) (v : Long) :
    (s.setA q v).pins = s.pins := rfl

@[simp] theorem State.bdm_setA (s : State) (q : Reg) (v : Long) :
    (s.setA q v).bdm = s.bdm := rfl

@[simp] theorem State.port_setA (s : State) (q : Reg) (v : Long) :
    (s.setA q v).port = s.port := rfl

@[simp] theorem State.free_setA (s : State) (q : Reg) (v : Long) :
    (s.setA q v).free = s.free := rfl

/-! #### setPc -/

@[simp] theorem State.getD_setPc (s : State) (v : Long) (r : Reg) :
    (s.setPc v).getD r = s.getD r := rfl

@[simp] theorem State.getA_setPc (s : State) (v : Long) (r : Reg) :
    (s.setPc v).getA r = s.getA r := rfl

@[simp] theorem State.sr_setPc (s : State) (v : Long) :
    (s.setPc v).cpu.sr = s.cpu.sr := rfl

@[simp] theorem State.mac_setPc (s : State) (v : Long) :
    (s.setPc v).mac = s.mac := rfl

@[simp] theorem State.ctl_setPc (s : State) (v : Long) :
    (s.setPc v).ctl = s.ctl := rfl

@[simp] theorem State.dbg_setPc (s : State) (v : Long) :
    (s.setPc v).dbg = s.dbg := rfl

@[simp] theorem State.ms_setPc (s : State) (v : Long) :
    (s.setPc v).ms = s.ms := rfl

@[simp] theorem State.ev_setPc (s : State) (v : Long) :
    (s.setPc v).ev = s.ev := rfl

@[simp] theorem State.pins_setPc (s : State) (v : Long) :
    (s.setPc v).pins = s.pins := rfl

@[simp] theorem State.bdm_setPc (s : State) (v : Long) :
    (s.setPc v).bdm = s.bdm := rfl

@[simp] theorem State.port_setPc (s : State) (v : Long) :
    (s.setPc v).port = s.port := rfl

@[simp] theorem State.free_setPc (s : State) (v : Long) :
    (s.setPc v).free = s.free := rfl

/-! #### setSr -/

@[simp] theorem State.getD_setSr (s : State) (v : Word) (r : Reg) :
    (s.setSr v).getD r = s.getD r := rfl

@[simp] theorem State.getA_setSr (s : State) (v : Word) (r : Reg) :
    (s.setSr v).getA r = s.getA r := rfl

@[simp] theorem State.pc_setSr (s : State) (v : Word) :
    (s.setSr v).cpu.pc = s.cpu.pc := rfl

@[simp] theorem State.mac_setSr (s : State) (v : Word) :
    (s.setSr v).mac = s.mac := rfl

@[simp] theorem State.ctl_setSr (s : State) (v : Word) :
    (s.setSr v).ctl = s.ctl := rfl

@[simp] theorem State.dbg_setSr (s : State) (v : Word) :
    (s.setSr v).dbg = s.dbg := rfl

@[simp] theorem State.ms_setSr (s : State) (v : Word) :
    (s.setSr v).ms = s.ms := rfl

@[simp] theorem State.ev_setSr (s : State) (v : Word) :
    (s.setSr v).ev = s.ev := rfl

@[simp] theorem State.pins_setSr (s : State) (v : Word) :
    (s.setSr v).pins = s.pins := rfl

@[simp] theorem State.bdm_setSr (s : State) (v : Word) :
    (s.setSr v).bdm = s.bdm := rfl

@[simp] theorem State.port_setSr (s : State) (v : Word) :
    (s.setSr v).port = s.port := rfl

@[simp] theorem State.free_setSr (s : State) (v : Word) :
    (s.setSr v).free = s.free := rfl

/-! #### setCcr -/

@[simp] theorem State.getD_setCcr (s : State) (v : Byte) (r : Reg) :
    (s.setCcr v).getD r = s.getD r := rfl

@[simp] theorem State.getA_setCcr (s : State) (v : Byte) (r : Reg) :
    (s.setCcr v).getA r = s.getA r := rfl

@[simp] theorem State.pc_setCcr (s : State) (v : Byte) :
    (s.setCcr v).cpu.pc = s.cpu.pc := rfl

@[simp] theorem State.mac_setCcr (s : State) (v : Byte) :
    (s.setCcr v).mac = s.mac := rfl

@[simp] theorem State.ctl_setCcr (s : State) (v : Byte) :
    (s.setCcr v).ctl = s.ctl := rfl

@[simp] theorem State.dbg_setCcr (s : State) (v : Byte) :
    (s.setCcr v).dbg = s.dbg := rfl

@[simp] theorem State.ms_setCcr (s : State) (v : Byte) :
    (s.setCcr v).ms = s.ms := rfl

@[simp] theorem State.ev_setCcr (s : State) (v : Byte) :
    (s.setCcr v).ev = s.ev := rfl

@[simp] theorem State.pins_setCcr (s : State) (v : Byte) :
    (s.setCcr v).pins = s.pins := rfl

@[simp] theorem State.bdm_setCcr (s : State) (v : Byte) :
    (s.setCcr v).bdm = s.bdm := rfl

@[simp] theorem State.port_setCcr (s : State) (v : Byte) :
    (s.setCcr v).port = s.port := rfl

@[simp] theorem State.free_setCcr (s : State) (v : Byte) :
    (s.setCcr v).free = s.free := rfl

/-! #### setFlags -/

@[simp] theorem State.getD_setFlags (s : State) (f : Flags) (r : Reg) :
    (s.setFlags f).getD r = s.getD r := rfl

@[simp] theorem State.getA_setFlags (s : State) (f : Flags) (r : Reg) :
    (s.setFlags f).getA r = s.getA r := rfl

@[simp] theorem State.pc_setFlags (s : State) (f : Flags) :
    (s.setFlags f).cpu.pc = s.cpu.pc := rfl

@[simp] theorem State.mac_setFlags (s : State) (f : Flags) :
    (s.setFlags f).mac = s.mac := rfl

@[simp] theorem State.ctl_setFlags (s : State) (f : Flags) :
    (s.setFlags f).ctl = s.ctl := rfl

@[simp] theorem State.dbg_setFlags (s : State) (f : Flags) :
    (s.setFlags f).dbg = s.dbg := rfl

@[simp] theorem State.ms_setFlags (s : State) (f : Flags) :
    (s.setFlags f).ms = s.ms := rfl

@[simp] theorem State.ev_setFlags (s : State) (f : Flags) :
    (s.setFlags f).ev = s.ev := rfl

@[simp] theorem State.pins_setFlags (s : State) (f : Flags) :
    (s.setFlags f).pins = s.pins := rfl

@[simp] theorem State.bdm_setFlags (s : State) (f : Flags) :
    (s.setFlags f).bdm = s.bdm := rfl

@[simp] theorem State.port_setFlags (s : State) (f : Flags) :
    (s.setFlags f).port = s.port := rfl

@[simp] theorem State.free_setFlags (s : State) (f : Flags) :
    (s.setFlags f).free = s.free := rfl

/-! #### drawn -/

@[simp] theorem State.getD_drawn (s : State) (r : Reg) :
    (s.drawn).getD r = s.getD r := rfl

@[simp] theorem State.getA_drawn (s : State) (r : Reg) :
    (s.drawn).getA r = s.getA r := rfl

@[simp] theorem State.pc_drawn (s : State) :
    (s.drawn).cpu.pc = s.cpu.pc := rfl

@[simp] theorem State.sr_drawn (s : State) :
    (s.drawn).cpu.sr = s.cpu.sr := rfl

@[simp] theorem State.mac_drawn (s : State) :
    (s.drawn).mac = s.mac := rfl

@[simp] theorem State.ctl_drawn (s : State) :
    (s.drawn).ctl = s.ctl := rfl

@[simp] theorem State.dbg_drawn (s : State) :
    (s.drawn).dbg = s.dbg := rfl

@[simp] theorem State.ms_drawn (s : State) :
    (s.drawn).ms = s.ms := rfl

@[simp] theorem State.ev_drawn (s : State) :
    (s.drawn).ev = s.ev := rfl

@[simp] theorem State.pins_drawn (s : State) :
    (s.drawn).pins = s.pins := rfl

@[simp] theorem State.bdm_drawn (s : State) :
    (s.drawn).bdm = s.bdm := rfl

@[simp] theorem State.port_drawn (s : State) :
    (s.drawn).port = s.port := rfl

/-! #### setMs -/

@[simp] theorem State.getD_setMs (s : State) (m : MemSys) (r : Reg) :
    (s.setMs m).getD r = s.getD r := rfl

@[simp] theorem State.getA_setMs (s : State) (m : MemSys) (r : Reg) :
    (s.setMs m).getA r = s.getA r := rfl

@[simp] theorem State.pc_setMs (s : State) (m : MemSys) :
    (s.setMs m).cpu.pc = s.cpu.pc := rfl

@[simp] theorem State.sr_setMs (s : State) (m : MemSys) :
    (s.setMs m).cpu.sr = s.cpu.sr := rfl

@[simp] theorem State.mac_setMs (s : State) (m : MemSys) :
    (s.setMs m).mac = s.mac := rfl

@[simp] theorem State.ctl_setMs (s : State) (m : MemSys) :
    (s.setMs m).ctl = s.ctl := rfl

@[simp] theorem State.dbg_setMs (s : State) (m : MemSys) :
    (s.setMs m).dbg = s.dbg := rfl

@[simp] theorem State.ev_setMs (s : State) (m : MemSys) :
    (s.setMs m).ev = s.ev := rfl

@[simp] theorem State.pins_setMs (s : State) (m : MemSys) :
    (s.setMs m).pins = s.pins := rfl

@[simp] theorem State.bdm_setMs (s : State) (m : MemSys) :
    (s.setMs m).bdm = s.bdm := rfl

@[simp] theorem State.port_setMs (s : State) (m : MemSys) :
    (s.setMs m).port = s.port := rfl

@[simp] theorem State.free_setMs (s : State) (m : MemSys) :
    (s.setMs m).free = s.free := rfl

/-! #### setEv -/

@[simp] theorem State.getD_setEv (s : State) (e : Ev) (r : Reg) :
    (s.setEv e).getD r = s.getD r := rfl

@[simp] theorem State.getA_setEv (s : State) (e : Ev) (r : Reg) :
    (s.setEv e).getA r = s.getA r := rfl

@[simp] theorem State.pc_setEv (s : State) (e : Ev) :
    (s.setEv e).cpu.pc = s.cpu.pc := rfl

@[simp] theorem State.sr_setEv (s : State) (e : Ev) :
    (s.setEv e).cpu.sr = s.cpu.sr := rfl

@[simp] theorem State.mac_setEv (s : State) (e : Ev) :
    (s.setEv e).mac = s.mac := rfl

@[simp] theorem State.ctl_setEv (s : State) (e : Ev) :
    (s.setEv e).ctl = s.ctl := rfl

@[simp] theorem State.dbg_setEv (s : State) (e : Ev) :
    (s.setEv e).dbg = s.dbg := rfl

@[simp] theorem State.ms_setEv (s : State) (e : Ev) :
    (s.setEv e).ms = s.ms := rfl

@[simp] theorem State.pins_setEv (s : State) (e : Ev) :
    (s.setEv e).pins = s.pins := rfl

@[simp] theorem State.bdm_setEv (s : State) (e : Ev) :
    (s.setEv e).bdm = s.bdm := rfl

@[simp] theorem State.port_setEv (s : State) (e : Ev) :
    (s.setEv e).port = s.port := rfl

@[simp] theorem State.free_setEv (s : State) (e : Ev) :
    (s.setEv e).free = s.free := rfl

/-! #### flush -/

@[simp] theorem State.getD_flush (s : State) (r : Reg) :
    (s.flush).getD r = s.getD r := rfl

@[simp] theorem State.getA_flush (s : State) (r : Reg) :
    (s.flush).getA r = s.getA r := rfl

@[simp] theorem State.pc_flush (s : State) :
    (s.flush).cpu.pc = s.cpu.pc := rfl

@[simp] theorem State.sr_flush (s : State) :
    (s.flush).cpu.sr = s.cpu.sr := rfl

@[simp] theorem State.mac_flush (s : State) :
    (s.flush).mac = s.mac := rfl

@[simp] theorem State.ctl_flush (s : State) :
    (s.flush).ctl = s.ctl := rfl

@[simp] theorem State.dbg_flush (s : State) :
    (s.flush).dbg = s.dbg := rfl

@[simp] theorem State.ev_flush (s : State) :
    (s.flush).ev = s.ev := rfl

@[simp] theorem State.pins_flush (s : State) :
    (s.flush).pins = s.pins := rfl

@[simp] theorem State.bdm_flush (s : State) :
    (s.flush).bdm = s.bdm := rfl

@[simp] theorem State.port_flush (s : State) :
    (s.flush).port = s.port := rfl

@[simp] theorem State.free_flush (s : State) :
    (s.flush).free = s.free := rfl

/-! #### emptyPrefetch -/

@[simp] theorem State.getD_emptyPrefetch (s : State) (r : Reg) :
    (s.emptyPrefetch).getD r = s.getD r := rfl

@[simp] theorem State.getA_emptyPrefetch (s : State) (r : Reg) :
    (s.emptyPrefetch).getA r = s.getA r := rfl

@[simp] theorem State.pc_emptyPrefetch (s : State) :
    (s.emptyPrefetch).cpu.pc = s.cpu.pc := rfl

@[simp] theorem State.sr_emptyPrefetch (s : State) :
    (s.emptyPrefetch).cpu.sr = s.cpu.sr := rfl

@[simp] theorem State.mac_emptyPrefetch (s : State) :
    (s.emptyPrefetch).mac = s.mac := rfl

@[simp] theorem State.ctl_emptyPrefetch (s : State) :
    (s.emptyPrefetch).ctl = s.ctl := rfl

@[simp] theorem State.dbg_emptyPrefetch (s : State) :
    (s.emptyPrefetch).dbg = s.dbg := rfl

@[simp] theorem State.ev_emptyPrefetch (s : State) :
    (s.emptyPrefetch).ev = s.ev := rfl

@[simp] theorem State.pins_emptyPrefetch (s : State) :
    (s.emptyPrefetch).pins = s.pins := rfl

@[simp] theorem State.bdm_emptyPrefetch (s : State) :
    (s.emptyPrefetch).bdm = s.bdm := rfl

@[simp] theorem State.port_emptyPrefetch (s : State) :
    (s.emptyPrefetch).port = s.port := rfl

@[simp] theorem State.free_emptyPrefetch (s : State) :
    (s.emptyPrefetch).free = s.free := rfl

/-! #### drainBuffers -/

@[simp] theorem State.getD_drainBuffers (s : State) (r : Reg) :
    (s.drainBuffers).getD r = s.getD r := rfl

@[simp] theorem State.getA_drainBuffers (s : State) (r : Reg) :
    (s.drainBuffers).getA r = s.getA r := rfl

@[simp] theorem State.pc_drainBuffers (s : State) :
    (s.drainBuffers).cpu.pc = s.cpu.pc := rfl

@[simp] theorem State.sr_drainBuffers (s : State) :
    (s.drainBuffers).cpu.sr = s.cpu.sr := rfl

@[simp] theorem State.mac_drainBuffers (s : State) :
    (s.drainBuffers).mac = s.mac := rfl

@[simp] theorem State.ctl_drainBuffers (s : State) :
    (s.drainBuffers).ctl = s.ctl := rfl

@[simp] theorem State.dbg_drainBuffers (s : State) :
    (s.drainBuffers).dbg = s.dbg := rfl

@[simp] theorem State.ev_drainBuffers (s : State) :
    (s.drainBuffers).ev = s.ev := rfl

@[simp] theorem State.pins_drainBuffers (s : State) :
    (s.drainBuffers).pins = s.pins := rfl

@[simp] theorem State.bdm_drainBuffers (s : State) :
    (s.drainBuffers).bdm = s.bdm := rfl

@[simp] theorem State.port_drainBuffers (s : State) :
    (s.drainBuffers).port = s.port := rfl

@[simp] theorem State.free_drainBuffers (s : State) :
    (s.drainBuffers).free = s.free := rfl

/-! #### setHaltSource -/

@[simp] theorem State.getD_setHaltSource (s : State) (n : Nat) (r : Reg) :
    (s.setHaltSource n).getD r = s.getD r := rfl

@[simp] theorem State.getA_setHaltSource (s : State) (n : Nat) (r : Reg) :
    (s.setHaltSource n).getA r = s.getA r := rfl

@[simp] theorem State.pc_setHaltSource (s : State) (n : Nat) :
    (s.setHaltSource n).cpu.pc = s.cpu.pc := rfl

@[simp] theorem State.sr_setHaltSource (s : State) (n : Nat) :
    (s.setHaltSource n).cpu.sr = s.cpu.sr := rfl

@[simp] theorem State.mac_setHaltSource (s : State) (n : Nat) :
    (s.setHaltSource n).mac = s.mac := rfl

@[simp] theorem State.ctl_setHaltSource (s : State) (n : Nat) :
    (s.setHaltSource n).ctl = s.ctl := rfl

@[simp] theorem State.ms_setHaltSource (s : State) (n : Nat) :
    (s.setHaltSource n).ms = s.ms := rfl

@[simp] theorem State.ev_setHaltSource (s : State) (n : Nat) :
    (s.setHaltSource n).ev = s.ev := rfl

@[simp] theorem State.pins_setHaltSource (s : State) (n : Nat) :
    (s.setHaltSource n).pins = s.pins := rfl

@[simp] theorem State.bdm_setHaltSource (s : State) (n : Nat) :
    (s.setHaltSource n).bdm = s.bdm := rfl

@[simp] theorem State.port_setHaltSource (s : State) (n : Nat) :
    (s.setHaltSource n).port = s.port := rfl

@[simp] theorem State.free_setHaltSource (s : State) (n : Nat) :
    (s.setHaltSource n).free = s.free := rfl

/-! #### event -/

@[simp] theorem State.getD_event (s : State) (e : PortEvent) (r : Reg) :
    (s.event e).getD r = s.getD r := by unfold State.event; split <;> rfl

@[simp] theorem State.getA_event (s : State) (e : PortEvent) (r : Reg) :
    (s.event e).getA r = s.getA r := by unfold State.event; split <;> rfl

@[simp] theorem State.pc_event (s : State) (e : PortEvent) :
    (s.event e).cpu.pc = s.cpu.pc := by unfold State.event; split <;> rfl

@[simp] theorem State.sr_event (s : State) (e : PortEvent) :
    (s.event e).cpu.sr = s.cpu.sr := by unfold State.event; split <;> rfl

@[simp] theorem State.mac_event (s : State) (e : PortEvent) :
    (s.event e).mac = s.mac := by unfold State.event; split <;> rfl

@[simp] theorem State.ctl_event (s : State) (e : PortEvent) :
    (s.event e).ctl = s.ctl := by unfold State.event; split <;> rfl

@[simp] theorem State.dbg_event (s : State) (e : PortEvent) :
    (s.event e).dbg = s.dbg := by unfold State.event; split <;> rfl

@[simp] theorem State.ms_event (s : State) (e : PortEvent) :
    (s.event e).ms = s.ms := by unfold State.event; split <;> rfl

@[simp] theorem State.ev_event (s : State) (e : PortEvent) :
    (s.event e).ev = s.ev := by unfold State.event; split <;> rfl

@[simp] theorem State.pins_event (s : State) (e : PortEvent) :
    (s.event e).pins = s.pins := by unfold State.event; split <;> rfl

@[simp] theorem State.bdm_event (s : State) (e : PortEvent) :
    (s.event e).bdm = s.bdm := by unfold State.event; split <;> rfl

@[simp] theorem State.free_event (s : State) (e : PortEvent) :
    (s.event e).free = s.free := by unfold State.event; split <;> rfl

/-! #### pst -/

@[simp] theorem State.getD_pst (s : State) (v : BitVec 4) (r : Reg) :
    (s.pst v).getD r = s.getD r := State.getD_event s _ r

@[simp] theorem State.getA_pst (s : State) (v : BitVec 4) (r : Reg) :
    (s.pst v).getA r = s.getA r := State.getA_event s _ r

@[simp] theorem State.pc_pst (s : State) (v : BitVec 4) :
    (s.pst v).cpu.pc = s.cpu.pc := State.pc_event s _

@[simp] theorem State.sr_pst (s : State) (v : BitVec 4) :
    (s.pst v).cpu.sr = s.cpu.sr := State.sr_event s _

@[simp] theorem State.mac_pst (s : State) (v : BitVec 4) :
    (s.pst v).mac = s.mac := State.mac_event s _

@[simp] theorem State.ctl_pst (s : State) (v : BitVec 4) :
    (s.pst v).ctl = s.ctl := State.ctl_event s _

@[simp] theorem State.dbg_pst (s : State) (v : BitVec 4) :
    (s.pst v).dbg = s.dbg := State.dbg_event s _

@[simp] theorem State.ms_pst (s : State) (v : BitVec 4) :
    (s.pst v).ms = s.ms := State.ms_event s _

@[simp] theorem State.ev_pst (s : State) (v : BitVec 4) :
    (s.pst v).ev = s.ev := State.ev_event s _

@[simp] theorem State.pins_pst (s : State) (v : BitVec 4) :
    (s.pst v).pins = s.pins := State.pins_event s _

@[simp] theorem State.bdm_pst (s : State) (v : BitVec 4) :
    (s.pst v).bdm = s.bdm := State.bdm_event s _

@[simp] theorem State.free_pst (s : State) (v : BitVec 4) :
    (s.pst v).free = s.free := State.free_event s _

/-! #### item -/

@[simp] theorem State.getD_item (s : State) (n : Nat) (v : Long) (r : Reg) :
    (s.item n v).getD r = s.getD r := State.getD_event s _ r

@[simp] theorem State.getA_item (s : State) (n : Nat) (v : Long) (r : Reg) :
    (s.item n v).getA r = s.getA r := State.getA_event s _ r

@[simp] theorem State.pc_item (s : State) (n : Nat) (v : Long) :
    (s.item n v).cpu.pc = s.cpu.pc := State.pc_event s _

@[simp] theorem State.sr_item (s : State) (n : Nat) (v : Long) :
    (s.item n v).cpu.sr = s.cpu.sr := State.sr_event s _

@[simp] theorem State.mac_item (s : State) (n : Nat) (v : Long) :
    (s.item n v).mac = s.mac := State.mac_event s _

@[simp] theorem State.ctl_item (s : State) (n : Nat) (v : Long) :
    (s.item n v).ctl = s.ctl := State.ctl_event s _

@[simp] theorem State.dbg_item (s : State) (n : Nat) (v : Long) :
    (s.item n v).dbg = s.dbg := State.dbg_event s _

@[simp] theorem State.ms_item (s : State) (n : Nat) (v : Long) :
    (s.item n v).ms = s.ms := State.ms_event s _

@[simp] theorem State.ev_item (s : State) (n : Nat) (v : Long) :
    (s.item n v).ev = s.ev := State.ev_event s _

@[simp] theorem State.pins_item (s : State) (n : Nat) (v : Long) :
    (s.item n v).pins = s.pins := State.pins_event s _

@[simp] theorem State.bdm_item (s : State) (n : Nat) (v : Long) :
    (s.item n v).bdm = s.bdm := State.bdm_event s _

@[simp] theorem State.free_item (s : State) (n : Nat) (v : Long) :
    (s.item n v).free = s.free := State.free_event s _

/-! #### target -/

@[simp] theorem State.getD_target (s : State) (v : Long) (r : Reg) :
    (s.target v).getD r = s.getD r := by unfold State.target; split <;> first | rfl | exact State.getD_item s _ _ r

@[simp] theorem State.getA_target (s : State) (v : Long) (r : Reg) :
    (s.target v).getA r = s.getA r := by unfold State.target; split <;> first | rfl | exact State.getA_item s _ _ r

@[simp] theorem State.pc_target (s : State) (v : Long) :
    (s.target v).cpu.pc = s.cpu.pc := by unfold State.target; split <;> first | rfl | exact State.pc_item s _ _

@[simp] theorem State.sr_target (s : State) (v : Long) :
    (s.target v).cpu.sr = s.cpu.sr := by unfold State.target; split <;> first | rfl | exact State.sr_item s _ _

@[simp] theorem State.mac_target (s : State) (v : Long) :
    (s.target v).mac = s.mac := by unfold State.target; split <;> first | rfl | exact State.mac_item s _ _

@[simp] theorem State.ctl_target (s : State) (v : Long) :
    (s.target v).ctl = s.ctl := by unfold State.target; split <;> first | rfl | exact State.ctl_item s _ _

@[simp] theorem State.dbg_target (s : State) (v : Long) :
    (s.target v).dbg = s.dbg := by unfold State.target; split <;> first | rfl | exact State.dbg_item s _ _

@[simp] theorem State.ms_target (s : State) (v : Long) :
    (s.target v).ms = s.ms := by unfold State.target; split <;> first | rfl | exact State.ms_item s _ _

@[simp] theorem State.ev_target (s : State) (v : Long) :
    (s.target v).ev = s.ev := by unfold State.target; split <;> first | rfl | exact State.ev_item s _ _

@[simp] theorem State.pins_target (s : State) (v : Long) :
    (s.target v).pins = s.pins := by unfold State.target; split <;> first | rfl | exact State.pins_item s _ _

@[simp] theorem State.bdm_target (s : State) (v : Long) :
    (s.target v).bdm = s.bdm := by unfold State.target; split <;> first | rfl | exact State.bdm_item s _ _

@[simp] theorem State.free_target (s : State) (v : Long) :
    (s.target v).free = s.free := by unfold State.target; split <;> first | rfl | exact State.free_item s _ _

/-! #### showRead -/

@[simp] theorem State.getD_showRead (s : State) (sz : Size) (v : Long) (r : Reg) :
    (s.showRead sz v).getD r = s.getD r := by unfold State.showRead; split <;> first | rfl | exact State.getD_item s _ _ r

@[simp] theorem State.getA_showRead (s : State) (sz : Size) (v : Long) (r : Reg) :
    (s.showRead sz v).getA r = s.getA r := by unfold State.showRead; split <;> first | rfl | exact State.getA_item s _ _ r

@[simp] theorem State.pc_showRead (s : State) (sz : Size) (v : Long) :
    (s.showRead sz v).cpu.pc = s.cpu.pc := by unfold State.showRead; split <;> first | rfl | exact State.pc_item s _ _

@[simp] theorem State.sr_showRead (s : State) (sz : Size) (v : Long) :
    (s.showRead sz v).cpu.sr = s.cpu.sr := by unfold State.showRead; split <;> first | rfl | exact State.sr_item s _ _

@[simp] theorem State.mac_showRead (s : State) (sz : Size) (v : Long) :
    (s.showRead sz v).mac = s.mac := by unfold State.showRead; split <;> first | rfl | exact State.mac_item s _ _

@[simp] theorem State.ctl_showRead (s : State) (sz : Size) (v : Long) :
    (s.showRead sz v).ctl = s.ctl := by unfold State.showRead; split <;> first | rfl | exact State.ctl_item s _ _

@[simp] theorem State.dbg_showRead (s : State) (sz : Size) (v : Long) :
    (s.showRead sz v).dbg = s.dbg := by unfold State.showRead; split <;> first | rfl | exact State.dbg_item s _ _

@[simp] theorem State.ms_showRead (s : State) (sz : Size) (v : Long) :
    (s.showRead sz v).ms = s.ms := by unfold State.showRead; split <;> first | rfl | exact State.ms_item s _ _

@[simp] theorem State.ev_showRead (s : State) (sz : Size) (v : Long) :
    (s.showRead sz v).ev = s.ev := by unfold State.showRead; split <;> first | rfl | exact State.ev_item s _ _

@[simp] theorem State.pins_showRead (s : State) (sz : Size) (v : Long) :
    (s.showRead sz v).pins = s.pins := by unfold State.showRead; split <;> first | rfl | exact State.pins_item s _ _

@[simp] theorem State.bdm_showRead (s : State) (sz : Size) (v : Long) :
    (s.showRead sz v).bdm = s.bdm := by unfold State.showRead; split <;> first | rfl | exact State.bdm_item s _ _

@[simp] theorem State.free_showRead (s : State) (sz : Size) (v : Long) :
    (s.showRead sz v).free = s.free := by unfold State.showRead; split <;> first | rfl | exact State.free_item s _ _

/-! #### showWrite -/

@[simp] theorem State.getD_showWrite (s : State) (sz : Size) (v : Long) (r : Reg) :
    (s.showWrite sz v).getD r = s.getD r := by unfold State.showWrite; split <;> first | rfl | exact State.getD_item s _ _ r

@[simp] theorem State.getA_showWrite (s : State) (sz : Size) (v : Long) (r : Reg) :
    (s.showWrite sz v).getA r = s.getA r := by unfold State.showWrite; split <;> first | rfl | exact State.getA_item s _ _ r

@[simp] theorem State.pc_showWrite (s : State) (sz : Size) (v : Long) :
    (s.showWrite sz v).cpu.pc = s.cpu.pc := by unfold State.showWrite; split <;> first | rfl | exact State.pc_item s _ _

@[simp] theorem State.sr_showWrite (s : State) (sz : Size) (v : Long) :
    (s.showWrite sz v).cpu.sr = s.cpu.sr := by unfold State.showWrite; split <;> first | rfl | exact State.sr_item s _ _

@[simp] theorem State.mac_showWrite (s : State) (sz : Size) (v : Long) :
    (s.showWrite sz v).mac = s.mac := by unfold State.showWrite; split <;> first | rfl | exact State.mac_item s _ _

@[simp] theorem State.ctl_showWrite (s : State) (sz : Size) (v : Long) :
    (s.showWrite sz v).ctl = s.ctl := by unfold State.showWrite; split <;> first | rfl | exact State.ctl_item s _ _

@[simp] theorem State.dbg_showWrite (s : State) (sz : Size) (v : Long) :
    (s.showWrite sz v).dbg = s.dbg := by unfold State.showWrite; split <;> first | rfl | exact State.dbg_item s _ _

@[simp] theorem State.ms_showWrite (s : State) (sz : Size) (v : Long) :
    (s.showWrite sz v).ms = s.ms := by unfold State.showWrite; split <;> first | rfl | exact State.ms_item s _ _

@[simp] theorem State.ev_showWrite (s : State) (sz : Size) (v : Long) :
    (s.showWrite sz v).ev = s.ev := by unfold State.showWrite; split <;> first | rfl | exact State.ev_item s _ _

@[simp] theorem State.pins_showWrite (s : State) (sz : Size) (v : Long) :
    (s.showWrite sz v).pins = s.pins := by unfold State.showWrite; split <;> first | rfl | exact State.pins_item s _ _

@[simp] theorem State.bdm_showWrite (s : State) (sz : Size) (v : Long) :
    (s.showWrite sz v).bdm = s.bdm := by unfold State.showWrite; split <;> first | rfl | exact State.bdm_item s _ _

@[simp] theorem State.free_showWrite (s : State) (sz : Size) (v : Long) :
    (s.showWrite sz v).free = s.free := by unfold State.showWrite; split <;> first | rfl | exact State.free_item s _ _

/-! #### loadQuiet -/

@[simp] theorem State.getD_loadQuiet (s : State) (q : Long) (sz : Size) (r : Reg) :
    (s.loadQuiet q sz).2.getD r = s.getD r := rfl

@[simp] theorem State.getA_loadQuiet (s : State) (q : Long) (sz : Size) (r : Reg) :
    (s.loadQuiet q sz).2.getA r = s.getA r := rfl

@[simp] theorem State.pc_loadQuiet (s : State) (q : Long) (sz : Size) :
    (s.loadQuiet q sz).2.cpu.pc = s.cpu.pc := rfl

@[simp] theorem State.sr_loadQuiet (s : State) (q : Long) (sz : Size) :
    (s.loadQuiet q sz).2.cpu.sr = s.cpu.sr := rfl

@[simp] theorem State.mac_loadQuiet (s : State) (q : Long) (sz : Size) :
    (s.loadQuiet q sz).2.mac = s.mac := rfl

@[simp] theorem State.ctl_loadQuiet (s : State) (q : Long) (sz : Size) :
    (s.loadQuiet q sz).2.ctl = s.ctl := rfl

@[simp] theorem State.dbg_loadQuiet (s : State) (q : Long) (sz : Size) :
    (s.loadQuiet q sz).2.dbg = s.dbg := rfl

@[simp] theorem State.ev_loadQuiet (s : State) (q : Long) (sz : Size) :
    (s.loadQuiet q sz).2.ev = s.ev := rfl

@[simp] theorem State.pins_loadQuiet (s : State) (q : Long) (sz : Size) :
    (s.loadQuiet q sz).2.pins = s.pins := rfl

@[simp] theorem State.bdm_loadQuiet (s : State) (q : Long) (sz : Size) :
    (s.loadQuiet q sz).2.bdm = s.bdm := rfl

@[simp] theorem State.port_loadQuiet (s : State) (q : Long) (sz : Size) :
    (s.loadQuiet q sz).2.port = s.port := rfl

@[simp] theorem State.free_loadQuiet (s : State) (q : Long) (sz : Size) :
    (s.loadQuiet q sz).2.free = s.free := rfl

/-! #### load -/

@[simp] theorem State.getD_load (s : State) (q : Long) (sz : Size) (r : Reg) :
    (s.load q sz).2.getD r = s.getD r := by unfold State.load; exact State.getD_showRead _ _ _ r

@[simp] theorem State.getA_load (s : State) (q : Long) (sz : Size) (r : Reg) :
    (s.load q sz).2.getA r = s.getA r := by unfold State.load; exact State.getA_showRead _ _ _ r

@[simp] theorem State.pc_load (s : State) (q : Long) (sz : Size) :
    (s.load q sz).2.cpu.pc = s.cpu.pc := by unfold State.load; exact State.pc_showRead _ _ _

@[simp] theorem State.sr_load (s : State) (q : Long) (sz : Size) :
    (s.load q sz).2.cpu.sr = s.cpu.sr := by unfold State.load; exact State.sr_showRead _ _ _

@[simp] theorem State.mac_load (s : State) (q : Long) (sz : Size) :
    (s.load q sz).2.mac = s.mac := by unfold State.load; exact State.mac_showRead _ _ _

@[simp] theorem State.ctl_load (s : State) (q : Long) (sz : Size) :
    (s.load q sz).2.ctl = s.ctl := by unfold State.load; exact State.ctl_showRead _ _ _

@[simp] theorem State.dbg_load (s : State) (q : Long) (sz : Size) :
    (s.load q sz).2.dbg = s.dbg := by unfold State.load; exact State.dbg_showRead _ _ _

@[simp] theorem State.ev_load (s : State) (q : Long) (sz : Size) :
    (s.load q sz).2.ev = s.ev := by unfold State.load; exact State.ev_showRead _ _ _

@[simp] theorem State.pins_load (s : State) (q : Long) (sz : Size) :
    (s.load q sz).2.pins = s.pins := by unfold State.load; exact State.pins_showRead _ _ _

@[simp] theorem State.bdm_load (s : State) (q : Long) (sz : Size) :
    (s.load q sz).2.bdm = s.bdm := by unfold State.load; exact State.bdm_showRead _ _ _

@[simp] theorem State.free_load (s : State) (q : Long) (sz : Size) :
    (s.load q sz).2.free = s.free := by unfold State.load; exact State.free_showRead _ _ _

/-! #### storeQuiet -/

@[simp] theorem State.getD_storeQuiet (s : State) (q : Long) (sz : Size) (v : Long) (r : Reg) :
    (s.storeQuiet q sz v).getD r = s.getD r := rfl

@[simp] theorem State.getA_storeQuiet (s : State) (q : Long) (sz : Size) (v : Long) (r : Reg) :
    (s.storeQuiet q sz v).getA r = s.getA r := rfl

@[simp] theorem State.pc_storeQuiet (s : State) (q : Long) (sz : Size) (v : Long) :
    (s.storeQuiet q sz v).cpu.pc = s.cpu.pc := rfl

@[simp] theorem State.sr_storeQuiet (s : State) (q : Long) (sz : Size) (v : Long) :
    (s.storeQuiet q sz v).cpu.sr = s.cpu.sr := rfl

@[simp] theorem State.mac_storeQuiet (s : State) (q : Long) (sz : Size) (v : Long) :
    (s.storeQuiet q sz v).mac = s.mac := rfl

@[simp] theorem State.ctl_storeQuiet (s : State) (q : Long) (sz : Size) (v : Long) :
    (s.storeQuiet q sz v).ctl = s.ctl := rfl

@[simp] theorem State.dbg_storeQuiet (s : State) (q : Long) (sz : Size) (v : Long) :
    (s.storeQuiet q sz v).dbg = s.dbg := rfl

@[simp] theorem State.ev_storeQuiet (s : State) (q : Long) (sz : Size) (v : Long) :
    (s.storeQuiet q sz v).ev = s.ev := rfl

@[simp] theorem State.pins_storeQuiet (s : State) (q : Long) (sz : Size) (v : Long) :
    (s.storeQuiet q sz v).pins = s.pins := rfl

@[simp] theorem State.bdm_storeQuiet (s : State) (q : Long) (sz : Size) (v : Long) :
    (s.storeQuiet q sz v).bdm = s.bdm := rfl

@[simp] theorem State.port_storeQuiet (s : State) (q : Long) (sz : Size) (v : Long) :
    (s.storeQuiet q sz v).port = s.port := rfl

@[simp] theorem State.free_storeQuiet (s : State) (q : Long) (sz : Size) (v : Long) :
    (s.storeQuiet q sz v).free = s.free := rfl

/-! #### store -/

@[simp] theorem State.getD_store (s : State) (q : Long) (sz : Size) (v : Long) (r : Reg) :
    (s.store q sz v).getD r = s.getD r := by unfold State.store; exact State.getD_showWrite _ _ _ r

@[simp] theorem State.getA_store (s : State) (q : Long) (sz : Size) (v : Long) (r : Reg) :
    (s.store q sz v).getA r = s.getA r := by unfold State.store; exact State.getA_showWrite _ _ _ r

@[simp] theorem State.pc_store (s : State) (q : Long) (sz : Size) (v : Long) :
    (s.store q sz v).cpu.pc = s.cpu.pc := by unfold State.store; exact State.pc_showWrite _ _ _

@[simp] theorem State.sr_store (s : State) (q : Long) (sz : Size) (v : Long) :
    (s.store q sz v).cpu.sr = s.cpu.sr := by unfold State.store; exact State.sr_showWrite _ _ _

@[simp] theorem State.mac_store (s : State) (q : Long) (sz : Size) (v : Long) :
    (s.store q sz v).mac = s.mac := by unfold State.store; exact State.mac_showWrite _ _ _

@[simp] theorem State.ctl_store (s : State) (q : Long) (sz : Size) (v : Long) :
    (s.store q sz v).ctl = s.ctl := by unfold State.store; exact State.ctl_showWrite _ _ _

@[simp] theorem State.dbg_store (s : State) (q : Long) (sz : Size) (v : Long) :
    (s.store q sz v).dbg = s.dbg := by unfold State.store; exact State.dbg_showWrite _ _ _

@[simp] theorem State.ev_store (s : State) (q : Long) (sz : Size) (v : Long) :
    (s.store q sz v).ev = s.ev := by unfold State.store; exact State.ev_showWrite _ _ _

@[simp] theorem State.pins_store (s : State) (q : Long) (sz : Size) (v : Long) :
    (s.store q sz v).pins = s.pins := by unfold State.store; exact State.pins_showWrite _ _ _

@[simp] theorem State.bdm_store (s : State) (q : Long) (sz : Size) (v : Long) :
    (s.store q sz v).bdm = s.bdm := by unfold State.store; exact State.bdm_showWrite _ _ _

@[simp] theorem State.free_store (s : State) (q : Long) (sz : Size) (v : Long) :
    (s.store q sz v).free = s.free := by unfold State.store; exact State.free_showWrite _ _ _

/-! #### The fields that are written -/

@[simp] theorem State.getD_setD (s : State) (q : Reg) (v : Long) (r : Reg) :
    (s.setD q v).getD r = if r = q then v else s.getD r := by
  unfold State.getD State.setD
  simp only [Vector.getElem_set, BitVec.toNat_inj, eq_comm]

@[simp] theorem State.getA_setA (s : State) (q : Reg) (v : Long) (r : Reg) :
    (s.setA q v).getA r = if r = q then v else s.getA r := by
  unfold State.getA State.setA
  simp only [Vector.getElem_set, BitVec.toNat_inj, eq_comm]

@[simp] theorem State.pc_setPc (s : State) (v : Long) : (s.setPc v).cpu.pc = v := rfl
@[simp] theorem State.sr_setSr (s : State) (v : Word) : (s.setSr v).cpu.sr = v &&& srMask := rfl
@[simp] theorem State.sr_setFlags (s : State) (f : Flags) : (s.setFlags f).cpu.sr = withFlags s.cpu.sr f := rfl
@[simp] theorem State.free_drawn (s : State) : s.drawn.free = s.free + 1 := rfl
@[simp] theorem State.ms_setMs (s : State) (m : MemSys) : (s.setMs m).ms = m := rfl
@[simp] theorem State.ev_setEv (s : State) (e : Ev) : (s.setEv e).ev = e := rfl
@[simp] theorem State.ms_drainBuffers (s : State) : s.drainBuffers.ms = drain s.route s.ms := rfl
@[simp] theorem State.ms_emptyPrefetch (s : State) : s.emptyPrefetch.ms = { s.ms with stale := [] } := rfl
@[simp] theorem State.ms_flush (s : State) : s.flush.ms = { s.ms with stale := stalePending s.route s.ms } := rfl
@[simp] theorem State.dbg_setHaltSource (s : State) (n : Nat) :
    (s.setHaltSource n).dbg = { s.dbg with csr := (s.dbg.csr &&& 0xF0FFFFFF#32) ||| (1#32 <<< n) } := rfl

/-! #### What routes an access -/

/-- The route of an access depends on the control registers, the pins, the run state and the debug registers alone. -/
theorem State.route_congr {s t : State} (hc : t.ctl = s.ctl) (hp : t.pins = s.pins) (he : t.ev = s.ev)
    (hd : t.dbg = s.dbg) : t.route = s.route := by
  unfold State.route State.emuMap
  rw [hc, hp, he, hd]

/-- The attributes of a data access depend on SR.S besides. -/
theorem State.dataSpace_congr {s t : State} (he : t.ev = s.ev) (hd : t.dbg = s.dbg) (hs : t.super = s.super) :
    t.dataSpace = s.dataSpace := by
  unfold State.dataSpace State.emuMap
  rw [he, hd, hs]

/-- What a read shows depends on these and the memory system alone. -/
theorem State.peek_congr {s t : State} (hc : t.ctl = s.ctl) (hp : t.pins = s.pins) (he : t.ev = s.ev)
    (hd : t.dbg = s.dbg) (hs : t.super = s.super) (hm : t.ms = s.ms) (a : Long) : t.peek a = s.peek a := by
  unfold State.peek
  rw [State.route_congr hc hp he hd, State.dataSpace_congr he hd hs, hm]

/-- The five flags touch no bit of SR above bit 4. -/
theorem withFlags_upper (sr : Word) (f : Flags) : withFlags sr f &&& 0xFFE0#16 = sr &&& 0xFFE0#16 := by
  obtain ⟨x, n, z, v, c⟩ := f
  cases x <;> cases n <;> cases z <;> cases v <;> cases c <;>
    simp [withFlags, flagBits, bitWord, BitVec.and_or_distrib_right, BitVec.and_assoc]

/-- Reading back the flags that were set. -/
@[simp] theorem flagsOf_withFlags (sr : Word) (f : Flags) : flagsOf (withFlags sr f) = f := by
  obtain ⟨x, n, z, v, c⟩ := f
  cases x <;> cases n <;> cases z <;> cases v <;> cases c <;>
    simp [flagsOf, withFlags, flagBits, bitWord]

/-- Setting the flags leaves SR.S. -/
@[simp] theorem State.super_setFlags (s : State) (f : Flags) : (s.setFlags f).super = s.super := by
  have h := congrArg (fun w : Word => w.getLsbD 13) (withFlags_upper s.cpu.sr f)
  simpa [State.super] using h

@[simp] theorem State.flags_setFlags (s : State) (f : Flags) : (s.setFlags f).flags = f := by
  simp [State.flags]

/-! #### loadLine -/

@[simp] theorem State.getD_loadLine (s : State) (q : Long) (r : Reg) :
    (s.loadLine q).2.getD r = s.getD r := rfl

@[simp] theorem State.getA_loadLine (s : State) (q : Long) (r : Reg) :
    (s.loadLine q).2.getA r = s.getA r := rfl

@[simp] theorem State.pc_loadLine (s : State) (q : Long) :
    (s.loadLine q).2.cpu.pc = s.cpu.pc := rfl

@[simp] theorem State.sr_loadLine (s : State) (q : Long) :
    (s.loadLine q).2.cpu.sr = s.cpu.sr := rfl

@[simp] theorem State.mac_loadLine (s : State) (q : Long) :
    (s.loadLine q).2.mac = s.mac := rfl

@[simp] theorem State.ctl_loadLine (s : State) (q : Long) :
    (s.loadLine q).2.ctl = s.ctl := rfl

@[simp] theorem State.dbg_loadLine (s : State) (q : Long) :
    (s.loadLine q).2.dbg = s.dbg := rfl

@[simp] theorem State.ev_loadLine (s : State) (q : Long) :
    (s.loadLine q).2.ev = s.ev := rfl

@[simp] theorem State.pins_loadLine (s : State) (q : Long) :
    (s.loadLine q).2.pins = s.pins := rfl

@[simp] theorem State.bdm_loadLine (s : State) (q : Long) :
    (s.loadLine q).2.bdm = s.bdm := rfl

@[simp] theorem State.port_loadLine (s : State) (q : Long) :
    (s.loadLine q).2.port = s.port := rfl

@[simp] theorem State.free_loadLine (s : State) (q : Long) :
    (s.loadLine q).2.free = s.free := rfl

/-! #### storeLine -/

@[simp] theorem State.getD_storeLine (s : State) (q : Long) (vs : List Long) (r : Reg) :
    (s.storeLine q vs).getD r = s.getD r := rfl

@[simp] theorem State.getA_storeLine (s : State) (q : Long) (vs : List Long) (r : Reg) :
    (s.storeLine q vs).getA r = s.getA r := rfl

@[simp] theorem State.pc_storeLine (s : State) (q : Long) (vs : List Long) :
    (s.storeLine q vs).cpu.pc = s.cpu.pc := rfl

@[simp] theorem State.sr_storeLine (s : State) (q : Long) (vs : List Long) :
    (s.storeLine q vs).cpu.sr = s.cpu.sr := rfl

@[simp] theorem State.mac_storeLine (s : State) (q : Long) (vs : List Long) :
    (s.storeLine q vs).mac = s.mac := rfl

@[simp] theorem State.ctl_storeLine (s : State) (q : Long) (vs : List Long) :
    (s.storeLine q vs).ctl = s.ctl := rfl

@[simp] theorem State.dbg_storeLine (s : State) (q : Long) (vs : List Long) :
    (s.storeLine q vs).dbg = s.dbg := rfl

@[simp] theorem State.ev_storeLine (s : State) (q : Long) (vs : List Long) :
    (s.storeLine q vs).ev = s.ev := rfl

@[simp] theorem State.pins_storeLine (s : State) (q : Long) (vs : List Long) :
    (s.storeLine q vs).pins = s.pins := rfl

@[simp] theorem State.bdm_storeLine (s : State) (q : Long) (vs : List Long) :
    (s.storeLine q vs).bdm = s.bdm := rfl

@[simp] theorem State.port_storeLine (s : State) (q : Long) (vs : List Long) :
    (s.storeLine q vs).port = s.port := rfl

@[simp] theorem State.free_storeLine (s : State) (q : Long) (vs : List Long) :
    (s.storeLine q vs).free = s.free := rfl

/-! #### haltFor -/

@[simp] theorem State.getD_haltFor (s : State) (n : Nat) (r : Reg) : (s.haltFor n).getD r = s.getD r := by
  simp [State.haltFor, State.enterHalted]

@[simp] theorem State.getA_haltFor (s : State) (n : Nat) (r : Reg) : (s.haltFor n).getA r = s.getA r := by
  simp [State.haltFor, State.enterHalted]

@[simp] theorem State.pc_haltFor (s : State) (n : Nat) : (s.haltFor n).cpu.pc = s.cpu.pc := by
  simp [State.haltFor, State.enterHalted]

@[simp] theorem State.sr_haltFor (s : State) (n : Nat) : (s.haltFor n).cpu.sr = s.cpu.sr := by
  simp [State.haltFor, State.enterHalted]

@[simp] theorem State.mac_haltFor (s : State) (n : Nat) : (s.haltFor n).mac = s.mac := by
  simp [State.haltFor, State.enterHalted]

@[simp] theorem State.ctl_haltFor (s : State) (n : Nat) : (s.haltFor n).ctl = s.ctl := by
  simp [State.haltFor, State.enterHalted]

@[simp] theorem State.pins_haltFor (s : State) (n : Nat) : (s.haltFor n).pins = s.pins := by
  simp [State.haltFor, State.enterHalted]

@[simp] theorem State.bdm_haltFor (s : State) (n : Nat) : (s.haltFor n).bdm = s.bdm := by
  simp [State.haltFor, State.enterHalted]

@[simp] theorem State.dbg_haltFor (s : State) (n : Nat) :
    (s.haltFor n).dbg = { s.dbg with csr := (s.dbg.csr &&& 0xF0FFFFFF#32) ||| (1#32 <<< n) } := by
  simp [State.haltFor, State.enterHalted]

@[simp] theorem State.ev_haltFor (s : State) (n : Nat) :
    (s.haltFor n).ev = { s.ev with run := .halted, haltTrg := false, haltBkpt := false } := by
  simp [State.haltFor, State.enterHalted]

theorem State.ms_haltFor (s : State) (n : Nat) :
    (s.haltFor n).ms = drain ((s.setEv { s.ev with haltTrg := false, haltBkpt := false }).setHaltSource n).route s.ms := by
  simp [State.haltFor, State.enterHalted]

end Sys2Proof.Machine
end

