-- ==== Sys2Proof/Laws/Debug.lean ====
section
/-! SUPPORT. Sys2Proof/Laws/Debug.lean: what setting the breakpoint status and writing a debug register leave. -/

namespace Sys2Proof.Machine

@[simp] theorem State.cpu_setStatus (s : State) (st : BitVec 3) : (s.setStatus st).cpu = s.cpu := rfl
@[simp] theorem State.mac_setStatus (s : State) (st : BitVec 3) : (s.setStatus st).mac = s.mac := rfl
@[simp] theorem State.ctl_setStatus (s : State) (st : BitVec 3) : (s.setStatus st).ctl = s.ctl := rfl
@[simp] theorem State.ms_setStatus (s : State) (st : BitVec 3) : (s.setStatus st).ms = s.ms := rfl
@[simp] theorem State.ev_setStatus (s : State) (st : BitVec 3) : (s.setStatus st).ev = s.ev := rfl
@[simp] theorem State.pins_setStatus (s : State) (st : BitVec 3) : (s.setStatus st).pins = s.pins := rfl
@[simp] theorem State.bdm_setStatus (s : State) (st : BitVec 3) : (s.setStatus st).bdm = s.bdm := rfl
@[simp] theorem State.port_setStatus (s : State) (st : BitVec 3) : (s.setStatus st).port = s.port := rfl
@[simp] theorem State.free_setStatus (s : State) (st : BitVec 3) : (s.setStatus st).free = s.free + 1 := rfl

/-- Setting the status leaves every other bit of the CSR. -/
@[simp] theorem getLsbD_setStatus (csr : Long) (st : BitVec 4) (k : Nat) (h : k < 28) :
    (setStatus csr st).getLsbD k = csr.getLsbD k := by
  have hm : (0x0FFFFFFF#32 : Long).getLsbD k = true := by
    interval_cases k <;> rfl
  simp [setStatus, h, hm]

/-- The status that was set, but for its low bit, is the status read. -/
@[simp] theorem statusOf_setStatus (s : State) (st : BitVec 3) : statusOf (s.setStatus st).dbg = st := by
  show (setStatus s.dbg.csr (st ++ Config.statusLow s.free)).extractLsb' 29 3 = st
  generalize Config.statusLow s.free = b
  generalize s.dbg.csr = c
  rw [setStatus, BitVec.extractLsb'_or, BitVec.extractLsb'_and]
  revert st b
  simp
  decide

/-- What a write of a debug register leaves (spec/61_debug_and_bdm.md R632): the debug registers, and for the TDR, which
sets the status, the next free value, alone are not as they were. -/
theorem State.writeDebug_eq (s : State) (mask : Long) (drc : BitVec 4) (v : Long) :
    ∃ g f, s.writeDebug mask drc v = { s with dbg := g, free := f } ∧
      (drc ≠ 7#4 → g = writeDebugReg s.dbg mask drc v ∧ f = s.free) ∧
      (drc = 7#4 → ∃ b : BitVec 1,
        g = { s.dbg with tdr := v, csr := Machine.setStatus s.dbg.csr (statusOfTdr v ++ b) } ∧ f = s.free + 1) := by
  unfold State.writeDebug
  by_cases h : drc = 7#4
  · subst h
    exact ⟨_, _, rfl, fun h => absurd rfl h, fun _ => ⟨_, rfl, rfl⟩⟩
  · rw [if_neg h]
    exact ⟨_, _, rfl, fun _ => ⟨rfl, rfl⟩, fun h' => absurd h' h⟩

end Sys2Proof.Machine
end

