-- ==== Sys2Proof/Laws/Flags.lean ====
section
/-! SUPPORT. Sys2Proof/Laws/Flags.lean: the flag computations, the shifts and the sized values of the model against their
definitions in integers (Sys2Proof/Safety.lean). -/

namespace Sys2Proof.Machine

/-! ### Sums and differences (spec/41_integer_arithmetic.md R300) -/

theorem carryNat_eq (x : Bool) : carryNat x = x.toNat := by cases x <;> rfl

theorem toInt_bit (v : Long) : v.toInt = if v.getLsbD 31 then (v.toNat : Int) - 2 ^ 32 else (v.toNat : Int) := by
  have h : v.getLsbD 31 = v.msb := (BitVec.msb_eq_getLsbD_last v).symm
  rw [h, BitVec.toInt_eq_msb_cond]
  simp

theorem bit31 (v : Long) : v.getLsbD 31 = decide (2 ^ 31 ≤ v.toNat) := by
  have h : v.getLsbD 31 = v.msb := (BitVec.msb_eq_getLsbD_last v).symm
  rw [h, BitVec.msb_eq_decide]

/-- add_flags of the model is the definition in integers. -/
theorem addFlags_eq (s d : Long) (x : Bool) : addFlags s d x = sumFlags s d x := by
  have hs := s.isLt
  have hd := d.isLt
  have hx : x.toNat ≤ 1 := Bool.toNat_le x
  have hr : (s + d + BitVec.ofNat 32 x.toNat).toNat = (s.toNat + d.toNat + x.toNat) % 2 ^ 32 := by
    simp [BitVec.toNat_add, Nat.add_mod]
  unfold addFlags sumFlags addResult overflows
  rw [carryNat_eq]
  have h31 := bit31 (s + d + BitVec.ofNat 32 x.toNat)
  rw [hr] at h31
  simp only [Flags.mk.injEq, true_and, and_true]
  refine ⟨by rw [BitVec.msb_eq_getLsbD_last], by rfl, ?_⟩
  rw [toInt_bit s, toInt_bit d, h31, bit31 s, bit31 d]
  by_cases h1 : 2 ^ 31 ≤ s.toNat <;> by_cases h2 : 2 ^ 31 ≤ d.toNat <;> simp [h1, h2] <;>
    (rw [Bool.eq_iff_iff]; simp; omega)

/-- sub_flags of the model is the definition in integers. -/
theorem subFlags_eq (s d : Long) (x : Bool) : subFlags s d x = diffFlags s d x := by
  have hs := s.isLt
  have hd := d.isLt
  have hx : x.toNat ≤ 1 := Bool.toNat_le x
  have hr : (d - s - BitVec.ofNat 32 x.toNat).toNat = (d.toNat + (2 ^ 32 - s.toNat) + (2 ^ 32 - x.toNat)) % 2 ^ 32 := by
    rw [BitVec.toNat_sub, BitVec.toNat_sub]
    simp only [BitVec.toNat_ofNat]
    omega
  unfold subFlags diffFlags subResult overflows
  rw [carryNat_eq]
  have h31 := bit31 (d - s - BitVec.ofNat 32 x.toNat)
  rw [hr] at h31
  simp only [Flags.mk.injEq, true_and, and_true]
  refine ⟨by rw [BitVec.msb_eq_getLsbD_last], by rfl, ?_⟩
  rw [toInt_bit s, toInt_bit d, h31, bit31 s, bit31 d]
  by_cases h1 : 2 ^ 31 ≤ s.toNat <;> by_cases h2 : 2 ^ 31 ≤ d.toNat <;> simp [h1, h2] <;>
    (rw [Bool.eq_iff_iff]; simp; omega)

theorem addL_eq (s d : Long) : addL s d = d + s := by
  simp [addL, addResult, carryNat, BitVec.add_comm]

theorem subL_eq (s d : Long) : subL s d = d - s := by
  simp [subL, subResult, carryNat]

theorem addResult_eq (s d : Long) (x : Bool) : addResult s d x = d + s + BitVec.ofNat 32 x.toNat := by
  simp [addResult, carryNat_eq, BitVec.add_comm]

theorem subResult_eq (s d : Long) (x : Bool) : subResult s d x = d - s - BitVec.ofNat 32 x.toNat := by
  simp [subResult, carryNat_eq]

/-! ### Sized values (spec/10_state.md R22, spec/40_data_movement.md R260) -/

theorem sized_toNat (sz : Size) (v : Long) : (sized sz v).toNat = v.toNat % 2 ^ (8 * sz.bytes) := by
  have := v.isLt
  cases sz <;> simp [sized, BitVec.extractLsb'_toNat, Size.bytes] <;> omega

theorem sized_eq (sz : Size) (v : Long) : sized sz v = putLow (8 * sz.bytes) 0#32 v := by
  apply BitVec.eq_of_toNat_eq
  have := v.isLt
  rw [sized_toNat]
  cases sz <;> simp [putLow, Size.bytes] <;> omega

theorem signBit_eq (sz : Size) (v : Long) :
    signBit sz v = decide (2 ^ (8 * sz.bytes - 1) ≤ v.toNat % 2 ^ (8 * sz.bytes)) := by
  have := v.isLt
  rw [Bool.eq_iff_iff]
  cases sz <;> simp [signBit, BitVec.getLsbD, Nat.testBit_eq_decide_div_mod_eq, Size.bytes] <;> omega

theorem isZero_eq (sz : Size) (v : Long) : isZero sz v = decide (v.toNat % 2 ^ (8 * sz.bytes) = 0) := by
  unfold isZero
  rw [Bool.eq_iff_iff, beq_iff_eq, decide_eq_true_iff, ← sized_toNat]
  constructor
  · intro h
    rw [h]
    rfl
  · intro h
    exact BitVec.eq_of_toNat_eq (by simpa using h)

/-- set_NZ and logic_flags of the model are the definition in numbers. -/
theorem nzFlags_eq (old : Flags) (sz : Size) (v : Long) : nzFlags old sz v = valueFlags old (8 * sz.bytes) v := by
  unfold nzFlags valueFlags
  rw [signBit_eq, isZero_eq]

theorem merge_eq (sz : Size) (old v : Long) : merge sz old v = putLow (8 * sz.bytes) old v := by
  apply BitVec.eq_of_toNat_eq
  have h1 := old.isLt
  have h2 := v.isLt
  have hor : ∀ a b i : Nat, b < 2 ^ i → a <<< i ||| b = a * 2 ^ i + b := fun a b i h => by
    rw [← Nat.shiftLeft_add_eq_or_of_lt h, Nat.shiftLeft_eq]
  cases sz with
  | b =>
    simp only [merge, putLow, BitVec.toNat_append, BitVec.extractLsb'_toNat, BitVec.toNat_ofNat, Nat.shiftRight_zero, Size.bytes]
    rw [hor _ _ _ (Nat.mod_lt _ (by omega)), Nat.shiftRight_eq_div_pow]
    omega
  | w =>
    simp only [merge, putLow, BitVec.toNat_append, BitVec.extractLsb'_toNat, BitVec.toNat_ofNat, Nat.shiftRight_zero, Size.bytes]
    rw [hor _ _ _ (Nat.mod_lt _ (by omega)), Nat.shiftRight_eq_div_pow]
    omega
  | l =>
    simp only [merge, putLow, BitVec.toNat_ofNat, Size.bytes]
    omega

theorem nzFlags_b (old : Flags) (v : Long) : nzFlags old .b v = valueFlags old 8 v := nzFlags_eq old .b v
theorem nzFlags_w (old : Flags) (v : Long) : nzFlags old .w v = valueFlags old 16 v := nzFlags_eq old .w v
theorem nzFlags_l (old : Flags) (v : Long) : nzFlags old .l v = valueFlags old 32 v := nzFlags_eq old .l v
theorem merge_b (old v : Long) : merge .b old v = putLow 8 old v := merge_eq .b old v
theorem merge_w (old v : Long) : merge .w old v = putLow 16 old v := merge_eq .w old v

theorem signExtend_eq {n : Nat} (v : BitVec n) : (v.signExtend 32 : Long) = BitVec.ofInt 32 v.toInt := by
  rw [BitVec.signExtend]

theorem extract8_eq (v : Long) : v.extractLsb' 0 8 = v.setWidth 8 := by
  apply BitVec.eq_of_toNat_eq
  simp [BitVec.extractLsb'_toNat]

theorem extract16_eq (v : Long) : v.extractLsb' 0 16 = v.setWidth 16 := by
  apply BitVec.eq_of_toNat_eq
  simp [BitVec.extractLsb'_toNat]

theorem swapHalves_eq (v : Long) : swapHalves v = BitVec.ofNat 32 (v.toNat % 2 ^ 16 * 2 ^ 16 + v.toNat / 2 ^ 16) := by
  apply BitVec.eq_of_toNat_eq
  have := v.isLt
  simp only [swapHalves, BitVec.toNat_append, BitVec.extractLsb'_toNat, BitVec.toNat_ofNat, Nat.shiftRight_zero]
  rw [← Nat.shiftLeft_add_eq_or_of_lt (Nat.mod_lt _ (by decide)), Nat.shiftLeft_eq, Nat.shiftRight_eq_div_pow]
  have h1 : v.toNat / 2 ^ 16 < 2 ^ 16 := by omega
  have h2 : v.toNat % 2 ^ 16 < 2 ^ 16 := Nat.mod_lt _ (by decide)
  rw [Nat.mod_eq_of_lt h1, Nat.mod_eq_of_lt (a := _ + _)]
  omega

theorem keepX_eq (old : Flags) (s d : Long) : keepX old (subFlags s d false) = { diffFlags s d false with x := old.x } := by
  rw [subFlags_eq]
  rfl

theorem quickLong_eq (q : Reg) : quickLong q = if q = 0#3 then 8#32 else q.setWidth 32 := by revert q; decide

theorem stickyZ_eq (old f : Flags) : stickyZ old f = { f with z := old.z && f.z } := rfl

/-! ### Shifts (spec/42_logical_shift_bit.md R355 to R359) -/

theorem shiftFlags_eq (old : Flags) (n : Nat) (out : Bool) (r : Long) : shiftFlags old n out r = shiftedFlags old n out r := by
  unfold shiftFlags shiftedFlags
  rw [BitVec.msb_eq_getLsbD_last]
  simp only [Flags.mk.injEq, true_and]
  refine ⟨rfl, ?_⟩
  by_cases h : n = 0 <;> simp [h]

theorem shiftLeft_eq (d : Long) (n : Nat) : shiftLeft d n = BitVec.ofNat 32 (d.toNat * 2 ^ n) := by
  unfold shiftLeft
  split
  · rename_i h
    apply BitVec.eq_of_toNat_eq
    obtain ⟨k, rfl⟩ := Nat.exists_eq_add_of_le h
    simp only [BitVec.toNat_ofNat, Nat.pow_add]
    rw [show d.toNat * (2 ^ 32 * 2 ^ k) = 2 ^ 32 * (d.toNat * 2 ^ k) by ac_rfl, Nat.mul_mod_right]
  · apply BitVec.eq_of_toNat_eq
    simp [Nat.shiftLeft_eq]

theorem leftOut_eq (d : Long) (n : Nat) : leftOut d n = (d.toNat * 2 ^ n).testBit 32 := by
  unfold leftOut
  rw [← Nat.shiftLeft_eq, Nat.testBit_shiftLeft]
  split
  · rename_i h; simp [h, BitVec.getLsbD]
  · rename_i h; simp; omega

theorem shiftRightL_eq (d : Long) (n : Nat) : shiftRightL d n = BitVec.ofNat 32 (d.toNat / 2 ^ n) := by
  have := d.isLt
  apply BitVec.eq_of_toNat_eq
  unfold shiftRightL
  have hle : d.toNat / 2 ^ n ≤ d.toNat := Nat.div_le_self _ _
  split
  · rename_i h
    have : d.toNat < 2 ^ n := Nat.lt_of_lt_of_le this (Nat.pow_le_pow_right (by decide) h)
    simp [Nat.div_eq_of_lt this]
  · simp only [BitVec.toNat_ushiftRight, Nat.shiftRight_eq_div_pow, BitVec.toNat_ofNat]
    rw [Nat.mod_eq_of_lt (by omega)]

theorem rightOutL_eq (d : Long) (n : Nat) : rightOutL d n = d.toNat.testBit (n - 1) := by
  unfold rightOutL
  split
  · rfl
  · rename_i h
    rw [Nat.testBit_lt_two_pow]
    exact Nat.lt_of_lt_of_le d.isLt (Nat.pow_le_pow_right (by decide) (by omega))

theorem toInt_div_big (d : Long) (n : Nat) (h : 31 ≤ n) : d.toInt / 2 ^ n = if d.getLsbD 31 then -1 else 0 := by
  have h2 : (2:Int) ^ 31 ≤ 2 ^ n := by exact_mod_cast Nat.pow_le_pow_right (show 0 < 2 by decide) h
  have := d.isLt
  rw [toInt_bit, bit31]
  by_cases hb : 2 ^ 31 ≤ d.toNat
  · simp only [hb, decide_true, if_true]
    have e : (d.toNat : Int) - 2 ^ 32 = ((d.toNat:Int) - 2 ^ 32 + 2 ^ n) + 2 ^ n * (-1) := by omega
    have h3 : (0:Int) < 2 ^ n := by omega
    rw [e, Int.add_mul_ediv_left _ _ (by omega), Int.ediv_eq_zero_of_lt (by omega) (by omega)]
    rfl
  · simp only [hb, decide_false, Bool.false_eq_true, if_false]
    exact Int.ediv_eq_zero_of_lt (by omega) (by omega)

theorem shiftRightA_eq (d : Long) (n : Nat) : shiftRightA d n = BitVec.ofInt 32 (d.toInt / 2 ^ n) := by
  unfold shiftRightA
  split
  · rename_i h
    rw [toInt_div_big d n (by omega)]
    by_cases hb : d.getLsbD 31 = true
    · simp only [hb, if_true]; rfl
    · simp only [hb]; rfl
  · have e : d.toInt / 2 ^ n = (d.sshiftRight n).toInt := by
      rw [BitVec.toInt_sshiftRight, Int.shiftRight_eq_div_pow]
      norm_cast
    rw [e, BitVec.ofInt_toInt]

theorem getLsbD0_toInt (d : Long) : d.getLsbD 0 = decide (d.toInt % 2 = 1) := by
  rw [toInt_bit, Bool.eq_iff_iff]
  have : d.getLsbD 0 = decide (d.toNat % 2 = 1) := by simp [BitVec.getLsbD, Nat.testBit_eq_decide_div_mod_eq]
  rw [this]
  split <;> simp <;> omega

theorem rightOutA_eq (d : Long) (n : Nat) (h0 : n ≠ 0) : rightOutA d n = decide (d.toInt / 2 ^ (n - 1) % 2 = 1) := by
  obtain ⟨m, rfl⟩ := Nat.exists_eq_succ_of_ne_zero h0
  simp only [Nat.succ_eq_add_one, Nat.add_sub_cancel]
  unfold rightOutA
  by_cases h : 32 ≤ m + 1
  · rw [toInt_div_big d m (by omega)]
    have : (if m + 1 ≤ 32 then d.getLsbD (m + 1 - 1) else d.getLsbD 31) = d.getLsbD 31 := by
      split
      · congr 1; omega
      · rfl
    rw [this]
    cases d.getLsbD 31 <;> simp
  · have e : d.toInt / 2 ^ m = (d.sshiftRight m).toInt := by
      rw [BitVec.toInt_sshiftRight, Int.shiftRight_eq_div_pow]
      norm_cast
    rw [if_pos (by omega), e, ← getLsbD0_toInt, BitVec.getLsbD_sshiftRight]
    simp
    omega
/-! ### Conditions (spec/30_encoding.md R236) -/

theorem cond_eq (f : Flags) (cc : BitVec 4) : cond f cc = holds f cc := by
  obtain ⟨x, n, z, v, c⟩ := f
  revert x n z v c cc
  decide

end Sys2Proof.Machine
end

