-- ==== Sys2Proof/Laws/Ops.lean ====
section
/-! SUPPORT. Sys2Proof/Laws/Ops.lean: what the shared operations over registers, operands and memory can do, said once:
the register file as R[0] to R[15], locating, reading and writing an operand, a load, a store, a push, and what later
reads show after them. -/

namespace Sys2Proof.Machine

/-! ### The register file -/

theorem getLsbD3_dNum (r : Reg) : (dNum r).getLsbD 3 = false := by revert r; decide
theorem getLsbD3_aNum (r : Reg) : (aNum r).getLsbD 3 = true := by revert r; decide
theorem low_dNum (r : Reg) : (dNum r).extractLsb' 0 3 = r := by revert r; decide
theorem low_aNum (r : Reg) : (aNum r).extractLsb' 0 3 = r := by revert r; decide

/-- A register number is that of a data register or of an address register. -/
theorem regX_cases (k : RegX) : (∃ r, k = dNum r) ∨ (∃ r, k = aNum r) := by revert k; decide

@[simp] theorem dNum_inj (r q : Reg) : dNum r = dNum q ↔ r = q := by revert r q; decide
@[simp] theorem aNum_inj (r q : Reg) : aNum r = aNum q ↔ r = q := by revert r q; decide
@[simp] theorem dNum_ne_aNum (r q : Reg) : dNum r ≠ aNum q := by revert r q; decide
@[simp] theorem aNum_ne_dNum (r q : Reg) : aNum r ≠ dNum q := by revert r q; decide

@[simp] theorem State.getR_dNum (s : State) (r : Reg) : s.getR (dNum r) = s.getD r := by
  unfold State.getR
  rw [getLsbD3_dNum, low_dNum]
  rfl

@[simp] theorem State.getR_aNum (s : State) (r : Reg) : s.getR (aNum r) = s.getA r := by
  simp [State.getR, getLsbD3_aNum, low_aNum]

/-- Two register files are equal when their data and their address registers are. -/
theorem regs_ext {g h : RegX → Long} (hd : ∀ r, g (dNum r) = h (dNum r)) (ha : ∀ r, g (aNum r) = h (aNum r)) :
    g = h := by
  funext k
  rcases regX_cases k with ⟨r, rfl⟩ | ⟨r, rfl⟩
  · exact hd r
  · exact ha r

theorem State.getR_congr {s t : State} (hd : ∀ r, t.getD r = s.getD r) (ha : ∀ r, t.getA r = s.getA r) :
    t.getR = s.getR := regs_ext (by simpa using hd) (by simpa using ha)

@[simp] theorem State.getR_setD (s : State) (q : Reg) (v : Long) :
    (s.setD q v).getR = withReg s.getR (dNum q) v :=
  regs_ext (by simp [withReg]) (by simp [withReg])

@[simp] theorem State.getR_setA (s : State) (q : Reg) (v : Long) :
    (s.setA q v).getR = withReg s.getR (aNum q) v :=
  regs_ext (by simp [withReg]) (by simp [withReg])

theorem State.setR_dNum (s : State) (q : Reg) (v : Long) : s.setR (dNum q) v = s.setD q v := by
  unfold State.setR
  rw [getLsbD3_dNum, low_dNum]
  rfl

theorem State.setR_aNum (s : State) (q : Reg) (v : Long) : s.setR (aNum q) v = s.setA q v := by
  simp [State.setR, getLsbD3_aNum, low_aNum]

@[simp] theorem State.getR_setR (s : State) (k : RegX) (v : Long) : (s.setR k v).getR = withReg s.getR k v := by
  rcases regX_cases k with ⟨r, rfl⟩ | ⟨r, rfl⟩
  · rw [State.setR_dNum, State.getR_setD]
  · rw [State.setR_aNum, State.getR_setA]

/-! #### The updates that leave the register file as it was -/

@[simp] theorem State.getR_setPc (s : State) (v : Long) : (s.setPc v).getR = s.getR :=
  State.getR_congr (by simp) (by simp)

@[simp] theorem State.getR_setSr (s : State) (v : Word) : (s.setSr v).getR = s.getR :=
  State.getR_congr (by simp) (by simp)

@[simp] theorem State.getR_setCcr (s : State) (v : Byte) : (s.setCcr v).getR = s.getR :=
  State.getR_congr (by simp) (by simp)

@[simp] theorem State.getR_setFlags (s : State) (f : Flags) : (s.setFlags f).getR = s.getR :=
  State.getR_congr (by simp) (by simp)

@[simp] theorem State.getR_drawn (s : State) : (s.drawn).getR = s.getR :=
  State.getR_congr (by simp) (by simp)

@[simp] theorem State.getR_setMs (s : State) (m : MemSys) : (s.setMs m).getR = s.getR :=
  State.getR_congr (by simp) (by simp)

@[simp] theorem State.getR_setEv (s : State) (e : Ev) : (s.setEv e).getR = s.getR :=
  State.getR_congr (by simp) (by simp)

@[simp] theorem State.getR_flush (s : State) : (s.flush).getR = s.getR :=
  State.getR_congr (by simp) (by simp)

@[simp] theorem State.getR_drainBuffers (s : State) : (s.drainBuffers).getR = s.getR :=
  State.getR_congr (by simp) (by simp)

@[simp] theorem State.getR_setHaltSource (s : State) (n : Nat) : (s.setHaltSource n).getR = s.getR :=
  State.getR_congr (by simp) (by simp)

@[simp] theorem State.getR_event (s : State) (e : PortEvent) : (s.event e).getR = s.getR :=
  State.getR_congr (by simp) (by simp)

@[simp] theorem State.getR_pst (s : State) (v : BitVec 4) : (s.pst v).getR = s.getR :=
  State.getR_congr (by simp) (by simp)

@[simp] theorem State.getR_item (s : State) (n : Nat) (v : Long) : (s.item n v).getR = s.getR :=
  State.getR_congr (by simp) (by simp)

@[simp] theorem State.getR_target (s : State) (t : Long) : (s.target t).getR = s.getR :=
  State.getR_congr (by simp) (by simp)

@[simp] theorem State.getR_showRead (s : State) (sz : Size) (v : Long) : (s.showRead sz v).getR = s.getR :=
  State.getR_congr (by simp) (by simp)

@[simp] theorem State.getR_showWrite (s : State) (sz : Size) (v : Long) : (s.showWrite sz v).getR = s.getR :=
  State.getR_congr (by simp) (by simp)

@[simp] theorem State.getR_loadQuiet (s : State) (a : Long) (sz : Size) : (s.loadQuiet a sz).2.getR = s.getR :=
  State.getR_congr (by simp) (by simp)

@[simp] theorem State.getR_load (s : State) (a : Long) (sz : Size) : (s.load a sz).2.getR = s.getR :=
  State.getR_congr (by simp) (by simp)

@[simp] theorem State.getR_storeQuiet (s : State) (a : Long) (sz : Size) (v : Long) : (s.storeQuiet a sz v).getR = s.getR :=
  State.getR_congr (by simp) (by simp)

@[simp] theorem State.getR_store (s : State) (a : Long) (sz : Size) (v : Long) : (s.store a sz v).getR = s.getR :=
  State.getR_congr (by simp) (by simp)

/-! #### setR leaves everything but the registers -/

@[simp] theorem State.pc_setR (s : State) (k : RegX) (v : Long) : (s.setR k v).cpu.pc = s.cpu.pc := by
  unfold State.setR
  split <;> rfl

@[simp] theorem State.sr_setR (s : State) (k : RegX) (v : Long) : (s.setR k v).cpu.sr = s.cpu.sr := by
  unfold State.setR
  split <;> rfl

@[simp] theorem State.mac_setR (s : State) (k : RegX) (v : Long) : (s.setR k v).mac = s.mac := by
  unfold State.setR
  split <;> rfl

@[simp] theorem State.ctl_setR (s : State) (k : RegX) (v : Long) : (s.setR k v).ctl = s.ctl := by
  unfold State.setR
  split <;> rfl

@[simp] theorem State.dbg_setR (s : State) (k : RegX) (v : Long) : (s.setR k v).dbg = s.dbg := by
  unfold State.setR
  split <;> rfl

@[simp] theorem State.ev_setR (s : State) (k : RegX) (v : Long) : (s.setR k v).ev = s.ev := by
  unfold State.setR
  split <;> rfl

@[simp] theorem State.pins_setR (s : State) (k : RegX) (v : Long) : (s.setR k v).pins = s.pins := by
  unfold State.setR
  split <;> rfl

@[simp] theorem State.bdm_setR (s : State) (k : RegX) (v : Long) : (s.setR k v).bdm = s.bdm := by
  unfold State.setR
  split <;> rfl

@[simp] theorem State.free_setR (s : State) (k : RegX) (v : Long) : (s.setR k v).free = s.free := by
  unfold State.setR
  split <;> rfl

@[simp] theorem State.ms_setR (s : State) (k : RegX) (v : Long) : (s.setR k v).ms = s.ms := by
  unfold State.setR
  split <;> rfl

@[simp] theorem State.port_setR (s : State) (k : RegX) (v : Long) : (s.setR k v).port = s.port := by
  unfold State.setR
  split <;> rfl

/-! ### Locating an operand (spec/30_encoding.md R215 to R227) -/

@[simp] theorem State.pc_locate (s : State) (ea : Ea) (sz : Size) : (s.locate ea sz).2.cpu.pc = s.cpu.pc := by
  cases ea <;> rfl

@[simp] theorem State.sr_locate (s : State) (ea : Ea) (sz : Size) : (s.locate ea sz).2.cpu.sr = s.cpu.sr := by
  cases ea <;> rfl

@[simp] theorem State.mac_locate (s : State) (ea : Ea) (sz : Size) : (s.locate ea sz).2.mac = s.mac := by
  cases ea <;> rfl

@[simp] theorem State.ctl_locate (s : State) (ea : Ea) (sz : Size) : (s.locate ea sz).2.ctl = s.ctl := by
  cases ea <;> rfl

@[simp] theorem State.dbg_locate (s : State) (ea : Ea) (sz : Size) : (s.locate ea sz).2.dbg = s.dbg := by
  cases ea <;> rfl

@[simp] theorem State.ev_locate (s : State) (ea : Ea) (sz : Size) : (s.locate ea sz).2.ev = s.ev := by
  cases ea <;> rfl

@[simp] theorem State.pins_locate (s : State) (ea : Ea) (sz : Size) : (s.locate ea sz).2.pins = s.pins := by
  cases ea <;> rfl

@[simp] theorem State.bdm_locate (s : State) (ea : Ea) (sz : Size) : (s.locate ea sz).2.bdm = s.bdm := by
  cases ea <;> rfl

@[simp] theorem State.free_locate (s : State) (ea : Ea) (sz : Size) : (s.locate ea sz).2.free = s.free := by
  cases ea <;> rfl

@[simp] theorem State.ms_locate (s : State) (ea : Ea) (sz : Size) : (s.locate ea sz).2.ms = s.ms := by
  cases ea <;> rfl

@[simp] theorem State.port_locate (s : State) (ea : Ea) (sz : Size) : (s.locate ea sz).2.port = s.port := by
  cases ea <;> rfl

/-- Locating an operand moves An by the operand's size in the modes (An)+ and -(An), and changes no other register. -/
@[simp] theorem State.getR_locate (s : State) (ea : Ea) (sz : Size) : (s.locate ea sz).2.getR = s.regsAfter ea sz := by
  cases ea <;> simp [State.locate, State.regsAfter]

/-- Where an operand is depends on the registers and the PC alone. -/
theorem State.locate_congr {s t : State} (hr : t.getR = s.getR) (hp : t.cpu.pc = s.cpu.pc) (ea : Ea) (sz : Size) :
    (t.locate ea sz).1 = (s.locate ea sz).1 := by
  have ha : ∀ r, t.getA r = s.getA r := fun r => by rw [← State.getR_aNum, hr, State.getR_aNum]
  have hi : ∀ xw, t.index xw = s.index xw := fun xw => by unfold State.index; rw [hr]
  cases ea <;> simp [State.locate, ha, hi, hp]

/-- The registers after an operand depend on the registers alone. -/
theorem State.regsAfter_congr {s t : State} (hr : t.getR = s.getR) (ea : Ea) (sz : Size) :
    t.regsAfter ea sz = s.regsAfter ea sz := by
  have ha : ∀ r, t.getA r = s.getA r := fun r => by rw [← State.getR_aNum, hr, State.getR_aNum]
  cases ea <;> simp [State.regsAfter, ha, hr]

/-! ### Loads and stores -/

@[simp] theorem State.ms_load (s : State) (a : Long) (sz : Size) :
    (s.load a sz).2.ms = (readOperand s.route s.ms s.dataSpace a sz).2 := by
  simp [State.load, State.loadQuiet]

theorem State.load_val (s : State) (a : Long) (sz : Size) :
    (s.load a sz).1 = (readOperand s.route s.ms s.dataSpace a sz).1 := rfl

@[simp] theorem State.ms_loadQuiet (s : State) (a : Long) (sz : Size) :
    (s.loadQuiet a sz).2.ms = (readOperand s.route s.ms s.dataSpace a sz).2 := rfl

theorem State.loadQuiet_val (s : State) (a : Long) (sz : Size) :
    (s.loadQuiet a sz).1 = (readOperand s.route s.ms s.dataSpace a sz).1 := rfl

@[simp] theorem State.ms_store (s : State) (a : Long) (sz : Size) (v : Long) :
    (s.store a sz v).ms = writeOperand s.route s.ms s.dataSpace a sz v := by
  simp [State.store, State.storeQuiet]

@[simp] theorem State.ms_storeQuiet (s : State) (a : Long) (sz : Size) (v : Long) :
    (s.storeQuiet a sz v).ms = writeOperand s.route s.ms s.dataSpace a sz v := rfl

/-! ### Reading a located operand (spec/30_encoding.md R228) -/

@[simp] theorem State.pc_readLoc (s : State) (l : Loc) (sz : Size) : (s.readLoc l sz).2.cpu.pc = s.cpu.pc := by
  cases l <;> simp [State.readLoc]

@[simp] theorem State.sr_readLoc (s : State) (l : Loc) (sz : Size) : (s.readLoc l sz).2.cpu.sr = s.cpu.sr := by
  cases l <;> simp [State.readLoc]

@[simp] theorem State.mac_readLoc (s : State) (l : Loc) (sz : Size) : (s.readLoc l sz).2.mac = s.mac := by
  cases l <;> simp [State.readLoc]

@[simp] theorem State.ctl_readLoc (s : State) (l : Loc) (sz : Size) : (s.readLoc l sz).2.ctl = s.ctl := by
  cases l <;> simp [State.readLoc]

@[simp] theorem State.dbg_readLoc (s : State) (l : Loc) (sz : Size) : (s.readLoc l sz).2.dbg = s.dbg := by
  cases l <;> simp [State.readLoc]

@[simp] theorem State.ev_readLoc (s : State) (l : Loc) (sz : Size) : (s.readLoc l sz).2.ev = s.ev := by
  cases l <;> simp [State.readLoc]

@[simp] theorem State.pins_readLoc (s : State) (l : Loc) (sz : Size) : (s.readLoc l sz).2.pins = s.pins := by
  cases l <;> simp [State.readLoc]

@[simp] theorem State.bdm_readLoc (s : State) (l : Loc) (sz : Size) : (s.readLoc l sz).2.bdm = s.bdm := by
  cases l <;> simp [State.readLoc]

@[simp] theorem State.free_readLoc (s : State) (l : Loc) (sz : Size) : (s.readLoc l sz).2.free = s.free := by
  cases l <;> simp [State.readLoc]

@[simp] theorem State.getR_readLoc (s : State) (l : Loc) (sz : Size) : (s.readLoc l sz).2.getR = s.getR := by
  cases l <;> simp [State.readLoc]

/-- What reading a located operand returns depends on the registers, what routes the access and the memory system
alone. -/
theorem State.readLoc_congr {s t : State} (hr : t.getR = s.getR) (ho : t.route = s.route)
    (hd : t.dataSpace = s.dataSpace) (hm : t.ms = s.ms) (l : Loc) (sz : Size) :
    (t.readLoc l sz).1 = (s.readLoc l sz).1 ∧ (t.readLoc l sz).2.ms = (s.readLoc l sz).2.ms := by
  cases l with
  | dreg r => simp [State.readLoc, ← State.getR_dNum, hr, hm]
  | areg r => simp [State.readLoc, ← State.getR_aNum, hr, hm]
  | mem a => simp [State.readLoc, State.load_val, ho, hd, hm]
  | imm v => simp [State.readLoc, hm]

/-- While the cache is off, reading an operand changes nothing that a read shows. -/
theorem State.peekByte_readLoc {s : State} (h : s.cacheOff) (l : Loc) (sz : Size) (sp : Space) (b : Long) :
    peekByte s.route (s.readLoc l sz).2.ms sp false b = peekByte s.route s.ms sp false b := by
  cases l with
  | mem a =>
    simp only [State.readLoc, State.ms_load]
    exact peekByte_readOperand h _ _ _ _ _ _
  | _ => rfl

/-! ### Evaluating a source operand -/

@[simp] theorem State.pc_eaRead (s : State) (ea : Ea) (sz : Size) : (s.eaRead ea sz).2.cpu.pc = s.cpu.pc := by
  simp [State.eaRead]

@[simp] theorem State.sr_eaRead (s : State) (ea : Ea) (sz : Size) : (s.eaRead ea sz).2.cpu.sr = s.cpu.sr := by
  simp [State.eaRead]

@[simp] theorem State.mac_eaRead (s : State) (ea : Ea) (sz : Size) : (s.eaRead ea sz).2.mac = s.mac := by
  simp [State.eaRead]

@[simp] theorem State.ctl_eaRead (s : State) (ea : Ea) (sz : Size) : (s.eaRead ea sz).2.ctl = s.ctl := by
  simp [State.eaRead]

@[simp] theorem State.dbg_eaRead (s : State) (ea : Ea) (sz : Size) : (s.eaRead ea sz).2.dbg = s.dbg := by
  simp [State.eaRead]

@[simp] theorem State.ev_eaRead (s : State) (ea : Ea) (sz : Size) : (s.eaRead ea sz).2.ev = s.ev := by
  simp [State.eaRead]

@[simp] theorem State.pins_eaRead (s : State) (ea : Ea) (sz : Size) : (s.eaRead ea sz).2.pins = s.pins := by
  simp [State.eaRead]

@[simp] theorem State.bdm_eaRead (s : State) (ea : Ea) (sz : Size) : (s.eaRead ea sz).2.bdm = s.bdm := by
  simp [State.eaRead]

@[simp] theorem State.free_eaRead (s : State) (ea : Ea) (sz : Size) : (s.eaRead ea sz).2.free = s.free := by
  simp [State.eaRead]

@[simp] theorem State.getR_eaRead (s : State) (ea : Ea) (sz : Size) : (s.eaRead ea sz).2.getR = s.regsAfter ea sz := by
  simp [State.eaRead]

/-- Locating changes nothing that routes an access. -/
@[simp] theorem State.route_locate (s : State) (ea : Ea) (sz : Size) : (s.locate ea sz).2.route = s.route :=
  State.route_congr (by simp) (by simp) (by simp) (by simp)

@[simp] theorem State.dataSpace_locate (s : State) (ea : Ea) (sz : Size) :
    (s.locate ea sz).2.dataSpace = s.dataSpace :=
  State.dataSpace_congr (by simp) (by simp) (by simp [State.super])

@[simp] theorem State.route_pst (s : State) (v : BitVec 4) : (s.pst v).route = s.route :=
  State.route_congr (by simp) (by simp) (by simp) (by simp)

@[simp] theorem State.dataSpace_pst (s : State) (v : BitVec 4) : (s.pst v).dataSpace = s.dataSpace :=
  State.dataSpace_congr (by simp) (by simp) (by simp [State.super])

@[simp] theorem State.route_setFlags (s : State) (f : Flags) : (s.setFlags f).route = s.route := rfl

@[simp] theorem State.dataSpace_setFlags (s : State) (f : Flags) : (s.setFlags f).dataSpace = s.dataSpace :=
  State.dataSpace_congr rfl rfl (by simp)

@[simp] theorem State.route_eaRead (s : State) (ea : Ea) (sz : Size) : (s.eaRead ea sz).2.route = s.route :=
  State.route_congr (by simp) (by simp) (by simp) (by simp)

@[simp] theorem State.dataSpace_eaRead (s : State) (ea : Ea) (sz : Size) :
    (s.eaRead ea sz).2.dataSpace = s.dataSpace :=
  State.dataSpace_congr (by simp) (by simp) (by simp [State.super])

@[simp] theorem State.route_readLoc (s : State) (l : Loc) (sz : Size) : (s.readLoc l sz).2.route = s.route :=
  State.route_congr (by simp) (by simp) (by simp) (by simp)

@[simp] theorem State.dataSpace_readLoc (s : State) (l : Loc) (sz : Size) :
    (s.readLoc l sz).2.dataSpace = s.dataSpace :=
  State.dataSpace_congr (by simp) (by simp) (by simp [State.super])

/-- The value and the memory system after evaluating an operand depend on the registers, the PC, what routes the access
and the memory system alone. -/
theorem State.eaRead_congr {s t : State} (hr : t.getR = s.getR) (hp : t.cpu.pc = s.cpu.pc) (ho : t.route = s.route)
    (hd : t.dataSpace = s.dataSpace) (hm : t.ms = s.ms) (ea : Ea) (sz : Size) :
    (t.eaRead ea sz).1 = (s.eaRead ea sz).1 ∧ (t.eaRead ea sz).2.ms = (s.eaRead ea sz).2.ms := by
  unfold State.eaRead
  rw [State.locate_congr hr hp]
  exact State.readLoc_congr (by simp [State.regsAfter_congr hr]) (by simpa using ho) (by simpa using hd) (by simpa using hm)
    _ _

/-- The trace mark of an instruction does not change the value of its operand. -/
@[simp] theorem State.operand_pst (s : State) (v : BitVec 4) (ea : Ea) (sz : Size) :
    ((s.pst v).eaRead ea sz).1 = s.operand ea sz :=
  (State.eaRead_congr (by simp) (by simp) (by simp) (by simp) (by simp) ea sz).1

@[simp] theorem State.msAfter_pst (s : State) (v : BitVec 4) (ea : Ea) (sz : Size) :
    ((s.pst v).eaRead ea sz).2.ms = s.msAfter ea sz :=
  (State.eaRead_congr (by simp) (by simp) (by simp) (by simp) (by simp) ea sz).2

@[simp] theorem State.regsAfter_pst (s : State) (v : BitVec 4) (ea : Ea) (sz : Size) :
    (s.pst v).regsAfter ea sz = s.regsAfter ea sz := State.regsAfter_congr (by simp) ea sz

@[simp] theorem State.locate_pst (s : State) (v : BitVec 4) (ea : Ea) (sz : Size) :
    ((s.pst v).locate ea sz).1 = (s.locate ea sz).1 := State.locate_congr (by simp) (by simp) ea sz

/-- While the cache is off, evaluating an operand changes nothing that a read shows. -/
theorem State.peekByte_eaRead {s : State} (h : s.cacheOff) (ea : Ea) (sz : Size) (sp : Space) (b : Long) :
    peekByte s.route (s.msAfter ea sz) sp false b = peekByte s.route s.ms sp false b := by
  have := State.peekByte_readLoc (s := (s.locate ea sz).2) (by simpa [State.cacheOff] using h) (s.locate ea sz).1 sz sp b
  simpa [State.msAfter, State.eaRead] using this

/-! ### Writing a located operand (spec/30_encoding.md R229) -/

@[simp] theorem State.pc_writeLoc (s : State) (l : Loc) (sz : Size) (v : Long) : (s.writeLoc l sz v).cpu.pc = s.cpu.pc := by
  cases l <;> simp [State.writeLoc]

@[simp] theorem State.sr_writeLoc (s : State) (l : Loc) (sz : Size) (v : Long) : (s.writeLoc l sz v).cpu.sr = s.cpu.sr := by
  cases l <;> simp [State.writeLoc]

@[simp] theorem State.mac_writeLoc (s : State) (l : Loc) (sz : Size) (v : Long) : (s.writeLoc l sz v).mac = s.mac := by
  cases l <;> simp [State.writeLoc]

@[simp] theorem State.ctl_writeLoc (s : State) (l : Loc) (sz : Size) (v : Long) : (s.writeLoc l sz v).ctl = s.ctl := by
  cases l <;> simp [State.writeLoc]

@[simp] theorem State.dbg_writeLoc (s : State) (l : Loc) (sz : Size) (v : Long) : (s.writeLoc l sz v).dbg = s.dbg := by
  cases l <;> simp [State.writeLoc]

@[simp] theorem State.ev_writeLoc (s : State) (l : Loc) (sz : Size) (v : Long) : (s.writeLoc l sz v).ev = s.ev := by
  cases l <;> simp [State.writeLoc]

@[simp] theorem State.pins_writeLoc (s : State) (l : Loc) (sz : Size) (v : Long) : (s.writeLoc l sz v).pins = s.pins := by
  cases l <;> simp [State.writeLoc]

@[simp] theorem State.bdm_writeLoc (s : State) (l : Loc) (sz : Size) (v : Long) : (s.writeLoc l sz v).bdm = s.bdm := by
  cases l <;> simp [State.writeLoc]

@[simp] theorem State.free_writeLoc (s : State) (l : Loc) (sz : Size) (v : Long) : (s.writeLoc l sz v).free = s.free := by
  cases l <;> simp [State.writeLoc]

/-- The register file after an operand was written. -/
def Loc.write (l : Loc) (g : RegX → Long) (sz : Size) (v : Long) : RegX → Long :=
  match l with
  | .dreg r => withReg g (dNum r) (merge sz (g (dNum r)) v)
  | .areg r => withReg g (aNum r) (extendA sz v)
  | _ => g

@[simp] theorem State.getR_writeLoc (s : State) (l : Loc) (sz : Size) (v : Long) :
    (s.writeLoc l sz v).getR = l.write s.getR sz v := by
  cases l <;> simp [State.writeLoc, Loc.write]

theorem State.ms_writeLoc_mem (s : State) (a : Long) (sz : Size) (v : Long) :
    (s.writeLoc (.mem a) sz v).ms = writeOperand s.route s.ms s.dataSpace a sz v := by
  simp [State.writeLoc]

theorem State.ms_writeLoc_reg (s : State) (r : Reg) (sz : Size) (v : Long) :
    (s.writeLoc (.dreg r) sz v).ms = s.ms ∧ (s.writeLoc (.areg r) sz v).ms = s.ms := ⟨rfl, rfl⟩

/-! ### Frames -/

/-- Reading back the flags that an update committed, and the bits it left. -/
theorem flagsNow_setFlags {s t : State} {f : Flags} (h : t.cpu.sr = withFlags s.cpu.sr f) : FlagsNow s t f := by
  constructor
  · simp [State.flags, h]
  · rw [h, withFlags_upper]

theorem flagsNow_same {s t : State} (h : t.cpu.sr = s.cpu.sr) : FlagsNow s t s.flags := by
  constructor
  · simp [State.flags, h]
  · rw [h]

/-- The flags leave the privilege. -/
theorem FlagsNow.super {s t : State} {f : Flags} (h : FlagsNow s t f) : t.super = s.super := by
  have := congrArg (fun w : Word => w.getLsbD 13) h.2
  simpa [State.super] using this

theorem SameUnits.route {s t : State} (h : SameUnits s t) : t.route = s.route :=
  State.route_congr h.ctl h.pins h.ev h.dbg

theorem SameUnits.dataSpace {s t : State} (h : SameUnits s t) (hs : t.super = s.super) : t.dataSpace = s.dataSpace :=
  State.dataSpace_congr h.ev h.dbg hs

/-- Memory reads as before if the memory system shows the same bytes. -/
theorem sameMem_of {s t : State} (h : SameUnits s t) (hs : t.super = s.super)
    (hm : ∀ b, peekByte s.route t.ms s.dataSpace false b = s.peek b) : SameMem s t := by
  intro b
  unfold State.peek
  rw [h.route, h.dataSpace hs]
  exact hm b

/-- What a store to a memory system that shows the bytes of `s` leaves. -/
theorem stored_of {s t : State} (h : SameUnits s t) (hs : t.super = s.super) (hc : s.cacheOff) {m : MemSys}
    (hm : ∀ b, peekByte s.route m s.dataSpace false b = s.peek b) (a : Long) (sz : Size) (v : Long)
    (ht : t.ms = writeOperand s.route m s.dataSpace a sz v) : Stored s t a sz v := by
  constructor
  · intro b hb
    unfold State.peek
    rw [h.route, h.dataSpace hs, ht, peekByte_writeOperand_ne hc _ _ _ _ _ _ _ hb]
    exact hm b
  · intro hw
    unfold State.bytes
    rw [h.route, h.dataSpace hs, ht]
    exact peekBytes_writeOperand hc _ _ _ _ _ hw

end Sys2Proof.Machine
end

