-- ==== Sys2Proof/Laws/Shapes.lean ====
section
/-! SUPPORT. Sys2Proof/Laws/Shapes.lean: what the shared courses of the meanings leave, in the terms of Sys2Proof/Safety.lean:
one lemma for each course. -/

namespace Sys2Proof.Machine

open Sys2Proof.Dec (eaLen)

theorem State.after_eq (s : State) (n : Nat) : s.nextPc n = s.after n := rfl

theorem FlagsNow.of_eq {s t : State} {f g : Flags} (h : FlagsNow s t f) (e : f = g) : FlagsNow s t g := e ▸ h

@[simp] theorem State.super_pst (s : State) (v : BitVec 4) : (s.pst v).super = s.super := by simp [State.super]

/-- A completion that touches no memory. -/
theorem onRegs_of {i : Instr} {s t : State} {regs : RegX → Long} {f : Flags} {pc : Long} (h : exec i s = .next t)
    (hr : t.getR = regs) (hf : FlagsNow s t f) (hp : t.cpu.pc = pc) (hm : t.ms = s.ms) (hu : SameUnits s t) :
    OnRegs i s regs f pc :=
  ⟨t, h, hr, hf, hp, hm, hu, sameMem_of hu hf.super fun b => by rw [hm]; rfl⟩

/-- A completion that reads an operand. -/
theorem reads_of {i : Instr} {s t : State} {ea : Ea} {sz : Size} {regs : RegX → Long} {f : Flags} {pc : Long}
    (h : exec i s = .next t) (hr : t.getR = regs) (hf : FlagsNow s t f) (hp : t.cpu.pc = pc)
    (hm : t.ms = s.msAfter ea sz) (hu : SameUnits s t) : Reads i s ea sz regs f pc :=
  ⟨t, h, hr, hf, hp, hm, hu, fun hc => sameMem_of hu hf.super fun b => by
    rw [hm]; exact State.peekByte_eaRead hc ea sz _ b⟩

/-- A completion that stores an operand. -/
theorem stores_of {i : Instr} {s t : State} {regs : RegX → Long} {f : Flags} {pc a v : Long} {sz : Size} {m : MemSys}
    (h : exec i s = .next t) (hr : t.getR = regs) (hf : FlagsNow s t f) (hp : t.cpu.pc = pc) (hu : SameUnits s t)
    (hm : t.ms = writeOperand s.route m s.dataSpace a sz v)
    (hb : s.cacheOff → ∀ b, peekByte s.route m s.dataSpace false b = s.peek b) : Stores i s regs f pc a sz v :=
  ⟨t, h, hr, hf, hp, hu, fun hc => stored_of hu hf.super hc (hb hc) a sz v hm⟩

/-- Operations on Dx alone. -/
theorem onD_onRegs {i : Instr} {s : State} {dx : Reg} {r : Long} {f : Flags} {n : Nat} (h : exec i s = onD s dx r f n) :
    OnRegs i s (withReg s.getR (dNum dx) r) f (s.after n) := by
  refine onRegs_of h (by simp [State.advance]) (flagsNow_setFlags (by simp [State.advance])) ?_ (by simp [State.advance])
    ⟨?_, ?_, ?_, ?_, ?_, ?_, ?_⟩ <;> simp [State.advance, State.nextPc, State.after]

theorem SameUnits.mk' {s t : State} (h : (t.mac, t.ctl, t.dbg, t.ev, t.pins, t.bdm, t.free)
    = (s.mac, s.ctl, s.dbg, s.ev, s.pins, s.bdm, s.free)) : SameUnits s t := by
  simp only [Prod.mk.injEq] at h
  exact ⟨h.1, h.2.1, h.2.2.1, h.2.2.2.1, h.2.2.2.2.1, h.2.2.2.2.2.1, h.2.2.2.2.2.2⟩

/-- The data registers are not touched by locating an operand. -/
@[simp] theorem State.regsAfter_dNum (s : State) (ea : Ea) (sz : Size) (r : Reg) :
    s.regsAfter ea sz (dNum r) = s.getD r := by
  cases ea <;> simp [State.regsAfter, withReg]

@[simp] theorem State.getD_eaRead (s : State) (ea : Ea) (sz : Size) (r : Reg) : (s.eaRead ea sz).2.getD r = s.getD r := by
  rw [← State.getR_dNum, State.getR_eaRead, State.regsAfter_dNum]

@[simp] theorem State.getA_eaRead (s : State) (ea : Ea) (sz : Size) (r : Reg) :
    (s.eaRead ea sz).2.getA r = s.regsAfter ea sz (aNum r) := by
  rw [← State.getR_aNum, State.getR_eaRead]

@[simp] theorem State.flags_eaRead (s : State) (ea : Ea) (sz : Size) : (s.eaRead ea sz).2.flags = s.flags := by
  simp [State.flags]

@[simp] theorem State.flags_pst (s : State) (v : BitVec 4) : (s.pst v).flags = s.flags := by simp [State.flags]

@[simp] theorem State.flags_readLoc (s : State) (l : Loc) (sz : Size) : (s.readLoc l sz).2.flags = s.flags := by
  simp [State.flags]

@[simp] theorem State.flags_locate (s : State) (ea : Ea) (sz : Size) : (s.locate ea sz).2.flags = s.flags := by
  simp [State.flags]

/-- A source operand and Dx. -/
theorem eaToD_reads {i : Instr} {s : State} {ea : Ea} {dx : Reg} {r : Long → Long → Long}
    {f : Flags → Long → Long → Flags} (hb : eaBad ea = false) (h : exec i s = eaToD ea dx s r f) :
    Reads i s ea .l (withReg (s.regsAfter ea .l) (dNum dx) (r (s.operand ea .l) (s.getD dx)))
      (f s.flags (s.operand ea .l) (s.getD dx)) (s.after (eaLen ea)) := by
  simp only [eaToD, checked, hb, Bool.false_eq_true, if_false] at h
  exact reads_of h (by simp [State.advance]) (flagsNow_setFlags (by simp [State.advance]))
    (by simp [State.advance, State.nextPc, State.after]) (by simp [State.advance]) (.mk' (by simp [State.advance]))

/-- A source operand and Ax. -/
theorem eaToA_reads {i : Instr} {s : State} {ea : Ea} {ax : Reg} {r : Long → Long → Long} (hb : eaBad ea = false)
    (h : exec i s = eaToA ea ax s r) :
    Reads i s ea .l (withReg (s.regsAfter ea .l) (aNum ax) (r (s.operand ea .l) (s.regsAfter ea .l (aNum ax)))) s.flags
      (s.after (eaLen ea)) := by
  simp only [eaToA, checked, hb, Bool.false_eq_true, if_false] at h
  exact reads_of h (by simp [State.advance]) (flagsNow_same (by simp [State.advance]))
    (by simp [State.advance, State.nextPc, State.after]) (by simp [State.advance]) (.mk' (by simp [State.advance]))

/-- A comparison. -/
theorem compare_reads {i : Instr} {s : State} {ea : Ea} {d : State → Long} (hb : eaBad ea = false)
    (h : exec i s = compareOp ea s d) :
    Reads i s ea .l (s.regsAfter ea .l)
      (keepX s.flags (subFlags (s.operand ea .l) (d ((s.pst 1#4).eaRead ea .l).2) false)) (s.after (eaLen ea)) := by
  simp only [compareOp, checked, hb, Bool.false_eq_true, if_false] at h
  exact reads_of h (by simp [State.advance]) (flagsNow_setFlags (by simp [State.advance]))
    (by simp [State.advance, State.nextPc, State.after]) (by simp [State.advance]) (.mk' (by simp [State.advance]))

/-- TST. -/
theorem tst_reads {i : Instr} {s : State} {ea : Ea} {sz : Size} (hb : eaBad ea = false) (h : exec i s = tstOp sz ea s) :
    Reads i s ea sz (s.regsAfter ea sz) (nzFlags s.flags sz (s.operand ea sz)) (s.after (eaLen ea)) := by
  simp only [tstOp, checked, hb, Bool.false_eq_true, if_false] at h
  exact reads_of h (by simp [State.advance]) (flagsNow_setFlags (by simp [State.advance]))
    (by simp [State.advance, State.nextPc, State.after]) (by simp [State.advance]) (.mk' (by simp [State.advance]))

/-- A multiply. -/
theorem mul_reads {i : Instr} {s : State} {ea : Ea} {sz : Size} {dx : Reg} {n : Nat} {f : Long → Long → Long}
    (hb : eaBad ea = false) (h : exec i s = mulOp sz ea dx n s f) :
    Reads i s ea sz (withReg (s.regsAfter ea sz) (dNum dx) (f (s.operand ea sz) (s.getD dx)))
      (nzFlags s.flags .l (f (s.operand ea sz) (s.getD dx))) (s.after n) := by
  simp only [mulOp, checked, hb, Bool.false_eq_true, if_false] at h
  exact reads_of h (by simp [State.advance]) (flagsNow_setFlags (by simp [State.advance]))
    (by simp [State.advance, State.nextPc, State.after]) (by simp [State.advance]) (.mk' (by simp [State.advance]))

/-- An operand of memory is in memory. -/
theorem locate_mem {ea : Ea} (h : eaMemAlter ea = true ∨ eaPcRel ea = true) (s : State) (sz : Size) :
    (s.locate ea sz).1 = .mem (s.address ea sz) := by
  cases ea <;> simp_all [eaMemAlter, eaPcRel, State.locate, State.address, Loc.addr]

theorem State.operand_eq (s : State) (v : BitVec 4) (ea : Ea) (sz : Size) :
    (((s.pst v).locate ea sz).2.readLoc ((s.pst v).locate ea sz).1 sz).1 = s.operand ea sz := State.operand_pst s v ea sz

theorem State.msAfter_eq (s : State) (v : BitVec 4) (ea : Ea) (sz : Size) :
    (((s.pst v).locate ea sz).2.readLoc ((s.pst v).locate ea sz).1 sz).2.ms = s.msAfter ea sz := State.msAfter_pst s v ea sz

/-- A read-modify-write of memory. -/
theorem toEa_stores {i : Instr} {s : State} {ea : Ea} {v : Long} {r : Long → Long → Long}
    {f : Flags → Long → Long → Flags} (hm : eaMemAlter ea = true) (hb : eaBad ea = false)
    (h : exec i s = toEa v ea s r f) :
    Stores i s (s.regsAfter ea .l) (f s.flags v (s.operand ea .l)) (s.after (eaLen ea)) (s.address ea .l) .l
      (r v (s.operand ea .l)) := by
  have hl := locate_mem (.inl hm) s .l
  simp only [toEa, checked, hb, Bool.false_eq_true, if_false, State.operand_eq] at h
  refine stores_of h (m := s.msAfter ea .l) ?_ (flagsNow_setFlags (by simp [State.advance])) ?_ (.mk' (by simp [State.advance]))
    ?_ (fun hc b => State.peekByte_eaRead hc ea .l _ b)
  · simp [State.advance, hl, Loc.write]
  · simp [State.advance, State.nextPc, State.after]
  · simp only [State.advance, State.ms_setPc, State.locate_pst, hl, State.ms_writeLoc_mem, State.ms_setFlags,
      State.route_setFlags, State.dataSpace_setFlags]
    rw [← hl, ← State.locate_pst s 1#4 ea .l, State.msAfter_eq]
    simp

/-- A read-modify-write of a data register. -/
theorem toEa_onRegs {i : Instr} {s : State} {x : Reg} {v : Long} {r : Long → Long → Long} {f : Flags → Long → Long → Flags}
    (h : exec i s = toEa v (.dn x) s r f) :
    OnRegs i s (withReg s.getR (dNum x) (r v (s.getD x))) (f s.flags v (s.getD x)) (s.after 0) := by
  simp only [toEa, checked, eaBad, Bool.false_eq_true, if_false, State.locate, State.readLoc, sized, State.getD_pst] at h
  exact onRegs_of h (by simp [State.advance, State.writeLoc, merge]) (flagsNow_setFlags (by simp [State.advance, State.writeLoc]))
    (by simp [State.advance, State.nextPc, State.after, eaLen, State.writeLoc]) (by simp [State.advance, State.writeLoc])
    (.mk' (by simp [State.advance, State.writeLoc]))

/-- MOVE into a data register. -/
theorem moveD_reads {i : Instr} {s : State} {src : Ea} {sz : Size} {r : Reg} (hb : eaBad src = false)
    (h : exec i s = moveOp sz src (.dn r) s) :
    Reads i s src sz (withReg (s.regsAfter src sz) (dNum r) (merge sz (s.getD r) (s.operand src sz)))
      (nzFlags s.flags sz (s.operand src sz)) (s.after (eaLen src)) := by
  have e : eaBad (.dn r) = false := rfl
  have e2 : eaLen (.dn r) = 0 := rfl
  simp only [moveOp, checked, hb, e, Bool.false_eq_true, if_false, State.locate] at h
  exact reads_of h (by simp [State.advance, Loc.write]) (flagsNow_setFlags (by simp [State.advance]))
    (by simp [State.advance, State.nextPc, State.after, e2]) (by simp [State.advance, State.writeLoc]) (.mk' (by simp [State.advance]))

/-- MOVEA. -/
theorem movea_reads {i : Instr} {s : State} {src : Ea} {sz : Size} {r : Reg} (hb : eaBad src = false)
    (h : exec i s = moveaOp sz src r s) :
    Reads i s src sz (withReg (s.regsAfter src sz) (aNum r) (extendA sz (s.operand src sz))) s.flags
      (s.after (eaLen src)) := by
  simp only [moveaOp, checked, hb, Bool.false_eq_true, if_false] at h
  exact reads_of h (by simp [State.advance]) (flagsNow_same (by simp [State.advance]))
    (by simp [State.advance, State.nextPc, State.after]) (by simp [State.advance]) (.mk' (by simp [State.advance]))

/-- The state after reading an operand has the registers and the PC of the state after locating it. -/
theorem State.locate_eaRead (s : State) (v : BitVec 4) (src dst : Ea) (sz : Size) :
    (((s.pst v).eaRead src sz).2.locate dst sz).1 = ((s.located src sz).locate dst sz).1 :=
  State.locate_congr (by simp [State.located]) (by simp [State.located]) dst sz

theorem State.regsAfter_eaRead (s : State) (v : BitVec 4) (src dst : Ea) (sz : Size) :
    ((s.pst v).eaRead src sz).2.regsAfter dst sz = (s.located src sz).regsAfter dst sz :=
  State.regsAfter_congr (by simp [State.located]) dst sz

/-- MOVE into memory. -/
theorem move_stores {i : Instr} {s : State} {src dst : Ea} {sz : Size} (hb : eaBad src = false) (hd : eaBad dst = false)
    (hm : eaMemAlter dst = true) (h : exec i s = moveOp sz src dst s) :
    Stores i s ((s.located src sz).regsAfter dst sz) (nzFlags s.flags sz (s.operand src sz))
      (s.after (eaLen src + eaLen dst)) ((s.located src sz).address dst sz) sz (s.operand src sz) := by
  have hl := locate_mem (.inl hm) (s.located src sz) sz
  simp only [moveOp, checked, hb, hd, Bool.false_eq_true, if_false] at h
  refine stores_of h (m := s.msAfter src sz) ?_ (flagsNow_setFlags (by simp [State.advance])) ?_ (.mk' (by simp [State.advance]))
    ?_ (fun hc b => State.peekByte_eaRead hc src sz _ b)
  · simp [State.advance, State.locate_eaRead, hl, Loc.write, State.regsAfter_eaRead]
  · simp [State.advance, State.nextPc, State.after]
  · simp only [State.advance, State.ms_setPc, State.locate_eaRead, hl, State.ms_writeLoc_mem, State.ms_setFlags,
      State.route_setFlags, State.dataSpace_setFlags]
    simp

theorem clr_stores {i : Instr} {s : State} {ea : Ea} {sz : Size} (hb : eaBad ea = false)
    (hm : eaMemAlter ea = true) (h : exec i s = clrOp sz ea s) :
    Stores i s (s.regsAfter ea sz) (nzFlags s.flags sz 0#32) (s.after (eaLen ea)) (s.address ea sz) sz 0#32 := by
  have hl := locate_mem (.inl hm) s sz
  simp only [clrOp, checked, hb, Bool.false_eq_true, if_false] at h
  have hl2 : (((s.pst 1#4).setFlags (nzFlags s.flags sz 0#32)).locate ea sz).1 = .mem (s.address ea sz) := by
    rw [← hl]; exact State.locate_congr (by simp) (by simp) ea sz
  have hr : ((s.pst 1#4).setFlags (nzFlags s.flags sz 0#32)).regsAfter ea sz = s.regsAfter ea sz := State.regsAfter_congr (by simp) _ _
  refine stores_of h (m := s.ms) ?_ (flagsNow_setFlags (by simp [State.advance, State.eaWrite])) ?_ (.mk' (by simp [State.advance, State.eaWrite]))
    ?_ (fun hc b => rfl)
  · simp [State.advance, State.eaWrite, hl2, Loc.write, hr]
  · simp [State.advance, State.nextPc, State.after, State.eaWrite]
  · simp [State.advance, State.eaWrite, hl2, State.ms_writeLoc_mem]

theorem clrD_onRegs {i : Instr} {s : State} {sz : Size} {r : Reg} (h : exec i s = clrOp sz (.dn r) s) :
    OnRegs i s (withReg s.getR (dNum r) (merge sz (s.getD r) 0#32)) (nzFlags s.flags sz 0#32) (s.after 0) := by
  simp only [clrOp, checked, eaBad, Bool.false_eq_true, if_false, State.eaWrite, State.locate] at h
  exact onRegs_of h (by simp [State.advance, State.writeLoc]) (flagsNow_setFlags (by simp [State.advance, State.writeLoc]))
    (by simp [State.advance, State.nextPc, State.after, eaLen]) (by simp [State.advance, State.writeLoc]) (.mk' (by simp [State.advance]))

/-- A completion that stores an operand and goes on elsewhere: the prefetched instructions are discarded. -/
theorem stores_of_flush {i : Instr} {s t : State} {regs : RegX → Long} {f : Flags} {pc a v : Long} {sz : Size} {m : MemSys}
    {l : List Stale}
    (h : exec i s = .next t) (hr : t.getR = regs) (hf : FlagsNow s t f) (hp : t.cpu.pc = pc) (hu : SameUnits s t)
    (hm : t.ms = { writeOperand s.route m s.dataSpace a sz v with stale := l })
    (hb : s.cacheOff → ∀ b, peekByte s.route m s.dataSpace false b = s.peek b) : Stores i s regs f pc a sz v := by
  refine ⟨t, h, hr, hf, hp, hu, fun hc => ?_⟩
  have key := stored_of (s := s) (t := { t with ms := writeOperand s.route m s.dataSpace a sz v })
    ⟨hu.mac, hu.ctl, hu.dbg, hu.ev, hu.pins, hu.bdm, hu.free⟩ hf.super hc (hb hc) a sz v rfl
  have hpk : ∀ sp b, peekByte t.route t.ms sp false b = peekByte t.route (writeOperand s.route m s.dataSpace a sz v) sp false b := by
    intro sp b
    rw [hm]
    exact peekByte_stale _ _ _ _ _ _
  refine ⟨fun b hb => (hpk _ b).trans (key.1 b hb), fun hw => ?_⟩
  rw [← key.2 hw]
  exact readBytes_congr _ _ _ _ _ fun i _ => hpk _ _

/-- The fields after a push. -/
@[simp] theorem State.getR_push (s : State) (v : Long) : (s.push v).getR = withReg s.getR (aNum spReg) (s.sp - 4#32) := by
  simp [State.push, State.setSp]
@[simp] theorem State.sr_push (s : State) (v : Long) : (s.push v).cpu.sr = s.cpu.sr := by simp [State.push, State.setSp]
@[simp] theorem State.pc_push (s : State) (v : Long) : (s.push v).cpu.pc = s.cpu.pc := by simp [State.push, State.setSp]
@[simp] theorem State.mac_push (s : State) (v : Long) : (s.push v).mac = s.mac := by simp [State.push, State.setSp]
@[simp] theorem State.ctl_push (s : State) (v : Long) : (s.push v).ctl = s.ctl := by simp [State.push, State.setSp]
@[simp] theorem State.dbg_push (s : State) (v : Long) : (s.push v).dbg = s.dbg := by simp [State.push, State.setSp]
@[simp] theorem State.ev_push (s : State) (v : Long) : (s.push v).ev = s.ev := by simp [State.push, State.setSp]
@[simp] theorem State.pins_push (s : State) (v : Long) : (s.push v).pins = s.pins := by simp [State.push, State.setSp]
@[simp] theorem State.bdm_push (s : State) (v : Long) : (s.push v).bdm = s.bdm := by simp [State.push, State.setSp]
@[simp] theorem State.free_push (s : State) (v : Long) : (s.push v).free = s.free := by simp [State.push, State.setSp]
@[simp] theorem State.route_setA (s : State) (r : Reg) (v : Long) : (s.setA r v).route = s.route := rfl
@[simp] theorem State.dataSpace_setA (s : State) (r : Reg) (v : Long) : (s.setA r v).dataSpace = s.dataSpace := rfl
@[simp] theorem State.ms_push (s : State) (v : Long) :
    (s.push v).ms = writeOperand s.route s.ms s.dataSpace (s.sp - 4#32) .l v := by
  simp [State.push, State.setSp]
@[simp] theorem State.sp_pst (s : State) (v : BitVec 4) : (s.pst v).sp = s.sp := by simp [State.sp]
@[simp] theorem State.sp_item (s : State) (n : Nat) (v : Long) : (s.item n v).sp = s.sp := by simp [State.sp]
@[simp] theorem State.sp_target (s : State) (v : Long) : (s.target v).sp = s.sp := by simp [State.sp]

/-- The trace marks of a jump change only the trace port. -/
theorem State.showJump_cases (s : State) (ea : Ea) (t : Long) :
    s.showJump ea t = (s.pst 5#4).target t ∨ s.showJump ea t = s.pst 5#4 := by
  unfold State.showJump; split <;> simp
@[simp] theorem State.route_target (s : State) (v : Long) : (s.target v).route = s.route :=
  State.route_congr (by simp) (by simp) (by simp) (by simp)
@[simp] theorem State.dataSpace_target (s : State) (v : Long) : (s.target v).dataSpace = s.dataSpace :=
  State.dataSpace_congr (by simp) (by simp) (by simp [State.super])

/-- The target of a branch. -/
theorem branchTarget_eq (s : State) (d : Disp) : s.branchTo d = s.branchTarget d := by
  unfold State.branchTo State.branchTarget
  cases d <;> simp [dispInt, dispLong, signExtend_eq]

/-- A completion that goes on elsewhere and touches no memory. -/
theorem jumps_of {i : Instr} {s t : State} {regs : RegX → Long} {pc : Long}
  (h : exec i s = .next t) (hr : t.getR = regs) (hsr : t.cpu.sr = s.cpu.sr) (hp : t.cpu.pc = pc) (hm : t.ms = { s.ms with stale := stalePending s.route s.ms }) (hu : SameUnits s t) :
  Jumps i s regs pc := ⟨t, h, hr, hsr, hp, hm, hu, sameMem_of hu (by simp [State.super, hsr]) fun b => by rw [hm]; exact peekByte_stale _ _ _ _ _ _⟩

end Sys2Proof.Machine
end

