-- ==== Sys2Proof/Laws/Exceptions.lean ====
section
/-! SUPPORT. Sys2Proof/Laws/Exceptions.lean: what taking an exception leaves (spec/60_exceptions.md R505), once for every
exception: `State.takeException_entersAs`. -/

namespace Sys2Proof.Machine

/-! ### What is needed of the memory system -/

theorem externalWrite_writeError (r : Route) (m : MemSys) (sp : Space) (a : Long) (bs : List Byte) :
    (externalWrite r m sp a bs).writeError = m.writeError := by
  have hb : ∀ (m : MemSys) (sp : Space) (a : Long) (bs : List Byte), (busWrite m sp a bs).writeError = m.writeError := by
    intro m sp a bs
    unfold busWrite
    split <;> rfl
  have hp : (drainPush m).writeError = m.writeError := by
    unfold drainPush
    split <;> rfl
  have hd : ∀ (l : List Pending) (m : MemSys), (drainStores m l).writeError = m.writeError := by
    intro l
    induction l with
    | nil => intro m; rfl
    | cons p t ih => intro m; exact (ih _).trans (hb _ _ _ _)
  unfold externalWrite
  split
  · dsimp only
    split
    · change (busWrite _ _ _ _).writeError = _
      rw [hb]
      exact hp
    · rfl
  · rw [hb]
    exact (hd _ _).trans hp

theorem drain_writeError (r : Route) (m : MemSys) : (drain r m).writeError = m.writeError := by
  have hb : ∀ (m : MemSys) (sp : Space) (a : Long) (bs : List Byte), (busWrite m sp a bs).writeError = m.writeError := by
    intro m sp a bs
    unfold busWrite
    split <;> rfl
  have hp : (drainPush m).writeError = m.writeError := by
    unfold drainPush
    split <;> rfl
  have hd : ∀ (l : List Pending) (m : MemSys), (drainStores m l).writeError = m.writeError := by
    intro l
    induction l with
    | nil => intro m; rfl
    | cons p t ih => intro m; exact (ih _).trans (hb _ _ _ _)
  unfold drain
  split
  · rfl
  · exact (hd _ _).trans hp

/-- An aligned write to bytes that nothing protects leaves no access error. -/
theorem writePiece_writeError {r : Route} (h : r.Off) (m : MemSys) (sp : Space) (a : Long) (bs : List Byte)
    (hw : byteWritable r sp a) : (writePiece r m sp a bs).writeError = m.writeError := by
  unfold writePiece
  unfold byteWritable at hw
  rw [usesCache_off h]
  split
  · next hr =>
    rw [if_pos hr] at hw
    rw [if_neg (by rw [hw]; simp)]
  · next hr =>
    rw [if_neg hr] at hw
    rw [if_neg (by rw [hw.1]; simp), if_neg (by rw [hw.2]; simp), if_neg (by simp), externalWrite_writeError]

/-- An aligned write that is rejected leaves an access error pending, and otherwise nothing. -/
theorem writePiece_rejected {r : Route} (m : MemSys) (sp : Space) (a : Long) (bs : List Byte)
    (hw : byteRejected r sp a) : writePiece r m sp a bs = rejectWrite m := by
  unfold writePiece
  unfold byteRejected at hw
  split
  · next hr =>
    rw [if_pos hr] at hw
    rw [if_pos hw]
  · next hr =>
    rw [if_neg hr] at hw
    split
    · next hr' =>
      rw [if_pos hr'] at hw
      rw [if_pos hw]
    · next hr' =>
      rw [if_neg hr'] at hw
      rw [if_pos hw]

theorem writePieces_writeError {r : Route} (h : r.Off) (sp : Space) (l : List (Long × Nat)) (m : MemSys) (bs : List Byte)
    (hw : ∀ c ∈ l, byteWritable r sp c.1) : (writePieces r m sp l bs).writeError = m.writeError := by
  induction l generalizing m bs with
  | nil => rfl
  | cons c t ih =>
    obtain ⟨st, x, e⟩ := writePieces_cons r m sp c t bs
    rw [e, ih _ _ (fun d hd => hw d (List.mem_cons_of_mem _ hd))]
    exact writePiece_writeError h _ _ _ _ (hw c List.mem_cons_self)

theorem pieces_pos (a : Long) (sz : Size) : ∀ c ∈ pieces a sz, 0 < c.2 := by
  cases sz <;> simp only [pieces] <;> (repeat' split) <;> simp

/-- An operand write to bytes that nothing protects leaves no access error. -/
theorem writeOperand_writeError {r : Route} (h : r.Off) (m : MemSys) (sp : Space) (a : Long) (sz : Size) (v : Long)
    (hw : ∀ i < sz.bytes, byteWritable r sp (a + BitVec.ofNat 32 i)) :
    (writeOperand r m sp a sz v).writeError = m.writeError := by
  refine writePieces_writeError h _ _ _ _ fun c hc => ?_
  obtain ⟨k, hk, e⟩ := chained_mem (pieces_chained a sz) hc (pieces_pos a sz c hc)
  rw [pieces_sum] at hk
  have := hw k hk
  rw [← e] at this
  simpa using this

/-- Emptying the buffers changes nothing that a read shows. -/
theorem peekByte_drain {r : Route} (h : r.Off) (m : MemSys) (sp : Space) (b : Long) (r' : Route) :
    peekByte r (drain r' m) sp false b = peekByte r m sp false b := by
  unfold drain
  split
  · rfl
  · refine peekByte_congr h (n := busTouch r' (settle m)) (settle_ram m) ?_ _ _
    have e : busPair (settle (busTouch r' (settle m))) = busPair (settle (settle m)) := by
      rw [busPair_settle, busPair_settle]
      rfl
    exact e.trans (busPair_settle_settle m)

theorem peekByte_writeError {r : Route} (m : MemSys) (e : Bool) (sp : Space) (f : Bool) (b : Long) :
    peekByte r { m with writeError := e } sp f b = peekByte r m sp f b := by
  have hs : busPair (settle { m with writeError := e }) = busPair (settle m) := by rw [busPair_settle, busPair_settle]; rfl
  unfold peekByte
  simp only [busByte_eq, hs]
  rfl

theorem peekByte_busTouch {r : Route} (r' : Route) (m : MemSys) (sp : Space) (f : Bool) (b : Long) :
    peekByte r (busTouch r' m) sp f b = peekByte r m sp f b := by
  have hs : busPair (settle (busTouch r' m)) = busPair (settle m) := by rw [busPair_settle, busPair_settle]; rfl
  unfold peekByte
  simp only [busByte_eq, hs]
  rfl

theorem peekByte_busNote {r : Route} (m : MemSys) (rd : Bool) (sp' : Space) (a : Long) (bs : List Byte) (sp : Space) (f : Bool)
    (b : Long) : peekByte r (busNote m rd sp' a bs) sp f b = peekByte r m sp f b := by
  have hs : busPair (settle (busNote m rd sp' a bs)) = busPair (settle m) := by rw [busPair_settle, busPair_settle]; rfl
  unfold peekByte
  simp only [busByte_eq, hs]
  rfl

theorem peekBytes_eq {r : Route} {m n : MemSys} {sp : Space} {a : Long} {k : Nat}
    (h : ∀ i < k, peekByte r m sp false (a + BitVec.ofNat 32 i) = peekByte r n sp false (a + BitVec.ofNat 32 i)) :
    peekBytes r m sp a k = peekBytes r n sp a k :=
  readBytes_congr _ _ _ _ _ fun i hi => by
    rw [BitVec.ofNat_toNat, BitVec.setWidth_eq]
    exact h i hi

/-! ### Taking an exception -/

/-- The address of the frame is longword-aligned, and the frame does not wrap into the rest of memory. -/
theorem outside_frame {a b : Long} {n k : Nat} (h : Outside a (n + k) b) :
    Outside a n b ∧ Outside (a + BitVec.ofNat 32 n) k b := by
  refine ⟨fun i hi => h i (by omega), fun i hi => ?_⟩
  rw [BitVec.add_assoc, ← BitVec.ofNat_add]
  exact h (n + i) (by omega)

/-- Everything but the memory system and SR that the steps of the entry before the vector fetch leave. -/
structure EntryKept (s t : State) : Prop where
  regs : t.getR = s.getR
  mac : t.mac = s.mac
  ctl : t.ctl = s.ctl
  dbg : t.dbg = s.dbg
  ev : t.ev = { s.ev with inException := true }
  pins : t.pins = s.pins
  bdm : t.bdm = s.bdm

theorem EntryKept.emuMap {s t : State} (h : EntryKept s t) : t.emuMap = s.emuMap := by
  unfold State.emuMap
  rw [h.ev, h.dbg]

theorem EntryKept.route {s t : State} (h : EntryKept s t) : t.route = s.route := by
  unfold State.route
  rw [h.ctl, h.pins, h.emuMap, h.dbg]

theorem EntryKept.dataSpace {s t : State} (h : EntryKept s t) (hs : t.super = true) : t.dataSpace = s.superSpace := by
  unfold State.dataSpace State.superSpace
  rw [h.emuMap, hs]
  rfl

theorem EntryKept.sp {s t : State} (h : EntryKept s t) : t.sp = s.sp := by
  unfold State.sp
  rw [← State.getR_aNum, h.regs, State.getR_aNum]

theorem super_entrySr (sr : Word) (irq : Option (BitVec 3)) : (entrySr sr irq &&& srMask).getLsbD 13 = true := by
  cases irq with
  | none => simp [entrySr, srMask]
  | some l =>
    simp only [entrySr, srMask, BitVec.getLsbD_and, BitVec.getLsbD_or, BitVec.getLsbD_shiftLeft, BitVec.getLsbD_setWidth]
    simp

/-- The machine in the mode that an entry enters: emulator mode where the exception enters it. -/
def State.intoMode (s : State) (e : Entry) : State := s.setEv { s.ev with emulator := s.ev.emulator || e.emulator }

theorem State.intoMode_eq (s : State) {e : Entry} (he : e.emulator = false) : s.intoMode e = s := by
  simp [State.intoMode, State.setEv, he]

theorem State.intoMode_sp (s : State) (e : Entry) : (s.intoMode e).sp = s.sp := rfl

/-- The machine after step 1 of the entry. -/
theorem State.entryMode_kept (s : State) (e : Entry) (v : BitVec 4) :
    EntryKept (s.intoMode e) ((s.entryMode e).pst v) ∧
      ((s.entryMode e).pst v).cpu.sr = entrySr s.cpu.sr e.irq &&& srMask ∧
      ((s.entryMode e).pst v).ms = drain s.route s.ms := by
  refine ⟨⟨?_, ?_, ?_, ?_, ?_, ?_, ?_⟩, ?_, ?_⟩ <;> simp [State.entryMode, State.intoMode]

/-- The machine after step 2 of the entry. -/
theorem State.entryVector_kept {s t : State} (h : EntryKept s t) (e : Entry) :
    EntryKept s (t.entryVector e).2 ∧ (t.entryVector e).2.cpu.sr = t.cpu.sr ∧
      (t.entryVector e).2.ms.writeError = t.ms.writeError ∧
      ∀ r sp b, peekByte r (t.entryVector e).2.ms sp false b = peekByte r t.ms sp false b := by
  unfold State.entryVector
  split
  · refine ⟨⟨by simpa [State.iackCycle] using h.regs, h.mac, h.ctl, h.dbg, h.ev, h.pins, h.bdm⟩, rfl, ?_, ?_⟩
    · dsimp only [State.iackCycle]
      split <;> rfl
    · intro r sp b
      dsimp only [State.iackCycle]
      refine (peekByte_note _ _ _ _ _ _).trans ?_
      split
      · rfl
      · rw [peekByte_busNote, peekByte_busTouch]
  · exact ⟨h, rfl, rfl, fun _ _ _ => rfl⟩

/-- The machine after step 3 of the entry. -/
theorem State.entryFrame_kept {s t : State} (h : EntryKept s t) (hs : t.super = true) (e : Entry) (v : Byte) (sr : Word) :
    EntryKept s (t.entryFrame e v sr) ∧ (t.entryFrame e v sr).cpu.sr = t.cpu.sr ∧
      (t.entryFrame e v sr).ms =
        writeOperand s.route (writeOperand s.route t.ms s.superSpace (frameAddr s.sp) .l (frameWord s.sp e.fs v sr))
          s.superSpace (frameAddr s.sp + 4#32) .l e.stackedPc := by
  have hr : ∀ a w, (t.store a .l w).route = t.route := fun a w =>
    State.route_congr (by simp) (by simp) (by simp) (by simp)
  have hd : ∀ a w, (t.store a .l w).dataSpace = t.dataSpace := fun a w =>
    State.dataSpace_congr (by simp) (by simp) (by simp [State.super])
  refine ⟨⟨?_, ?_, ?_, ?_, ?_, ?_, ?_⟩, ?_, ?_⟩
  · simpa [State.entryFrame] using h.regs
  · simpa [State.entryFrame] using h.mac
  · simpa [State.entryFrame] using h.ctl
  · simpa [State.entryFrame] using h.dbg
  · simpa [State.entryFrame] using h.ev
  · simpa [State.entryFrame] using h.pins
  · simpa [State.entryFrame] using h.bdm
  · simp [State.entryFrame]
  · simp [State.entryFrame, hr, hd, h.route, h.dataSpace hs, h.sp]

theorem EntryKept.setMs {s t : State} (h : EntryKept s t) (m : MemSys) : EntryKept s (t.setMs m) :=
  ⟨by simpa using h.regs, h.mac, h.ctl, h.dbg, h.ev, h.pins, h.bdm⟩

theorem settle_writeError (m : MemSys) : (settle m).writeError = m.writeError := by
  have hp : (drainPush m).writeError = m.writeError := by
    unfold drainPush
    split <;> rfl
  have hd : ∀ (l : List Pending) (m : MemSys), (drainStores m l).writeError = m.writeError := by
    intro l
    induction l with
    | nil => intro m; rfl
    | cons p t ih =>
      intro m
      refine (ih _).trans ?_
      unfold busWrite
      split <;> rfl
  exact (hd _ _).trans hp

/-- A read leaves no access error. -/
theorem readPiece_writeError {r : Route} (h : r.Off) (m : MemSys) (sp : Space) (f : Bool) (a : Long) (n : Nat) :
    (readPiece r m sp f a n).2.writeError = m.writeError := by
  unfold readPiece
  rw [usesCache_off h]
  split
  · rfl
  split
  · rfl
  split
  · next hc => simp at hc
  split
  · rfl
  split
  · exact settle_writeError m
  · unfold busRead
    split <;> exact settle_writeError m

theorem readPieces_writeError {r : Route} (h : r.Off) (sp : Space) (l : List (Long × Nat)) (m : MemSys) :
    (readPieces r m sp l).2.writeError = m.writeError := by
  induction l generalizing m with
  | nil => rfl
  | cons c t ih => exact (ih _).trans (readPiece_writeError h _ _ _ _ _)

theorem readOperand_writeError {r : Route} (h : r.Off) (m : MemSys) (sp : Space) (a : Long) (sz : Size) :
    (readOperand r m sp a sz).2.writeError = m.writeError := readPieces_writeError h _ _ _

theorem shl2 (v : Byte) : (v.setWidth 32 <<< 2 : Long) = 4#32 * v.setWidth 32 := by
  revert v
  decide

theorem haltSource_map (c : Long) : (haltSource c 27).getLsbD 15 = c.getLsbD 15 := by simp [haltSource]

/-- The fault-on-fault halt (spec/60_exceptions.md R550): everything but the run state, CSR.FOF and the PC is as it was. -/
theorem State.faultOnFault_leaves (t : State) :
    let u := t.faultOnFault
    u.cpu.sr = t.cpu.sr ∧ u.getR = t.getR ∧ u.mac = t.mac ∧ u.ctl = t.ctl ∧ u.pins = t.pins ∧ u.bdm = t.bdm ∧
      u.route = t.route ∧ u.dataSpace = t.dataSpace ∧ u.ms = drain t.route t.ms ∧
      u.dbg = { t.dbg with csr := haltSource t.dbg.csr 27 } ∧
      u.ev = { t.ev with run := .halted, faultOnFault := true, inException := true } := by
  have hdbg : t.faultOnFault.dbg = { t.dbg with csr := haltSource t.dbg.csr 27 } := by
    simp [State.faultOnFault, State.enterHalted, haltSource]
  have hev : t.faultOnFault.ev = { t.ev with run := .halted, faultOnFault := true, inException := true } := by
    simp [State.faultOnFault, State.enterHalted]
  have hsr : t.faultOnFault.cpu.sr = t.cpu.sr := by simp [State.faultOnFault, State.enterHalted]
  have hctl : t.faultOnFault.ctl = t.ctl := by simp [State.faultOnFault, State.enterHalted]
  have hpins : t.faultOnFault.pins = t.pins := by simp [State.faultOnFault, State.enterHalted]
  have hemu : t.faultOnFault.emuMap = t.emuMap := by
    unfold State.emuMap
    rw [hdbg, hev]
    simp only [haltSource_map]
  have hroute : t.faultOnFault.route = t.route := by
    unfold State.route
    rw [hctl, hpins, hemu, hdbg]
    simp only [haltSource_map]
  have hmid : (t.setHaltSource 27).route = t.route := by
    unfold State.route State.emuMap
    simp
  refine ⟨hsr, ?_, ?_, hctl, hpins, ?_, hroute, ?_, ?_, hdbg, hev⟩
  · simp [State.faultOnFault, State.enterHalted]
  · simp [State.faultOnFault, State.enterHalted]
  · simp [State.faultOnFault, State.enterHalted]
  · unfold State.dataSpace State.super
    rw [hemu, hsr]
  · simp [State.faultOnFault, State.enterHalted, hmid]

theorem State.entryVectorFetch_eq (t : State) (v : Byte) :
    t.entryVectorFetch v =
      let x := ((t.setSp (frameAddr t.sp)).load ((t.setSp (frameAddr t.sp)).ctl.vbr + (v.setWidth 32 <<< 2)) .l).1
      let t2 := ((t.setSp (frameAddr t.sp)).load ((t.setSp (frameAddr t.sp)).ctl.vbr + (v.setWidth 32 <<< 2)) .l).2
      if x.getLsbD 0 then t2.faultOnFault
      else ((((t2.setPc x).flush).setEv { t2.ev with inhibitInt := true, inException := false }).pst 5#4).target x := rfl

/-- What step 4 of the entry leaves: A7 at the frame, the handler's address or the fault-on-fault halt. -/
theorem State.entryVectorFetch_leaves {s t : State} (hc : s.cacheOff) (h : EntryKept s t) (hs : t.super = true) (v : Byte) :
    let u := t.entryVectorFetch v
    u.cpu.sr = t.cpu.sr ∧ u.getR = withReg s.getR (aNum spReg) (frameAddr s.sp) ∧ u.mac = s.mac ∧ u.ctl = s.ctl ∧
      u.pins = s.pins ∧ u.bdm = s.bdm ∧ u.route = s.route ∧ u.dataSpace = s.superSpace ∧
      (∀ b, u.peek b = peekByte s.route t.ms s.superSpace false b) ∧ u.ms.writeError = t.ms.writeError ∧
      ((u.longAt (s.ctl.vbr + 4#32 * v.setWidth 32)).getLsbD 0 = false →
        u.cpu.pc = u.longAt (s.ctl.vbr + 4#32 * v.setWidth 32) ∧ u.dbg = s.dbg ∧
          u.ev = { s.ev with inhibitInt := true, inException := false }) ∧
      ((u.longAt (s.ctl.vbr + 4#32 * v.setWidth 32)).getLsbD 0 = true →
        u.ev.run = .halted ∧ u.ev.faultOnFault = true ∧ u.dbg = { s.dbg with csr := haltSource s.dbg.csr 27 }) := by
  have hr := h.route
  have hd := h.dataSpace hs
  let a : Long := s.ctl.vbr + 4#32 * v.setWidth 32
  let t2 := ((t.setSp (frameAddr t.sp)).load a .l).2
  let x : Long := beValue (peekBytes s.route t.ms s.superSpace a 4)
  have ht2r : t2.route = s.route := by
    rw [← hr]
    exact State.route_congr (by simp [t2, State.setSp]) (by simp [t2, State.setSp]) (by simp [t2, State.setSp]) (by simp [t2, State.setSp])
  have ht2d : t2.dataSpace = s.superSpace := by
    rw [← hd]
    exact State.dataSpace_congr (by simp [t2, State.setSp]) (by simp [t2, State.setSp]) (by simp [t2, State.setSp, State.super])
  have hms : t2.ms = (readOperand s.route t.ms s.superSpace a .l).2 := by
    simp [t2, State.setSp, hr, hd]
  have hx : ((t.setSp (frameAddr t.sp)).load a .l).1 = x := by
    rw [State.load_val]
    simp only [State.setSp, State.route_setA, State.dataSpace_setA, hr, hd]
    exact readOperand_val hc _ _ _ _
  have hpk : ∀ b, peekByte s.route t2.ms s.superSpace false b = peekByte s.route t.ms s.superSpace false b := by
    intro b
    rw [hms]
    exact peekByte_readOperand hc _ _ _ _ _ _
  have hu : t.entryVectorFetch v =
      if x.getLsbD 0 then t2.faultOnFault
      else ((((t2.setPc x).flush).setEv { t2.ev with inhibitInt := true, inException := false }).pst 5#4).target x := by
    have ha : (t.setSp (frameAddr t.sp)).ctl.vbr + (v.setWidth 32 <<< 2) = a := by
      show t.ctl.vbr + _ = _
      rw [h.ctl, shl2]
    rw [State.entryVectorFetch_eq, ha, hx]
  have hregs : t2.getR = withReg s.getR (aNum spReg) (frameAddr s.sp) := by
    simp [t2, State.setSp, h.regs, h.sp]
  intro u
  have hlong : ∀ (hur : u.route = s.route) (hud : u.dataSpace = s.superSpace)
      (hup : ∀ b, u.peek b = peekByte s.route t.ms s.superSpace false b), u.longAt a = x := by
    intro hur hud hup
    show beValue (peekBytes u.route u.ms u.dataSpace a 4) = beValue (peekBytes s.route t.ms s.superSpace a 4)
    rw [hur, hud]
    congr 1
    refine readBytes_congr _ _ _ _ _ fun i _ => ?_
    have := hup (BitVec.ofNat 32 ((a + BitVec.ofNat 32 i).toNat))
    unfold State.peek at this
    rw [hur, hud] at this
    exact this
  by_cases hodd : x.getLsbD 0 = true
  · have hu' : u = t2.faultOnFault := by
      show t.entryVectorFetch v = _
      rw [hu, if_pos hodd]
    obtain ⟨f1, f2, f3, f4, f5, f6, f7, f8, f9, f10, f11⟩ := State.faultOnFault_leaves t2
    rw [← hu'] at f1 f2 f3 f4 f5 f6 f7 f8 f9 f10 f11
    have hup : ∀ b, u.peek b = peekByte s.route t.ms s.superSpace false b := by
      intro b
      unfold State.peek
      rw [f7, f8, f9, ht2r, ht2d, peekByte_drain hc, hpk]
    have hl := hlong (f7.trans ht2r) (f8.trans ht2d) hup
    refine ⟨?_, f2.trans hregs, ?_, ?_, ?_, ?_, f7.trans ht2r, f8.trans ht2d, hup, ?_, ?_, ?_⟩
    · rw [f1]
      simp [t2, State.setSp]
    · rw [f3]
      simp [t2, State.setSp, h.mac]
    · rw [f4]
      simp [t2, State.setSp, h.ctl]
    · rw [f5]
      simp [t2, State.setSp, h.pins]
    · rw [f6]
      simp [t2, State.setSp, h.bdm]
    · rw [f9, drain_writeError, hms, readOperand_writeError hc]
    · intro he
      rw [hl, hodd] at he
      exact absurd he (by decide)
    · intro _
      rw [f11, f10]
      simp [t2, State.setSp, h.dbg]
  · have hodd' : x.getLsbD 0 = false := by simpa using hodd
    have hu' : u = ((((t2.setPc x).flush).setEv { t2.ev with inhibitInt := true, inException := false }).pst 5#4).target x := by
      show t.entryVectorFetch v = _
      rw [hu, if_neg hodd]
    have hev : u.ev = { s.ev with inhibitInt := true, inException := false } := by
      rw [hu']
      simp [t2, State.setSp, h.ev]
    have hdbg : u.dbg = s.dbg := by
      rw [hu']
      simp [t2, State.setSp, h.dbg]
    have hctl : u.ctl = s.ctl := by
      rw [hu']
      simp [t2, State.setSp, h.ctl]
    have hpins : u.pins = s.pins := by
      rw [hu']
      simp [t2, State.setSp, h.pins]
    have hsr : u.cpu.sr = t.cpu.sr := by
      rw [hu']
      simp [t2, State.setSp]
    have hemu : u.emuMap = s.emuMap := by
      unfold State.emuMap
      rw [hev, hdbg]
    have hur : u.route = s.route := by
      unfold State.route
      rw [hctl, hpins, hemu, hdbg]
    have hud : u.dataSpace = s.superSpace := by
      unfold State.dataSpace State.superSpace State.super
      rw [hemu, hsr]
      have : t.cpu.sr.getLsbD 13 = true := hs
      rw [this]
      rfl
    obtain ⟨l, hum⟩ : ∃ l, u.ms = { t2.ms with stale := l } := by
      rw [hu']
      exact ⟨_, by simp only [State.ms_target, State.ms_pst, State.ms_setEv, State.ms_flush, State.ms_setPc]; rfl⟩
    have hup : ∀ b, u.peek b = peekByte s.route t.ms s.superSpace false b := by
      intro b
      unfold State.peek
      rw [hur, hud, hum, peekByte_stale, hpk]
    have hl := hlong hur hud hup
    refine ⟨hsr, ?_, ?_, hctl, hpins, ?_, hur, hud, hup, ?_, ?_, ?_⟩
    · rw [hu']
      simpa using hregs
    · rw [hu']
      simp [t2, State.setSp, h.mac]
    · rw [hu']
      simp [t2, State.setSp, h.bdm]
    · rw [hum]
      show t2.ms.writeError = _
      rw [hms, readOperand_writeError hc]
    · intro _
      refine ⟨?_, hdbg, hev⟩
      rw [hl, hu']
      simp
    · intro he
      rw [hl, hodd'] at he
      exact absurd he (by decide)

/-- The machine when step 3 of the entry begins, and the vector number. -/
def State.atFrame (s : State) (e : Entry) : State :=
  let u := (((s.entryMode e).pst (if e.emulator then 0xD#4 else 0xC#4)).entryVector e).2
  u.setMs { u.ms with writeError := false }

/-- The vector number of an entry. -/
def State.vectorOf (s : State) (e : Entry) : Byte :=
  (((s.entryMode e).pst (if e.emulator then 0xD#4 else 0xC#4)).entryVector e).1

theorem State.takeException_eq (s : State) (e : Entry) (h : s.ev.inException = false) :
    s.takeException e =
      let u := (((s.entryMode e).pst (if e.emulator then 0xD#4 else 0xC#4)).entryVector e).2
      let t := (s.atFrame e).entryFrame e (s.vectorOf e) s.cpu.sr
      if t.ms.writeError then t.faultOnFault
      else (t.setMs { t.ms with writeError := u.ms.writeError }).entryVectorFetch (s.vectorOf e) := by
  unfold State.takeException
  rw [h]
  rfl

/-- The machine when the frame is about to be written. -/
theorem State.atFrame_kept (s : State) (e : Entry) (hc : (s.intoMode e).cacheOff) :
    EntryKept (s.intoMode e) (s.atFrame e) ∧ (s.atFrame e).cpu.sr = entrySr s.cpu.sr e.irq &&& srMask ∧
      (s.atFrame e).super = true ∧ (s.atFrame e).ms.writeError = false ∧
      ∀ sp b, peekByte (s.intoMode e).route (s.atFrame e).ms sp false b
        = peekByte (s.intoMode e).route (s.intoMode e).ms sp false b := by
  obtain ⟨k1, k2, k3⟩ := State.entryMode_kept s e (if e.emulator then 0xD#4 else 0xC#4)
  obtain ⟨v1, v2, v3, v4⟩ := State.entryVector_kept k1 e
  have hsr : (s.atFrame e).cpu.sr = entrySr s.cpu.sr e.irq &&& srMask := v2.trans k2
  refine ⟨v1.setMs _, hsr, ?_, rfl, ?_⟩
  · unfold State.super
    rw [hsr]
    exact super_entrySr _ _
  · intro sp b
    refine (peekByte_writeError _ _ _ _ _).trans ?_
    rw [v4, k3, peekByte_drain hc]
    rfl

theorem frameAddr_eq (a : Long) : frameAddr a = (a - 8#32) &&& 0xFFFFFFFC#32 := rfl

/-- TAKING AN EXCEPTION (R505): all that it leaves, seen from the mode that it enters. -/
theorem State.takeException_intoMode {s : State} (e : Entry) (h : (s.intoMode e).CanEnter) :
    EntersAs (s.intoMode e) (s.takeException e) (entrySr s.cpu.sr e.irq &&& srMask) (s.vectorOf e) e.fs e.stackedPc ∧
      (s.takeException e).ms.writeError = ((((s.entryMode e).pst (if e.emulator then 0xD#4 else 0xC#4)).entryVector e).2).ms.writeError := by
  obtain ⟨hc, hw, hi⟩ := h
  obtain ⟨a1, a2, a3, a4, a5⟩ := State.atFrame_kept s e hc
  obtain ⟨f1, f2, f3⟩ := State.entryFrame_kept a1 a3 e (s.vectorOf e) s.cpu.sr
  have hi' : s.ev.inException = false := hi
  have hsr' : s.cpu.sr = (s.intoMode e).cpu.sr := rfl
  generalize s.intoMode e = w at *
  let m := (s.atFrame e).ms
  let m1 := writeOperand w.route m w.superSpace (frameAddr w.sp) .l (frameWord w.sp e.fs (s.vectorOf e) s.cpu.sr)
  have hw1 : ∀ i < 4, byteWritable w.route w.superSpace (frameAddr w.sp + BitVec.ofNat 32 i) := fun i hi => hw i (by omega)
  have hw2 : ∀ i < 4, byteWritable w.route w.superSpace (frameAddr w.sp + 4#32 + BitVec.ofNat 32 i) := by
    intro i hi
    have := hw (4 + i) (by omega)
    rwa [BitVec.ofNat_add, ← BitVec.add_assoc] at this
  have hwe : ((s.atFrame e).entryFrame e (s.vectorOf e) s.cpu.sr).ms.writeError = false := by
    rw [f3, writeOperand_writeError hc _ _ _ .l _ hw2, writeOperand_writeError hc _ _ _ .l _ hw1, a4]
  have hs3 : ((s.atFrame e).entryFrame e (s.vectorOf e) s.cpu.sr).super = true := by
    unfold State.super
    rw [f2]
    exact a3
  have heq := State.takeException_eq s e hi'
  simp only [hwe, Bool.false_eq_true, if_false] at heq
  rw [heq]
  obtain ⟨g1, g2, g3, g4, g5, g6, g7, g8, g9, g10, g11, g12⟩ := State.entryVectorFetch_leaves hc (f1.setMs
    { ((s.atFrame e).entryFrame e (s.vectorOf e) s.cpu.sr).ms with
      writeError := ((((s.entryMode e).pst (if e.emulator then 0xD#4 else 0xC#4)).entryVector e).2).ms.writeError }) hs3 (s.vectorOf e)
  generalize hu : ((s.atFrame e).entryFrame e (s.vectorOf e) s.cpu.sr).setMs
    { ((s.atFrame e).entryFrame e (s.vectorOf e) s.cpu.sr).ms with
      writeError := ((((s.entryMode e).pst (if e.emulator then 0xD#4 else 0xC#4)).entryVector e).2).ms.writeError } = t at *
  have hsp : ∀ x : State, x.getR = withReg w.getR (aNum spReg) (frameAddr w.sp) → x.sp = frameAddr w.sp := by
    intro x hx
    rw [show x.sp = x.getA spReg from rfl, ← State.getR_aNum, hx]
    simp [withReg]
  have hpk : ∀ b, peekByte w.route t.ms w.superSpace false b =
        peekByte w.route (writeOperand w.route m1 w.superSpace (frameAddr w.sp + 4#32) .l e.stackedPc) w.superSpace false b := by
    intro b
    rw [← hu]
    refine (peekByte_writeError _ _ _ _ _).trans ?_
    rw [f3]
  refine ⟨⟨?_, g2, ?_, ?_, g11, fun ho => ?_, g3, g4, g5, g6⟩, g10.trans (by rw [← hu]; rfl)⟩
  · rw [g1, ← hu]
    exact f2.trans a2
  · rw [hsp _ g2, ← hsr']
    unfold State.bytes
    rw [g7, g8]
    have e8 : ∀ (mm : MemSys), peekBytes w.route mm w.superSpace (frameAddr w.sp) 8 =
        peekBytes w.route mm w.superSpace (frameAddr w.sp) 4 ++ peekBytes w.route mm w.superSpace (frameAddr w.sp + 4#32) 4 :=
      fun mm => readBytes_append _ _ 4 4
    have hall : ∀ b, peekByte w.route (t.entryVectorFetch (s.vectorOf e)).ms w.superSpace false b =
        peekByte w.route (writeOperand w.route m1 w.superSpace (frameAddr w.sp + 4#32) .l e.stackedPc) w.superSpace false b := by
      intro b
      have := g9 b
      unfold State.peek at this
      rw [g7, g8] at this
      exact this.trans (hpk b)
    rw [peekBytes_congr hall, e8]
    congr 1
    · refine (peekBytes_eq (fun i hi => ?_)).trans (peekBytes_writeOperand hc m w.superSpace (frameAddr w.sp) .l _ hw1)
      refine peekByte_writeOperand_ne hc _ _ _ _ _ _ _ ?_
      intro j hj ee
      have : (4#32 : Long) = BitVec.ofNat 32 4 := rfl
      rw [BitVec.add_assoc, this, ← BitVec.ofNat_add] at ee
      have := add_ofNat_inj (by omega) (by simp [Size.bytes] at hj; omega) ee
      omega
    · exact peekBytes_writeOperand hc m1 w.superSpace (frameAddr w.sp + 4#32) .l _ hw2
  · intro b hb
    rw [hsp _ g2] at hb
    obtain ⟨o1, o2⟩ := outside_frame (n := 4) (k := 4) hb
    rw [g9, hpk, peekByte_writeOperand_ne hc _ _ _ _ .l _ _ o2, peekByte_writeOperand_ne hc _ _ _ _ .l _ _ o1, a5]
    rfl
  · obtain ⟨h1, h2, h3⟩ := g12 ho
    exact ⟨h1, h2, by rw [h3]⟩

/-- An exception that enters no emulator mode. -/
theorem State.takeException_entersAs {s : State} (h : s.CanEnter) (e : Entry) (he : e.emulator = false) :
    EntersAs s (s.takeException e) (entrySr s.cpu.sr e.irq &&& srMask) (s.vectorOf e) e.fs e.stackedPc ∧
      (s.takeException e).ms.writeError
        = ((((s.entryMode e).pst (if e.emulator then 0xD#4 else 0xC#4)).entryVector e).2).ms.writeError := by
  have h' := State.intoMode_eq s he
  have := State.takeException_intoMode e (h'.symm ▸ h)
  rwa [h'] at this

/-- States that an exception entry does not tell apart. -/
structure SameEntry (s t : State) : Prop where
  regs : t.getR = s.getR
  sr : t.cpu.sr = s.cpu.sr
  mac : t.mac = s.mac
  ctl : t.ctl = s.ctl
  dbg : t.dbg = s.dbg
  ev : t.ev = s.ev
  pins : t.pins = s.pins
  bdm : t.bdm = s.bdm
  mem : ∀ b, peekByte s.route t.ms s.superSpace false b = peekByte s.route s.ms s.superSpace false b

theorem SameEntry.sp {s t : State} (h : SameEntry s t) : t.sp = s.sp := by
  show t.getA spReg = s.getA spReg
  rw [← State.getR_aNum, h.regs, State.getR_aNum]

theorem SameEntry.route {s t : State} (h : SameEntry s t) : t.route = s.route := State.route_congr h.ctl h.pins h.ev h.dbg

theorem SameEntry.superSpace {s t : State} (h : SameEntry s t) : t.superSpace = s.superSpace := by
  unfold State.superSpace State.emuMap
  rw [h.ev, h.dbg]

theorem SameEntry.canEnter {s t : State} (h : SameEntry s t) (hs : s.CanEnter) : t.CanEnter := by
  refine ⟨?_, ?_, ?_⟩
  · unfold State.cacheOff
    rw [h.route]
    exact hs.cache
  · unfold State.frameWritable
    rw [h.route, h.superSpace, h.sp]
    exact hs.frame
  · rw [h.ev]
    exact hs.idle

theorem SameEntry.entersAs {s s' t : State} (h : SameEntry s s') {sr : Word} {v : Byte} {fs : BitVec 4} {pc : Long}
    (ht : EntersAs s' t sr v fs pc) : EntersAs s t sr v fs pc := by
  obtain ⟨h1, h2, h3, h4, h5, h6, h7, h8, h9, h10⟩ := ht
  refine ⟨h1, ?_, ?_, ?_, ?_, ?_, h7.trans h.mac, h8.trans h.ctl, h9.trans h.pins, h10.trans h.bdm⟩
  · rw [h2, h.regs, h.sp]
  · rw [h3, h.sp, h.sr]
  · intro b hb
    rw [h4 b hb]
    unfold State.peekIn
    rw [h.route, h.superSpace]
    exact h.mem b
  · rw [h.ctl, h.dbg, h.ev] at h5
    exact h5
  · rw [h.ctl, h.dbg] at h6
    exact h6

/-- The exceptions that are no interrupts, seen from the mode that they enter. -/
theorem State.takeException_enters_intoMode {s u : State} {e : Entry} (h : (s.intoMode e).CanEnter)
    (hu : SameEntry (s.intoMode e) (u.intoMode e)) (hi : e.irq = none) :
    Enters (s.intoMode e) (u.takeException e) e.vector e.fs e.stackedPc ∧
      (u.takeException e).ms.writeError = u.ms.writeError := by
  obtain ⟨h1, h2⟩ := State.takeException_intoMode e (hu.canEnter h)
  have hv : u.vectorOf e = e.vector := by
    unfold State.vectorOf State.entryVector
    rw [hi]
  have hsr : entrySr u.cpu.sr e.irq &&& srMask = handlerSr (s.intoMode e).cpu.sr := by
    rw [hi, ← hu.sr]
    rfl
  rw [hv, hsr] at h1
  refine ⟨hu.entersAs h1, h2.trans ?_⟩
  unfold State.entryVector
  rw [hi, (State.entryMode_kept u e _).2.2, drain_writeError]

/-- Those of them that enter no emulator mode. -/
theorem State.takeException_enters {s u : State} (h : s.CanEnter) (hu : SameEntry s u) {e : Entry}
    (he : e.emulator = false) (hi : e.irq = none) :
    Enters s (u.takeException e) e.vector e.fs e.stackedPc ∧ (u.takeException e).ms.writeError = u.ms.writeError := by
  have := State.takeException_enters_intoMode (s := s) (u := u) (e := e)
  rw [State.intoMode_eq s he, State.intoMode_eq u he] at this
  exact this h hu hi

theorem SameEntry.refl (s : State) : SameEntry s s := ⟨rfl, rfl, rfl, rfl, rfl, rfl, rfl, rfl, fun _ => rfl⟩

theorem SameEntry.pst (s : State) (v : BitVec 4) : SameEntry s (s.pst v) :=
  ⟨by simp, by simp, by simp, by simp, by simp, by simp, by simp, by simp, fun _ => by simp⟩

theorem SameEntry.drawn (s : State) : SameEntry s s.drawn :=
  ⟨by simp, by simp, by simp, by simp, by simp, by simp, by simp, by simp, fun _ => by simp⟩

/-- An exception with the instruction's own address stacked. -/
theorem State.raiseFault_enters {s : State} (h : s.CanEnter) (v : Byte) : Enters s (s.raiseFault v) v 0#4 s.cpu.pc :=
  (State.takeException_enters h (.refl s) rfl rfl).1

/-- The address error (R516). -/
theorem State.addressErrorAt_enters {s u : State} (h : s.CanEnter) (hu : SameEntry s u) (pc : Long) :
    EntersAddressError s (u.addressErrorAt pc) pc := by
  have hd : SameEntry s u.drawn :=
    ⟨by simpa using hu.regs, by simpa using hu.sr, by simpa using hu.mac, by simpa using hu.ctl, by simpa using hu.dbg,
      by simpa using hu.ev, by simpa using hu.pins, by simpa using hu.bdm, fun b => by simpa using hu.mem b⟩
  refine ⟨addressFs (Config.addressErrorFs u.free), ?_, (State.takeException_enters h hd rfl rfl).1⟩
  unfold addressFs
  split <;> simp

end Sys2Proof.Machine
end

