-- ==== Sys2Proof/Laws/Movem.lean ====
section
/-! SUPPORT. Sys2Proof/Laws/Movem.lean: what the transfers of MOVEM do (spec/40_data_movement.md R275 to R277): the stores are
one chain of aligned writes of the registers' bytes; the loads, while the cache is disabled, set the registers to the
longwords that reads show; nothing else changes but the memory system and the trace port. -/

namespace Sys2Proof.Machine

/-! ### One unit -/

theorem State.item_eq (s : State) (n : Nat) (v : Long) : s.item n v = { s with port := (s.item n v).port } := by
  unfold State.item State.event
  split <;> rfl

theorem State.store_eq (s : State) (a : Long) (sz : Size) (v : Long) :
    s.store a sz v = { s with ms := (s.store a sz v).ms, port := (s.store a sz v).port } := by
  unfold State.store State.showWrite
  split
  · rw [State.item_eq]
    rfl
  · rfl

theorem State.load_eq (s : State) (a : Long) (sz : Size) :
    (s.load a sz).2 = { s with ms := (s.load a sz).2.ms, port := (s.load a sz).2.port } := by
  unfold State.load State.showRead
  split
  · rw [State.item_eq]
    rfl
  · rfl

/-- Storing a unit changes the memory system and the trace port alone. -/
theorem storeUnit_eq (s : State) (a : Long) (ks : List RegX) :
    storeUnit s a ks = { s with ms := (storeUnit s a ks).ms, port := (storeUnit s a ks).port } := by
  unfold storeUnit
  split
  · exact State.store_eq ..
  · rfl

/-- Storing registers changes the memory system and the trace port alone. -/
theorem storeRegs_eq (s : State) (a : Long) (ks : List RegX) :
    storeRegs s a ks = { s with ms := (storeRegs s a ks).ms, port := (storeRegs s a ks).port } := by
  unfold storeRegs
  generalize movemUnits a ks = us
  induction us generalizing s with
  | nil => rfl
  | cons u t ih =>
    rw [List.foldl_cons, ih, storeUnit_eq]

/-! ### Stores -/

theorem writePieces_append (r : Route) (m : MemSys) (sp : Space) (l l' : List (Long × Nat)) (bs bs' : List Byte)
    (h : (l.map (·.2)).sum = bs.length) :
    writePieces r m sp (l ++ l') (bs ++ bs') = writePieces r (writePieces r m sp l bs) sp l' bs' := by
  induction l generalizing m bs with
  | nil =>
    obtain rfl : bs = [] := List.eq_nil_of_length_eq_zero h.symm
    rfl
  | cons c t ih =>
    obtain ⟨a, n⟩ := c
    simp only [List.map_cons, List.sum_cons] at h
    have hn : n ≤ bs.length := by omega
    simp only [List.cons_append, writePieces]
    rw [List.take_append_of_le_length hn, List.drop_append_of_le_length hn, ih _ _ (by simp; omega)]

theorem chained_append {a : Long} {l l' : List (Long × Nat)} (h : Chained a l)
    (h' : Chained (a + BitVec.ofNat 32 (l.map (·.2)).sum) l') : Chained a (l ++ l') := by
  induction l generalizing a with
  | nil => simpa using h'
  | cons c t ih =>
    refine ⟨h.1, ih h.2 ?_⟩
    rwa [List.map_cons, List.sum_cons, BitVec.ofNat_add, ← BitVec.add_assoc] at h'

/-- An address whose low four bits are zero. -/
theorem line_aligned {a : Long} (h : a.extractLsb' 0 4 = 0#4) : a.toNat % 16 = 0 := by
  have := congrArg BitVec.toNat h
  simpa using this

/-- Storing registers is one chain of aligned writes from the address on, of the registers' bytes in order. -/
theorem storeRegs_ms (s : State) (a : Long) (ks : List RegX) :
    ∃ l : List (Long × Nat), (∀ c ∈ l, Aligned c) ∧ Chained a l ∧ (l.map (·.2)).sum = 4 * ks.length ∧
      (storeRegs s a ks).ms =
        writePieces s.route s.ms s.dataSpace l (ks.flatMap fun k => beBytes 4 (s.getR k)) := by
  -- one unit first, then the rest by the induction hypothesis of the state after it
  have step : ∀ (s : State) (a : Long) (us : List RegX) (rest : List RegX) (p : List (Long × Nat)),
      (∀ c ∈ p, Aligned c) → Chained a p → (p.map (·.2)).sum = 4 * us.length →
      (storeUnit s a us).ms = writePieces s.route s.ms s.dataSpace p (us.flatMap fun k => beBytes 4 (s.getR k)) →
      (∃ l : List (Long × Nat), (∀ c ∈ l, Aligned c) ∧ Chained (a + BitVec.ofNat 32 (4 * us.length)) l ∧
        (l.map (·.2)).sum = 4 * rest.length ∧
        (storeRegs (storeUnit s a us) (a + BitVec.ofNat 32 (4 * us.length)) rest).ms =
          writePieces (storeUnit s a us).route (storeUnit s a us).ms (storeUnit s a us).dataSpace l
            (rest.flatMap fun k => beBytes 4 ((storeUnit s a us).getR k))) →
      ∃ l : List (Long × Nat), (∀ c ∈ l, Aligned c) ∧ Chained a l ∧
        (l.map (·.2)).sum = 4 * (us ++ rest).length ∧
        (storeRegs (storeUnit s a us) (a + BitVec.ofNat 32 (4 * us.length)) rest).ms =
          writePieces s.route s.ms s.dataSpace l ((us ++ rest).flatMap fun k => beBytes 4 (s.getR k)) := by
    intro s a us rest p h1 h2 h3 h4 ⟨l, g1, g2, g3, g4⟩
    have er : (storeUnit s a us).route = s.route := by rw [storeUnit_eq]; rfl
    have ed : (storeUnit s a us).dataSpace = s.dataSpace := by rw [storeUnit_eq]; rfl
    have eg : (storeUnit s a us).getR = s.getR := by rw [storeUnit_eq]; rfl
    refine ⟨p ++ l, ?_, chained_append h2 (h3 ▸ g2), by simp [h3, g3]; omega, ?_⟩
    · intro c hc
      rcases List.mem_append.mp hc with h | h
      · exact h1 c h
      · exact g1 c h
    · rw [g4, er, ed, eg, h4, List.flatMap_append, writePieces_append]
      rw [h3]
      clear * -
      induction us with
      | nil => rfl
      | cons k t ih => simp only [List.length_cons, List.flatMap_cons, List.length_append, beBytes_length, ← ih]; omega
  have one : ∀ (s : State) (a : Long) (k : RegX),
      (∀ c ∈ pieces a .l, Aligned c) ∧ Chained a (pieces a .l) ∧ ((pieces a .l).map (·.2)).sum = 4 * [k].length ∧
      (storeUnit s a [k]).ms =
        writePieces s.route s.ms s.dataSpace (pieces a .l) ([k].flatMap fun k => beBytes 4 (s.getR k)) := by
    intro s a k
    refine ⟨pieces_aligned a .l, pieces_chained a .l, pieces_sum a .l, ?_⟩
    simp only [storeUnit, State.ms_store, List.flatMap_cons, List.flatMap_nil, List.append_nil]
    rfl
  induction a, ks using movemUnits.induct generalizing s with
  | case1 a k0 k1 k2 k3 t h ih =>
    have e : storeRegs s a (k0 :: k1 :: k2 :: k3 :: t) = storeRegs (storeUnit s a [k0, k1, k2, k3]) (a + 16#32) t := by
      simp [storeRegs, movemUnits, h]
    rw [e]
    refine step s a [k0, k1, k2, k3] t [(a, 16)] ?_ ⟨rfl, trivial⟩ rfl ?_ (ih _)
    · intro c hc
      obtain rfl := List.mem_singleton.mp hc
      exact ⟨by simp, line_aligned h⟩
    · rfl
  | case2 a k0 k1 k2 k3 t h ih =>
    have e : storeRegs s a (k0 :: k1 :: k2 :: k3 :: t) =
        storeRegs (storeUnit s a [k0]) (a + 4#32) (k1 :: k2 :: k3 :: t) := by
      simp [storeRegs, movemUnits, h]
    obtain ⟨h1, h2, h3, h4⟩ := one s a k0
    rw [e]
    exact step s a [k0] _ _ h1 h2 h3 h4 (ih _)
  | case3 a k t h ih =>
    have e : storeRegs s a (k :: t) = storeRegs (storeUnit s a [k]) (a + 4#32) t := by
      unfold storeRegs
      rw [movemUnits.eq_2 _ _ _ h]
      rfl
    obtain ⟨h1, h2, h3, h4⟩ := one s a k
    rw [e]
    exact step s a [k] _ _ h1 h2 h3 h4 (ih _)
  | case4 a => exact ⟨[], by simp, trivial, rfl, rfl⟩

/-! ### Loads -/

/-- A register file with registers set to the longwords of successive addresses. -/
def regsFrom (g : RegX → Long) (longAt : Long → Long) (a : Long) : List RegX → RegX → Long
  | [] => g
  | k :: t => regsFrom (withReg g k (longAt a)) longAt (a + 4#32) t

/-- What setting registers changes: the register file alone. -/
theorem setRegs_spec (s : State) (ks : List RegX) (vs : List Long) :
    (setRegs s ks vs).cpu.pc = s.cpu.pc ∧ (setRegs s ks vs).cpu.sr = s.cpu.sr ∧ (setRegs s ks vs).ms = s.ms ∧
      (setRegs s ks vs).port = s.port ∧ SameUnits s (setRegs s ks vs) := by
  induction ks generalizing s vs with
  | nil => exact ⟨rfl, rfl, rfl, rfl, rfl, rfl, rfl, rfl, rfl, rfl, rfl⟩
  | cons k t ih =>
    cases vs with
    | nil => exact ⟨rfl, rfl, rfl, rfl, rfl, rfl, rfl, rfl, rfl, rfl, rfl⟩
    | cons v vs =>
      obtain ⟨h1, h2, h3, h4, h5⟩ := ih (s.setR k v) vs
      have hp : (s.setR k v).port = s.port := by unfold State.setR; split <;> rfl
      have hf : (s.setR k v).free = s.free := by unfold State.setR; split <;> rfl
      refine ⟨by rw [setRegs, h1]; simp, by rw [setRegs, h2]; simp, by rw [setRegs, h3]; simp, by rw [setRegs, h4, hp],
        ?_⟩
      exact ⟨h5.mac.trans (by simp), h5.ctl.trans (by simp), h5.dbg.trans (by simp), h5.ev.trans (by simp),
        h5.pins.trans (by simp), h5.bdm.trans (by simp), h5.free.trans hf⟩

/-- Loading a unit changes general registers, the memory system and the trace port alone. -/
theorem loadUnit_frame (s : State) (a : Long) (ks : List RegX) :
    (loadUnit s a ks).cpu.pc = s.cpu.pc ∧ (loadUnit s a ks).cpu.sr = s.cpu.sr ∧ SameUnits s (loadUnit s a ks) := by
  unfold loadUnit
  split
  · have h := setRegs_spec (s.load a .l).2 [‹RegX›] [(s.load a .l).1]
    obtain ⟨h1, h2, -, -, h5⟩ := h
    exact ⟨h1.trans (by simp), h2.trans (by simp), h5.mac.trans (by simp), h5.ctl.trans (by simp),
      h5.dbg.trans (by simp), h5.ev.trans (by simp), h5.pins.trans (by simp), h5.bdm.trans (by simp),
      h5.free.trans (by simp)⟩
  · obtain ⟨h1, h2, -, -, h5⟩ := setRegs_spec (s.loadLine a).2 ks (s.loadLine a).1
    exact ⟨h1, h2, h5.mac, h5.ctl, h5.dbg, h5.ev, h5.pins, h5.bdm, h5.free⟩

/-- Loading registers changes general registers, the memory system and the trace port alone. -/
theorem loadRegs_frame (s : State) (a : Long) (ks : List RegX) :
    (loadRegs s a ks).cpu.pc = s.cpu.pc ∧ (loadRegs s a ks).cpu.sr = s.cpu.sr ∧ SameUnits s (loadRegs s a ks) := by
  unfold loadRegs
  generalize movemUnits a ks = us
  induction us generalizing s with
  | nil => exact ⟨rfl, rfl, rfl, rfl, rfl, rfl, rfl, rfl, rfl⟩
  | cons u t ih =>
    obtain ⟨h1, h2, h3⟩ := ih (loadUnit s u.1 u.2)
    obtain ⟨g1, g2, g3⟩ := loadUnit_frame s u.1 u.2
    exact ⟨h1.trans g1, h2.trans g2, h3.mac.trans g3.mac, h3.ctl.trans g3.ctl, h3.dbg.trans g3.dbg, h3.ev.trans g3.ev,
      h3.pins.trans g3.pins, h3.bdm.trans g3.bdm, h3.free.trans g3.free⟩

/-- The four longwords of a line. -/
theorem loadLine_val {s : State} (h : s.cacheOff) {a : Long} (ha : a.extractLsb' 0 4 = 0#4) :
    (s.loadLine a).1 =
      [s.longAt a, s.longAt (a + 4#32), s.longAt (a + 4#32 + 4#32), s.longAt (a + 4#32 + 4#32 + 4#32)] := by
  have hl : ∀ c ∈ [(a, 16)], Aligned c := by
    intro c hc
    obtain rfl := List.mem_singleton.mp hc
    exact ⟨by simp, line_aligned ha⟩
  change longsOf (readPieces s.route s.ms s.dataSpace [(a, 16)]).1 = _
  rw [readPieces_val h _ _ _ hl]
  have e : ∀ (g : Nat → Byte) (a : Long), readBytes g a 16 =
      readBytes g a 4 ++ (readBytes g (a + 4#32) 4 ++ (readBytes g (a + 4#32 + 4#32) 4 ++
        readBytes g (a + 4#32 + 4#32 + 4#32) 4)) := by
    intro g a
    rw [show 16 = 4 + (4 + (4 + 4)) from rfl, readBytes_append, readBytes_append, readBytes_append]
  simp only [List.flatMap_cons, List.flatMap_nil, List.append_nil, peekBytes, e]
  rfl

/-- While the cache is disabled, loading a unit sets its registers to the longwords that reads show, and changes nothing
that a read shows. -/
theorem loadUnit_spec {s : State} (h : s.cacheOff) (a : Long) (ks : List RegX)
    (hk : (∃ k, ks = [k]) ∨ (∃ k0 k1 k2 k3, ks = [k0, k1, k2, k3]) ∧ a.extractLsb' 0 4 = 0#4) :
    (loadUnit s a ks).getR = regsFrom s.getR s.longAt a ks ∧
      ∀ sp b, peekByte s.route (loadUnit s a ks).ms sp false b = peekByte s.route s.ms sp false b := by
  rcases hk with ⟨k, rfl⟩ | ⟨⟨k0, k1, k2, k3, rfl⟩, ha⟩
  · refine ⟨?_, fun sp b => ?_⟩
    · simp only [loadUnit, State.getR_setR, State.getR_load, regsFrom, State.load_val, readOperand_val h]
      rfl
    · simp only [loadUnit, State.ms_setR, State.ms_load]
      exact peekByte_readOperand h _ _ _ _ _ _
  · refine ⟨?_, fun sp b => ?_⟩
    · simp only [loadUnit, loadLine_val h ha, setRegs, State.getR_setR, regsFrom]
      rfl
    · obtain ⟨-, -, h3, -⟩ := setRegs_spec (s.loadLine a).2 [k0, k1, k2, k3] (s.loadLine a).1
      simp only [loadUnit, h3]
      exact peekByte_readPieces h s.ms s.dataSpace sp [(a, 16)] b

/-- While the cache is disabled, loading registers sets them to the longwords that reads show at successive addresses, and
changes nothing that a read shows. -/
theorem loadRegs_spec {s : State} (h : s.cacheOff) (a : Long) (ks : List RegX) :
    (loadRegs s a ks).getR = regsFrom s.getR s.longAt a ks ∧
      ∀ sp b, peekByte s.route (loadRegs s a ks).ms sp false b = peekByte s.route s.ms sp false b := by
  have step : ∀ (s : State) (_ : s.cacheOff) (a : Long) (us rest : List RegX),
      ((∃ k, us = [k]) ∨ (∃ k0 k1 k2 k3, us = [k0, k1, k2, k3]) ∧ a.extractLsb' 0 4 = 0#4) →
      (∀ u : State, u.cacheOff →
        (loadRegs u (a + BitVec.ofNat 32 (4 * us.length)) rest).getR =
            regsFrom u.getR u.longAt (a + BitVec.ofNat 32 (4 * us.length)) rest ∧
          ∀ sp b, peekByte u.route (loadRegs u (a + BitVec.ofNat 32 (4 * us.length)) rest).ms sp false b =
            peekByte u.route u.ms sp false b) →
      (loadRegs (loadUnit s a us) (a + BitVec.ofNat 32 (4 * us.length)) rest).getR =
          regsFrom s.getR s.longAt a (us ++ rest) ∧
        ∀ sp b, peekByte s.route (loadRegs (loadUnit s a us) (a + BitVec.ofNat 32 (4 * us.length)) rest).ms sp false b =
          peekByte s.route s.ms sp false b := by
    intro s h a us rest hk ih
    obtain ⟨-, f2, f3⟩ := loadUnit_frame s a us
    obtain ⟨g1, g2⟩ := loadUnit_spec h a us hk
    have er : (loadUnit s a us).route = s.route := State.route_congr f3.ctl f3.pins f3.ev f3.dbg
    have ed : (loadUnit s a us).dataSpace = s.dataSpace :=
      State.dataSpace_congr f3.ev f3.dbg (by simp only [State.super, f2])
    have el : (loadUnit s a us).longAt = s.longAt := by
      funext b
      unfold State.longAt State.bytes
      rw [er, ed, peekBytes_congr (fun c => g2 _ c)]
    obtain ⟨i1, i2⟩ := ih (loadUnit s a us) (by unfold State.cacheOff; rw [er]; exact h)
    refine ⟨?_, fun sp b => ?_⟩
    · rw [i1, g1, el]
      rcases hk with ⟨k, rfl⟩ | ⟨⟨k0, k1, k2, k3, rfl⟩, -⟩
      · rfl
      · simp only [List.cons_append, List.nil_append, regsFrom, List.length_cons, List.length_nil]
        congr 1
        simp only [BitVec.add_assoc]
        rfl
    · rw [er] at i2
      rw [i2, g2]
  induction a, ks using movemUnits.induct generalizing s with
  | case1 a k0 k1 k2 k3 t hal ih =>
    have e : loadRegs s a (k0 :: k1 :: k2 :: k3 :: t) = loadRegs (loadUnit s a [k0, k1, k2, k3]) (a + 16#32) t := by
      simp [loadRegs, movemUnits, hal]
    rw [e]
    exact step s h a [k0, k1, k2, k3] t (.inr ⟨⟨k0, k1, k2, k3, rfl⟩, hal⟩) (fun _ hu => ih hu)
  | case2 a k0 k1 k2 k3 t hal ih =>
    have e : loadRegs s a (k0 :: k1 :: k2 :: k3 :: t) = loadRegs (loadUnit s a [k0]) (a + 4#32) (k1 :: k2 :: k3 :: t) := by
      simp [loadRegs, movemUnits, hal]
    rw [e]
    exact step s h a [k0] _ (.inl ⟨k0, rfl⟩) (fun _ hu => ih hu)
  | case3 a k t hne ih =>
    have e : loadRegs s a (k :: t) = loadRegs (loadUnit s a [k]) (a + 4#32) t := by
      unfold loadRegs
      rw [movemUnits.eq_2 _ _ _ hne]
      rfl
    rw [e]
    exact step s h a [k] _ (.inl ⟨k, rfl⟩) (fun _ hu => ih hu)
  | case4 a => exact ⟨rfl, fun _ _ => rfl⟩

end Sys2Proof.Machine
end

