-- ==== Sys2Proof/Laws/PerInstr.lean ====
section
/-! SUPPORT. Sys2Proof/Laws/PerInstr.lean: the statements made for every instruction. EncodeLength: an instruction takes one
to three words (spec/30_encoding.md R200, R203). -/

namespace Sys2Proof.Laws.EncodeLength

open Sys2Proof.Machine

/-- An instruction that the encoding admits takes one, two or three words (R200). -/
def Statement (i : Instr) : Prop := i.encodable = true → 1 ≤ (encode i).length ∧ (encode i).length ≤ 3

theorem words_le (e : Ea) : (Enc.eaWords e).length ≤ 2 := by cases e <;> simp [Enc.eaWords]
theorem words_short (e : Ea) (h : eaShort e = true) : (Enc.eaWords e).length ≤ 1 := by
  cases e <;> simp_all [eaShort, Enc.eaWords]
theorem words_load (e : Ea) (h : eaLoad e = true) : (Enc.eaWords e).length ≤ 1 := by
  cases e <;> simp_all [eaLoad, Enc.eaWords]
theorem words_base (e : Ea) (h : eaBase e = true) : (Enc.eaWords e).length ≤ 1 := by
  cases e <;> simp_all [eaBase, Enc.eaWords]
theorem words_move (sz : Size) (s d : Ea) (h : moveOk sz s d = true) :
    (Enc.eaWords s ++ Enc.eaWords d).length ≤ 2 := by
  cases s <;> cases d <;> simp_all [moveOk, eaShort, eaDataAlter, eaMemAlter, Enc.eaWords]

/-- One word and those of an effective address. -/
theorem of_ea {i : Instr} {w : Word} {e : Ea} (h : encode i = w :: Enc.eaWords e) : Statement i := by
  intro _
  have := words_le e
  simp only [h, List.length_cons]
  omega

/-- Two words and those of an effective address that has at most one. -/
theorem of_two {i : Instr} {w x : Word} {e : Ea} (h : encode i = w :: x :: Enc.eaWords e)
    (hl : i.encodable = true → (Enc.eaWords e).length ≤ 1) : Statement i := by
  intro hi
  have := hl hi
  simp only [h, List.length_cons]
  omega

/-- One word and those of the two effective addresses of a MOVE. -/
theorem of_move {i : Instr} {w : Word} {s d : Ea} (sz : Size) (h : encode i = w :: (Enc.eaWords s ++ Enc.eaWords d))
    (hm : i.encodable = true → moveOk sz s d = true) : Statement i := by
  intro hi
  have := words_move sz s d (hm hi)
  simp only [h, List.length_cons]
  omega

/-- Words that are listed. -/
theorem of_len {i : Instr} (h : (Nat.ble 1 (encode i).length && Nat.ble (encode i).length 3) = true) : Statement i := by
  intro _
  rw [Bool.and_eq_true] at h
  exact ⟨Nat.le_of_ble_eq_true h.1, Nat.le_of_ble_eq_true h.2⟩

theorem of_branch {i : Instr} {b : Word} {d : Disp} (h : encode i = Enc.branch b d) : Statement i := by
  intro _
  rw [h]
  cases d <;> simp [Enc.branch]

theorem oriL (x0 : Reg) (x1 : Long) : Statement (.oriL x0 x1) := of_len rfl
theorem andiL (x0 : Reg) (x1 : Long) : Statement (.andiL x0 x1) := of_len rfl
theorem subiL (x0 : Reg) (x1 : Long) : Statement (.subiL x0 x1) := of_len rfl
theorem addiL (x0 : Reg) (x1 : Long) : Statement (.addiL x0 x1) := of_len rfl
theorem eoriL (x0 : Reg) (x1 : Long) : Statement (.eoriL x0 x1) := of_len rfl
theorem cmpiL (x0 : Reg) (x1 : Long) : Statement (.cmpiL x0 x1) := of_len rfl
theorem btstI (x0 : Byte) (x1 : Byte) (x2 : Ea) : Statement (.btstI x0 x1 x2) := of_two rfl (words_short _)
theorem bchgI (x0 : Byte) (x1 : Byte) (x2 : Ea) : Statement (.bchgI x0 x1 x2) := of_two rfl (words_short _)
theorem bclrI (x0 : Byte) (x1 : Byte) (x2 : Ea) : Statement (.bclrI x0 x1 x2) := of_two rfl (words_short _)
theorem bsetI (x0 : Byte) (x1 : Byte) (x2 : Ea) : Statement (.bsetI x0 x1 x2) := of_two rfl (words_short _)
theorem btstD (x0 : Reg) (x1 : Ea) : Statement (.btstD x0 x1) := of_ea rfl
theorem bchgD (x0 : Reg) (x1 : Ea) : Statement (.bchgD x0 x1) := of_ea rfl
theorem bclrD (x0 : Reg) (x1 : Ea) : Statement (.bclrD x0 x1) := of_ea rfl
theorem bsetD (x0 : Reg) (x1 : Ea) : Statement (.bsetD x0 x1) := of_ea rfl
theorem moveB (x0 : Ea) (x1 : Ea) : Statement (.moveB x0 x1) :=
  of_move .b rfl id
theorem moveL (x0 : Ea) (x1 : Ea) : Statement (.moveL x0 x1) :=
  of_move .l rfl id
theorem moveaL (x0 : Ea) (x1 : Reg) : Statement (.moveaL x0 x1) := of_ea rfl
theorem moveW (x0 : Ea) (x1 : Ea) : Statement (.moveW x0 x1) :=
  of_move .w rfl id
theorem moveaW (x0 : Ea) (x1 : Reg) : Statement (.moveaW x0 x1) := of_ea rfl
theorem negxL (x0 : Reg) : Statement (.negxL x0) := of_len rfl
theorem moveFromSr (x0 : Reg) : Statement (.moveFromSr x0) := of_len rfl
theorem lea (x0 : Ea) (x1 : Reg) : Statement (.lea x0 x1) := of_ea rfl
theorem clrB (x0 : Ea) : Statement (.clrB x0) := of_ea rfl
theorem clrW (x0 : Ea) : Statement (.clrW x0) := of_ea rfl
theorem clrL (x0 : Ea) : Statement (.clrL x0) := of_ea rfl
theorem moveFromCcr (x0 : Reg) : Statement (.moveFromCcr x0) := of_len rfl
theorem negL (x0 : Reg) : Statement (.negL x0) := of_len rfl
theorem moveToCcrD (x0 : Reg) : Statement (.moveToCcrD x0) := of_len rfl
theorem moveToCcrI (x0 : Word) : Statement (.moveToCcrI x0) := of_len rfl
theorem notL (x0 : Reg) : Statement (.notL x0) := of_len rfl
theorem moveToSrD (x0 : Reg) : Statement (.moveToSrD x0) := of_len rfl
theorem moveToSrI (x0 : Word) : Statement (.moveToSrI x0) := of_len rfl
theorem swap (x0 : Reg) : Statement (.swap x0) := of_len rfl
theorem pea (x0 : Ea) : Statement (.pea x0) := of_ea rfl
theorem extW (x0 : Reg) : Statement (.extW x0) := of_len rfl
theorem extL (x0 : Reg) : Statement (.extL x0) := of_len rfl
theorem extbL (x0 : Reg) : Statement (.extbL x0) := of_len rfl
theorem movemStore (x0 : Word) (x1 : Ea) : Statement (.movemStore x0 x1) := of_two rfl (words_base _)
theorem movemLoad (x0 : Word) (x1 : Ea) : Statement (.movemLoad x0 x1) := of_two rfl (words_base _)
theorem tstB (x0 : Ea) : Statement (.tstB x0) := of_ea rfl
theorem tstW (x0 : Ea) : Statement (.tstW x0) := of_ea rfl
theorem tstL (x0 : Ea) : Statement (.tstL x0) := of_ea rfl
theorem halt : Statement (.halt) := of_len rfl
theorem pulse : Statement (.pulse) := of_len rfl
theorem illegal : Statement (.illegal) := of_len rfl
theorem muluL (x0 : BitVec 12) (x1 : Reg) (x2 : Ea) : Statement (.muluL x0 x1 x2) := of_two rfl (words_short _)
theorem mulsL (x0 : BitVec 12) (x1 : Reg) (x2 : Ea) : Statement (.mulsL x0 x1 x2) := of_two rfl (words_short _)
theorem divuL (x0 : BitVec 9) (x1 : Reg) (x2 : Ea) : Statement (.divuL x0 x1 x2) := of_two rfl (words_short _)
theorem divsL (x0 : BitVec 9) (x1 : Reg) (x2 : Ea) : Statement (.divsL x0 x1 x2) := of_two rfl (words_short _)
theorem remuL (x0 : BitVec 9) (x1 : Reg) (x2 : Reg) (x3 : Ea) : Statement (.remuL x0 x1 x2 x3) :=
  of_two rfl fun h => words_short _ (Bool.and_eq_true_iff.mp h).1
theorem remsL (x0 : BitVec 9) (x1 : Reg) (x2 : Reg) (x3 : Ea) : Statement (.remsL x0 x1 x2 x3) :=
  of_two rfl fun h => words_short _ (Bool.and_eq_true_iff.mp h).1
theorem trap (x0 : BitVec 4) : Statement (.trap x0) := of_len rfl
theorem link (x0 : Reg) (x1 : Word) : Statement (.link x0 x1) := of_len rfl
theorem unlk (x0 : Reg) : Statement (.unlk x0) := of_len rfl
theorem nop : Statement (.nop) := of_len rfl
theorem stop (x0 : Word) : Statement (.stop x0) := of_len rfl
theorem rte : Statement (.rte) := of_len rfl
theorem rts : Statement (.rts) := of_len rfl
theorem movec (x0 : RegX) (x1 : BitVec 12) : Statement (.movec x0 x1) := of_len rfl
theorem jsr (x0 : Ea) : Statement (.jsr x0) := of_ea rfl
theorem jmp (x0 : Ea) : Statement (.jmp x0) := of_ea rfl
theorem addqL (x0 : Reg) (x1 : Ea) : Statement (.addqL x0 x1) := of_ea rfl
theorem subqL (x0 : Reg) (x1 : Ea) : Statement (.subqL x0 x1) := of_ea rfl
theorem scc (x0 : BitVec 4) (x1 : Reg) : Statement (.scc x0 x1) := of_len rfl
theorem trapfW (x0 : Word) : Statement (.trapfW x0) := of_len rfl
theorem trapfL (x0 : Word) (x1 : Word) : Statement (.trapfL x0 x1) := of_len rfl
theorem trapf : Statement (.trapf) := of_len rfl
theorem bra (x0 : Disp) : Statement (.bra x0) := of_branch rfl
theorem bsr (x0 : Disp) : Statement (.bsr x0) := of_branch rfl
theorem bcc (x0 : BitVec 4) (x1 : Disp) : Statement (.bcc x0 x1) := of_branch rfl
theorem moveq (x0 : Byte) (x1 : Reg) : Statement (.moveq x0 x1) := of_len rfl
theorem orToD (x0 : Ea) (x1 : Reg) : Statement (.orToD x0 x1) := of_ea rfl
theorem divuW (x0 : Ea) (x1 : Reg) : Statement (.divuW x0 x1) := of_ea rfl
theorem orToEa (x0 : Reg) (x1 : Ea) : Statement (.orToEa x0 x1) := of_ea rfl
theorem divsW (x0 : Ea) (x1 : Reg) : Statement (.divsW x0 x1) := of_ea rfl
theorem subToD (x0 : Ea) (x1 : Reg) : Statement (.subToD x0 x1) := of_ea rfl
theorem subxL (x0 : Reg) (x1 : Reg) : Statement (.subxL x0 x1) := of_len rfl
theorem subToEa (x0 : Reg) (x1 : Ea) : Statement (.subToEa x0 x1) := of_ea rfl
theorem subaL (x0 : Ea) (x1 : Reg) : Statement (.subaL x0 x1) := of_ea rfl
theorem macW (x0 : BitVec 10) (x1 : BitVec 2) (x2 : Bool) (x3 : Bool) (x4 : RegX) (x5 : RegX) : Statement (.macW x0 x1 x2 x3 x4 x5) :=
  of_len rfl
theorem macL (x0 : BitVec 10) (x1 : BitVec 2) (x2 : Bool) (x3 : Bool) (x4 : RegX) (x5 : RegX) : Statement (.macL x0 x1 x2 x3 x4 x5) :=
  of_len rfl
theorem msacW (x0 : BitVec 10) (x1 : BitVec 2) (x2 : Bool) (x3 : Bool) (x4 : RegX) (x5 : RegX) : Statement (.msacW x0 x1 x2 x3 x4 x5) :=
  of_len rfl
theorem msacL (x0 : BitVec 10) (x1 : BitVec 2) (x2 : Bool) (x3 : Bool) (x4 : RegX) (x5 : RegX) : Statement (.msacL x0 x1 x2 x3 x4 x5) :=
  of_len rfl
theorem macWLoad (x0 : Bool) (x1 : BitVec 2) (x2 : Bool) (x3 : Bool) (x4 : Bool) (x5 : RegX) (x6 : RegX) (x7 : RegX) (x8 : Ea) : Statement (.macWLoad x0 x1 x2 x3 x4 x5 x6 x7 x8) :=
  of_two rfl (words_load _)
theorem macLLoad (x0 : Bool) (x1 : BitVec 2) (x2 : Bool) (x3 : Bool) (x4 : Bool) (x5 : RegX) (x6 : RegX) (x7 : RegX) (x8 : Ea) : Statement (.macLLoad x0 x1 x2 x3 x4 x5 x6 x7 x8) :=
  of_two rfl (words_load _)
theorem msacWLoad (x0 : Bool) (x1 : BitVec 2) (x2 : Bool) (x3 : Bool) (x4 : Bool) (x5 : RegX) (x6 : RegX) (x7 : RegX) (x8 : Ea) : Statement (.msacWLoad x0 x1 x2 x3 x4 x5 x6 x7 x8) :=
  of_two rfl (words_load _)
theorem msacLLoad (x0 : Bool) (x1 : BitVec 2) (x2 : Bool) (x3 : Bool) (x4 : Bool) (x5 : RegX) (x6 : RegX) (x7 : RegX) (x8 : Ea) : Statement (.msacLLoad x0 x1 x2 x3 x4 x5 x6 x7 x8) :=
  of_two rfl (words_load _)
theorem moveToAcc (x0 : Ea) : Statement (.moveToAcc x0) := of_ea rfl
theorem moveFromAcc (x0 : RegX) : Statement (.moveFromAcc x0) := of_len rfl
theorem moveToMacsr (x0 : Ea) : Statement (.moveToMacsr x0) := of_ea rfl
theorem moveFromMacsr (x0 : RegX) : Statement (.moveFromMacsr x0) := of_len rfl
theorem moveMacsrToCcr : Statement (.moveMacsrToCcr) := of_len rfl
theorem moveToMask (x0 : Ea) : Statement (.moveToMask x0) := of_ea rfl
theorem moveFromMask (x0 : RegX) : Statement (.moveFromMask x0) := of_len rfl
theorem cmpL (x0 : Ea) (x1 : Reg) : Statement (.cmpL x0 x1) := of_ea rfl
theorem eorToEa (x0 : Reg) (x1 : Ea) : Statement (.eorToEa x0 x1) := of_ea rfl
theorem cmpaL (x0 : Ea) (x1 : Reg) : Statement (.cmpaL x0 x1) := of_ea rfl
theorem andToD (x0 : Ea) (x1 : Reg) : Statement (.andToD x0 x1) := of_ea rfl
theorem muluW (x0 : Ea) (x1 : Reg) : Statement (.muluW x0 x1) := of_ea rfl
theorem andToEa (x0 : Reg) (x1 : Ea) : Statement (.andToEa x0 x1) := of_ea rfl
theorem mulsW (x0 : Ea) (x1 : Reg) : Statement (.mulsW x0 x1) := of_ea rfl
theorem addToD (x0 : Ea) (x1 : Reg) : Statement (.addToD x0 x1) := of_ea rfl
theorem addxL (x0 : Reg) (x1 : Reg) : Statement (.addxL x0 x1) := of_len rfl
theorem addToEa (x0 : Reg) (x1 : Ea) : Statement (.addToEa x0 x1) := of_ea rfl
theorem addaL (x0 : Ea) (x1 : Reg) : Statement (.addaL x0 x1) := of_ea rfl
theorem asrI (x0 : Reg) (x1 : Reg) : Statement (.asrI x0 x1) := of_len rfl
theorem lsrI (x0 : Reg) (x1 : Reg) : Statement (.lsrI x0 x1) := of_len rfl
theorem asrD (x0 : Reg) (x1 : Reg) : Statement (.asrD x0 x1) := of_len rfl
theorem lsrD (x0 : Reg) (x1 : Reg) : Statement (.lsrD x0 x1) := of_len rfl
theorem aslI (x0 : Reg) (x1 : Reg) : Statement (.aslI x0 x1) := of_len rfl
theorem lslI (x0 : Reg) (x1 : Reg) : Statement (.lslI x0 x1) := of_len rfl
theorem aslD (x0 : Reg) (x1 : Reg) : Statement (.aslD x0 x1) := of_len rfl
theorem lslD (x0 : Reg) (x1 : Reg) : Statement (.lslD x0 x1) := of_len rfl
theorem cpushl (x0 : Reg) : Statement (.cpushl x0) := of_len rfl
theorem wddataB (x0 : Ea) : Statement (.wddataB x0) := of_ea rfl
theorem wddataW (x0 : Ea) : Statement (.wddataW x0) := of_ea rfl
theorem wddataL (x0 : Ea) : Statement (.wddataL x0) := of_ea rfl
theorem wdebug (x0 : Word) (x1 : Ea) : Statement (.wdebug x0 x1) := of_two rfl (words_base _)

end Sys2Proof.Laws.EncodeLength
end

