-- ==== Sys2Proof/Tests/Slice0.lean ====
section
/-! SUPPORT. Sys2Proof/Tests/Slice0.lean: checks of the model on fixed values. The words are those of the encoding table
(spec/30_encoding.md R239), the starts and ends those of spec/95_test_vectors.md, whose names the comments give; the
last part shows, for each statement with hypotheses, a state that meets them. -/

namespace Sys2Proof.Tests

open Sys2Proof.Machine

/-! ### Well-formedness -/

/-- Effective addresses an instruction does not accept (R211, R212). -/
theorem test_wf_ea :
    [Instr.btstI 0#8 0#8 (.idx 0#3 0x0800#16), .bchgI 0#8 0#8 (.absW 0#16), .bclrI 0#8 0#8 (.an 0#3),
      .bsetI 0#8 0#8 (.pcDisp 0#16), .btstD 0#3 (.immW 0#16), .btstD 0#3 (.an 0#3), .bchgD 0#3 (.pcDisp 0#16),
      .bclrD 0#3 (.an 0#3), .bsetD 0#3 (.immW 0#16), .moveB (.an 0#3) (.dn 0#3), .moveL (.immL 1#32) (.absW 0x4000#16),
      .moveW (.disp 0#3 0#16) (.idx 0#3 0x0800#16), .moveL (.dn 0#3) (.an 0#3), .moveL (.immW 0#16) (.dn 0#3),
      .moveaW (.immL 0#32) 0#3, .moveaL (.immW 0#16) 0#3, .lea (.dn 0#3) 0#3, .pea (.postinc 0#3), .jsr (.predec 0#3),
      .jmp (.immL 0#32), .clrB (.pcDisp 0#16), .clrW (.an 0#3), .clrL (.immL 0#32), .movemStore 0#16 (.predec 0#3),
      .movemLoad 0#16 (.postinc 0#3), .tstB (.an 0#3), .tstW (.immL 0#32), .tstL (.immW 0#16),
      .muluL 0#12 0#3 (.absW 0#16), .mulsL 0#12 0#3 (.an 0#3), .divuL 0#9 0#3 (.immL 0#32), .divsL 0#9 0#3 (.pcDisp 0#16),
      .addqL 1#3 (.pcDisp 0#16), .subqL 1#3 (.immL 0#32)].all (fun i => !i.wf) = true := by decide

/-- The rest of the effective addresses, and fields that select another row (R208, R382, R430). -/
theorem test_wf_fields :
    [Instr.orToD (.an 0#3) 0#3, .andToD (.immW 0#16) 0#3, .divuW (.an 0#3) 0#3, .divsW (.immL 0#32) 0#3,
      .muluW (.an 0#3) 0#3, .mulsW (.an 0#3) 0#3, .orToEa 0#3 (.dn 0#3), .andToEa 0#3 (.dn 0#3), .subToEa 0#3 (.dn 0#3),
      .addToEa 0#3 (.dn 0#3), .eorToEa 0#3 (.an 0#3), .subToD (.immW 0#16) 0#3, .addToD (.immW 0#16) 0#3,
      .cmpL (.immW 0#16) 0#3, .subaL (.immW 0#16) 0#3, .addaL (.immW 0#16) 0#3, .cmpaL (.immW 0#16) 0#3,
      .macWLoad false 0#2 false false false 0#4 0#4 0#4 (.absW 0#16), .macLLoad false 0#2 false false false 0#4 0#4 0#4 (.dn 0#3),
      .msacWLoad false 0#2 false false false 0#4 0#4 0#4 (.an 0#3),
      .msacLLoad false 0#2 false false false 0#4 0#4 0#4 (.idx 0#3 0x0800#16), .moveToAcc (.ind 0#3),
      .moveToMacsr (.immW 0#16), .moveToMask (.pcDisp 0#16), .wddataB (.dn 0#3), .wddataW (.pcDisp 0#16),
      .wddataL (.immL 0#32), .wdebug 3#16 (.postinc 0#3), .remuL 0#9 1#3 1#3 (.dn 0#3), .remsL 0#9 1#3 1#3 (.dn 0#3),
      .bra (.d8 0#8), .bsr (.d8 0#8), .bcc 6#4 (.d8 0#8), .bcc 0#4 (.d8 4#8), .bcc 1#4 (.d16 4#16)].all
      (fun i => !i.wf) = true := by decide

/-- Reserved bits and codes of extension words (R202): encodable, but not well formed. -/
theorem test_wf_extension :
    [Instr.btstI 1#8 0#8 (.dn 0#3), .bchgI 1#8 0#8 (.dn 0#3), .bclrI 1#8 0#8 (.dn 0#3), .bsetI 1#8 0#8 (.dn 0#3),
      .muluL 1#12 0#3 (.dn 0#3), .mulsL 1#12 0#3 (.dn 0#3), .divuL 1#9 0#3 (.dn 0#3), .divsL 1#9 0#3 (.dn 0#3),
      .remuL 1#9 1#3 0#3 (.dn 0#3), .remsL 1#9 1#3 0#3 (.dn 0#3), .macW 1#10 0#2 false false 0#4 0#4,
      .macL 0#10 2#2 false false 0#4 0#4, .msacW 0#10 2#2 false false 0#4 0#4, .msacL 1#10 0#2 false false 0#4 0#4,
      .macWLoad true 0#2 false false false 0#4 0#4 0#4 (.ind 0#3), .macLLoad false 2#2 false false false 0#4 0#4 0#4 (.ind 0#3),
      .msacWLoad false 2#2 false false false 0#4 0#4 0#4 (.ind 0#3),
      .msacLLoad true 0#2 false false false 0#4 0#4 0#4 (.ind 0#3), .movec 0#4 3#12, .wdebug 2#16 (.ind 0#3)].all
      (fun i => i.encodable && !i.wf) = true := by decide

/-! ### Decoding, from words written out from the rows of R239 -/

theorem test_decode_line0 :
    [([0x0083#16, 0x1234#16, 0x5678#16], Instr.oriL 3#3 0x12345678#32), ([0x0285#16, 0#16, 0xFF#16], .andiL 5#3 0xFF#32),
      ([0x0481#16, 0#16, 5#16], .subiL 1#3 5#32), ([0x0680#16, 0#16, 1#16], .addiL 0#3 1#32),
      ([0x0A87#16, 0xFFFF#16, 0#16], .eoriL 7#3 0xFFFF0000#32), ([0x0C80#16, 0#16, 1#16], .cmpiL 0#3 1#32),
      ([0x0810#16, 9#16], .btstI 0#8 9#8 (.ind 0#3)), ([0x086A#16, 0#16, 4#16], .bchgI 0#8 0#8 (.disp 2#3 4#16)),
      ([0x0884#16, 3#16], .bclrI 0#8 3#8 (.dn 4#3)), ([0x08E3#16, 7#16], .bsetI 0#8 7#8 (.predec 3#3)),
      ([0x0538#16, 0x4000#16], .btstD 2#3 (.absW 0x4000#16)), ([0x073A#16, 0x10#16], .btstD 3#3 (.pcDisp 0x10#16)),
      ([0x035D#16], .bchgD 1#3 (.postinc 5#3)), ([0x0181#16], .bclrD 0#3 (.dn 1#3)),
      ([0x0FF1#16, 0x3802#16], .bsetD 7#3 (.idx 1#3 0x3802#16))].all (fun p => decodeWords p.1 == .ok p.2) = true := by
  decide

theorem test_decode_move :
    [([0x101F#16], Instr.moveB (.postinc 7#3) (.dn 0#3)), ([0x1501#16], .moveB (.dn 1#3) (.predec 2#3)),
      ([0x20D8#16], .moveL (.postinc 0#3) (.postinc 0#3)), ([0x2569#16, 4#16, 8#16], .moveL (.disp 1#3 4#16) (.disp 2#3 8#16)),
      ([0x2739#16, 1#16, 0x2344#16], .moveL (.absL 0x00012344#32) (.predec 3#3)),
      ([0x203C#16, 0x1234#16, 0x5678#16], .moveL (.immL 0x12345678#32) (.dn 0#3)), ([0x2243#16], .moveaL (.dn 3#3) 1#3),
      ([0x303C#16, 0x8000#16], .moveW (.immW 0x8000#16) (.dn 0#3)), ([0x3243#16], .moveaW (.dn 3#3) 1#3),
      ([0x70FF#16], .moveq 0xFF#8 0#3), ([0x7E00#16], .moveq 0#8 7#3)].all (fun p => decodeWords p.1 == .ok p.2) = true := by
  decide

theorem test_decode_line4 :
    [([0x4086#16], Instr.negxL 6#3), ([0x40C2#16], .moveFromSr 2#3), ([0x41F1#16, 0x2C04#16], .lea (.idx 1#3 0x2C04#16) 0#3),
      ([0x4210#16], .clrB (.ind 0#3)), ([0x4243#16], .clrW (.dn 3#3)), ([0x4298#16], .clrL (.postinc 0#3)),
      ([0x42C0#16], .moveFromCcr 0#3), ([0x4480#16], .negL 0#3), ([0x44C1#16], .moveToCcrD 1#3),
      ([0x44FC#16, 0xFF1F#16], .moveToCcrI 0xFF1F#16), ([0x4680#16], .notL 0#3), ([0x46C5#16], .moveToSrD 5#3),
      ([0x46FC#16, 0x2700#16], .moveToSrI 0x2700#16), ([0x4847#16], .swap 7#3), ([0x486F#16, 8#16], .pea (.disp 7#3 8#16)),
      ([0x4882#16], .extW 2#3), ([0x48C5#16], .extL 5#3), ([0x49C1#16], .extbL 1#3),
      ([0x48D7#16, 0x0103#16], .movemStore 0x0103#16 (.ind 7#3)),
      ([0x4CE9#16, 0x0600#16, 4#16], .movemLoad 0x0600#16 (.disp 1#3 4#16)), ([0x4A10#16], .tstB (.ind 0#3)),
      ([0x4A4A#16], .tstW (.an 2#3)), ([0x4ABC#16, 0#16, 1#16], .tstL (.immL 1#32)), ([0x4AC8#16], .halt),
      ([0x4ACC#16], .pulse), ([0x4AFC#16], .illegal)].all (fun p => decodeWords p.1 == .ok p.2) = true := by decide

theorem test_decode_control :
    [([0x4E4F#16], Instr.trap 15#4), ([0x4E56#16, 0xFFF8#16], .link 6#3 0xFFF8#16), ([0x4E5E#16], .unlk 6#3),
      ([0x4E71#16], .nop), ([0x4E72#16, 0x2000#16], .stop 0x2000#16), ([0x4E73#16], .rte), ([0x4E75#16], .rts),
      ([0x4E7B#16, 0x8002#16], .movec 8#4 0x002#12), ([0x4EB9#16, 0#16, 0x4000#16], .jsr (.absL 0x4000#32)),
      ([0x4ED0#16], .jmp (.ind 0#3)), ([0x5088#16], .addqL 0#3 (.an 0#3)), ([0x5380#16], .subqL 1#3 (.dn 0#3)),
      ([0x57C0#16], .scc 7#4 0#3), ([0x51FA#16, 0x1234#16], .trapfW 0x1234#16),
      ([0x51FB#16, 0x1234#16, 0x5678#16], .trapfL 0x1234#16 0x5678#16), ([0x51FC#16], .trapf), ([0x6006#16], .bra (.d8 6#8)),
      ([0x6000#16, 0xFFFE#16], .bra (.d16 0xFFFE#16)), ([0x60FF#16], .bra (.d8 0xFF#8)),
      ([0x6100#16, 0x0100#16], .bsr (.d16 0x0100#16)), ([0x6704#16], .bcc 7#4 (.d8 4#8)),
      ([0x6600#16, 0x10#16], .bcc 6#4 (.d16 0x10#16)), ([0x41FB#16, 0x0804#16], .lea (.pcIdx 0x0804#16) 0#3),
      ([0xF4EB#16], .cpushl 3#3), ([0xFB10#16], .wddataB (.ind 0#3)), ([0xFB59#16], .wddataW (.postinc 1#3)),
      ([0xFBA2#16], .wddataL (.predec 2#3)), ([0xFBE9#16, 3#16, 8#16], .wdebug 3#16 (.disp 1#3 8#16))].all
      (fun p => decodeWords p.1 == .ok p.2) = true := by decide

theorem test_decode_arithmetic :
    [([0x8081#16], Instr.orToD (.dn 1#3) 0#3), ([0x8390#16], .orToEa 1#3 (.ind 0#3)), ([0x9081#16], .subToD (.dn 1#3) 0#3),
      ([0x9181#16], .subxL 1#3 0#3), ([0x9590#16], .subToEa 2#3 (.ind 0#3)), ([0x9FFC#16, 0#16, 0x20#16], .subaL (.immL 0x20#32) 7#3),
      ([0xB0BC#16, 0#16, 7#16], .cmpL (.immL 7#32) 0#3), ([0xB180#16], .eorToEa 0#3 (.dn 0#3)),
      ([0xB1FC#16, 0#16, 0x1000#16], .cmpaL (.immL 0x1000#32) 0#3), ([0xC0BC#16, 0xF0F#16, 0xF0F#16], .andToD (.immL 0x0F0F0F0F#32) 0#3),
      ([0xC390#16], .andToEa 1#3 (.ind 0#3)), ([0xD081#16], .addToD (.dn 1#3) 0#3), ([0xD181#16], .addxL 1#3 0#3),
      ([0xD590#16], .addToEa 2#3 (.ind 0#3)), ([0xD3FC#16, 0#16, 0x10#16], .addaL (.immL 0x10#32) 1#3),
      ([0xE280#16], .asrI 1#3 0#3), ([0xE088#16], .lsrI 0#3 0#3), ([0xE2A0#16], .asrD 1#3 0#3), ([0xE2A8#16], .lsrD 1#3 0#3),
      ([0xE380#16], .aslI 1#3 0#3), ([0xE388#16], .lslI 1#3 0#3), ([0xE5A3#16], .aslD 2#3 3#3), ([0xE3A8#16], .lslD 1#3 0#3)].all
      (fun p => decodeWords p.1 == .ok p.2) = true := by decide

theorem test_decode_multiply :
    [([0x4C01#16, 0#16], Instr.muluL 0#12 0#3 (.dn 1#3)), ([0x4C10#16, 0x3800#16], .mulsL 0#12 3#3 (.ind 0#3)),
      ([0x4C41#16, 0#16], .divuL 0#9 0#3 (.dn 1#3)), ([0x4C68#16, 0x2802#16, 4#16], .divsL 0#9 2#3 (.disp 0#3 4#16)),
      ([0x4C41#16, 2#16], .remuL 0#9 2#3 0#3 (.dn 1#3)), ([0x4C41#16, 0x0802#16], .remsL 0#9 2#3 0#3 (.dn 1#3)),
      ([0x80FC#16, 2#16], .divuW (.immW 2#16) 0#3), ([0x81FC#16, 7#16], .divsW (.immW 7#16) 0#3),
      ([0xC0FC#16, 0xFFFF#16], .muluW (.immW 0xFFFF#16) 0#3), ([0xC1FC#16, 2#16], .mulsW (.immW 2#16) 0#3),
      ([0xA641#16, 0#16], .macW 0#10 0#2 false false 11#4 1#4), ([0xA001#16, 0x0AC0#16], .macL 0#10 1#2 true true 0#4 1#4),
      ([0xA001#16, 0x0180#16], .msacW 0#10 0#2 true false 0#4 1#4), ([0xA00F#16, 0x0F40#16], .msacL 0#10 3#2 false true 0#4 15#4),
      ([0xA498#16, 0x0021#16], .macWLoad false 0#2 false false true 0#4 1#4 2#4 (.postinc 0#3)),
      ([0xA090#16, 0xD801#16], .macLLoad false 0#2 false false false 13#4 1#4 0#4 (.ind 0#3)),
      ([0xA0E8#16, 0x0101#16, 4#16], .msacWLoad false 0#2 false false false 0#4 1#4 8#4 (.disp 0#3 4#16)),
      ([0xA6A1#16, 0x0900#16], .msacLLoad false 0#2 false false false 0#4 0#4 3#4 (.predec 1#3)),
      ([0xA13C#16, 0#16, 0#16], .moveToAcc (.immL 0#32)), ([0xA188#16], .moveFromAcc 8#4), ([0xA90A#16], .moveToMacsr (.an 2#3)),
      ([0xA980#16], .moveFromMacsr 0#4), ([0xA9C0#16], .moveMacsrToCcr), ([0xAD3C#16, 0x1234#16, 0xFF#16], .moveToMask (.immL 0x123400FF#32)),
      ([0xAD8F#16], .moveFromMask 15#4)].all (fun p => decodeWords p.1 == .ok p.2) = true := by decide

/-- Vectors DM8, DM9, DM29, IA35, IA36, BT8: operation words of no row. -/
theorem test_decode_illegal :
    [[0x21FC#16, 0#16, 1#16], [0x1008#16], [0x48E0#16, 1#16], [0x4A08#16], [0xD041#16], [0x0830#16, 0#16, 0#16]].all
      (fun ws => decodeWords ws == .illegal) = true := by decide

/-- Vectors MA22, SC24. -/
theorem test_decode_lines : decodeWords [0xA010#16] = .lineA ∧ decodeWords [0xF000#16] = .lineF := by decide

/-! ### One step -/

/-- The start of the vectors: supervisor, SR $2700, the instruction at $1000, everything else as after reset. -/
def start : State := State.reset.readyToRun.setPc 0x1000#32

/-- The start with D0, D1 and A0. -/
def start3 (d0 d1 a0 : Long) : State := ((start.setD 0#3 d0).setD 1#3 d1).setA 0#3 a0

/-- A longword placed in memory. -/
def put (s : State) (a v : Long) : State := s.placeCode a [v.extractLsb' 16 16, v.extractLsb' 0 16]

/-- What is seen of the state after one step, the instruction's words standing at the PC. -/
def seen {α : Type} (f : State → α) (s : State) (ws : List Word) : Option α :=
  match step (s.placeCode s.cpu.pc ws) with
  | .next t => some (f t)
  | _ => none

/-- D0 and the CCR. -/
def d0ccr (t : State) : Long × Byte := (t.getD 0#3, t.ccr)

/-! Data movement -/

/-- Vector DM1. -/
theorem test_moveB_low :
    seen d0ccr (start3 0xFFFFFFFF#32 0x12345680#32 0x00000000#32) [0x1001#16]
      = some (0xFFFFFF80#32, 0x08#8) := by decide

/-- Vector DM2. -/
theorem test_moveW_immediate :
    seen d0ccr (start3 0x12345678#32 0x00000000#32 0x00000000#32) [0x303C#16, 0x8000#16]
      = some (0x12348000#32, 0x08#8) := by decide

/-- Vector DM4. -/
theorem test_moveL_postinc_twice :
    seen (fun t => (t.longAt 0x1104#32, t.getA 0#3)) (put (start3 0#32 0#32 0x1100#32) 0x1100#32 0xDEADBEEF#32) [0x20D8#16]
      = some (0xDEADBEEF#32, 0x00001108#32) := by decide

/-- Vector DM6. -/
theorem test_moveB_sp_by_one :
    seen (fun t => (t.getD 0#3, t.sp)) ((start.setSp 0x3000#32).placeCode 0x3000#32 [0x8000#16]) [0x101F#16]
      = some (0x00000080#32, 0x00003001#32) := by decide

/-- Vector DM7. -/
theorem test_moveL_misaligned :
    seen (fun t => t.bytes 0x2001#32 4) (start3 0x11223344#32 0#32 0x2001#32) [0x2080#16]
      = some [0x11#8, 0x22#8, 0x33#8, 0x44#8] := by decide

/-- Vector DM10. -/
theorem test_movea_word :
    seen (fun t => (t.getA 1#3, t.ccr)) (start.setA 1#3 0x12345678#32) [0x327C#16, 0x8000#16]
      = some (0xFFFF8000#32, 0#8) := by decide

/-- MOVEA.L (R262). -/
theorem test_moveaL :
    seen (fun t => (t.getA 1#3, t.ccr)) (start3 0x80000000#32 0#32 0#32) [0x2240#16]
      = some (0x80000000#32, 0#8) := by decide

/-- Vector DM12. -/
theorem test_moveq_negative :
    seen d0ccr (start3 0x00000000#32 0x00000000#32 0x00000000#32) [0x70FF#16]
      = some (0xFFFFFFFF#32, 0x08#8) := by decide

/-- Vector DM14. -/
theorem test_moveq_positive :
    seen d0ccr (start3 0x00000000#32 0x00000000#32 0x00000000#32) [0x707F#16]
      = some (0x0000007F#32, 0x00#8) := by decide

/-- Vector DM15. -/
theorem test_clrW :
    seen (fun t => (t.getD 3#3, t.ccr)) (start.setD 3#3 0x12345678#32) [0x4243#16]
      = some (0x12340000#32, 0x04#8) := by decide

/-- Vector DM16. -/
theorem test_clrB_memory :
    seen (fun t => t.longAt 0x1100#32) (put (start3 0#32 0#32 0x1100#32) 0x1100#32 0xFFFFFFFF#32) [0x4210#16]
      = some 0x00FFFFFF#32 := by decide

/-- CLR.L (R270). -/
theorem test_clrL_memory :
    seen (fun t => (t.longAt 0x1100#32, t.ccr)) (put (start3 0#32 0#32 0x1100#32) 0x1100#32 0xFFFFFFFF#32) [0x4290#16]
      = some (0#32, 0x04#8) := by decide

/-- Vector DM17. -/
theorem test_lea_pc :
    seen (fun t => (t.getA 0#3, t.cpu.pc)) start [0x41FA#16, 0x0010#16]
      = some (0x00001012#32, 0x00001004#32) := by decide

/-- Vector DM19. -/
theorem test_lea_index :
    seen (fun t => t.getA 0#3) ((start.setA 1#3 0x1000#32).setD 2#3 0xFFFFFFFF#32) [0x41F1#16, 0x2AFE#16]
      = some 0x00000FFC#32 := by decide

/-- Vector DM23. -/
theorem test_pea_sp :
    seen (fun t => (t.longAt 0x1FFC#32, t.sp)) (start.setSp 0x2000#32) [0x486F#16, 0x0008#16]
      = some (0x00002008#32, 0x00001FFC#32) := by decide

/-- Vector DM24. -/
theorem test_link :
    seen (fun t => (t.longAt 0x2FFC#32, t.getA 6#3, t.sp)) ((start.setSp 0x3000#32).setA 6#3 0xAAAA0000#32) [0x4E56#16, 0xFFF8#16]
      = some (0xAAAA0000#32, 0x00002FFC#32, 0x00002FF4#32) := by decide

/-- Vector DM25. -/
theorem test_unlk :
    seen (fun t => (t.getA 6#3, t.sp)) (put ((start.setSp 0x2FF4#32).setA 6#3 0x2FFC#32) 0x2FFC#32 0xAAAA0000#32) [0x4E5E#16]
      = some (0xAAAA0000#32, 0x00003000#32) := by decide

/-- Vector DM26. -/
theorem test_movem_store :
    seen (fun t => (t.longAt 0x4000#32, t.longAt 0x4004#32, t.longAt 0x4008#32)) ((start3 0x11#32 0x22#32 0x33#32).setSp 0x4000#32) [0x48D7#16, 0x0103#16]
      = some (0x11#32, 0x22#32, 0x33#32) := by decide

/-- Vector DM28. -/
theorem test_movem_load_base :
    seen (fun t => (t.getA 1#3, t.getA 2#3)) (put (put (start.setA 1#3 0x5000#32) 0x5004#32 0x6000#32) 0x5008#32 9#32) [0x4CE9#16, 0x0600#16, 0x0004#16]
      = some (0x00006000#32, 9#32) := by decide

/-! Integer arithmetic -/

/-- Vector IA1. -/
theorem test_add_overflow :
    seen d0ccr (start3 0x7FFFFFFF#32 0x00000001#32 0x00000000#32) [0xD081#16]
      = some (0x80000000#32, 0x0A#8) := by decide

/-- Vector IA2. -/
theorem test_add_carry :
    seen d0ccr (start3 0x80000000#32 0x80000000#32 0x00000000#32) [0xD081#16]
      = some (0x00000000#32, 0x17#8) := by decide

/-- Vector IA4. -/
theorem test_add_memory :
    seen (fun t => (t.longAt 0x1100#32, t.ccr)) (put ((start3 0#32 0#32 0x1100#32).setD 2#3 1#32) 0x1100#32 0xFFFFFFFF#32) [0xD590#16]
      = some (0#32, 0x15#8) := by decide

/-- Vector IA5. -/
theorem test_adda_flags :
    seen (fun t => (t.getA 1#3, t.ccr)) ((start.setA 1#3 0x1000#32).setCcr 0x1F#8) [0xD3FC#16, 0#16, 0x10#16]
      = some (0x00001010#32, 0x1F#8) := by decide

/-- Vector IA6. -/
theorem test_addi :
    seen d0ccr (start3 0xFFFFFFFF#32 0x00000000#32 0x00000000#32) [0x0680#16, 0x0000#16, 0x0001#16]
      = some (0x00000000#32, 0x15#8) := by decide

/-- Vector IA7. -/
theorem test_addq_address :
    seen (fun t => (t.getA 0#3, t.ccr)) (start3 0#32 0#32 0xFFFFFFFC#32) [0x5088#16]
      = some (4#32, 0#8) := by decide

/-- Vector IA8. -/
theorem test_addq_eight :
    seen d0ccr (start3 0xFFFFFFF8#32 0x00000000#32 0x00000000#32) [0x5080#16]
      = some (0x00000000#32, 0x15#8) := by decide

/-- Vector IA9. -/
theorem test_addx_zero :
    seen d0ccr ((start3 0xFFFFFFFF#32 0x00000000#32 0x00000000#32).setCcr 0x14#8) [0xD181#16]
      = some (0x00000000#32, 0x15#8) := by decide

/-- Vector IA10. -/
theorem test_addx_clears_z :
    seen d0ccr ((start3 0x00000000#32 0x00000000#32 0x00000000#32).setCcr 0x14#8) [0xD181#16]
      = some (0x00000001#32, 0x00#8) := by decide

/-- Vector IA12. -/
theorem test_sub_borrow :
    seen d0ccr (start3 0x00000000#32 0x00000001#32 0x00000000#32) [0x9081#16]
      = some (0xFFFFFFFF#32, 0x19#8) := by decide

/-- Vector IA13. -/
theorem test_sub_overflow :
    seen d0ccr (start3 0x80000000#32 0x00000001#32 0x00000000#32) [0x9081#16]
      = some (0x7FFFFFFF#32, 0x02#8) := by decide

/-- Vector IA14. -/
theorem test_sub_memory :
    seen (fun t => (t.longAt 0x1100#32, t.ccr)) (put ((start3 0#32 0#32 0x1100#32).setD 2#3 1#32) 0x1100#32 0x80000000#32) [0x9590#16]
      = some (0x7FFFFFFF#32, 0x02#8) := by decide

/-- Vector IA15. -/
theorem test_suba_sp :
    seen (fun t => (t.sp, t.ccr)) (start.setSp 0x2000#32) [0x9FFC#16, 0#16, 0x20#16]
      = some (0x00001FE0#32, 0#8) := by decide

/-- Vector IA16. -/
theorem test_suba_itself :
    seen (fun t => (t.getA 0#3, t.ccr)) (start3 0#32 0#32 0x12345678#32) [0x91C8#16]
      = some (0#32, 0#8) := by decide

/-- Vector IA17. -/
theorem test_subi :
    seen d0ccr (start3 0x00000005#32 0x00000000#32 0x00000000#32) [0x0480#16, 0x0000#16, 0x0005#16]
      = some (0x00000000#32, 0x04#8) := by decide

/-- Vector IA18. -/
theorem test_subq :
    seen d0ccr (start3 0x00000000#32 0x00000000#32 0x00000000#32) [0x5380#16]
      = some (0xFFFFFFFF#32, 0x19#8) := by decide

/-- Vector IA20. -/
theorem test_subx :
    seen d0ccr ((start3 0x00000000#32 0x00000000#32 0x00000000#32).setCcr 0x14#8) [0x9181#16]
      = some (0xFFFFFFFF#32, 0x19#8) := by decide

/-- Vector IA21. -/
theorem test_cmp :
    seen d0ccr ((start3 0x00000005#32 0x00000000#32 0x00000000#32).setCcr 0x10#8) [0xB0BC#16, 0x0000#16, 0x0007#16]
      = some (0x00000005#32, 0x19#8) := by decide

/-- Vector IA23. -/
theorem test_cmpa :
    seen d0ccr (start3 0x00000000#32 0x00000000#32 0x00001000#32) [0xB1FC#16, 0x0000#16, 0x1000#16]
      = some (0x00000000#32, 0x04#8) := by decide

/-- Vector IA24. -/
theorem test_cmpi :
    seen d0ccr (start3 0x80000000#32 0x00000000#32 0x00000000#32) [0x0C80#16, 0x0000#16, 0x0001#16]
      = some (0x80000000#32, 0x02#8) := by decide

/-- Vector IA26. -/
theorem test_neg_min :
    seen d0ccr (start3 0x80000000#32 0x00000000#32 0x00000000#32) [0x4480#16]
      = some (0x80000000#32, 0x1B#8) := by decide

/-- Vector IA27. -/
theorem test_neg_zero :
    seen d0ccr (start3 0x00000000#32 0x00000000#32 0x00000000#32) [0x4480#16]
      = some (0x00000000#32, 0x04#8) := by decide

/-- Vector IA28. -/
theorem test_negx :
    seen d0ccr ((start3 0x00000000#32 0x00000000#32 0x00000000#32).setCcr 0x14#8) [0x4080#16]
      = some (0xFFFFFFFF#32, 0x19#8) := by decide

/-- Vector IA29. -/
theorem test_negx_zero :
    seen d0ccr ((start3 0x00000000#32 0x00000000#32 0x00000000#32).setCcr 0x04#8) [0x4080#16]
      = some (0x00000000#32, 0x04#8) := by decide

/-- Vector IA30. -/
theorem test_extW :
    seen d0ccr (start3 0x12340080#32 0x00000000#32 0x00000000#32) [0x4880#16]
      = some (0x1234FF80#32, 0x08#8) := by decide

/-- Vector IA31. -/
theorem test_extL :
    seen d0ccr (start3 0x12348000#32 0x00000000#32 0x00000000#32) [0x48C0#16]
      = some (0xFFFF8000#32, 0x08#8) := by decide

/-- Vector IA32. -/
theorem test_extbL :
    seen d0ccr (start3 0x1234567F#32 0x00000000#32 0x00000000#32) [0x49C0#16]
      = some (0x0000007F#32, 0x00#8) := by decide

/-- Vector IA33. -/
theorem test_tstW :
    seen d0ccr (start3 0xFFFF0000#32 0x00000000#32 0x00000000#32) [0x4A40#16]
      = some (0xFFFF0000#32, 0x04#8) := by decide

/-- Vector IA34. -/
theorem test_tstL :
    seen d0ccr (start3 0xFFFF0000#32 0x00000000#32 0x00000000#32) [0x4A80#16]
      = some (0xFFFF0000#32, 0x08#8) := by decide

/-- Vector R321, X kept; TST.B. -/
theorem test_tstB_x :
    seen d0ccr ((start3 0x00000080#32 0x00000000#32 0x00000000#32).setCcr 0x13#8) [0x4A00#16]
      = some (0x00000080#32, 0x18#8) := by decide

/-! Logic, shifts, bits -/

/-- Vector LG1. -/
theorem test_and :
    seen d0ccr (start3 0xFFFF00FF#32 0x00000000#32 0x00000000#32) [0xC0BC#16, 0x0F0F#16, 0x0F0F#16]
      = some (0x0F0F000F#32, 0x00#8) := by decide

/-- Vector LG2. -/
theorem test_and_memory :
    seen (fun t => (t.longAt 0x1100#32, t.ccr)) (put (start3 0#32 0xFFFF#32 0x1100#32) 0x1100#32 0xF0F0F0F0#32) [0xC390#16]
      = some (0x0000F0F0#32, 0#8) := by decide

/-- Vector LG3. -/
theorem test_andi :
    seen d0ccr (start3 0x12345678#32 0x00000000#32 0x00000000#32) [0x0280#16, 0x0000#16, 0x00FF#16]
      = some (0x00000078#32, 0x00#8) := by decide

/-- Vector LG4. -/
theorem test_or :
    seen d0ccr (start3 0x000000F0#32 0x8000000F#32 0x00000000#32) [0x8081#16]
      = some (0x800000FF#32, 0x08#8) := by decide

/-- Vector LG5. -/
theorem test_or_memory :
    seen (fun t => (t.longAt 0x1100#32, t.ccr)) (start3 0#32 0#32 0x1100#32) [0x8390#16]
      = some (0#32, 0x04#8) := by decide

/-- Vector LG6. -/
theorem test_ori :
    seen d0ccr (start3 0x00000001#32 0x00000000#32 0x00000000#32) [0x0080#16, 0x8000#16, 0x0000#16]
      = some (0x80000001#32, 0x08#8) := by decide

/-- Vector LG7. -/
theorem test_eor_itself :
    seen d0ccr (start3 0x12345678#32 0x00000000#32 0x00000000#32) [0xB180#16]
      = some (0x00000000#32, 0x04#8) := by decide

/-- Vector LG8. -/
theorem test_eori :
    seen d0ccr (start3 0xFFFFFFFF#32 0x00000000#32 0x00000000#32) [0x0A80#16, 0xFFFF#16, 0xFFFF#16]
      = some (0x00000000#32, 0x04#8) := by decide

/-- Vector LG9. -/
theorem test_not :
    seen d0ccr (start3 0x00000000#32 0x00000000#32 0x00000000#32) [0x4680#16]
      = some (0xFFFFFFFF#32, 0x08#8) := by decide

/-- Vector LG10. -/
theorem test_swap :
    seen d0ccr (start3 0x12348765#32 0x00000000#32 0x00000000#32) [0x4840#16]
      = some (0x87651234#32, 0x08#8) := by decide

/-- Vector SH1. -/
theorem test_asl :
    seen d0ccr (start3 0x40000001#32 0x00000000#32 0x00000000#32) [0xE380#16]
      = some (0x80000002#32, 0x08#8) := by decide

/-- Vector SH2. -/
theorem test_asl_eight :
    seen d0ccr (start3 0x01FFFFFF#32 0x00000000#32 0x00000000#32) [0xE180#16]
      = some (0xFFFFFF00#32, 0x19#8) := by decide

/-- Vector SH3. -/
theorem test_asr :
    seen d0ccr (start3 0x80000003#32 0x00000000#32 0x00000000#32) [0xE280#16]
      = some (0xC0000001#32, 0x19#8) := by decide

/-- Vector SH4. -/
theorem test_asr_forty :
    seen d0ccr (start3 0x80000000#32 0x00000028#32 0x00000000#32) [0xE2A0#16]
      = some (0xFFFFFFFF#32, 0x19#8) := by decide

/-- Vector SH5. -/
theorem test_asr_thirtytwo :
    seen d0ccr (start3 0x7FFFFFFF#32 0x00000020#32 0x00000000#32) [0xE2A0#16]
      = some (0x00000000#32, 0x04#8) := by decide

/-- Vector SH6. -/
theorem test_lsl :
    seen d0ccr (start3 0x80000000#32 0x00000000#32 0x00000000#32) [0xE388#16]
      = some (0x00000000#32, 0x15#8) := by decide

/-- Vector SH7. -/
theorem test_lsl_thirtytwo :
    seen d0ccr (start3 0x00000001#32 0x00000020#32 0x00000000#32) [0xE3A8#16]
      = some (0x00000000#32, 0x15#8) := by decide

/-- Vector SH8. -/
theorem test_lsl_thirtythree :
    seen d0ccr (start3 0x00000001#32 0x00000021#32 0x00000000#32) [0xE3A8#16]
      = some (0x00000000#32, 0x04#8) := by decide

/-- Vector SH9, by the register form of ASL. -/
theorem test_asl_none :
    seen d0ccr ((start3 0x80000001#32 0x00000000#32 0x00000000#32).setCcr 0x11#8) [0xE3A0#16]
      = some (0x80000001#32, 0x18#8) := by decide

/-- Vector SH10. -/
theorem test_lsr_sixtyfour :
    seen d0ccr ((start3 0x80000001#32 0x00000040#32 0x00000000#32).setCcr 0x11#8) [0xE2A8#16]
      = some (0x80000001#32, 0x18#8) := by decide

/-- Vector SH12. -/
theorem test_lsr_thirtytwo :
    seen d0ccr (start3 0x80000000#32 0x00000020#32 0x00000000#32) [0xE2A8#16]
      = some (0x00000000#32, 0x15#8) := by decide

/-- Vector SH13. -/
theorem test_lsr_eight :
    seen d0ccr (start3 0x80000000#32 0x00000000#32 0x00000000#32) [0xE088#16]
      = some (0x00800000#32, 0x00#8) := by decide

/-- Vector BT2. -/
theorem test_btst_modulo :
    seen d0ccr ((start3 0x00000100#32 0x00000000#32 0x00000000#32).setCcr 0x1F#8) [0x0800#16, 0x0028#16]
      = some (0x00000100#32, 0x1B#8) := by decide

/-- Vector BT2, by the register form. -/
theorem test_btst_register :
    seen d0ccr ((start3 0x00000100#32 0x00000028#32 0x00000000#32).setCcr 0x04#8) [0x0300#16]
      = some (0x00000100#32, 0x00#8) := by decide

/-- Vector BT3. -/
theorem test_btst_memory :
    seen (fun t => (t.peek 0x2000#32, t.ccr)) (((start3 0#32 0#32 0x2000#32).setCcr 0x04#8).placeCode 0x2000#32 [0x0200#16]) [0x0810#16, 0x0009#16]
      = some (0x02#8, 0x00#8) := by decide

/-- Vector BT4. -/
theorem test_bchg_memory :
    seen (fun t => (t.peek 0x2000#32, t.ccr)) (((start3 0#32 0#32 0x2000#32).setCcr 0x04#8).placeCode 0x2000#32 [0x0100#16]) [0x0850#16, 0x0000#16]
      = some (0x00#8, 0x00#8) := by decide

/-- Vector BT6. -/
theorem test_bset_memory :
    seen (fun t => (t.peek 0x2000#32, t.ccr)) (((start3 0#32 0#32 0x2000#32).setCcr 0x00#8).placeCode 0x2000#32 [0x0000#16]) [0x08D0#16, 0x0007#16]
      = some (0x80#8, 0x04#8) := by decide

/-- Vector BT5, of a byte. -/
theorem test_bclr_memory :
    seen (fun t => (t.peek 0x2000#32, t.ccr)) (((start3 0#32 0#32 0x2000#32).setCcr 0x04#8).placeCode 0x2000#32 [0x8100#16]) [0x0890#16, 0x0007#16]
      = some (0x01#8, 0x00#8) := by decide

/-- Vector BT4, by the register form. -/
theorem test_bchg_register_form :
    seen (fun t => (t.peek 0x2000#32, t.ccr)) (((start3 0#32 0#32 0x2000#32).setCcr 0x04#8).placeCode 0x2000#32 [0x0100#16]) [0x0150#16]
      = some (0x00#8, 0x00#8) := by decide

/-- Vector BT5. -/
theorem test_bclr_register :
    seen (fun t => (t.getD 1#3, t.ccr)) ((start3 31#32 0xFFFFFFFF#32 0#32).setCcr 4#8) [0x0181#16]
      = some (0x7FFFFFFF#32, 0#8) := by decide

/-- Vector BT7. -/
theorem test_bset_register :
    seen (fun t => (t.getD 1#3, t.ccr)) (start3 0x120#32 0#32 0#32) [0x01C1#16]
      = some (1#32, 0x04#8) := by decide

/-! Program control -/

/-- Vector PC1. -/
theorem test_bra : seen (fun t => t.cpu.pc) start [0x6006#16] = some 0x00001008#32 := by decide

/-- Vector PC3. -/
theorem test_bra_word : seen (fun t => t.cpu.pc) start [0x6000#16, 0xFFFE#16] = some 0x00001000#32 := by decide

/-- Vector PC6, at $1000. -/
theorem test_bsr :
    seen (fun t => (t.longAt 0x7FFC#32, t.sp, t.cpu.pc)) (start.setSp 0x8000#32) [0x6100#16, 0x0100#16]
      = some (0x00001004#32, 0x00007FFC#32, 0x00001102#32) := by decide

/-- Vector PC7. -/
theorem test_beq_taken : seen (fun t => t.cpu.pc) (start.setCcr 4#8) [0x6704#16] = some 0x00001006#32 := by decide

/-- Vector PC5. -/
theorem test_beq_not_taken : seen (fun t => t.cpu.pc) start [0x67FF#16] = some 0x00001002#32 := by decide

/-- Vector PC9: NE, CS, LS, MI, LT, LE and VC hold. -/
theorem test_cc_after_compare :
    some ((List.range 16).filter (fun k => holds (flagsOf 0x0009#16) (BitVec.ofNat 4 k)))
      = some [0, 3, 5, 6, 8, 11, 13, 15] := by decide

/-- Vector PC10: NE, CC, HI, MI, VS, GE and GT hold. -/
theorem test_cc_after_add :
    some ((List.range 16).filter (fun k => cond (flagsOf 0x000A#16) (BitVec.ofNat 4 k)))
      = some [0, 2, 4, 6, 9, 11, 12, 14] := by decide

/-- Vector PC11. -/
theorem test_jmp :
    seen (fun t => t.cpu.pc) (start3 0#32 0#32 0x00010000#32) [0x4ED0#16]
      = some 0x00010000#32 := by decide

/-- Vector PC13. -/
theorem test_jsr :
    seen (fun t => (t.longAt 0x7FFC#32, t.sp, t.cpu.pc)) (start.setSp 0x8000#32) [0x4EB9#16, 0#16, 0x4000#16]
      = some (0x00001006#32, 0x00007FFC#32, 0x00004000#32) := by decide

/-- Vector PC14. -/
theorem test_rts :
    seen (fun t => (t.sp, t.cpu.pc)) (put (start.setSp 0x7FFC#32) 0x7FFC#32 0x1006#32) [0x4E75#16]
      = some (0x00008000#32, 0x00001006#32) := by decide

/-- Vector PC17. -/
theorem test_seq :
    seen d0ccr ((start3 0x12345678#32 0x00000000#32 0x00000000#32).setCcr 4#8) [0x57C0#16]
      = some (0x123456FF#32, 0x04#8) := by decide

/-- Vector PC18. -/
theorem test_sf :
    seen d0ccr (start3 0x12345678#32 0x00000000#32 0x00000000#32) [0x51C0#16]
      = some (0x12345600#32, 0x00#8) := by decide

/-- Vector PC20. -/
theorem test_nop : seen (fun t => t.cpu.pc) start [0x4E71#16] = some 0x00001002#32 := by decide

/-- Vector PC21. -/
theorem test_trapfL : seen (fun t => t.cpu.pc) start [0x51FB#16, 0x1234#16, 0x5678#16] = some 0x00001006#32 := by decide

/-- Vector PC22. -/
theorem test_trapfW : seen (fun t => t.cpu.pc) start [0x51FA#16, 0x1234#16] = some 0x00001004#32 := by decide

/-- Vector PC22. -/
theorem test_trapf : seen (fun t => t.cpu.pc) start [0x51FC#16] = some 0x00001002#32 := by decide

/-- Vector X10. -/
theorem test_rte_format_seven :
    seen (fun t => (t.cpu.sr, t.sp, t.cpu.pc)) (put (put (start.setSp 0x7FF4#32) 0x7FF4#32 0x70800015#32) 0x7FF8#32 0x2000#32) [0x4E73#16]
      = some (0x0015#16, 0x00007FFF#32, 0x00002000#32) := by decide

/-! Multiply, divide, multiply-accumulate -/

/-- Vector MD1. -/
theorem test_mulsW :
    seen d0ccr (start3 0x0000FFFF#32 0x00000000#32 0x00000000#32) [0xC1FC#16, 0x0002#16]
      = some (0xFFFFFFFE#32, 0x08#8) := by decide

/-- Vector MD2. -/
theorem test_muluW :
    seen d0ccr (start3 0x1234FFFF#32 0x00000000#32 0x00000000#32) [0xC0FC#16, 0xFFFF#16]
      = some (0xFFFE0001#32, 0x08#8) := by decide

/-- Vector MD4. -/
theorem test_mulsL :
    seen d0ccr (start3 0xFFFFFFFE#32 0x00000003#32 0x00000000#32) [0x4C01#16, 0x0800#16]
      = some (0xFFFFFFFA#32, 0x08#8) := by decide

/-- Vector MD6. -/
theorem test_muluL :
    seen d0ccr (start3 0xFFFFFFFE#32 0x00000003#32 0x00000000#32) [0x4C01#16, 0x0000#16]
      = some (0xFFFFFFFA#32, 0x08#8) := by decide

/-- Vector MD8. -/
theorem test_divsW_signs :
    seen d0ccr (start3 0xFFFFFF9C#32 0x00000000#32 0x00000000#32) [0x81FC#16, 0x0007#16]
      = some (0xFFFEFFF2#32, 0x08#8) := by decide

/-- Vector MD12. -/
theorem test_divuW :
    seen d0ccr (start3 0x00010001#32 0x00000000#32 0x00000000#32) [0x80FC#16, 0x0002#16]
      = some (0x00018000#32, 0x08#8) := by decide

/-- Vector MD11. -/
theorem test_divsW_overflow :
    seen (fun t => t.getD 0#3) (start3 0x10000#32 0#32 0#32) [0x81FC#16, 1#16]
      = some 0x00010000#32 := by decide

/-- Vector MD14. -/
theorem test_divsL :
    seen d0ccr (start3 0xFFFFFFF9#32 0x00000002#32 0x00000000#32) [0x4C41#16, 0x0800#16]
      = some (0xFFFFFFFD#32, 0x08#8) := by decide

/-- Vector MD16. -/
theorem test_divuL :
    seen d0ccr (start3 0xFFFFFFFF#32 0x00000010#32 0x00000000#32) [0x4C41#16, 0x0000#16]
      = some (0x0FFFFFFF#32, 0x00#8) := by decide

/-- Vector MD15. -/
theorem test_divsL_overflow :
    seen (fun t => t.getD 0#3) (start3 0x80000000#32 0xFFFFFFFF#32 0#32) [0x4C41#16, 0x0800#16]
      = some 0x80000000#32 := by decide

/-- Vector MD17. -/
theorem test_remsL :
    seen (fun t => (t.getD 2#3, d0ccr t)) (start3 0xFFFFFFF9#32 2#32 0#32) [0x4C41#16, 0x0802#16]
      = some (0xFFFFFFFF#32, 0xFFFFFFF9#32, 8#8) := by decide

/-- Vector MD18. -/
theorem test_remuL :
    seen (fun t => (t.getD 2#3, t.getD 0#3)) (start3 17#32 5#32 0#32) [0x4C41#16, 2#16]
      = some (2#32, 17#32) := by decide

/-- A state with the MAC registers set. -/
def withAcc (s : State) (acc : Long) (macsr : Byte) (mask : Word) : State :=
  { s with mac := { acc := acc, mask := mask, macsr := macsr } }

/-- ACC and MACSR. -/
def accFlags (t : State) : Long × Byte := (t.mac.acc, t.mac.macsr)

/-- Vector MA4. -/
theorem test_macW_right :
    seen accFlags (withAcc (start3 0x0000FFFF#32 0x00000005#32 0#32) 0x00000000#32 0x00#8 0#16) [0xA001#16, 0x0600#16]
      = some (0xFFFFFFFD#32, 0x08#8) := by decide

/-- Vector MA6. -/
theorem test_macL :
    seen accFlags (withAcc (start3 0x00010000#32 0x00000003#32 0#32) 0x00000000#32 0x00#8 0#16) [0xA001#16, 0x0800#16]
      = some (0x00030000#32, 0x00#8) := by decide

/-- Vector MA7. -/
theorem test_msacW :
    seen accFlags (withAcc (start3 0x00000003#32 0x00000004#32 0#32) 0x0000000A#32 0x00#8 0#16) [0xA001#16, 0x0100#16]
      = some (0xFFFFFFFE#32, 0x08#8) := by decide

/-- Vector MA8. -/
theorem test_msacL :
    seen accFlags (withAcc (start3 0x00000002#32 0x00000002#32 0#32) 0x00000005#32 0x00#8 0#16) [0xA001#16, 0x0900#16]
      = some (0x00000001#32, 0x00#8) := by decide

/-- Vector MA9. -/
theorem test_mac_saturates :
    seen accFlags (withAcc (start3 0x00000001#32 0x00000001#32 0#32) 0x7FFFFFFF#32 0x80#8 0#16) [0xA001#16, 0x0000#16]
      = some (0x7FFFFFFF#32, 0x82#8) := by decide

/-- Vector MA10, by MAC.L. -/
theorem test_mac_wraps :
    seen accFlags (withAcc (start3 0x00000001#32 0x00000001#32 0#32) 0x7FFFFFFF#32 0x00#8 0#16) [0xA001#16, 0x0800#16]
      = some (0x80000000#32, 0x0A#8) := by decide

/-- Vector MA12. -/
theorem test_macW_load :
    seen (fun t => (t.getD 2#3, t.getA 0#3, t.mac.acc)) (put (withAcc (start3 3#32 4#32 0x00010100#32) 10#32 0#8 0xFF#16) 0x10000#32 0x11112222#32) [0xA498#16, 0x0021#16]
      = some (0x11112222#32, 0x00010104#32, 22#32) := by decide

/-- Vector MA13. -/
theorem test_macW_load_own :
    seen (fun t => (t.getD 0#3, t.mac.acc)) (put (withAcc (start3 3#32 4#32 0x00010100#32) 10#32 0#8 0xFF#16) 0x10000#32 0x11112222#32) [0xA098#16, 0x0021#16]
      = some (0x11112222#32, 22#32) := by decide

/-- MAC.L with load (R445). -/
theorem test_macL_load :
    seen (fun t => (t.getD 2#3, t.mac.acc)) (put (withAcc (start3 3#32 0x10000#32 0x1100#32) 10#32 0#8 0#16) 0x1100#32 5#32) [0xA490#16, 0x0801#16]
      = some (5#32, 0x0003000A#32) := by decide

/-- MSAC.W with load (R445). -/
theorem test_msacW_load :
    seen (fun t => (t.getD 2#3, t.mac.acc)) (put (withAcc (start3 3#32 4#32 0x1100#32) 10#32 0#8 0#16) 0x1100#32 5#32) [0xA490#16, 0x0101#16]
      = some (5#32, 0xFFFFFFFE#32) := by decide

/-- MSAC.L with load (R445). -/
theorem test_msacL_load :
    seen (fun t => (t.getD 2#3, t.mac.acc)) (put (withAcc (start3 3#32 0x10000#32 0x1104#32) 0#32 0#8 0#16) 0x1100#32 5#32) [0xA4A0#16, 0x0901#16]
      = some (5#32, 0xFFFD0000#32) := by decide

/-- Vector MA14. -/
theorem test_mask_out : seen d0ccr (withAcc start 0#32 0#8 0xFF#16) [0xAD80#16] = some (0xFFFF00FF#32, 0#8) := by decide

/-- Vector MA15. -/
theorem test_mask_in : seen (fun t => t.mac.mask) start [0xAD3C#16, 0x1234#16, 0x00FF#16] = some 0x00FF#16 := by decide

/-- Vector MA16. -/
theorem test_macsr_out :
    seen d0ccr (withAcc start 0#32 0x48#8 0#16) [0xA980#16]
      = some (0x00000048#32, 0#8) := by decide

/-- Vector MA17. -/
theorem test_macsr_in : seen (fun t => t.mac.macsr) start [0xA93C#16, 0#16, 0x80#16] = some 0x80#8 := by decide

/-- Vector MA18. -/
theorem test_macsr_to_ccr :
    seen (fun t => t.ccr) ((withAcc start 0#32 0x0A#8 0#16).setCcr 0x10#8) [0xA9C0#16]
      = some 0x0A#8 := by decide

/-- Vector MA19. -/
theorem test_acc_in :
    seen accFlags (withAcc start 5#32 0x0B#8 0#16) [0xA13C#16, 0#16, 0#16]
      = some (0#32, 0x04#8) := by decide

/-- Vector MA20. -/
theorem test_acc_out :
    seen d0ccr (withAcc start 0x30000#32 0#8 0#16) [0xA180#16]
      = some (0x00030000#32, 0#8) := by decide

/-! System control -/

/-- Vector SC1. -/
theorem test_ccr_out :
    seen d0ccr ((start3 0xFFFFFFFF#32 0x00000000#32 0x00000000#32).setCcr 0x94#8) [0x42C0#16]
      = some (0xFFFF0094#32, 0x94#8) := by decide

/-- Vector SC2. -/
theorem test_ccr_in_immediate : seen (fun t => t.cpu.sr) start [0x44FC#16, 0xFF1F#16] = some 0x271F#16 := by decide

/-- Vector SC3. -/
theorem test_ccr_in_register :
    seen (fun t => t.cpu.sr) (start3 0#32 0x80#32 0#32) [0x44C1#16]
      = some 0x2780#16 := by decide

/-- Vector SC4. -/
theorem test_sr_out : seen (fun t => t.getD 0#3) start [0x40C0#16] = some 0x00002700#32 := by decide

/-- Vector SC6. -/
theorem test_sr_in_register :
    seen (fun t => t.cpu.sr) (start3 0xFFFFFFFF#32 0#32 0#32) [0x46C0#16]
      = some 0xB79F#16 := by decide

/-- Vector SC7. -/
theorem test_sr_in_immediate :
    seen (fun t => (t.cpu.sr, t.sp)) (start.setSp 0x4000#32) [0x46FC#16, 0#16]
      = some (0#16, 0x00004000#32) := by decide

/-- Vector SC8. -/
theorem test_movec_rambar :
    seen (fun t => t.ctl.rambar) (start3 0x20000221#32 0#32 0#32) [0x4E7B#16, 0x0C04#16]
      = some 0x20000221#32 := by decide

/-- Vector SC9. -/
theorem test_movec_vbr :
    seen (fun t => t.ctl.vbr) (start3 0x12345678#32 0#32 0#32) [0x4E7B#16, 0x0801#16]
      = some 0x12300000#32 := by decide

/-- Vector SC13. -/
theorem test_halt :
    seen (fun t => (t.cpu.pc, t.ev.run, t.dbg.csr.extractLsb' 24 4, t.port.map (fun e => e.pst))) start [0x4AC8#16]
      = some (0x00001002#32, .halted, 2#4, [1#4, 0xF#4]) := by decide

/-- Vector SC16. -/
theorem test_stop :
    seen (fun t => (t.cpu.sr, t.cpu.pc, t.ev.run, t.port.map (fun e => e.pst))) start [0x4E72#16, 0x2000#16]
      = some (0x2000#16, 0x00001004#32, .stopped, [1#4, 0xE#4]) := by decide

/-- Vectors SC17 to SC19: an 8 KByte cache with one line, in set $12, level 3, of the tag 5. -/
def withLine (dirty : Bool) (dpi : Bool) : State :=
  let s := start3 0#32 0#32 0x00000123#32
  let m : MemSys := { s.ms with cache := [(0x4B, { tag := 5#32, v := true, d := dirty, data := 0x11223344#128 <<< 96 })] }
  { s with ms := m, pins := { s.pins with cacheSize := .k8 }, ctl := { s.ctl with cacr := if dpi then 0x10000000#32 else 0#32 } }

/-- The line's V and D, and the first longword of its place in memory. -/
def lineSeen (t : State) : Bool × Bool × Long := ((lineAt t.ms 0x12 3).v, (lineAt t.ms 0x12 3).d, t.longAt 0x00002920#32)

/-- Vector SC17. -/
theorem test_cpushl_dirty :
    seen lineSeen (withLine true false) [0xF4E8#16]
      = some (false, false, 0x11223344#32) := by decide

/-- Vector SC18. -/
theorem test_cpushl_dpi :
    seen lineSeen (withLine true true) [0xF4E8#16]
      = some (true, false, 0x11223344#32) := by decide

/-- Vector SC21. -/
theorem test_pulse :
    seen (fun t => (t.cpu.pc, t.port.map (fun e => (e.pst, e.dd)))) start [0x4ACC#16]
      = some (0x00001002#32, [(4#4, [])]) := by decide

/-- Vector SC22. -/
theorem test_wddataB :
    seen (fun t => t.port.map (fun e => (e.pst, e.dd))) ((start3 0#32 0#32 0x2000#32).placeCode 0x2000#32 [0x1200#16]) [0xFB10#16]
      = some [(4#4, []), (8#4, [2#4, 1#4])] := by decide

/-- WDDATA.W (R474). -/
theorem test_wddataW :
    seen (fun t => t.port.map (fun e => e.dd)) ((start3 0#32 0#32 0x2000#32).placeCode 0x2000#32 [0x1234#16]) [0xFB50#16]
      = some [[], [4#4, 3#4, 2#4, 1#4]] := by decide

/-- WDDATA.L (R474). -/
theorem test_wddataL :
    seen (fun t => t.port.map (fun e => e.pst)) (start3 0#32 0#32 0x2000#32) [0xFB90#16]
      = some [4#4, 0xB#4] := by decide

/-- Vector SC23. -/
theorem test_wdebug :
    seen (fun t => t.dbg.tdr) ((start3 0#32 0#32 0x3000#32).placeCode 0x3000#32 [0x2C87#16, 0#16, 0x4000#16, 0#16]) [0xFBD0#16, 3#16]
      = some 0x00004000#32 := by decide

/-! Exceptions -/

/-- SR, the handler's mode, the frame's two longwords and A7, after an exception. -/
def frameSeen (t : State) : Word × Long × Long × Long := (t.cpu.sr, t.longAt t.sp, t.longAt (t.sp + 4#32), t.sp)

/-- The start of vectors X1 to X4: user mode, SR $0004. -/
def user (a7 : Long) : State := ((start.setSr 4#16).setSp a7).setPc 0x2000#32

/-- Vector X1. -/
theorem test_trap :
    seen frameSeen (user 0x00010000#32) [0x4E40#16]
      = some (0x2004#16, 0x40800004#32, 0x00002002#32, 0x0000FFF8#32) := by decide

/-- Vector X4. -/
theorem test_trap_misaligned_sp :
    seen frameSeen (user 0x00010003#32) [0x4E40#16]
      = some (0x2004#16, 0x70800004#32, 0x00002002#32, 0x0000FFF8#32) := by decide

/-- Vector X6. -/
theorem test_illegal :
    seen (fun t => (frameSeen t, t.cpu.pc)) (put ((start.setSr 0x2000#16).setSp 0x4000#32) 0x10#32 0x500#32) [0x4AFC#16]
      = some ((0x2000#16, 0x40102000#32, 0x00001000#32, 0x00003FF8#32), 0x00000500#32) := by decide

/-- Vector X8. -/
theorem test_odd_vector :
    seen (fun t => (t.ev.run, t.dbg.csr.extractLsb' 24 4)) (put (start.setSp 0x4000#32) 0x10#32 0x501#32) [0x4AFC#16]
      = some (.halted, 8#4) := by decide

/-- Vector SC5. -/
theorem test_privilege :
    seen (fun t => t.longAt (t.sp + 4#32)) ((start.setSr 0#16).setSp 0x4000#32) [0x40C0#16]
      = some 0x00001000#32 := by decide

/-- Vector X11. -/
theorem test_format_error :
    seen (fun t => (t.longAt t.sp).extractLsb' 18 8) (put (start.setSp 0x7FF4#32) 0x7FF4#32 0x00802000#32) [0x4E73#16]
      = some 14#8 := by decide

/-- Vector X14. -/
theorem test_stop_traced :
    seen frameSeen ((start.setSr 0x2000#16).setSp 0x4000#32) [0x4E72#16, 0xA000#16]
      = some (0x2000#16, 0x4024A000#32, 0x00001004#32, 0x00003FF8#32) := by decide

/-- Vector MA22. -/
theorem test_line_a :
    seen (fun t => ((t.longAt t.sp).extractLsb' 18 8, t.longAt (t.sp + 4#32))) (start.setSp 0x4000#32) [0xA010#16]
      = some (10#8, 0x00001000#32) := by decide

/-- Vector SC24. -/
theorem test_line_f :
    seen (fun t => (t.longAt t.sp).extractLsb' 18 8) (start.setSp 0x4000#32) [0xF000#16]
      = some 11#8 := by decide

/-- Vector X12: the step of the NOP. -/
theorem test_trace_pending :
    seen (fun t => (t.ev.tracePending, t.cpu.pc)) (start.setSr 0xA000#16) [0x4E71#16]
      = some (true, 0x00001002#32) := by decide

/-- Vector X12: the boundary after it. -/
theorem test_trace_taken :
    seen frameSeen (((start.setSr 0xA000#16).setSp 0x4000#32).setEv { start.ev with tracePending := true } |>.setPc 0x1002#32) [0x4E71#16]
      = some (0x2000#16, 0x4024A000#32, 0x00001002#32, 0x00003FF8#32) := by decide

/-- A request of a level on the pins, the host answering with a vector. -/
def request (s : State) (level : BitVec 3) (vector : Byte) : State :=
  { s with pins := { s.pins with miplb := 7#3 - level, iack := Vector.replicate 8 vector } }

/-- Vector X17. -/
theorem test_interrupt :
    seen frameSeen (request ((start.setSr 0x2300#16).setSp 0x4000#32) 4#3 0x40#8) [0x4E71#16]
      = some (0x2400#16, 0x41002300#32, 0x00001000#32, 0x00003FF8#32) := by decide

/-- Vector X16. -/
theorem test_interrupt_masked :
    seen (fun t => t.cpu.pc) (request (start.setSr 0x2300#16) 3#3 0x40#8) [0x4E71#16]
      = some 0x00001002#32 := by decide

/-- Vector X19. -/
theorem test_interrupt_clears_m :
    seen (fun t => t.cpu.sr) (request ((start.setSr 0x3000#16).setSp 0x4000#32) 2#3 0x0F#8) [0x4E71#16]
      = some 0x2200#16 := by decide

/-! Memory, reset -/

/-- Vector M2. -/
theorem test_read_misaligned :
    some ((put (put start 0x2000#32 0x12345678#32) 0x2004#32 0x9ABC0000#32).load 0x2001#32 .l).1
      = some 0x3456789A#32 := by decide

/-- Vector M5. -/
theorem test_read_wraps :
    some ((start.placeCode 0xFFFFFFFE#32 [0x1122#16, 0x3344#16]).load 0xFFFFFFFE#32 .l).1
      = some 0x11223344#32 := by decide

/-- The reset exception (spec/70_reset_and_hazards.md R682) is the first step from reset. -/
theorem test_reset_vectors :
    (match step (put (put State.reset 0#32 0x8000#32) 4#32 0x1000#32) with | .next t => some (t.sp, t.cpu.pc, t.cpu.sr) | _ => none)
      = some (0x00008000#32, 0x00001000#32, 0x2700#16) := by decide

/-- An odd initial PC: the branch is shown before the halt (R682). -/
theorem test_reset_odd :
    (match step (put (put State.reset 0#32 0x8000#32) 4#32 0x1001#32) with
      | .next t => some (t.sp, t.ev.run, t.port.map (fun e => e.pst)) | _ => none)
      = some (0x00008000#32, .halted, [0xC#4, 5#4, 0xF#4]) := by decide

/-- What is seen of a transfer on the M-Bus. -/
def xferSeen (x : BusXfer) : Long × BitVec 2 × Bool × Space := (x.addr, x.siz, x.read, x.sp)

/-- A fetch and a misaligned store on the M-Bus (spec/20_memory.md R85, R89, R92). -/
theorem test_bus_store :
    seen (fun t => t.ms.bus.map xferSeen) (start3 0x11223344#32 0#32 0x2002#32) [0x2080#16]
      = some [(0x1000#32, 0#2, true, { tt := 0#2, tm := 6#3 }), (0x2002#32, 2#2, false, { tt := 0#2, tm := 5#3 }),
          (0x2004#32, 2#2, false, { tt := 0#2, tm := 5#3 })] := by decide

/-- The lanes of Table 3-11 and Table 3-10, and the order of Table 3-12. -/
theorem test_bus_lanes :
    writeLanes 3 [0x5A#8] = [some 0x5A#8, some 0x5A#8, none, some 0x5A#8] ∧
      writeLanes 2 [1#8, 2#8] = [some 1#8, some 2#8, some 1#8, some 2#8] ∧
      readLanes 2 [0x5A#8] = [none, none, some 0x5A#8, none] ∧
      lineFrom (0x11#128 <<< 120) 0x2004#32 = List.replicate 12 0#8 ++ [0x11#8, 0#8, 0#8, 0#8] ∧
      ({ addr := 0x200C#32, siz := 3#2, read := true, sp := pushSpace, data := lineFrom 0#128 0x200C#32 } : BusXfer).addrs
        = [0x200C#32, 0x2000#32, 0x2004#32, 0x2008#32] := by decide

/-- Four registers to a 0-modulo-16 address outside the cache: one line write (spec/40_data_movement.md R277). -/
theorem test_movem_line :
    seen (fun t => (t.ms.bus.map (fun x => (x.addr, x.siz)), t.ms.xfers.map (fun x => x.addr))) (start3 1#32 2#32 0x2000#32) [0x48D0#16, 0x000F#16]
      = some ([(0x1000#32, 0#2), (0x1000#32, 0#2), (0x2000#32, 3#2)], [0x2000#32, 0x2004#32, 0x2008#32, 0x200C#32]) := by
  decide

/-- A 2 KByte cache in copyback mode, enabled, with instructions kept out of it. -/
def cached : State :=
  { start3 1#32 2#32 0x2000#32 with
    pins := { start.pins with cacheSize := .k2, ucnoif := true }, ctl := { start.ctl with cacr := 0x80000100#32 } }

/-- A line write that misses in copyback mode is allocated without a fill (R147): nothing but fetches on the M-Bus. -/
theorem test_movem_line_miss :
    seen (fun t => (t.ms.bus.map (fun x => x.addr), (lineAt t.ms 0 0).v, (lineAt t.ms 0 0).d, t.longAt 0x2004#32)) cached [0x48D0#16, 0x000F#16]
      = some ([0x1000#32, 0x1000#32], true, true, 2#32) := by decide

/-- Four registers loaded from a line that misses: a fill, critical longword first, kept in the fill buffer (R66). -/
theorem test_movem_line_load :
    seen (fun t => (t.getD 3#3, (lineAt t.ms 0 0).v, t.ms.fill.line, t.ms.bus.map (fun x => x.siz))) (put cached 0x200C#32 9#32) [0x4CD0#16, 0x000F#16]
      = some (9#32, true, 0x200#28, [0#2, 0#2, 3#2]) := by decide

/-- A push carries TT = 00, TM = 000 (spec/20_memory.md R92). -/
theorem test_bus_push :
    seen (fun t => (t.ms.bus.map xferSeen).getLast?) (withLine true false) [0xF4E8#16]
      = some (some (0x2920#32, 3#2, false, pushSpace)) := by decide

/-- The old word of a stored instruction, as code, and no other (spec/20_memory.md R120). -/
theorem test_stale_word :
    oldWords ((start.placeCode 0x1002#32 [0x4E71#16]).store 0x1002#32 .w 0x7001#32).ms { tt := 0#2, tm := 6#3 } 0x1002#32
      = [0x4E71#16] := by decide

/-- One byte in the store buffer, at $1003, of a state whose prefetch may hold the words $AAAA. -/
def buffered (s : State) : State :=
  s.setMs { s.ms with
    stores := [{ sp := { tt := 0#2, tm := 5#3 }, addr := 0x1003#32, len := 1, data := 0x02#32 }]
    stale := [0x1000#32, 0x1002#32].map (fun a => { sp := { tt := 0#2, tm := 6#3 }, addr := a, word := 0xAAAA#16 }) }

/-- After a change of flow a fetch may still find the word under a store in the store buffer as memory holds it, and no
word that an earlier store replaced (spec/10_state.md R74, spec/20_memory.md R120). -/
theorem test_flush_pending :
    (((buffered (start.placeCode 0x1002#32 [0x7001#16])).jumpTo 0x1000#32).ms.stale.filter
        (fun e => e.sp == { tt := 0#2, tm := 6#3 })).map (fun e => (e.addr, e.word))
      = [(0x1002#32, 0x7001#16)] := by decide

/-- In cachable memory it finds none, nor in the local RAM (spec/70_reset_and_hazards.md R704). -/
theorem test_flush_cached_ram :
    ((buffered { cached with pins := { cached.pins with ucnoif := false } }).jumpTo 0x1000#32).ms.stale.filter
        (fun e => e.sp.tt == 0#2) = [] ∧
      ((buffered { start with ctl := { start.ctl with rambar := 0x00001009#32 } }).jumpTo 0x1000#32).ms.stale.filter
        (fun e => e.sp.tt == 0#2) = [] := by decide

/-- TT = 10 with CSR.MAP = 1 never hits the RAM, even from the BAAR (spec/21_cache_and_local_memory.md R181). -/
theorem test_ram_map :
    ramClaims { start.route with ctl := { start.ctl with rambar := 1#32 }, map := true } { tt := 2#2, tm := 5#3 } 0#32 = false ∧
      ramClaims { start.route with ctl := { start.ctl with rambar := 1#32 } } { tt := 0#2, tm := 5#3 } 0#32 = true := by decide

/-- The acknowledge read is an access that breakpoints see (spec/61_debug_and_bdm.md R656). -/
theorem test_iack_noted :
    (start.iackCycle 4#3).2.ms.xfers
      = [{ read := true, sp := { tt := 3#2, tm := 4#3 }, addr := 0xFFFFFFF0#32, len := 1, data := 0x0F#32 }] := by decide

/-- A read of the CSR after reset returns $0010_0000 (R631). -/
theorem test_csr_after_reset : (State.reset.readDebugReg 0#4).1 = 0x00100000#32 := by decide

/-- HALT while the halt of a trigger is pending shows the trigger, the higher source (spec/61_debug_and_bdm.md R596). -/
theorem test_halt_trigger :
    seen (fun t => (t.dbg.csr.extractLsb' 24 4, t.ev.haltTrg))
      (let s := start; s.setEv { s.ev with haltTrg := true, boundaryTaken := true }) [0x4AC8#16]
      = some (4#4, false) := by decide

/-- HALT replaces an older halt source (spec/61_debug_and_bdm.md R596). -/
theorem test_halt_source :
    seen (fun t => t.dbg.csr.extractLsb' 24 4) { start with dbg := { start.dbg with csr := 0x01100000#32 } } [0x4AC8#16]
      = some 2#4 := by decide

/-- While a trigger of level 1 is waited for, DDATA carries 001x (R583, R651). -/
theorem test_ddata_status :
    ∃ x : BitVec 1, seen (fun t => t.port.map (fun e => e.status)) { start with dbg := { start.dbg with csr := 0x20100000#32 } } [0x4ACC#16]
      = some [1#3 ++ x] := ⟨0#1, by decide⟩

/-- WDEBUG's own reads meet the registers as they were before its write (R655): the breakpoint that its write of the ABLR
sets at its own operand asks for no halt. -/
theorem test_wdebug_own_read :
    seen (fun t => (t.ev.haltTrg, t.dbg.ablr))
      (let s := (start3 0#32 0#32 0x3000#32).placeCode 0x3000#32 [0x2C8D#16, 0#16, 0x3000#16, 0#16]
       { s with dbg := { s.dbg with
         tdr := 0x40002004#32, csr := 0x20100000#32, ablr := 0x5000#32, aatr := 0x0085#16 } }) [0xFBD0#16, 3#16]
      = some (false, 0x3000#32) := by decide

/-! ### Witnesses: states and operands that meet the hypotheses of the statements

Each theorem is named after the statement, and after its clause where it has several. -/

/-- The start with A0 at $2000 and A7 at $4000. -/
def base : State := (start3 7#32 5#32 0x2000#32).setSp 0x4000#32

/-- The same in user mode. -/
def baseUser : State := base.setSr 0#16

theorem base_canEnter : base.CanEnter :=
  ⟨rfl, by unfold State.frameWritable byteWritable; decide, rfl⟩

/-- The same with CSR.TRC set: a trace exception enters emulator mode. -/
def traceEmulates : State := { base with dbg := { base.dbg with csr := 0x00104000#32 } }

theorem baseUser_canEnter : baseUser.CanEnter :=
  ⟨rfl, by unfold State.frameWritable byteWritable; decide, rfl⟩

theorem wit_DecodeEncode : (Instr.remsL 0x1FF#9 2#3 0#3 (.disp 7#3 0xFFFF#16)).encodable = true := by decide

theorem wit_EncodeDecode :
    decodeBytes [0x41#8, 0xFA#8, 0x00#8, 0x10#8, 0x55#8] = .ok (.lea (.pcDisp 0x10#16) 0#3, [0x55#8]) := by rfl

theorem wit_UnassignedOpwords :
    base.CanEnter ∧ (∀ i, decode 0x1008#16 0#16 0#16 ≠ .ok i) ∧ (∀ i, decode 0xA010#16 0#16 0#16 ≠ .ok i) ∧
      ∀ i, decode 0xF000#16 0#16 0#16 ≠ .ok i :=
  ⟨base_canEnter, fun _ h => Decoded.noConfusion ((by decide : decode 0x1008#16 0#16 0#16 = .illegal).symm.trans h),
    fun _ h => Decoded.noConfusion ((by decide : decode 0xA010#16 0#16 0#16 = .lineA).symm.trans h),
    fun _ h => Decoded.noConfusion ((by decide : decode 0xF000#16 0#16 0#16 = .lineF).symm.trans h)⟩

/-- The start with ADD.L D1,D0 at the PC. -/
def withAdd : State := base.placeCode 0x1000#32 [0xD081#16, 0xFFFF#16, 0xFFFF#16]

theorem wit_StepRunsDecoded :
    withAdd.Ready withAdd.fresh.sample ∧ withAdd.fresh.sample.FetchPlain ∧
      decodeBytes (withAdd.fresh.sample.codeBytes withAdd.fresh.sample.cpu.pc 6)
        = .ok (.addToD (.dn 1#3) 0#3, [0xFF#8, 0xFF#8, 0xFF#8, 0xFF#8]) :=
  ⟨⟨rfl, rfl, rfl, rfl, rfl, by decide, rfl, rfl⟩, ⟨rfl, rfl, rfl⟩, by rfl⟩

theorem wit_QuietBoundary : base.Quiet := ⟨rfl, rfl, rfl, rfl, ⟨rfl, rfl⟩, rfl, ⟨rfl, rfl⟩, ⟨rfl, rfl⟩⟩

theorem wit_AfterInstruction : base.bdm.syncPc = false ∧ statusOf base.dbg ≠ 1#3 ∧ statusOf base.dbg ≠ 5#3 := by decide

theorem wit_StepInvariant : withAdd.Inv ∧ ∃ t, step withAdd = .next t :=
  ⟨⟨⟨by decide, by decide, by decide, by decide, by decide⟩,
    ⟨by decide, by decide, by decide, by decide, by decide, by decide, by decide, by decide, by decide⟩,
    ⟨by decide, by decide, rfl⟩⟩, _, rfl⟩

theorem wit_Operands :
    base.cacheOff ∧ eaMemAlter (.predec 0#3) = true ∧ eaPcRel (.pcIdx 0x0804#16) = true := ⟨rfl, rfl, rfl⟩

/-- A full-format index word, a word index, a scale of 8. -/
theorem wit_BadIndexWord :
    base.CanEnter ∧ base.pins.hasDiv = true ∧
      (Instr.lea (.idx 1#3 0x2D04#16) 0#3).wf = true ∧ (Instr.lea (.idx 1#3 0x2D04#16) 0#3).eas.any eaBad = true ∧
      (Instr.divsW (.pcIdx 0x2004#16) 0#3).wf = true ∧ (Instr.divsW (.pcIdx 0x2004#16) 0#3).eas.any eaBad = true ∧
      (Instr.moveW (.dn 0#3) (.idx 1#3 0x2E04#16)).wf = true ∧
      (Instr.moveW (.dn 0#3) (.idx 1#3 0x2E04#16)).eas.any eaBad = true :=
  ⟨base_canEnter, rfl, by decide⟩

/-- The hypotheses of MoveToRegister, SourceToRegister, LogicToData and Multiply, and the cache disabled. -/
theorem wit_sources :
    base.cacheOff ∧ eaBad (.idx 1#3 0x2C04#16) = false ∧ eaBad (.dn 0#3) = false ∧ eaBad (.immL 5#32) = false := by
  refine ⟨rfl, ?_⟩; decide

/-- The hypotheses of MoveToMemory, Clear, ArithmeticToMemory, LogicToMemory and Bits (memory), and those under which
the value is in memory after it. -/
theorem wit_destinations :
    eaBad (.postinc 0#3) = false ∧ eaMemAlter (.postinc 0#3) = true ∧ eaBad (.idx 0#3 0x0800#16) = false ∧
      eaMemAlter (.idx 0#3 0x0800#16) = true ∧ eaPcRel (.pcDisp 0#16) = true ∧ eaMemAlter (.pcDisp 0#16) = false ∧
      base.cacheOff ∧ base.Writable (base.address (.postinc 0#3) .l) 4 :=
  ⟨rfl, rfl, rfl, rfl, rfl, rfl, rfl, by unfold State.Writable byteWritable; decide⟩

/-- The hypotheses of EffectiveAddress and JumpsAndCalls. -/
theorem wit_EffectiveAddress :
    eaControl (.ind 0#3) = true ∧ eaBad (.ind 0#3) = false ∧ eaControl (.pcIdx 0x0804#16) = true ∧
      eaBad (.pcIdx 0x0804#16) = false := by decide

theorem wit_Frames : (6#3 : Reg) ≠ spReg ∧ base.cacheOff := ⟨by decide, rfl⟩

theorem wit_Movem :
    base.cacheOff ∧ (0x8001#16 : Word).getLsbD 0 = true ∧ (0x8001#16 : Word).getLsbD 15 = true ∧
      (0x8001#16 : Word).getLsbD 1 = false ∧ maskCount 0x8001#16 16 = 2 ∧ maskCount 0x8001#16 15 = 1 ∧
      base.Writable (base.address (.ind 0#3) .l) (4 * maskCount 0x8001#16 16) :=
  ⟨rfl, rfl, rfl, rfl, rfl, rfl, by unfold State.Writable byteWritable; decide⟩

/-- An even target, by both forms; a condition that holds and one that does not. -/
theorem wit_Branches :
    (base.branchTo (.d8 0x80#8)).getLsbD 0 = false ∧ (base.branchTo (.d16 0x7FFE#16)).getLsbD 0 = false ∧
      holds base.flags 6#4 = true ∧ holds base.flags 7#4 = false := by decide

theorem wit_JumpsAndCalls :
    (base.branchTo (.d8 6#8)).getLsbD 0 = false ∧ (base.address (.ind 0#3) .l).getLsbD 0 = false := by decide

/-- The return address even; odd. -/
theorem wit_ReturnFromSubroutine :
    (base.operand (.ind spReg) .l).getLsbD 0 = false ∧ base.cacheOff ∧
      ((put base 0x4000#32 0x1001#32).operand (.ind spReg) .l).getLsbD 0 = true ∧ (put base 0x4000#32 0x1001#32).CanEnter :=
  ⟨by rfl, rfl, by rfl, ⟨rfl, by unfold State.frameWritable byteWritable; decide, rfl⟩⟩

theorem wit_OddTarget :
    base.CanEnter ∧ eaControl (.disp 0#3 1#16) = true ∧ eaBad (.disp 0#3 1#16) = false ∧
      (base.branchTo (.d8 0xFF#8)).getLsbD 0 = true ∧ holds base.flags 6#4 = true ∧
      (base.address (.disp 0#3 1#16) .l).getLsbD 0 = true :=
  ⟨base_canEnter, rfl, rfl, by decide, by decide, by decide⟩

/-- The state with a write error pending. -/
def writeFailed : State := base.setMs { base.ms with writeError := true }

theorem writeFailed_canEnter : writeFailed.CanEnter :=
  ⟨rfl, by unfold State.frameWritable byteWritable; decide, rfl⟩

theorem wit_NopSynchronises :
    base.ms.writeError = false ∧ base.cacheOff ∧ writeFailed.ms.writeError = true ∧ writeFailed.CanEnter :=
  ⟨rfl, rfl, rfl, writeFailed_canEnter⟩

theorem wit_Traps : base.CanEnter := base_canEnter

/-- Both ranges of a word quotient and of a longword quotient, at their ends, signed and unsigned. -/
theorem wit_Divide :
    base.pins.hasDiv = true ∧
      (asNumber true ((base.operand (.immW 1#16) .w).setWidth 16) ≠ 0 ∧
        inRange true 16 ((asNumber true ((start3 32767#32 0#32 0#32).getD 0#3)).tdiv 1) ∧
        inRange true 16 ((asNumber true ((start3 0xFFFF8000#32 0#32 0#32).getD 0#3)).tdiv 1) ∧
        inRange false 16 ((asNumber false ((start3 65535#32 0#32 0#32).getD 0#3)).tdiv 1)) ∧
      asNumber true (base.operand (.dn 1#3) .l) ≠ 0 ∧
      inRange true 32 ((asNumber true ((start3 0x80000000#32 0#32 0#32).getD 0#3)).tdiv 1) ∧
      inRange false 32 ((asNumber false ((start3 0xFFFFFFFF#32 0#32 0#32).getD 0#3)).tdiv 1) := by
  refine ⟨rfl, ?_⟩; unfold inRange; decide

/-- The first quotients out of range. -/
theorem wit_DivideOverflow :
    ¬inRange true 16 ((asNumber true ((start3 32768#32 0#32 0#32).getD 0#3)).tdiv 1) ∧
      ¬inRange true 16 ((asNumber true ((start3 0xFFFF7FFF#32 0#32 0#32).getD 0#3)).tdiv 1) ∧
      ¬inRange false 16 ((asNumber false ((start3 65536#32 0#32 0#32).getD 0#3)).tdiv 1) ∧
      ¬inRange true 32 ((asNumber true ((start3 0x80000000#32 0#32 0#32).getD 0#3)).tdiv
        (asNumber true ((start3 0#32 0xFFFFFFFF#32 0#32).operand (.dn 1#3) .l))) ∧
      asNumber true ((start3 0#32 0xFFFFFFFF#32 0#32).operand (.dn 1#3) .l) ≠ 0 := by
  unfold inRange; decide

theorem wit_DivideByZero :
    base.CanEnter ∧ base.pins.hasDiv = true ∧ eaBad (.postinc 0#3) = false ∧ base.operand (.postinc 0#3) .w = 0#32 ∧
      base.operand (.postinc 0#3) .l = 0#32 ∧ (base.located (.postinc 0#3) .w).CanEnter ∧
      (base.located (.postinc 0#3) .l).CanEnter :=
  ⟨base_canEnter, rfl, rfl, by rfl, by rfl, ⟨rfl, by unfold State.frameWritable byteWritable; decide, rfl⟩,
    ⟨rfl, by unfold State.frameWritable byteWritable; decide, rfl⟩⟩

/-- The start without the optional units. -/
def bare : State := { base with pins := { base.pins with hasMac := false, hasDiv := false } }

theorem wit_AbsentUnits :
    bare.CanEnter ∧ Instr.moveMacsrToCcr.usesMac = true ∧ bare.pins.hasMac = false ∧
      (Instr.divuW (.dn 0#3) 1#3).usesDiv = true ∧ bare.pins.hasDiv = false :=
  ⟨⟨rfl, by unfold State.frameWritable byteWritable; decide, rfl⟩, rfl, rfl, rfl, rfl⟩

theorem wit_MultiplyAccumulate :
    base.pins.hasMac = true ∧ (0#2 : BitVec 2) ≠ 2#2 ∧ (1#2 : BitVec 2) ≠ 2#2 ∧ (3#2 : BitVec 2) ≠ 2#2 := by decide

theorem wit_MultiplyAccumulateLoad :
    base.pins.hasMac = true ∧ (3#2 : BitVec 2) ≠ 2#2 ∧ eaLoad (.predec 0#3) = true ∧ base.cacheOff :=
  ⟨rfl, by decide, rfl, rfl⟩

theorem wit_MacMoves : base.pins.hasMac = true ∧ eaMacSrc (.dn 0#3) = true ∧ eaMacSrc (.immL 0#32) = true := by decide

theorem wit_StatusMoves : base.super = true := by decide

/-- User mode; the clause of HALT with CSR.UHE clear. -/
theorem wit_Privilege :
    baseUser.super = false ∧ baseUser.CanEnter ∧ (Instr.rte).privileged = true ∧ baseUser.dbg.csr.getLsbD 10 = false :=
  ⟨by decide, baseUser_canEnter, rfl, by decide⟩

/-- CACR written with CINVA and without. -/
theorem wit_MoveToControl :
    base.super = true ∧ ((start3 0x01000000#32 0#32 0#32).getR 0#4).getLsbD 24 = true ∧
      (base.getR 0#4).getLsbD 24 = false := by decide

/-- HALT in both modes, with and without a trigger's halt pending; STOP without trace, and with it, CSR.TRC clear and set. -/
theorem wit_HaltAndStop :
    base.super = true ∧ ({ baseUser with dbg := { baseUser.dbg with csr := 0x00100400#32 } }).dbg.csr.getLsbD 10 = true ∧
      base.ev.haltTrg = false ∧ (base.setEv { base.ev with haltTrg := true }).ev.haltTrg = true ∧
      (base.trace || (0x2000#16 : Word).getLsbD 15) = false ∧ (base.trace || (0xA000#16 : Word).getLsbD 15) = true ∧
      ((base.setSr 0xA000#16).setEv { base.ev with emulator := base.ev.emulator || base.dbg.csr.getLsbD 14 }).CanEnter ∧
      traceEmulates.super = true ∧ (traceEmulates.trace || (0xA000#16 : Word).getLsbD 15) = true ∧
      traceEmulates.dbg.csr.getLsbD 14 = true ∧
      ((traceEmulates.setSr 0xA000#16).setEv
        { traceEmulates.ev with emulator := traceEmulates.ev.emulator || traceEmulates.dbg.csr.getLsbD 14 }).CanEnter :=
  ⟨by decide, by decide, rfl, rfl, by decide, by decide,
    ⟨rfl, by unfold State.frameWritable byteWritable; decide, rfl⟩, by decide, by decide, by decide,
    ⟨rfl, by unfold State.frameWritable byteWritable; decide, rfl⟩⟩

/-- A dirty line, and addresses in it and outside it. -/
theorem wit_PushLine :
    (withLine true false).super = true ∧ (withLine true false).pins.cacheSize ≠ .absent ∧
      (lineAt (withLine true false).ms 0x12 3).v = true ∧ (lineAt (withLine true false).ms 0x12 3).d = true ∧
      (0x0000292F#32 : Long) &&& 0xFFFFFFF0#32 = ((5#32 : Long) <<< 7 ||| 0x12#32) <<< 4 ∧
      (0x00002930#32 : Long) &&& 0xFFFFFFF0#32 ≠ ((5#32 : Long) <<< 7 ||| 0x12#32) <<< 4 := by decide

theorem wit_TraceInstructions :
    base.dbg.csr.getLsbD 17 = false ∧ eaMemAlter (.postinc 0#3) = true ∧ eaBad (.postinc 0#3) = false := by decide

/-- WDMREG to the PBR, with IPW clear and set. -/
def wdebugReady : State := base.placeCode 0x2000#32 [0x2C88#16, 0x1234#16, 0x5678#16, 0#16]

theorem wit_WriteDebugRegister :
    eaBase (.ind 0#3) = true ∧ wdebugReady.super = true ∧ wdebugReady.cacheOff ∧
      (wdebugReady.address (.ind 0#3) .l).extractLsb' 0 2 = 0#2 ∧
      wdebugReady.bytes (wdebugReady.address (.ind 0#3) .l) 8
        = beBytes 4 (0x2C8#12 ++ 8#4 ++ (0x12345678#32 : Long).extractLsb' 16 16)
          ++ beBytes 4 ((0x12345678#32 : Long).extractLsb' 0 16 ++ 0#16) ∧
      wdebugReady.dbg.csr.getLsbD 16 = false ∧ statusOf wdebugReady.dbg ≠ 1#3 ∧ statusOf wdebugReady.dbg ≠ 5#3 ∧
      wdebugReady.dbg.tdr.extractLsb' 30 2 ≠ 3#2 ∧
      ({ wdebugReady.dbg with csr := 0x00110000#32 } : Dbg).csr.getLsbD 16 = true :=
  ⟨rfl, by decide, rfl, by decide, by rfl, by decide⟩

/-- A frame of format 5 with an odd PC, and the state in which its address error is entered. -/
def oddReturn : State := put (put base 0x4000#32 0x50802000#32) 0x4004#32 0x1235#32

theorem wit_ReturnFromException_odd :
    oddReturn.super = true ∧ oddReturn.cacheOff ∧ (oddReturn.longAt oddReturn.sp).toNat / 2 ^ 28 = 5 ∧
      (oddReturn.longAt (oddReturn.sp + 4#32)).getLsbD 0 = true ∧
      (((oddReturn.setSr ((oddReturn.longAt oddReturn.sp).setWidth 16)).setSp (oddReturn.sp + 4#32 + BitVec.ofNat 32 5)).setEv
        { oddReturn.ev with emulator := false, inhibitBp := oddReturn.ev.inhibitBp || oddReturn.ev.emulator }).CanEnter :=
  ⟨by decide, rfl, by decide, by decide, ⟨rfl, by unfold State.frameWritable byteWritable; decide, rfl⟩⟩

/-- Frames of the formats 4, 7, 3 and 8, and an even PC. -/
theorem wit_ReturnFromException :
    base.super = true ∧ base.cacheOff ∧ base.CanEnter ∧
      ((put base 0x4000#32 0x40802000#32).longAt 0x4000#32).toNat / 2 ^ 28 = 4 ∧
      ((put base 0x4000#32 0x70800015#32).longAt 0x4000#32).toNat / 2 ^ 28 = 7 ∧
      ((put base 0x4000#32 0x30800015#32).longAt 0x4000#32).toNat / 2 ^ 28 < 4 ∧
      7 < ((put base 0x4000#32 0x80800015#32).longAt 0x4000#32).toNat / 2 ^ 28 ∧
      ((put base 0x4004#32 0x1234#32).longAt 0x4004#32).getLsbD 0 = false :=
  ⟨by decide, rfl, base_canEnter, by decide, by decide, by decide, by decide, by decide⟩

theorem wit_TrapAndReturn :
    base.CanEnter ∧ (∃ t, exec (.trap 15#4) base = .next t ∧ t.ev.faultOnFault = false) ∧ base.ev.emulator = false ∧
      (base.after 0).getLsbD 0 = false ∧ base.cpu.sr &&& ~~~0xB79F#16 = 0#16 :=
  ⟨base_canEnter, ⟨_, rfl, by rfl⟩, by decide, by decide, by decide⟩

/-- The hypotheses on the state; requests below, at and above the mask, and of level 7. -/
theorem wit_InterruptRecognition :
    base.ev.run = .running ∧ base.ms.writeError = false ∧ base.ev.tracePending = false ∧ base.ev.stepDone = false ∧
      base.ev.haltTrg = false ∧ base.ev.haltBkpt = false ∧ base.ev.debugInt = false ∧ base.ev.boundaryTaken = false ∧
      base.dbg.tdr.getLsbD 13 = false ∧ base.dbg.tdr.getLsbD 29 = false ∧ base.pins.en000iack = false ∧
      (base.dbg.csr.getLsbD 4 && base.dbg.csr.getLsbD 5) = false ∧
      (request (base.setSr 0x2300#16) 4#3 0x40#8).ipl.toNat < 7 - (request (base.setSr 0x2300#16) 4#3 0x40#8).pins.miplb.toNat ∧
      ¬((request (base.setSr 0x2300#16) 3#3 0x40#8).ipl.toNat
        < 7 - (request (base.setSr 0x2300#16) 3#3 0x40#8).pins.miplb.toNat) ∧
      (request base 7#3 0x40#8).pins.miplb = 0#3 ∧ (request base 7#3 0x40#8).ev.nmiTaken = false := by decide

theorem wit_InterruptEntry :
    base.CanEnter ∧ ramClaims base.route { tt := 3#2, tm := 7#3 } (0xFFFFFFE0#32 + 4#32 * (7#3 : BitVec 3).setWidth 32) = false ∧
      romClaims base.route { tt := 3#2, tm := 7#3 } (0xFFFFFFE0#32 + 4#32 * (7#3 : BitVec 3).setWidth 32) = false :=
  ⟨base_canEnter, by decide, by decide⟩

theorem wit_AccessErrorTaken :
    writeFailed.CanEnter ∧ writeFailed.ms.writeError = true ∧ writeFailed.ev.boundaryTaken = false :=
  ⟨writeFailed_canEnter, rfl, rfl⟩

/-- All of memory write-protected by CACR.DW. -/
def guarded : State := { base with ctl := { base.ctl with cacr := 0x20#32 } }

theorem wit_FaultOnFault :
    guarded.cacheOff ∧ guarded.ev.inException = false ∧ byteRejected guarded.route guarded.superSpace (frameAddr guarded.sp) :=
  ⟨rfl, rfl, by unfold byteRejected; decide⟩

theorem wit_ResetEvent :
    ({ base with pins := { base.pins with rsti := true } }).pins.rsti = true ∧
      (base.pins.encf5307kram || base.pins.enraptorkram) = false := by decide

/-- The machine after reset, with an even and an odd initial PC. -/
theorem wit_ResetException :
    State.reset.cacheOff ∧ State.reset.ms.fill.valid = false ∧
      State.reset.dbg.csr.getLsbD 13 = false ∧ State.reset.ev.resetPending = true ∧ State.reset.ev.run = .running ∧
      State.reset.ev.emulator = false ∧ State.reset.pins.rsti = false ∧ State.reset.pins.bkpt = false ∧
      State.reset.pins.noAck = false ∧ State.reset.ms.stuck = false ∧
      (State.reset.pins.encf5307kram || State.reset.pins.enraptorkram) = false ∧
      (beValue ((put State.reset 4#32 0x400#32).superCodeBytes 4#32 4)).getLsbD 0 = false ∧
      (beValue ((put State.reset 4#32 0x401#32).superCodeBytes 4#32 4)).getLsbD 0 = true ∧
      State.reset.dbg.csr.getLsbD 17 = false ∧ State.reset.dbg.csr.extractLsb' 8 2 = 0#2 :=
  ⟨rfl, by decide⟩

/-- The store buffer enabled, in writethrough and in imprecise space. -/
def buffering (mode : Long) : State := { base with ctl := { base.ctl with cacr := 0x20000000#32 ||| mode } }

theorem wit_ByteWrites :
    guarded.cacheOff ∧ byteRejected guarded.route guarded.dataSpace 0x3000#32 ∧ (buffering 0#32).cacheOff ∧
      (buffering 0#32).ctl.cacr.getLsbD 29 = true ∧ (buffering 0#32).ms.stores.length < 4 ∧
      ramClaims (buffering 0#32).route (buffering 0#32).dataSpace 0x3000#32 = false ∧
      byteWritable (buffering 0#32).route (buffering 0#32).dataSpace 0x3000#32 ∧
      cacheMode (buffering 0#32).route (buffering 0#32).dataSpace 0x3000#32 = 0#2 ∧
      cacheMode (buffering 0x300#32).route (buffering 0x300#32).dataSpace 0x3000#32 = 3#2 :=
  ⟨rfl, by unfold byteRejected; decide, rfl, rfl, by decide, rfl, by unfold byteWritable; decide, rfl, rfl⟩

/-- The cache in use with a line of the address $2000 in level 1 of set 0, clean; `cm` the default cache mode. -/
def hitting (cm : Long) : State :=
  { cached with
    ctl := { cached.ctl with cacr := 0x80000000#32 ||| (cm <<< 8) }
    ms := { cached.ms with cache := [(1, { tag := 0x10#32, v := true, d := false, data := 7#128 })] } }

theorem hitting_cachable (cm : Long) (h : cm = 0#32 ∨ cm = 1#32) (a : Long) (ha : a = 0x200F#32 ∨ a = 0x3000#32) :
    (hitting cm).Cachable a ∧ writeProtected (hitting cm).route (hitting cm).dataSpace a = false := by
  rcases h with rfl | rfl <;> rcases ha with rfl | rfl <;>
    exact ⟨⟨by decide, by decide, by decide, by decide, by decide, by decide, by decide⟩, by decide⟩

/-- A hit in level 1 and a miss, in both cache modes. -/
theorem wit_ByteWrites_cache :
    (hitting 1#32).Cachable 0x200F#32 ∧ (hitting 1#32).HitsIn 0x200F#32 1 ∧ (hitting 1#32).Cachable 0x3000#32 ∧
      (hitting 1#32).Misses 0x3000#32 ∧ (0x3000#32 : Long).toNat % 16 = 0 ∧
      cacheMode (hitting 1#32).route (hitting 1#32).dataSpace 0x3000#32 = 1#2 ∧
      (hitting 0#32).Cachable 0x200F#32 ∧ (hitting 0#32).HitsIn 0x200F#32 1 ∧ (hitting 0#32).Misses 0x3000#32 ∧
      cacheMode (hitting 0#32).route (hitting 0#32).dataSpace 0x200F#32 = 0#2 :=
  ⟨(hitting_cachable _ (.inr rfl) _ (.inl rfl)).1, by unfold State.HitsIn State.levelHolds; decide,
    (hitting_cachable _ (.inr rfl) _ (.inr rfl)).1, by unfold State.Misses State.levelHolds; decide, by decide, by decide,
    (hitting_cachable _ (.inl rfl) _ (.inl rfl)).1, by unfold State.HitsIn State.levelHolds; decide,
    by unfold State.Misses State.levelHolds; decide, by decide⟩

/-- The hypotheses of the clauses on the cache in use: a hit and a miss of an aligned operand. -/
theorem wit_WhoAnswers_cache :
    (hitting 1#32).Cachable 0x200F#32 ∧ (0x200F#32 : Long).toNat % Size.b.bytes = 0 ∧ (hitting 1#32).HitsIn 0x200F#32 1 ∧
      (hitting 1#32).Cachable 0x3000#32 ∧ (0x3000#32 : Long).toNat % Size.l.bytes = 0 ∧ (hitting 1#32).Misses 0x3000#32 :=
  ⟨(hitting_cachable _ (.inr rfl) _ (.inl rfl)).1, by decide, by unfold State.HitsIn State.levelHolds; decide,
    (hitting_cachable _ (.inr rfl) _ (.inr rfl)).1, by decide, by unfold State.Misses State.levelHolds; decide⟩

/-- The RAM answers, the ROM answers, neither answers. -/
theorem wit_WhoAnswers :
    base.cacheOff ∧
      ramClaims { base.route with ctl := { base.ctl with rambar := 0x20000021#32 } } { tt := 0#2, tm := 5#3 } 0x20000FFF#32
        = true ∧
      localHit .k4 0x00000121#32 { tt := 0#2, tm := 5#3 } 0x00000FFF#32 = true ∧
      localHit .k4 0x00000121#32 { tt := 0#2, tm := 5#3 } 0x00001000#32 = false := ⟨rfl, by decide⟩

/-- A PC breakpoint of level 1 that halts, at an address. -/
def breakAt (a : Long) : State :=
  { base with dbg := { base.dbg with tdr := 0x40002002#32, pbr := a, csr := 0x20100000#32 } }

theorem wit_PcBreakpoint :
    (breakAt 0x1000#32).ev.run = .running ∧ (breakAt 0x1000#32).ms.writeError = false ∧
      (breakAt 0x1000#32).ev.tracePending = false ∧ (breakAt 0x1000#32).ev.stepDone = false ∧
      (breakAt 0x1000#32).ev.inhibitBp = false ∧ (breakAt 0x1000#32).dbg.tdr = 0x40002002#32 ∧
      statusOf (breakAt 0x1000#32).dbg = 1#3 ∧ (breakAt 0x1000#32).dbg.pbmr = 0#32 ∧
      (breakAt 0x1000#32).ev.haltTrg = false ∧ (breakAt 0x1000#32).cpu.pc = (breakAt 0x1000#32).dbg.pbr ∧
      (breakAt 0x1002#32).cpu.pc ≠ (breakAt 0x1002#32).dbg.pbr := by decide

theorem wit_BdmRegisters :
    (base.setEv { base.ev with run := .halted }).ev.run = .halted ∧ (base.setEv { base.ev with run := .halted }).bdm.cmd = [] ∧
      (base.setEv { base.ev with run := .halted }).bdm.resp = [] := by decide

end Sys2Proof.Tests
end

