-- ==== Sys2Proof/Proofs/OneRegister.lean ====
section
/-! PROOF. Sys2Proof/Proofs/OneRegister.lean: MOVEQ, EXT, EXTB, NOT and SWAP (spec/40_data_movement.md R263,
spec/41_integer_arithmetic.md R318 to R320, spec/42_logical_shift_bit.md R349, R350). Each meaning is one operation on Dx
alone; first its result in the terms of the statement, then the frame that all operations on Dx share. -/

namespace Sys2Proof.Machine

/-! ### The meanings as operations on Dx -/

theorem exec_moveq (s : State) (d : Byte) (dx : Reg) :
    exec (.moveq d dx) s =
      onD s dx (BitVec.ofInt 32 d.toInt) (nzFlags s.flags .l (BitVec.ofInt 32 d.toInt)) 0 := by
  rw [← signExtend_eq]
  rfl

theorem exec_extW (s : State) (dx : Reg) :
    exec (.extW dx) s =
      onD s dx (merge .w (s.getD dx) (BitVec.ofInt 32 ((s.getD dx).setWidth 8).toInt))
        (nzFlags s.flags .w (BitVec.ofInt 32 ((s.getD dx).setWidth 8).toInt)) 0 := by
  rw [← signExtend_eq, ← extract8_eq]
  rfl

theorem exec_extL (s : State) (dx : Reg) :
    exec (.extL dx) s =
      onD s dx (BitVec.ofInt 32 ((s.getD dx).setWidth 16).toInt)
        (nzFlags s.flags .l (BitVec.ofInt 32 ((s.getD dx).setWidth 16).toInt)) 0 := by
  rw [← signExtend_eq, ← extract16_eq]
  rfl

theorem exec_extbL (s : State) (dx : Reg) :
    exec (.extbL dx) s =
      onD s dx (BitVec.ofInt 32 ((s.getD dx).setWidth 8).toInt)
        (nzFlags s.flags .l (BitVec.ofInt 32 ((s.getD dx).setWidth 8).toInt)) 0 := by
  rw [← signExtend_eq, ← extract8_eq]
  rfl

theorem exec_notL (s : State) (dx : Reg) :
    exec (.notL dx) s = onD s dx (~~~(s.getD dx)) (nzFlags s.flags .l (~~~(s.getD dx))) 0 := rfl

theorem exec_swap (s : State) (dx : Reg) :
    exec (.swap dx) s =
      onD s dx (BitVec.ofNat 32 ((s.getD dx).toNat % 2 ^ 16 * 2 ^ 16 + (s.getD dx).toNat / 2 ^ 16))
        (nzFlags s.flags .l
          (BitVec.ofNat 32 ((s.getD dx).toNat % 2 ^ 16 * 2 ^ 16 + (s.getD dx).toNat / 2 ^ 16))) 0 := by
  rw [← swapHalves_eq]
  rfl

/-! ### The whole register and its flags -/

/-- An operation that replaces all of Dx and takes its flags from the 32-bit result. -/
theorem onD_nzFlags_onRegs {i : Instr} {s : State} {dx : Reg} {v : Long} {n : Nat}
    (h : exec i s = onD s dx v (nzFlags s.flags .l v) n) :
    OnRegs i s (withReg s.getR (dNum dx) v) (valueFlags s.flags 32 v) (s.after n) := by
  rw [← nzFlags_l]
  exact onD_onRegs h

/-- An operation that replaces the low word of Dx and takes its flags from that word. -/
theorem onD_merge_nzFlags_onRegs {i : Instr} {s : State} {dx : Reg} {v : Long} {n : Nat}
    (h : exec i s = onD s dx (merge .w (s.getD dx) v) (nzFlags s.flags .w v) n) :
    OnRegs i s (withReg s.getR (dNum dx) (putLow 16 (s.getD dx) v)) (valueFlags s.flags 16 v) (s.after n) := by
  rw [← merge_w, ← nzFlags_w]
  exact onD_onRegs h

/-- Settles O15: EXT.W keeps the upper word of Dx; the five other instructions replace the whole register. -/
theorem oneRegister : Obligations.OneRegister := fun s dx d =>
  ⟨onD_nzFlags_onRegs (exec_moveq s d dx), onD_merge_nzFlags_onRegs (exec_extW s dx),
    onD_nzFlags_onRegs (exec_extL s dx), onD_nzFlags_onRegs (exec_extbL s dx),
    onD_nzFlags_onRegs (exec_notL s dx), onD_nzFlags_onRegs (exec_swap s dx)⟩

end Sys2Proof.Machine
end

