-- ==== Sys2Proof/Proofs/RegisterArithmetic.lean ====
section
/-! PROOF. Sys2Proof/Proofs/RegisterArithmetic.lean: additions, subtractions and comparisons of registers
and immediate data (spec/41_integer_arithmetic.md R304 to R306, R310 to R312, R315 to R317). The eleven forms are few
shapes: a sum or a difference into Dx, with the bit X or without it, the immediate data 1 to 8 added to or taken from a
register, and a comparison. -/

namespace Sys2Proof.Machine

section Shapes

variable {i : Instr} {s : State} {dx : Reg} {v d : Long} {n : Nat}

/-! ### The flags of the extended forms -/

/-- The flags of ADDX: Z survives only a zero sum. -/
theorem stickyZ_addFlags (old : Flags) (v d : Long) (x : Bool) :
    stickyZ old (addFlags v d x) =
      { sumFlags v d x with z := old.z && decide (d + v + BitVec.ofNat 32 x.toNat = 0#32) } := by
  rw [stickyZ_eq, addFlags_eq, BitVec.add_comm d v]
  rfl

/-- The flags of SUBX and NEGX: Z survives only a zero difference. -/
theorem stickyZ_subFlags (old : Flags) (v d : Long) (x : Bool) :
    stickyZ old (subFlags v d x) =
      { diffFlags v d x with z := old.z && decide (d - v - BitVec.ofNat 32 x.toNat = 0#32) } := by
  rw [stickyZ_eq, subFlags_eq]
  rfl

/-! ### Sums and differences into Dx -/

/-- A sum into Dx (ADDI). -/
theorem onD_sum_onRegs (h : exec i s = onD s dx (addL v d) (addFlags v d false) n) :
    OnRegs i s (withReg s.getR (dNum dx) (d + v)) (sumFlags v d false) (s.after n) := by
  rw [← addL_eq, ← addFlags_eq]
  exact onD_onRegs h

/-- A difference into Dx (SUBI; NEG, which subtracts from zero). -/
theorem onD_difference_onRegs (h : exec i s = onD s dx (subL v d) (subFlags v d false) n) :
    OnRegs i s (withReg s.getR (dNum dx) (d - v)) (diffFlags v d false) (s.after n) := by
  rw [← subL_eq, ← subFlags_eq]
  exact onD_onRegs h

/-- A sum with the bit X into Dx (ADDX). -/
theorem onD_sumX_onRegs
    (h : exec i s = onD s dx (addResult v d s.flags.x) (stickyZ s.flags (addFlags v d s.flags.x)) n) :
    OnRegs i s (withReg s.getR (dNum dx) (d + v + BitVec.ofNat 32 s.flags.x.toNat))
      { sumFlags v d s.flags.x with
        z := s.flags.z && decide (d + v + BitVec.ofNat 32 s.flags.x.toNat = 0#32) } (s.after n) := by
  rw [← stickyZ_addFlags, ← addResult_eq]
  exact onD_onRegs h

/-- A difference with the bit X into Dx (SUBX; NEGX, which subtracts from zero). -/
theorem onD_differenceX_onRegs
    (h : exec i s = onD s dx (subResult v d s.flags.x) (stickyZ s.flags (subFlags v d s.flags.x)) n) :
    OnRegs i s (withReg s.getR (dNum dx) (d - v - BitVec.ofNat 32 s.flags.x.toNat))
      { diffFlags v d s.flags.x with
        z := s.flags.z && decide (d - v - BitVec.ofNat 32 s.flags.x.toNat = 0#32) } (s.after n) := by
  rw [← stickyZ_subFlags, ← subResult_eq]
  exact onD_onRegs h

/-! ### ADDQ and SUBQ -/

/-- ADDQ to Dx: the sum with 1 to 8, every flag. -/
theorem addqL_dn_onRegs (s : State) (q dx : Reg) :
    OnRegs (.addqL q (.dn dx)) s (withReg s.getR (dNum dx) (s.getD dx + quickLong q))
      (sumFlags (quickLong q) (s.getD dx) false) (s.after 0) := by
  rw [← addL_eq, ← addFlags_eq]
  exact toEa_onRegs (f := fun _ v d => addFlags v d false) rfl

/-- SUBQ from Dx: the difference, every flag. -/
theorem subqL_dn_onRegs (s : State) (q dx : Reg) :
    OnRegs (.subqL q (.dn dx)) s (withReg s.getR (dNum dx) (s.getD dx - quickLong q))
      (diffFlags (quickLong q) (s.getD dx) false) (s.after 0) := by
  rw [← subL_eq, ← subFlags_eq]
  exact toEa_onRegs (f := fun _ v d => subFlags v d false) rfl

/-- A new value into Ax, no flag written. -/
theorem setA_onRegs {ax : Reg} (h : exec i s = .next (((s.pst 1#4).setA ax v).advance 0)) :
    OnRegs i s (withReg s.getR (aNum ax) v) s.flags (s.after 0) :=
  onRegs_of h (by simp [State.advance]) (flagsNow_same (by simp [State.advance]))
    (by simp [State.advance, State.nextPc, State.after]) (by simp [State.advance]) (.mk' (by simp [State.advance]))

theorem addqL_an_onRegs (s : State) (q ax : Reg) :
    OnRegs (.addqL q (.an ax)) s (withReg s.getR (aNum ax) (s.getA ax + quickLong q)) s.flags (s.after 0) := by
  rw [← addL_eq]
  exact setA_onRegs rfl

theorem subqL_an_onRegs (s : State) (q ax : Reg) :
    OnRegs (.subqL q (.an ax)) s (withReg s.getR (aNum ax) (s.getA ax - quickLong q)) s.flags (s.after 0) := by
  rw [← subL_eq]
  exact setA_onRegs rfl

/-! ### CMPI -/

/-- CMPI writes no register, and of the flags of the difference all but X. -/
theorem cmpiL_onRegs (s : State) (dx : Reg) (v : Long) :
    OnRegs (.cmpiL dx v) s s.getR { diffFlags v (s.getD dx) false with x := s.flags.x } (s.after 2) := by
  rw [← keepX_eq]
  have h : exec (.cmpiL dx v) s =
      .next (((s.pst 1#4).setFlags (keepX s.flags (subFlags v (s.getD dx) false))).advance 2) := rfl
  exact onRegs_of h (by simp [State.advance]) (flagsNow_setFlags (by simp [State.advance]))
    (by simp [State.advance, State.nextPc, State.after]) (by simp [State.advance]) (.mk' (by simp [State.advance]))

end Shapes

/-- Settles O20: each form is one of the shapes above, with the immediate data of ADDQ and SUBQ read as 1 to 8. -/
theorem registerArithmetic : Obligations.RegisterArithmetic := by
  intro s dx dy q v
  simp only [← quickLong_eq]
  exact ⟨onD_sum_onRegs rfl, onD_difference_onRegs rfl, cmpiL_onRegs s dx v, addqL_dn_onRegs s q dx,
    subqL_dn_onRegs s q dx, addqL_an_onRegs s q dx, subqL_an_onRegs s q dx, onD_difference_onRegs rfl,
    onD_sumX_onRegs rfl, onD_differenceX_onRegs rfl, onD_differenceX_onRegs rfl⟩

end Sys2Proof.Machine
end

