-- ==== Sys2Proof/Proofs/SourceToRegister.lean ====
section
/-! PROOF. Sys2Proof/Proofs/SourceToRegister.lean: ADD, ADDA, SUB, SUBA, CMP, CMPA and TST from any source
(spec/41_integer_arithmetic.md R301, R303, R307, R309, R313, R314, R321). What the four shapes of meaning leave is said
in Sys2Proof/Laws/Shapes.lean; here their results and flags are put in the terms of the statement. -/

namespace Sys2Proof.Machine

open Sys2Proof.Dec (eaLen)

section Sources

variable {s : State} {ea : Ea} {r : Reg}

theorem addToD_reads (hb : eaBad ea = false) :
    Reads (.addToD ea r) s ea .l (withReg (s.regsAfter ea .l) (dNum r) (s.getD r + s.operand ea .l))
      (sumFlags (s.operand ea .l) (s.getD r) false) (s.after (eaLen ea)) := by
  rw [← addL_eq, ← addFlags_eq]
  exact eaToD_reads (f := fun _ v d => addFlags v d false) hb rfl

theorem subToD_reads (hb : eaBad ea = false) :
    Reads (.subToD ea r) s ea .l (withReg (s.regsAfter ea .l) (dNum r) (s.getD r - s.operand ea .l))
      (diffFlags (s.operand ea .l) (s.getD r) false) (s.after (eaLen ea)) := by
  rw [← subL_eq, ← subFlags_eq]
  exact eaToD_reads (f := fun _ v d => subFlags v d false) hb rfl

/-- The address register is the one the source's postincrement or predecrement left (spec/30_encoding.md R231). -/
theorem addaL_reads (hb : eaBad ea = false) :
    Reads (.addaL ea r) s ea .l
      (withReg (s.regsAfter ea .l) (aNum r) (s.regsAfter ea .l (aNum r) + s.operand ea .l)) s.flags
      (s.after (eaLen ea)) := by
  rw [← addL_eq]
  exact eaToA_reads hb rfl

theorem subaL_reads (hb : eaBad ea = false) :
    Reads (.subaL ea r) s ea .l
      (withReg (s.regsAfter ea .l) (aNum r) (s.regsAfter ea .l (aNum r) - s.operand ea .l)) s.flags
      (s.after (eaLen ea)) := by
  rw [← subL_eq]
  exact eaToA_reads hb rfl

/-- The source's move of an address register leaves every data register: Dx is the one before the instruction. -/
theorem cmpL_reads (hb : eaBad ea = false) :
    Reads (.cmpL ea r) s ea .l (s.regsAfter ea .l)
      { diffFlags (s.operand ea .l) (s.getD r) false with x := s.flags.x } (s.after (eaLen ea)) := by
  have hd : ((s.pst 1#4).eaRead ea .l).2.getD r = s.getD r := by simp
  rw [← keepX_eq, ← hd]
  exact compare_reads (d := fun t => t.getD r) hb rfl

/-- CMPA writes the condition codes, and compares with the register that the source's move left. -/
theorem cmpaL_reads (hb : eaBad ea = false) :
    Reads (.cmpaL ea r) s ea .l (s.regsAfter ea .l)
      { diffFlags (s.operand ea .l) (s.regsAfter ea .l (aNum r)) false with x := s.flags.x }
      (s.after (eaLen ea)) := by
  have ha : ((s.pst 1#4).eaRead ea .l).2.getA r = s.regsAfter ea .l (aNum r) := by simp
  rw [← keepX_eq, ← ha]
  exact compare_reads (d := fun t => t.getA r) hb rfl

/-- TST in the three sizes. -/
theorem tst_valueFlags_reads {i : Instr} {sz : Size} (hb : eaBad ea = false) (h : exec i s = tstOp sz ea s) :
    Reads i s ea sz (s.regsAfter ea sz) (valueFlags s.flags (8 * sz.bytes) (s.operand ea sz))
      (s.after (eaLen ea)) := by
  rw [← nzFlags_eq]
  exact tst_reads hb h

end Sources

/-- Settles O21: ADDA, SUBA and CMPA take Ax as the source left it; no source moves the Dx of ADD, SUB and CMP. -/
theorem sourceToRegister : Obligations.SourceToRegister := fun _ _ _ hb =>
  ⟨addToD_reads hb, subToD_reads hb, cmpL_reads hb, addaL_reads hb, subaL_reads hb, cmpaL_reads hb,
    tst_valueFlags_reads hb rfl, tst_valueFlags_reads hb rfl, tst_valueFlags_reads hb rfl⟩

end Sys2Proof.Machine
end

