-- ==== Sys2Proof/Proofs/LogicToData.lean ====
section
/-! PROOF. Sys2Proof/Proofs/LogicToData.lean: AND and OR from any source into Dx, and ANDI, ORI and EORI
(spec/42_logical_shift_bit.md R341, R343, R344, R346, R348). The forms with a source operand are one shape of meaning, the
immediate forms another; what differs between the instructions is the bitwise operation. -/

namespace Sys2Proof.Machine

open Sys2Proof.Dec (eaLen)

/-! ### The operations, destination first -/

theorem andL_eq (v d : Long) : andL v d = d &&& v := BitVec.and_comm v d

theorem orL_eq (v d : Long) : orL v d = d ||| v := BitVec.or_comm v d

theorem eorL_eq (v d : Long) : eorL v d = d ^^^ v := BitVec.xor_comm v d

/-- logic_flags (R340) are the flags of the 32-bit result. -/
theorem logicFlags_eq (r : Long → Long → Long) (old : Flags) (v d : Long) :
    logicFlags r old v d = valueFlags old 32 (r v d) := nzFlags_l old (r v d)

/-! ### A source operand and Dx -/

/-- A logical operation of a source operand on Dx (AND, OR): no source moves a data register, so Dx is the one before the
instruction. -/
theorem eaToD_logicFlags_reads {i : Instr} {s : State} {ea : Ea} {dx : Reg} {r : Long → Long → Long}
    (hb : eaBad ea = false) (h : exec i s = eaToD ea dx s r (logicFlags r)) :
    Reads i s ea .l (withReg (s.regsAfter ea .l) (dNum dx) (r (s.operand ea .l) (s.getD dx)))
      (valueFlags s.flags 32 (r (s.operand ea .l) (s.getD dx))) (s.after (eaLen ea)) := by
  rw [← logicFlags_eq]
  exact eaToD_reads hb h

/-- Settles O23: the immediate forms are operations on Dx that take N and Z from the whole result. -/
theorem logicToData : Obligations.LogicToData := by
  intro s ea dx w hb
  simp only [← andL_eq, ← orL_eq, ← eorL_eq]
  exact ⟨eaToD_logicFlags_reads hb rfl, eaToD_logicFlags_reads hb rfl, onD_nzFlags_onRegs rfl, onD_nzFlags_onRegs rfl,
    onD_nzFlags_onRegs rfl⟩

end Sys2Proof.Machine
end

