-- ==== Sys2Proof/Proofs/Shifts.lean ====
section
/-! PROOF. Sys2Proof/Proofs/Shifts.lean: ASL, LSL, LSR and ASR by an immediate count and by a register
(spec/42_logical_shift_bit.md R355 to R359). The three directions are proved for every count; the two forms differ only in
where the count comes from. -/

namespace Sys2Proof.Machine

/-- The last bit out counts only when the count is not 0 (R355). -/
theorem shiftedFlags_congr {old : Flags} {n : Nat} {a b : Bool} {r : Long} (h : n ≠ 0 → a = b) :
    shiftedFlags old n a r = shiftedFlags old n b r := by
  by_cases hn : n = 0
  · simp [shiftedFlags, hn]
  · rw [h hn]

section Directions

variable {i : Instr} {s : State} {dx : Reg} {n : Nat}

/-- A shift of Dx in terms of the model's own result and last bit out. -/
theorem shiftOp_onRegs {r : Long → Nat → Long} {out : Long → Nat → Bool} (h : exec i s = shiftOp dx n s r out) :
    OnRegs i s (withReg s.getR (dNum dx) (r (s.getD dx) n))
      (shiftedFlags s.flags n (out (s.getD dx) n) (r (s.getD dx) n)) (s.after 0) := by
  rw [← shiftFlags_eq]
  exact onD_onRegs h

/-- A left shift (ASL, LSL) multiplies by 2^n; bit 32 of the product is the last bit out. -/
theorem shiftLeft_onRegs (h : exec i s = shiftOp dx n s shiftLeft leftOut) :
    OnRegs i s (withReg s.getR (dNum dx) (BitVec.ofNat 32 ((s.getD dx).toNat * 2 ^ n)))
      (shiftedFlags s.flags n (((s.getD dx).toNat * 2 ^ n).testBit 32)
        (BitVec.ofNat 32 ((s.getD dx).toNat * 2 ^ n))) (s.after 0) := by
  rw [← shiftLeft_eq, ← leftOut_eq]
  exact shiftOp_onRegs h

/-- A logical right shift (LSR) divides the unsigned value by 2^n. -/
theorem shiftRightL_onRegs (h : exec i s = shiftOp dx n s shiftRightL rightOutL) :
    OnRegs i s (withReg s.getR (dNum dx) (BitVec.ofNat 32 ((s.getD dx).toNat / 2 ^ n)))
      (shiftedFlags s.flags n ((s.getD dx).toNat.testBit (n - 1))
        (BitVec.ofNat 32 ((s.getD dx).toNat / 2 ^ n))) (s.after 0) := by
  rw [← shiftRightL_eq, ← rightOutL_eq]
  exact shiftOp_onRegs h

/-- An arithmetic right shift (ASR) divides the signed value by 2^n, rounding down; the last bit out is the parity of the
quotient one place before. For the count 0 there is no such place, and no flag shows the bit. -/
theorem shiftRightA_onRegs (h : exec i s = shiftOp dx n s shiftRightA rightOutA) :
    OnRegs i s (withReg s.getR (dNum dx) (BitVec.ofInt 32 ((s.getD dx).toInt / 2 ^ n)))
      (shiftedFlags s.flags n (decide ((s.getD dx).toInt / 2 ^ (n - 1) % 2 = 1))
        (BitVec.ofInt 32 ((s.getD dx).toInt / 2 ^ n))) (s.after 0) := by
  rw [← shiftRightA_eq, ← shiftedFlags_congr (rightOutA_eq (s.getD dx) n)]
  exact shiftOp_onRegs h

end Directions

/-- Settles O25: the count is 1 to 8 (`quick`) or Dy modulo 64 (`regCount`); LSL is the shift that ASL is. -/
theorem shifts : Obligations.Shifts := fun _ _ _ _ =>
  ⟨shiftLeft_onRegs rfl, shiftLeft_onRegs rfl, shiftRightL_onRegs rfl, shiftRightA_onRegs rfl,
    shiftLeft_onRegs rfl, shiftLeft_onRegs rfl, shiftRightL_onRegs rfl, shiftRightA_onRegs rfl⟩

end Sys2Proof.Machine
end

