-- ==== Sys2Proof/Proofs/SetAndSkip.lean ====
section
/-! PROOF. Sys2Proof/Proofs/SetAndSkip.lean: Scc and the three forms of TRAPF (spec/43_program_control.md R389, R392).
None of them writes a flag. Scc is a write of Dx, TRAPF only an advance of the PC over its extension words; each of the two
shapes is proved once. -/

namespace Sys2Proof.Machine

section Shapes

variable {i : Instr} {s : State} {n : Nat}

/-- A new value into Dx, no flag written. -/
theorem setD_onRegs {dx : Reg} {v : Long} (h : exec i s = .next (((s.pst 1#4).setD dx v).advance n)) :
    OnRegs i s (withReg s.getR (dNum dx) v) s.flags (s.after n) :=
  onRegs_of h (by simp [State.advance]) (flagsNow_same (by simp [State.advance]))
    (by simp [State.advance, State.nextPc, State.after]) (by simp [State.advance]) (.mk' (by simp [State.advance]))

/-- Only the PC moves, over the instruction word and `n` extension words. -/
theorem advance_onRegs (h : exec i s = .next ((s.pst 1#4).advance n)) : OnRegs i s s.getR s.flags (s.after n) :=
  onRegs_of h (by simp [State.advance]) (flagsNow_same (by simp [State.advance]))
    (by simp [State.advance, State.nextPc, State.after]) (by simp [State.advance]) (.mk' (by simp [State.advance]))

end Shapes

/-- Scc writes the low byte of Dx: all ones where the condition holds, else zero. -/
theorem scc_onRegs (s : State) (cc : BitVec 4) (dx : Reg) :
    OnRegs (.scc cc dx) s
      (withReg s.getR (dNum dx) (putLow 8 (s.getD dx) (if holds s.flags cc then 0xFF#32 else 0#32))) s.flags
      (s.after 0) := by
  rw [← cond_eq, ← merge_b]
  exact setD_onRegs rfl

/-- Settles O31: Scc is a write of Dx; the forms of TRAPF advance over zero, one and two extension words. -/
theorem setAndSkip : Obligations.SetAndSkip := fun s dx cc _ _ =>
  ⟨scc_onRegs s cc dx, advance_onRegs rfl, advance_onRegs rfl, advance_onRegs rfl⟩

end Sys2Proof.Machine
end

