-- ==== Sys2Proof/Proofs/Multiply.lean ====
section
/-! PROOF. Sys2Proof/Proofs/Multiply.lean: MULS and MULU of words and of longwords (spec/44_mul_div_mac.md R421 to R424).
The four are one shape of meaning, said in Sys2Proof/Laws/Shapes.lean; what is left is that the model's 32-bit product is
the exact product of its factors, read as signed or as unsigned numbers, modulo 2^32. -/

namespace Sys2Proof.Machine

/-! ### The products -/

theorem mulWord_signed_eq (v d : Long) :
    mulWord true v d = BitVec.ofInt 32 ((v.setWidth 16).toInt * (d.setWidth 16).toInt) := by
  simp only [mulWord, wordAs, if_true, extract16_eq, signExtend_eq, BitVec.ofInt_mul]

theorem mulWord_unsigned_eq (v d : Long) :
    mulWord false v d = BitVec.ofNat 32 ((v.setWidth 16).toNat * (d.setWidth 16).toNat) := by
  simp only [mulWord, wordAs, Bool.false_eq_true, if_false, extract16_eq, BitVec.ofNat_mul, BitVec.ofNat_toNat]

/-- The low 32 bits of the product of two longwords read as signed numbers (R423). -/
theorem mulLong_signed_eq (v d : Long) : mulLong v d = BitVec.ofInt 32 (v.toInt * d.toInt) := by
  rw [BitVec.ofInt_mul, BitVec.ofInt_toInt, BitVec.ofInt_toInt, mulLong]

/-- The same low 32 bits from the factors read as unsigned numbers (R423, R424). -/
theorem mulLong_unsigned_eq (v d : Long) : mulLong v d = BitVec.ofNat 32 (v.toNat * d.toNat) := by
  rw [BitVec.ofNat_mul, BitVec.ofNat_toNat, BitVec.ofNat_toNat, BitVec.setWidth_eq, BitVec.setWidth_eq, mulLong]

/-! ### The instructions -/

/-- A multiply whose product is `p`: N and Z are those of the 32-bit product, whatever the size of the factors. -/
theorem mul_valueFlags_reads {i : Instr} {s : State} {ea : Ea} {sz : Size} {dx : Reg} {n : Nat} {f : Long → Long → Long}
    {p : Long} (hb : eaBad ea = false) (h : exec i s = mulOp sz ea dx n s f) (hp : f (s.operand ea sz) (s.getD dx) = p) :
    Reads i s ea sz (withReg (s.regsAfter ea sz) (dNum dx) p) (valueFlags s.flags 32 p) (s.after n) := by
  subst hp
  rw [← nzFlags_l]
  exact mul_reads hb h

/-- Settles O34: the four differ in the size of the operand and in how the factors are read; the extension word of the
long forms has its reserved bits zero. -/
theorem multiply : Obligations.Multiply := fun _ _ _ hb =>
  ⟨mul_valueFlags_reads hb rfl (mulWord_signed_eq _ _), mul_valueFlags_reads hb rfl (mulWord_unsigned_eq _ _),
    mul_valueFlags_reads hb rfl (mulLong_signed_eq _ _), mul_valueFlags_reads hb rfl (mulLong_unsigned_eq _ _)⟩

end Sys2Proof.Machine
end

