-- ==== Sys2Proof/Proofs/DecoderReads.lean ====
section
/-! PROOF. Sys2Proof/Proofs/DecoderReads.lean: each row of the decoder answers an instruction that the encoding admits,
whose words are the first of those read. -/

namespace Sys2Proof.Decoder
open Sys2Proof.Machine Sys2Proof.Dec Sys2Proof.Enc Sys2Proof.Laws

/-- The immediate forms have the words of their size (R209). -/
def sizedImm (sz : Size) : Ea → Bool
  | .immW _ => sz != .l
  | .immL _ => sz == .l
  | _ => true

/-! ### The words of a longword and of an extension word -/

theorem append_eq_iff {n k : Nat} (a : BitVec n) (b : BitVec k) (v : BitVec (n + k)) :
    a ++ b = v ↔ v.extractLsb' k n = a ∧ v.extractLsb' 0 k = b := by
  constructor
  · rintro rfl
    exact ⟨BitVec.extractLsb'_append_eq_left .., BitVec.extractLsb'_append_eq_right ..⟩
  · rintro ⟨rfl, rfl⟩
    ext i hi
    by_cases h : i < k
    · simp
    · have e : k + (i - k) = i := by omega
      simp

theorem append_halves_iff (v : Long) (a b : Word) :
    a ++ b = v ↔ v.extractLsb' 16 16 = a ∧ v.extractLsb' 0 16 = b :=
  append_eq_iff a b v

theorem longWords_append (a b : Word) : longWords (a ++ b) = [a, b] := by
  obtain ⟨ha, hb⟩ := (append_halves_iff (a ++ b) a b).1 rfl
  rw [longWords, ha, hb]

/-! ### Effective addresses -/

theorem reg_cases (r : Reg) :
    r = 0#3 ∨ r = 1#3 ∨ r = 2#3 ∨ r = 3#3 ∨ r = 4#3 ∨ r = 5#3 ∨ r = 6#3 ∨ r = 7#3 := by
  revert r; decide

/-- A mode and a register field with the words after them read as the address that has these fields and words. -/
theorem eaOf_eq_some_iff {sz : Size} {m r : BitVec 3} {a b : Word} {e : Ea} :
    eaOf sz m r a b = some e ↔
      eaMode e = m ∧ eaReg e = r ∧ sizedImm sz e = true ∧ eaWords e <+: [a, b] := by
  constructor
  · intro h
    rcases reg_cases m with rfl | rfl | rfl | rfl | rfl | rfl | rfl | rfl
    case inr.inr.inr.inr.inr.inr.inr =>
      rcases reg_cases r with rfl | rfl | rfl | rfl | rfl | rfl | rfl | rfl <;> cases sz <;>
        simp [eaOf] at h <;> subst h <;> simp [eaMode, eaReg, eaWords, sizedImm, ← append_halves_iff]
    all_goals
      simp [eaOf] at h; subst h; simp [eaMode, eaReg, eaWords, sizedImm]
  · rintro ⟨rfl, rfl, hs, hw⟩
    cases e <;> cases sz <;> simp [sizedImm] at hs <;> simp [eaWords] at hw <;>
      simp [eaOf, eaMode, eaReg, hw, append_halves_iff]

theorem pick_eq_some_iff {p : Ea → Bool} {o : Option Ea} {k : Ea → Instr} {i : Instr} :
    pick p o k = some i ↔ ∃ e, o = some e ∧ p e = true ∧ k e = i := by
  unfold pick
  cases o with
  | none => simp
  | some e => by_cases h : p e = true <;> simp [h]

theorem length_eaWords (e : Ea) : (eaWords e).length = eaLen e := by cases e <;> rfl

/-! ### An operation word from a mask of its fixed bits -/

section Masks
variable {op v : Word}

theorem at0_of_mask (h : op &&& 0xFFF8#16 = v) : v ||| at0 (lo op) = op := by
  subst h; ext i hi; interval_cases i <;> simp [at0, lo]

theorem eaBits_of_mask (h : op &&& 0xFFC0#16 = v) {e : Ea} (hm : eaMode e = mode op) (hr : eaReg e = lo op) :
    v ||| eaBits e = op := by
  subst h; rw [eaBits, hm, hr]; ext i hi; interval_cases i <;> simp [mode, lo]

theorem at9_eaBits_of_mask (h : op &&& 0xF1C0#16 = v) {e : Ea} (hm : eaMode e = mode op) (hr : eaReg e = lo op) :
    v ||| at9 (hi op) ||| eaBits e = op := by
  subst h; rw [eaBits, hm, hr]; ext i hi; interval_cases i <;> simp [mode, lo, at9, Dec.hi]

theorem at9_at0_of_mask (h : op &&& 0xF1F8#16 = v) : v ||| at9 (hi op) ||| at0 (lo op) = op := by
  subst h; ext i hi; interval_cases i <;> simp [at0, lo, at9, Dec.hi]

theorem low4_of_mask (h : op &&& 0xFFF0#16 = v) : v ||| (lo4 op).setWidth 16 = op := by
  subst h; ext i hi; interval_cases i <;> simp [lo4]

theorem cc_at0_of_mask (h : op &&& 0xF0F8#16 = v) :
    v ||| (op.extractLsb' 8 4).setWidth 16 <<< 8 ||| at0 (lo op) = op := by
  subst h; ext i hi; interval_cases i <;> simp [at0, lo]

theorem low8_of_mask (h : op &&& 0xFF00#16 = v) : v ||| (op.extractLsb' 0 8).setWidth 16 = op := by
  subst h; ext i hi; interval_cases i <;> simp

theorem at9_low8_of_mask (h : op &&& 0xF100#16 = v) :
    v ||| at9 (hi op) ||| (op.extractLsb' 0 8).setWidth 16 = op := by
  subst h; ext i hi; interval_cases i <;> simp [at9, Dec.hi]

theorem atMac_macReg (op : Word) :
    atMac (macReg op) = (op.extractLsb' 9 3).setWidth 16 <<< 9 ||| (op.extractLsb' 6 1).setWidth 16 <<< 6 := by
  obtain ⟨h3, h0⟩ := (append_eq_iff (op.extractLsb' 6 1) (op.extractLsb' 9 3) (macReg op)).1 rfl
  rw [atMac, h3, h0]

theorem atMac_at0x_of_mask (h : op &&& 0xF1B0#16 = v) : v ||| atMac (macReg op) ||| at0x (lo4 op) = op := by
  subst h; rw [atMac_macReg]; ext i hi; interval_cases i <;> simp [at0x, lo4]

theorem atMac_eaBits_of_mask (h : op &&& 0xF180#16 = v) {e : Ea} (hm : eaMode e = mode op) (hr : eaReg e = lo op) :
    v ||| atMac (macReg op) ||| eaBits e = op := by
  subst h; rw [eaBits, hm, hr, atMac_macReg]; ext i hi; interval_cases i <;> simp [mode, lo]

theorem move_of_fields {l : BitVec 4} (h : op.extractLsb' 12 4 = l) {s d : Ea} (hs : eaMode s = mode op)
    (hsr : eaReg s = lo op) (hd : eaMode d = dmode op) (hdr : eaReg d = hi op) :
    l.setWidth 16 <<< 12 ||| dstBits d ||| eaBits s = op := by
  subst h; rw [eaBits, dstBits, hs, hsr, hd, hdr]; ext i hi
  interval_cases i <;> simp [mode, lo, dmode, Dec.hi]

theorem moveA_of_fields {l : BitVec 4} (h : op.extractLsb' 12 4 = l) {s : Ea} (hd : dmode op = 1#3)
    (hs : eaMode s = mode op) (hsr : eaReg s = lo op) :
    l.setWidth 16 <<< 12 ||| 0x0040#16 ||| at9 (hi op) ||| eaBits s = op := by
  have e : (0x0040#16 : Word) = (dmode op).setWidth 16 <<< 6 := by rw [hd]; rfl
  subst h; rw [eaBits, hs, hsr, e]; ext i hi
  interval_cases i <;> simp [mode, lo, at9, dmode, Dec.hi]

theorem branch_of_line (h : op.extractLsb' 12 4 = 6#4) :
    0x6000#16 ||| (op.extractLsb' 8 4).setWidth 16 <<< 8 ||| (op.extractLsb' 0 8).setWidth 16 = op := by
  have e : (0x6000#16 : Word) = (op.extractLsb' 12 4).setWidth 16 <<< 12 := by rw [h]; rfl
  rw [e]; ext i hi; interval_cases i <;> simp

theorem two_le_cc (h : op.extractLsb' 12 4 = 6#4) (h0 : op &&& 0xFF00#16 ≠ 0x6000#16)
    (h1 : op &&& 0xFF00#16 ≠ 0x6100#16) : 2#4 ≤ op.extractLsb' 8 4 := by
  by_contra hc
  have hb : op &&& 0xFF00#16 = 0x6000#16 ||| (op.extractLsb' 8 4).setWidth 16 <<< 8 := by
    rw [← branch_of_line h]
    ext i hi; interval_cases i <;> simp
  have hcc : op.extractLsb' 8 4 = 0#4 ∨ op.extractLsb' 8 4 = 1#4 := by
    generalize op.extractLsb' 8 4 = c at hc; revert c; decide
  rcases hcc with hcc | hcc <;> rw [hcc] at hb
  · exact h0 hb
  · exact h1 hb
end Masks

/-! ### Extension words from their fields -/

theorem bit_getLsbD (w : Word) (n : Nat) : bit (w.getLsbD n) = w.extractLsb' n 1 := by
  ext i hi; interval_cases i; cases h : w.getLsbD n <;> simp [bit, h]

theorem mulExt_fields (w : Word) : mulExt (w.getLsbD 11) (mulRsv w) (w.extractLsb' 12 3) = w := by
  obtain ⟨ha, hb⟩ := (append_eq_iff (w.extractLsb' 15 1) (w.extractLsb' 0 11) (mulRsv w)).1 rfl
  rw [mulExt, ha, hb, ← bit, bit_getLsbD]
  iterate 3 rw [BitVec.extractLsb'_append_extractLsb'_eq_extractLsb' (by decide)]
  exact BitVec.extractLsb'_eq_self

theorem divExt_fields (w : Word) :
    divExt (w.getLsbD 11) (divRsv w) (w.extractLsb' 0 3) (w.extractLsb' 12 3) = w := by
  obtain ⟨ha, hb⟩ := (append_eq_iff (w.extractLsb' 15 1) (w.extractLsb' 3 8) (divRsv w)).1 rfl
  rw [divExt, ha, hb, ← bit, bit_getLsbD]
  iterate 4 rw [BitVec.extractLsb'_append_extractLsb'_eq_extractLsb' (by decide)]
  exact BitVec.extractLsb'_eq_self

theorem macExt_fields (w : Word) :
    macExt (w.getLsbD 11) (w.getLsbD 8) (macRsv w) (w.extractLsb' 9 2) (w.getLsbD 7) (w.getLsbD 6) = w := by
  obtain ⟨ha, hb⟩ := (append_eq_iff (w.extractLsb' 12 4) (w.extractLsb' 0 6) (macRsv w)).1 rfl
  simp only [macExt, ha, hb, bit_getLsbD]
  iterate 6 rw [BitVec.extractLsb'_append_extractLsb'_eq_extractLsb' (by decide)]
  exact BitVec.extractLsb'_eq_self

theorem macLoadExt_fields (w : Word) :
    macLoadExt (w.getLsbD 11) (w.getLsbD 8) (w.getLsbD 4) (w.extractLsb' 9 2) (w.getLsbD 7) (w.getLsbD 6)
      (w.getLsbD 5) (w.extractLsb' 12 4) (w.extractLsb' 0 4) = w := by
  simp only [macLoadExt, bit_getLsbD]
  iterate 8 rw [BitVec.extractLsb'_append_extractLsb'_eq_extractLsb' (by decide)]
  exact BitVec.extractLsb'_eq_self

/-! ### What a line of the decoder reads -/

/-- The instruction is one the encoding admits, and its words are the first of those read. -/
def WordsRead (op e1 e2 : Word) (i : Instr) : Prop := i.encodable = true ∧ encode i <+: [op, e1, e2]

/-- What a part of the decoder answers, it has read. -/
def AllRead (op e1 e2 : Word) (o : Option Instr) : Prop := ∀ i, o = some i → WordsRead op e1 e2 i

section Rows
variable {op e1 e2 : Word}

theorem allRead_none : AllRead op e1 e2 none := fun _ h => nomatch h

theorem allRead_some {i : Instr} (h : WordsRead op e1 e2 i) : AllRead op e1 e2 (some i) := by
  rintro _ ⟨⟩; exact h

theorem allRead_ite {c : Prop} [Decidable c] {a b : Option Instr} (ha : c → AllRead op e1 e2 a)
    (hb : AllRead op e1 e2 b) : AllRead op e1 e2 (if c then a else b) := by
  split
  · next hc => exact ha hc
  · exact hb

theorem reads_word {i : Instr} {w : Word} (hi : i.encodable = true) (he : encode i = [w]) (hw : w = op) :
    WordsRead op e1 e2 i := ⟨hi, by rw [he, hw]; simp⟩

theorem reads_word1 {i : Instr} {w v : Word} (hi : i.encodable = true) (he : encode i = [w, v]) (hw : w = op)
    (hv : v = e1) : WordsRead op e1 e2 i := ⟨hi, by rw [he, hw, hv]; simp⟩

theorem reads_long {i : Instr} {w : Word} (hi : i.encodable = true) (he : encode i = w :: longWords (e1 ++ e2))
    (hw : w = op) : WordsRead op e1 e2 i := ⟨hi, by rw [he, hw, longWords_append]⟩

/-- A row whose words are the operation word and those of the effective address. -/
theorem allRead_ea {p : Ea → Bool} {sz : Size} {k : Ea → Instr} {w : Ea → Word} (hk : ∀ e, (k e).encodable = p e)
    (he : ∀ e, encode (k e) = w e :: eaWords e)
    (hw : ∀ e, eaMode e = mode op → eaReg e = lo op → w e = op) :
    AllRead op e1 e2 (pick p (srcEa sz op e1 e2) k) := by
  intro i hi
  obtain ⟨e, hea, hp, rfl⟩ := pick_eq_some_iff.1 hi
  obtain ⟨hm, hr, -, hx⟩ := eaOf_eq_some_iff.1 hea
  exact ⟨(hk e).trans hp, by rw [he, hw e hm hr]; exact List.cons_prefix_cons.2 ⟨rfl, hx⟩⟩

/-- A row with an extension word of its own before those of the effective address. -/
theorem allRead_extEa {p : Ea → Bool} {sz : Size} {k : Ea → Instr} {w : Ea → Word} {v : Word}
    (hk : ∀ e, p e = true → (k e).encodable = true)
    (he : ∀ e, encode (k e) = w e :: v :: eaWords e) (hw : ∀ e, eaMode e = mode op → eaReg e = lo op → w e = op)
    (hv : v = e1) (hp : ∀ e, p e = true → (eaWords e).length ≤ 1) :
    AllRead op e1 e2 (pick p (srcEa sz op e2 0#16) k) := by
  intro i hi
  obtain ⟨e, hea, hpe, rfl⟩ := pick_eq_some_iff.1 hi
  obtain ⟨hm, hr, -, hx⟩ := eaOf_eq_some_iff.1 hea
  have hx' : eaWords e <+: [e2] :=
    List.prefix_of_prefix_length_le hx ⟨[0#16], rfl⟩ (hp e hpe)
  exact ⟨hk e hpe, by rw [he, hw e hm hr, hv]; simpa using hx'⟩
end Rows

/-- The words of a MOVE: the destination's begin where the source's end (R200). -/
theorem move_words_prefix {s d : List Word} {a b : Word} (h : s.length + d.length ≤ 2) (hs : s <+: [a, b])
    (hd : d <+: [if s.length = 0 then a else b, b]) : s ++ d <+: [a, b] := by
  match s, hs with
  | [], _ => exact hd
  | [x], hs =>
    simp at hs hd
    subst hs
    exact List.cons_prefix_cons.2 ⟨rfl, List.prefix_of_prefix_length_le hd ⟨[b], rfl⟩ (by simp at h; simp; omega)⟩
  | x :: y :: s, hs =>
    simp at h hs
    have : d = [] := by rw [← List.length_eq_zero_iff]; omega
    simpa [this] using hs

/-- MULU.L or MULS.L, as the extension word says. -/
def mulRow (w : Word) : Ea → Instr :=
  if w.getLsbD 11 then .mulsL (mulRsv w) (w.extractLsb' 12 3) else .muluL (mulRsv w) (w.extractLsb' 12 3)

theorem mulRow_encodable (w : Word) (e : Ea) : (mulRow w e).encodable = eaShort e := by
  unfold mulRow; split <;> rfl

theorem encode_mulRow (w : Word) (e : Ea) : encode (mulRow w e) =
    (0x4C00#16 ||| eaBits e) :: mulExt (w.getLsbD 11) (mulRsv w) (w.extractLsb' 12 3) :: eaWords e := by
  unfold mulRow; cases w.getLsbD 11 <;> rfl

/-- The long divide and remainder rows, as the extension word says. -/
def divRow (w : Word) : Ea → Instr :=
  if w.extractLsb' 0 3 = w.extractLsb' 12 3 then
    (if w.getLsbD 11 then .divsL (divRsv w) (w.extractLsb' 12 3) else .divuL (divRsv w) (w.extractLsb' 12 3))
  else
    (if w.getLsbD 11 then .remsL (divRsv w) (w.extractLsb' 0 3) (w.extractLsb' 12 3)
      else .remuL (divRsv w) (w.extractLsb' 0 3) (w.extractLsb' 12 3))

theorem divRow_encodable (w : Word) (e : Ea) : (divRow w e).encodable = eaShort e := by
  unfold divRow; split_ifs with h <;> simp [Instr.encodable, h]

theorem encode_divRow (w : Word) (e : Ea) : encode (divRow w e) =
    (0x4C40#16 ||| eaBits e) :: divExt (w.getLsbD 11) (divRsv w) (w.extractLsb' 0 3) (w.extractLsb' 12 3) ::
      eaWords e := by
  unfold divRow
  by_cases h : w.extractLsb' 0 3 = w.extractLsb' 12 3
  · rw [if_pos h, h]; cases w.getLsbD 11 <;> rfl
  · rw [if_neg h]; cases w.getLsbD 11 <;> rfl

theorem mac_encodable (op w : Word) : (mac op w).encodable = true := by
  unfold mac; dsimp only; split_ifs <;> rfl

theorem encode_mac (op w : Word) : encode (mac op w) = [0xA000#16 ||| atMac (macReg op) ||| at0x (lo4 op),
    macExt (w.getLsbD 11) (w.getLsbD 8) (macRsv w) (w.extractLsb' 9 2) (w.getLsbD 7) (w.getLsbD 6)] := by
  unfold mac; cases w.getLsbD 8 <;> cases w.getLsbD 11 <;> rfl

theorem macLoad_encodable (op w : Word) (e : Ea) : (Dec.macLoad op w e).encodable = eaLoad e := by
  unfold Dec.macLoad; dsimp only; split_ifs <;> rfl

theorem encode_macLoad (op w : Word) (e : Ea) : encode (Dec.macLoad op w e) =
    (0xA080#16 ||| atMac (macReg op) ||| eaBits e) ::
      macLoadExt (w.getLsbD 11) (w.getLsbD 8) (w.getLsbD 4) (w.extractLsb' 9 2) (w.getLsbD 7) (w.getLsbD 6)
        (w.getLsbD 5) (w.extractLsb' 12 4) (w.extractLsb' 0 4) :: eaWords e := by
  unfold Dec.macLoad; cases w.getLsbD 8 <;> cases w.getLsbD 11 <;> rfl

theorem orIllegal_ok {o : Option Instr} {i : Instr} (h : orIllegal o = .ok i) : o = some i := by
  cases o <;> simp_all [orIllegal]

theorem orLineA_ok {o : Option Instr} {i : Instr} (h : orLineA o = .ok i) : o = some i := by
  cases o <;> simp_all [orLineA]

theorem orLineF_ok {o : Option Instr} {i : Instr} (h : orLineF o = .ok i) : o = some i := by
  cases o <;> simp_all [orLineF]

section Lines
variable (op e1 e2 : Word)

theorem line0_reads : AllRead op e1 e2 (line0 op e1 e2) := by
  unfold line0
  iterate 6 refine allRead_ite (fun h => allRead_some (reads_long rfl rfl (at0_of_mask h))) ?_
  iterate 4 refine allRead_ite (fun h => allRead_extEa (fun _ => id) (fun _ => rfl) (fun _ => eaBits_of_mask h) ((append_eq_iff ..).2 ⟨rfl, rfl⟩) EncodeLength.words_short) ?_
  iterate 4 refine allRead_ite (fun h => allRead_ea (fun _ => rfl) (fun _ => rfl) (fun _ => at9_eaBits_of_mask h)) ?_
  exact allRead_none

theorem move_reads {l : BitVec 4} {sz : Size} {mk : Ea → Ea → Instr} {mkA : Ea → Reg → Option Instr}
    (hl : op.extractLsb' 12 4 = l) (hk : ∀ s d, (mk s d).encodable = moveOk sz s d)
    (he : ∀ s d, encode (mk s d) = (l.setWidth 16 <<< 12 ||| dstBits d ||| eaBits s) :: (eaWords s ++ eaWords d))
    (hA : ∀ s a i, mkA s a = some i → i.encodable = eaAny sz s ∧
      encode i = (l.setWidth 16 <<< 12 ||| 0x0040#16 ||| at9 a ||| eaBits s) :: eaWords s) :
    AllRead op e1 e2 (move sz op e1 e2 mk mkA) := by
  unfold move
  cases hs : srcEa sz op e1 e2 with
  | none => exact allRead_none
  | some s =>
    obtain ⟨hm, hr, -, hx⟩ := eaOf_eq_some_iff.1 hs
    refine allRead_ite (fun h => allRead_ite (fun ha i hi => ?_) allRead_none) ?_
    · obtain ⟨hi1, hi2⟩ := hA _ _ _ hi
      refine ⟨hi1.trans ha, ?_⟩
      rw [hi2, moveA_of_fields hl h hm hr]
      exact List.cons_prefix_cons.2 ⟨rfl, hx⟩
    · intro i hi
      obtain ⟨d, hd, hp, rfl⟩ := pick_eq_some_iff.1 hi
      obtain ⟨hdm, hdr, -, hdx⟩ := eaOf_eq_some_iff.1 hd
      refine ⟨(hk s d).trans hp, ?_⟩
      rw [he, move_of_fields hl hm hr hdm hdr]
      refine List.cons_prefix_cons.2 ⟨rfl, ?_⟩
      exact move_words_prefix (List.length_append ▸ EncodeLength.words_move sz s d hp) hx (length_eaWords s ▸ hdx)

theorem line1_reads (h : op.extractLsb' 12 4 = 1#4) : AllRead op e1 e2 (line1 op e1 e2) :=
  move_reads op e1 e2 h (fun _ _ => rfl) (fun _ _ => rfl) (fun _ _ _ hi => nomatch hi)

theorem line2_reads (h : op.extractLsb' 12 4 = 2#4) : AllRead op e1 e2 (line2 op e1 e2) :=
  move_reads op e1 e2 h (fun _ _ => rfl) (fun _ _ => rfl) (by rintro _ _ _ ⟨⟩; exact ⟨rfl, rfl⟩)

theorem line3_reads (h : op.extractLsb' 12 4 = 3#4) : AllRead op e1 e2 (line3 op e1 e2) :=
  move_reads op e1 e2 h (fun _ _ => rfl) (fun _ _ => rfl) (by rintro _ _ _ ⟨⟩; exact ⟨rfl, rfl⟩)

theorem line4lo_reads : AllRead op e1 e2 (line4lo op e1 e2) := by
  unfold line4lo
  iterate 2 refine allRead_ite (fun h => allRead_some (reads_word rfl rfl (at0_of_mask h))) ?_
  iterate 3 refine allRead_ite (fun h => allRead_ea (fun _ => rfl) (fun _ => rfl) (fun _ => eaBits_of_mask h)) ?_
  iterate 3 refine allRead_ite (fun h => allRead_some (reads_word rfl rfl (at0_of_mask h))) ?_
  refine allRead_ite (fun h => allRead_some (reads_word1 rfl rfl h.symm rfl)) ?_
  iterate 2 refine allRead_ite (fun h => allRead_some (reads_word rfl rfl (at0_of_mask h))) ?_
  refine allRead_ite (fun h => allRead_some (reads_word1 rfl rfl h.symm rfl)) ?_
  refine allRead_ite (fun h => allRead_some (reads_word rfl rfl (at0_of_mask h))) ?_
  refine allRead_ite (fun h => allRead_ea (fun _ => rfl) (fun _ => rfl) (fun _ => eaBits_of_mask h)) ?_
  iterate 2 refine allRead_ite (fun h => allRead_some (reads_word rfl rfl (at0_of_mask h))) ?_
  iterate 2
    refine allRead_ite (fun h => allRead_extEa (fun _ => id) (fun _ => rfl) (fun _ => eaBits_of_mask h) rfl
      EncodeLength.words_base) ?_
  iterate 3 refine allRead_ite (fun h => allRead_ea (fun _ => rfl) (fun _ => rfl) (fun _ => eaBits_of_mask h)) ?_
  iterate 3 refine allRead_ite (fun h => allRead_some (reads_word rfl rfl h.symm)) ?_
  refine allRead_ite (fun h => allRead_extEa (fun e => (mulRow_encodable e1 e).trans) (encode_mulRow e1)
    (fun _ => eaBits_of_mask h) (mulExt_fields e1) EncodeLength.words_short) ?_
  refine allRead_ite (fun h => allRead_extEa (fun e => (divRow_encodable e1 e).trans) (encode_divRow e1)
    (fun _ => eaBits_of_mask h) (divExt_fields e1) EncodeLength.words_short) ?_
  exact allRead_none

theorem line4e_reads : AllRead op e1 e2 (line4e op e1 e2) := by
  unfold line4e
  refine allRead_ite (fun h => allRead_some (reads_word rfl rfl (low4_of_mask h))) ?_
  refine allRead_ite (fun h => allRead_some (reads_word1 rfl rfl (at0_of_mask h) rfl)) ?_
  refine allRead_ite (fun h => allRead_some (reads_word rfl rfl (at0_of_mask h))) ?_
  refine allRead_ite (fun h => allRead_some (reads_word rfl rfl h.symm)) ?_
  refine allRead_ite (fun h => allRead_some (reads_word1 rfl rfl h.symm rfl)) ?_
  iterate 2 refine allRead_ite (fun h => allRead_some (reads_word rfl rfl h.symm)) ?_
  refine allRead_ite (fun h => allRead_some (reads_word1 rfl rfl h.symm ((append_eq_iff ..).2 ⟨rfl, rfl⟩))) ?_
  iterate 2 refine allRead_ite (fun h => allRead_ea (fun _ => rfl) (fun _ => rfl) (fun _ => eaBits_of_mask h)) ?_
  exact allRead_none

theorem line4_reads : AllRead op e1 e2 (line4 op e1 e2) := by
  unfold line4
  refine allRead_ite (fun h => allRead_some (reads_word rfl rfl (at0_of_mask h))) ?_
  refine allRead_ite (fun h => allRead_ea (fun _ => rfl) (fun _ => rfl) (fun _ => at9_eaBits_of_mask h)) ?_
  exact allRead_ite (fun _ => line4e_reads op e1 e2) (line4lo_reads op e1 e2)

theorem line5_reads : AllRead op e1 e2 (line5 op e1 e2) := by
  unfold line5
  iterate 2 refine allRead_ite (fun h => allRead_ea (fun _ => rfl) (fun _ => rfl) (fun _ => at9_eaBits_of_mask h)) ?_
  refine allRead_ite (fun h => allRead_some (reads_word1 rfl rfl h.symm rfl)) ?_
  refine allRead_ite (fun h => allRead_some ⟨rfl, by simp [encode, h]⟩) ?_
  refine allRead_ite (fun h => allRead_some (reads_word rfl rfl h.symm)) ?_
  exact allRead_ite (fun h => allRead_some (reads_word rfl rfl (cc_at0_of_mask h))) allRead_none

theorem line7_reads : AllRead op e1 e2 (line7 op e1 e2) := by
  unfold line7
  exact allRead_ite (fun h => allRead_some (reads_word rfl rfl (at9_low8_of_mask h))) allRead_none

theorem line8_reads : AllRead op e1 e2 (line8 op e1 e2) := by
  unfold line8
  iterate 4 refine allRead_ite (fun h => allRead_ea (fun _ => rfl) (fun _ => rfl) (fun _ => at9_eaBits_of_mask h)) ?_
  exact allRead_none

theorem line9_reads : AllRead op e1 e2 (line9 op e1 e2) := by
  unfold line9
  refine allRead_ite (fun h => allRead_ea (fun _ => rfl) (fun _ => rfl) (fun _ => at9_eaBits_of_mask h)) ?_
  refine allRead_ite (fun h => allRead_some (reads_word rfl rfl (at9_at0_of_mask h))) ?_
  iterate 2 refine allRead_ite (fun h => allRead_ea (fun _ => rfl) (fun _ => rfl) (fun _ => at9_eaBits_of_mask h)) ?_
  exact allRead_none

theorem lineMac_reads : AllRead op e1 e2 (lineMac op e1 e2) := by
  unfold lineMac
  refine allRead_ite (fun h => allRead_some (reads_word1 (mac_encodable op e1) (encode_mac op e1) (atMac_at0x_of_mask h) (macExt_fields e1))) ?_
  refine allRead_ite (fun h => allRead_extEa (fun e => (macLoad_encodable op e1 e).trans) (encode_macLoad op e1)
    (fun _ => atMac_eaBits_of_mask h) (macLoadExt_fields e1) EncodeLength.words_load) ?_
  refine allRead_ite (fun h => allRead_ea (fun _ => rfl) (fun _ => rfl) (fun _ => eaBits_of_mask h)) ?_
  refine allRead_ite (fun h => allRead_some (reads_word rfl rfl (low4_of_mask h))) ?_
  refine allRead_ite (fun h => allRead_ea (fun _ => rfl) (fun _ => rfl) (fun _ => eaBits_of_mask h)) ?_
  refine allRead_ite (fun h => allRead_some (reads_word rfl rfl (low4_of_mask h))) ?_
  refine allRead_ite (fun h => allRead_some (reads_word rfl rfl h.symm)) ?_
  refine allRead_ite (fun h => allRead_ea (fun _ => rfl) (fun _ => rfl) (fun _ => eaBits_of_mask h)) ?_
  exact allRead_ite (fun h => allRead_some (reads_word rfl rfl (low4_of_mask h))) allRead_none

theorem lineB_reads : AllRead op e1 e2 (lineB op e1 e2) := by
  unfold lineB
  iterate 3 refine allRead_ite (fun h => allRead_ea (fun _ => rfl) (fun _ => rfl) (fun _ => at9_eaBits_of_mask h)) ?_
  exact allRead_none

theorem lineC_reads : AllRead op e1 e2 (lineC op e1 e2) := by
  unfold lineC
  iterate 4 refine allRead_ite (fun h => allRead_ea (fun _ => rfl) (fun _ => rfl) (fun _ => at9_eaBits_of_mask h)) ?_
  exact allRead_none

theorem lineD_reads : AllRead op e1 e2 (lineD op e1 e2) := by
  unfold lineD
  refine allRead_ite (fun h => allRead_ea (fun _ => rfl) (fun _ => rfl) (fun _ => at9_eaBits_of_mask h)) ?_
  refine allRead_ite (fun h => allRead_some (reads_word rfl rfl (at9_at0_of_mask h))) ?_
  iterate 2 refine allRead_ite (fun h => allRead_ea (fun _ => rfl) (fun _ => rfl) (fun _ => at9_eaBits_of_mask h)) ?_
  exact allRead_none

theorem lineE_reads : AllRead op e1 e2 (lineE op e1 e2) := by
  unfold lineE
  iterate 8 refine allRead_ite (fun h => allRead_some (reads_word rfl rfl (at9_at0_of_mask h))) ?_
  exact allRead_none

theorem lineF_reads : AllRead op e1 e2 (lineF op e1 e2) := by
  unfold lineF
  refine allRead_ite (fun h => allRead_some (reads_word rfl rfl (at0_of_mask h))) ?_
  iterate 3 refine allRead_ite (fun h => allRead_ea (fun _ => rfl) (fun _ => rfl) (fun _ => eaBits_of_mask h)) ?_
  exact allRead_ite (fun h => allRead_extEa (fun _ => id) (fun _ => rfl) (fun _ => eaBits_of_mask h) rfl
      EncodeLength.words_base) allRead_none

/-- A branch reads the displacement that its operation word announces (R382). -/
theorem branch_reads {i : Instr} {base : Word} (hi : (disp op e1).wf = true → i.encodable = true)
    (he : encode i = branch base (disp op e1)) (hb : base ||| (op.extractLsb' 0 8).setWidth 16 = op) :
    WordsRead op e1 e2 i := by
  by_cases h : op.extractLsb' 0 8 = 0#8
  · have hd : disp op e1 = .d16 e1 := if_pos h
    rw [h] at hb
    refine ⟨hi (by rw [hd]; rfl), ?_⟩
    rw [he, hd, branch, ← hb]; simp
  · have hd : disp op e1 = .d8 (op.extractLsb' 0 8) := if_neg h
    refine ⟨hi (by rw [hd]; simpa [Disp.wf] using h), ?_⟩
    rw [he, hd, branch, hb]; simp

theorem line6_reads (hl : op.extractLsb' 12 4 = 6#4) : AllRead op e1 e2 (line6 op e1 e2) := by
  unfold line6
  split_ifs with h0 h1
  · exact allRead_some (branch_reads op e1 e2 id rfl (low8_of_mask h0))
  · exact allRead_some (branch_reads op e1 e2 id rfl (low8_of_mask h1))
  · refine allRead_some (branch_reads op e1 e2 (fun hd => ?_) rfl (branch_of_line hl))
    simp only [Instr.encodable, hd, Bool.true_and, decide_eq_true_eq]
    exact two_le_cc hl h0 h1

end Lines

/-- What the decoder answers is an instruction that the encoding admits, with its words the first of those read. -/
theorem reads_of_decode {op e1 e2 : Word} {i : Instr} (h : decode op e1 e2 = .ok i) : WordsRead op e1 e2 i := by
  have hl : op.extractLsb' 12 4 = BitVec.ofNat 4 (op.extractLsb' 12 4).toNat := by
    rw [BitVec.ofNat_toNat, BitVec.setWidth_eq]
  unfold decode at h
  split at h
  case h_1 => exact line0_reads _ _ _ _ (orIllegal_ok h)
  case h_2 e => exact line1_reads _ _ _ (hl.trans (by rw [e])) _ (orIllegal_ok h)
  case h_3 e => exact line2_reads _ _ _ (hl.trans (by rw [e])) _ (orIllegal_ok h)
  case h_4 e => exact line3_reads _ _ _ (hl.trans (by rw [e])) _ (orIllegal_ok h)
  case h_5 => exact line4_reads _ _ _ _ (orIllegal_ok h)
  case h_6 => exact line5_reads _ _ _ _ (orIllegal_ok h)
  case h_7 e => exact line6_reads _ _ _ (hl.trans (by rw [e])) _ (orIllegal_ok h)
  case h_8 => exact line7_reads _ _ _ _ (orIllegal_ok h)
  case h_9 => exact line8_reads _ _ _ _ (orIllegal_ok h)
  case h_10 => exact line9_reads _ _ _ _ (orIllegal_ok h)
  case h_11 => exact lineMac_reads _ _ _ _ (orLineA_ok h)
  case h_12 => exact lineB_reads _ _ _ _ (orIllegal_ok h)
  case h_13 => exact lineC_reads _ _ _ _ (orIllegal_ok h)
  case h_14 => exact lineD_reads _ _ _ _ (orIllegal_ok h)
  case h_15 => exact lineE_reads _ _ _ _ (orIllegal_ok h)
  case h_16 => exact lineF_reads _ _ _ _ (orLineF_ok h)
end Sys2Proof.Decoder
end

