-- ==== Sys2Proof/Proofs/DecoderFields.lean ====
section
/-! PROOF. Sys2Proof/Proofs/DecoderFields.lean: an operation word from its five fields, and the fields of an extension word
(spec/30_encoding.md R208). -/

namespace Sys2Proof.Decoder
open Sys2Proof.Machine Sys2Proof.Dec Sys2Proof.Enc

/-! ### An operation word from its five fields -/

/-- An operation word from its five fields (R208): the line, op[11:9], op[8:6], op[5:3] and op[2:0]. -/
def opw (l : BitVec 4) (h d m r : BitVec 3) : Word :=
  l.setWidth 16 <<< 12 ||| h.setWidth 16 <<< 9 ||| d.setWidth 16 <<< 6 ||| m.setWidth 16 <<< 3 ||| r.setWidth 16

section Fields
variable (l : BitVec 4) (h d m r : BitVec 3)

@[simp] theorem opw_line : (opw l h d m r).extractLsb' 12 4 = l := by
  ext i hi; interval_cases i <;> simp [opw]

@[simp] theorem opw_high : (opw l h d m r).extractLsb' 9 3 = h := by
  ext i hi; interval_cases i <;> simp [opw]

@[simp] theorem opw_dmode : (opw l h d m r).extractLsb' 6 3 = d := by
  ext i hi; interval_cases i <;> simp [opw]

@[simp] theorem opw_mode : (opw l h d m r).extractLsb' 3 3 = m := by
  ext i hi; interval_cases i <;> simp [opw]

@[simp] theorem opw_low : (opw l h d m r).extractLsb' 0 3 = r := by
  ext i hi; interval_cases i <;> simp [opw]

@[simp] theorem hi_opw : hi (opw l h d m r) = h := opw_high l h d m r
@[simp] theorem dmode_opw : dmode (opw l h d m r) = d := opw_dmode l h d m r
@[simp] theorem mode_opw : mode (opw l h d m r) = m := opw_mode l h d m r
@[simp] theorem lo_opw : lo (opw l h d m r) = r := opw_low l h d m r

theorem opw_fields (w : Word) :
    opw (w.extractLsb' 12 4) (w.extractLsb' 9 3) (w.extractLsb' 6 3) (w.extractLsb' 3 3) (w.extractLsb' 0 3) = w := by
  ext i hi; interval_cases i <;> simp [opw]

theorem opw_eq_iff (w : Word) :
    opw l h d m r = w ↔ l = w.extractLsb' 12 4 ∧ h = w.extractLsb' 9 3 ∧ d = w.extractLsb' 6 3 ∧
      m = w.extractLsb' 3 3 ∧ r = w.extractLsb' 0 3 := by
  constructor
  · rintro rfl
    simp
  · rintro ⟨rfl, rfl, rfl, rfl, rfl⟩
    exact opw_fields w

theorem opw_and (w : Word) :
    opw l h d m r &&& w = opw (l &&& w.extractLsb' 12 4) (h &&& w.extractLsb' 9 3) (d &&& w.extractLsb' 6 3)
      (m &&& w.extractLsb' 3 3) (r &&& w.extractLsb' 0 3) := by
  rw [eq_comm, opw_eq_iff]
  simp only [BitVec.extractLsb'_and, opw_line, opw_high, opw_dmode, opw_mode, opw_low, and_self]

theorem or_opw (w : Word) :
    w ||| opw l h d m r = opw (w.extractLsb' 12 4 ||| l) (w.extractLsb' 9 3 ||| h) (w.extractLsb' 6 3 ||| d)
      (w.extractLsb' 3 3 ||| m) (w.extractLsb' 0 3 ||| r) := by
  rw [eq_comm, opw_eq_iff]
  simp only [BitVec.extractLsb'_or, opw_line, opw_high, opw_dmode, opw_mode, opw_low, and_self]

theorem at9_eq : at9 r = opw 0#4 r 0#3 0#3 0#3 := by simp [opw, at9]
theorem at0_eq : at0 r = opw 0#4 0#3 0#3 0#3 r := by simp [opw, at0]
theorem eaBits_eq (e : Ea) : eaBits e = opw 0#4 0#3 0#3 (eaMode e) (eaReg e) := by simp [opw, eaBits]
theorem dstBits_eq (e : Ea) : dstBits e = opw 0#4 (eaReg e) (eaMode e) 0#3 0#3 := by simp [opw, dstBits]

theorem low4_eq (k : BitVec 4) :
    k.setWidth 16 = opw 0#4 0#3 0#3 ((k.extractLsb' 3 1).setWidth 3) (k.extractLsb' 0 3) := by
  revert k; decide

theorem low8_eq (k : Byte) :
    k.setWidth 16 = opw 0#4 0#3 ((k.extractLsb' 6 2).setWidth 3) (k.extractLsb' 3 3) (k.extractLsb' 0 3) := by
  ext i hi; interval_cases i <;> simp [opw]

theorem cc_eq (k : BitVec 4) :
    (k.setWidth 16 <<< 8 : Word) = opw 0#4 (k.extractLsb' 1 3) ((k.extractLsb' 0 1).setWidth 3 <<< 2) 0#3 0#3 := by
  revert k; decide

theorem atMac_eq (k : RegX) :
    atMac k = opw 0#4 (k.extractLsb' 0 3) ((k.extractLsb' 3 1).setWidth 3) 0#3 0#3 := by
  revert k; decide
end Fields

theorem and_seven (x : BitVec 3) : x &&& 7#3 = x := BitVec.and_allOnes (x := x)
theorem and_fifteen (x : BitVec 4) : x &&& 15#4 = x := BitVec.and_allOnes (x := x)
theorem bit_and_six (x : BitVec 1) : x.setWidth 3 &&& 6#3 = 0#3 := by revert x; decide
theorem pair_and_four (x : BitVec 2) : x.setWidth 3 &&& 4#3 = 0#3 := by revert x; decide

theorem scc_high (x : BitVec 1) : (3#3 ||| x.setWidth 3 <<< 2).extractLsb' 2 1 = x := by revert x; decide
theorem scc_and (x : BitVec 1) : (3#3 ||| x.setWidth 3 <<< 2) &&& 3#3 = 3#3 := by revert x; decide
theorem scc_ne_two (x : BitVec 1) : 3#3 ||| x.setWidth 3 <<< 2 ≠ 2#3 := by revert x; decide
theorem scc_ne_six (x : BitVec 1) : 3#3 ||| x.setWidth 3 <<< 2 ≠ 6#3 := by revert x; decide

theorem low4_opw (l : BitVec 4) (h d : BitVec 3) (k : BitVec 4) :
    (opw l h d ((k.extractLsb' 3 1).setWidth 3) (k.extractLsb' 0 3)).extractLsb' 0 4 = k := by
  ext i hi; interval_cases i <;> simp [opw]

theorem pair_low (x : BitVec 2) : (x.setWidth 3).extractLsb' 0 2 = x := by revert x; decide
theorem four_or_pair_and_four (x : BitVec 2) : (4#3 ||| x.setWidth 3) &&& 4#3 = 4#3 := by revert x; decide
theorem four_or_pair_low (x : BitVec 2) : (4#3 ||| x.setWidth 3).extractLsb' 0 2 = x := by revert x; decide
theorem cc_not_branch {k : BitVec 4} (h : 2#4 ≤ k) : k.extractLsb' 1 3 ≠ 0#3 := by revert k; decide
theorem cc_or_pair_low (c : BitVec 1) (x : BitVec 2) :
    (c.setWidth 3 <<< 2 ||| x.setWidth 3).extractLsb' 0 2 = x := by revert c x; decide
theorem cc_or_pair_high (c : BitVec 1) (x : BitVec 2) :
    (c.setWidth 3 <<< 2 ||| x.setWidth 3).extractLsb' 2 1 = c := by revert c x; decide

theorem low8_opw (l : BitVec 4) (h : BitVec 3) {d : BitVec 3} {k : Byte} (hd : d.extractLsb' 0 2 = k.extractLsb' 6 2) :
    (opw l h d (k.extractLsb' 3 3) (k.extractLsb' 0 3)).extractLsb' 0 8 = k := by
  have h6 : d.getLsbD 0 = k.getLsbD 6 := by simpa using congrArg (·.getLsbD 0) hd
  have h7 : d.getLsbD 1 = k.getLsbD 7 := by simpa using congrArg (·.getLsbD 1) hd
  ext i hi; interval_cases i <;> simp [opw] <;> simpa

theorem cc_opw (l : BitVec 4) (m r : BitVec 3) {d : BitVec 3} {k : BitVec 4}
    (hd : d.extractLsb' 2 1 = k.extractLsb' 0 1) : (opw l (k.extractLsb' 1 3) d m r).extractLsb' 8 4 = k := by
  have h0 : d.getLsbD 2 = k.getLsbD 0 := by simpa using congrArg (·.getLsbD 0) hd
  ext i hi; interval_cases i <;> simp [opw] <;> simpa

theorem macReg_opw (l : BitVec 4) (m r : BitVec 3) {d : BitVec 3} {k : RegX}
    (hd : d.extractLsb' 0 1 = k.extractLsb' 3 1) : macReg (opw l (k.extractLsb' 0 3) d m r) = k := by
  have h6 : (opw l (k.extractLsb' 0 3) d m r).extractLsb' 6 1 = d.extractLsb' 0 1 := by
    ext i hi; interval_cases i; simp [opw]
  rw [macReg, h6, hd, opw_high]
  exact (append_eq_iff (n := 1) (k := 3) _ _ k).2 ⟨rfl, rfl⟩

theorem bit_low (x : BitVec 1) : (x.setWidth 3).extractLsb' 0 1 = x := by revert x; decide
theorem two_or_bit_low (x : BitVec 1) : (2#3 ||| x.setWidth 3).extractLsb' 0 1 = x := by revert x; decide
theorem two_or_bit_and_six (x : BitVec 1) : (2#3 ||| x.setWidth 3) &&& 6#3 = 2#3 := by revert x; decide

/-! ### The fields of an extension word -/

theorem high_bytes (a b : Byte) : (a ++ b : Word).extractLsb' 8 8 = a := ((append_eq_iff a b _).1 rfl).1
theorem low_bytes (a b : Byte) : (a ++ b : Word).extractLsb' 0 8 = b := ((append_eq_iff a b _).1 rfl).2
theorem high_movec (a : RegX) (b : BitVec 12) : (a ++ b : Word).extractLsb' 12 4 = a :=
  ((append_eq_iff a b _).1 rfl).1
theorem low_movec (a : RegX) (b : BitVec 12) : (a ++ b : Word).extractLsb' 0 12 = b :=
  ((append_eq_iff a b _).1 rfl).2

theorem append_inj {n k : Nat} {a c : BitVec n} {b d : BitVec k} (h : a ++ b = c ++ d) : a = c ∧ b = d := by
  rw [append_eq_iff, BitVec.extractLsb'_append_eq_left, BitVec.extractLsb'_append_eq_right] at h
  exact ⟨h.1.symm, h.2.symm⟩

theorem halves_inj {n k : Nat} {v v' : BitVec (n + k)} (hi : v.extractLsb' k n = v'.extractLsb' k n)
    (lo : v.extractLsb' 0 k = v'.extractLsb' 0 k) : v = v' :=
  ((append_eq_iff _ _ v).2 ⟨rfl, rfl⟩).symm.trans ((append_eq_iff _ _ v').2 ⟨hi.symm, lo.symm⟩)

theorem bit_inj {a b : Bool} (h : bit a = bit b) : a = b := by revert a b; decide

theorem mulExt_inj {s s' : Bool} {v v' : BitVec 12} {x x' : Reg} (h : mulExt s v x = mulExt s' v' x') :
    s = s' ∧ v = v' ∧ x = x' := by
  obtain ⟨h, hv'⟩ := append_inj h
  obtain ⟨h, hs⟩ := append_inj h
  obtain ⟨hv, hx⟩ := append_inj h
  exact ⟨bit_inj hs, halves_inj (n := 1) hv hv', hx⟩

theorem divExt_inj {s s' : Bool} {v v' : BitVec 9} {w w' x x' : Reg} (h : divExt s v w x = divExt s' v' w' x') :
    s = s' ∧ v = v' ∧ w = w' ∧ x = x' := by
  obtain ⟨h, hw⟩ := append_inj h
  obtain ⟨h, hv'⟩ := append_inj h
  obtain ⟨h, hs⟩ := append_inj h
  obtain ⟨hv, hx⟩ := append_inj h
  exact ⟨bit_inj hs, halves_inj (n := 1) hv hv', hw, hx⟩

theorem macExt_inj {l l' s s' ux ux' uy uy' : Bool} {v v' : BitVec 10} {f f' : BitVec 2}
    (h : macExt l s v f ux uy = macExt l' s' v' f' ux' uy') :
    l = l' ∧ s = s' ∧ v = v' ∧ f = f' ∧ ux = ux' ∧ uy = uy' := by
  obtain ⟨h, hv'⟩ := append_inj h
  obtain ⟨h, hy⟩ := append_inj h
  obtain ⟨h, hx⟩ := append_inj h
  obtain ⟨h, hs⟩ := append_inj h
  obtain ⟨h, hf⟩ := append_inj h
  obtain ⟨hv, hl⟩ := append_inj h
  exact ⟨bit_inj hl, bit_inj hs, halves_inj (n := 4) hv hv', hf, bit_inj hx, bit_inj hy⟩

theorem macLoadExt_inj {l l' s s' v v' ux ux' uy uy' m m' : Bool} {f f' : BitVec 2} {x x' y y' : RegX}
    (h : macLoadExt l s v f ux uy m x y = macLoadExt l' s' v' f' ux' uy' m' x' y') :
    l = l' ∧ s = s' ∧ v = v' ∧ f = f' ∧ ux = ux' ∧ uy = uy' ∧ m = m' ∧ x = x' ∧ y = y' := by
  obtain ⟨h, hy⟩ := append_inj h
  obtain ⟨h, hv⟩ := append_inj h
  obtain ⟨h, hm⟩ := append_inj h
  obtain ⟨h, huy⟩ := append_inj h
  obtain ⟨h, hux⟩ := append_inj h
  obtain ⟨h, hs⟩ := append_inj h
  obtain ⟨h, hf⟩ := append_inj h
  obtain ⟨hx, hl⟩ := append_inj h
  exact ⟨bit_inj hl, bit_inj hs, bit_inj hv, hf, bit_inj hux, bit_inj huy, bit_inj hm, hx, hy⟩
end Sys2Proof.Decoder
end

