-- ==== Sys2Proof/Proofs/DecoderRows.lean ====
section
/-! PROOF. Sys2Proof/Proofs/DecoderRows.lean: the words of an instruction select its row of the decoder, one lemma for each row
of spec/opcode_table.json. -/

namespace Sys2Proof.Decoder
open Sys2Proof.Machine Sys2Proof.Dec Sys2Proof.Enc

/-- The words of the instruction decode to it, whatever words follow them. -/
def Decodes (i : Instr) : Prop := ∀ op e1 e2, encode i <+: [op, e1, e2] → decode op e1 e2 = .ok i

theorem orIllegal_some (i : Instr) : orIllegal (some i) = .ok i := rfl
theorem orLineA_some (i : Instr) : orLineA (some i) = .ok i := rfl
theorem orLineF_some (i : Instr) : orLineF (some i) = .ok i := rfl

theorem sizedImm_of_control {e : Ea} (h : eaControl e = true) (sz : Size) : sizedImm sz e = true := by
  cases e <;> simp_all [eaControl, sizedImm]
theorem sizedImm_of_dataNoImm {e : Ea} (h : eaDataNoImm e = true) (sz : Size) : sizedImm sz e = true := by
  cases e <;> simp_all [eaDataNoImm, eaDataAlter, eaMemAlter, eaPcRel, sizedImm]
theorem sizedImm_of_alter {e : Ea} (h : eaAlter e = true) (sz : Size) : sizedImm sz e = true := by
  cases e <;> simp_all [eaAlter, eaDataAlter, eaMemAlter, sizedImm]
theorem eaAlter_of_dataAlter {e : Ea} (h : eaDataAlter e = true) : eaAlter e = true := by
  cases e <;> simp_all [eaAlter, eaDataAlter, eaMemAlter]
theorem eaDataAlter_of_memAlter {e : Ea} (h : eaMemAlter e = true) : eaDataAlter e = true := by
  cases e <;> simp_all [eaDataAlter, eaMemAlter]
theorem eaDataAlter_of_short {e : Ea} (h : eaShort e = true) : eaDataAlter e = true := by
  cases e <;> simp_all [eaDataAlter, eaMemAlter, eaShort]
theorem eaShort_of_load {e : Ea} (h : eaLoad e = true) : eaShort e = true := by
  cases e <;> simp_all [eaLoad, eaShort]
theorem eaLoad_of_base {e : Ea} (h : eaBase e = true) : eaLoad e = true := by
  cases e <;> simp_all [eaLoad, eaBase]
theorem sizedImm_of_imm {sz : Size} {e : Ea} (h : eaImm sz e = true) : sizedImm sz e = true := by
  cases sz <;> cases e <;> simp_all [eaImm, sizedImm]
theorem sizedImm_of_data {sz : Size} {e : Ea} (h : eaData sz e = true) : sizedImm sz e = true := by
  rw [eaData, Bool.or_eq_true] at h
  exact h.elim (fun h => sizedImm_of_dataNoImm h sz) sizedImm_of_imm
theorem sizedImm_of_any {sz : Size} {e : Ea} (h : eaAny sz e = true) : sizedImm sz e = true := by
  cases e
  case an => rfl
  all_goals exact sizedImm_of_data h
theorem sizedImm_of_macSrc {e : Ea} (h : eaMacSrc e = true) : sizedImm .l e = true := by
  cases e <;> simp_all [eaMacSrc, sizedImm]
theorem sizedImm_of_dataAlter {e : Ea} (h : eaDataAlter e = true) (sz : Size) : sizedImm sz e = true :=
  sizedImm_of_alter (eaAlter_of_dataAlter h) sz
theorem sizedImm_of_memAlter {e : Ea} (h : eaMemAlter e = true) (sz : Size) : sizedImm sz e = true :=
  sizedImm_of_dataAlter (eaDataAlter_of_memAlter h) sz
theorem sizedImm_of_short {e : Ea} (h : eaShort e = true) (sz : Size) : sizedImm sz e = true :=
  sizedImm_of_dataAlter (eaDataAlter_of_short h) sz
theorem sizedImm_of_load {e : Ea} (h : eaLoad e = true) (sz : Size) : sizedImm sz e = true :=
  sizedImm_of_short (eaShort_of_load h) sz
theorem sizedImm_of_base {e : Ea} (h : eaBase e = true) (sz : Size) : sizedImm sz e = true :=
  sizedImm_of_load (eaLoad_of_base h) sz
theorem eaMode_ne_zero_of_control {e : Ea} (h : eaControl e = true) : eaMode e ≠ 0#3 := by
  cases e <;> simp_all [eaControl, eaMode]
theorem eaMode_ne_zero_of_memAlter {e : Ea} (h : eaMemAlter e = true) : eaMode e ≠ 0#3 := by
  cases e <;> simp_all [eaMemAlter, eaMode]
theorem eaMode_ne_zero_of_base {e : Ea} (h : eaBase e = true) : eaMode e ≠ 0#3 := by
  cases e <;> simp_all [eaBase, eaMode]

section Shapes
variable {i : Instr} {w v : Word}

theorem decodes_word (he : encode i = [w]) (hd : ∀ a b, decode w a b = .ok i) : Decodes i := by
  intro op a b h
  rw [he, List.cons_prefix_cons] at h
  rw [← h.1, hd]

theorem decodes_word1 (he : encode i = [w, v]) (hd : ∀ b, decode w v b = .ok i) : Decodes i := by
  intro op a b h
  rw [he, List.cons_prefix_cons, List.cons_prefix_cons] at h
  obtain ⟨rfl, rfl, -⟩ := h
  exact hd b

theorem decodes_long {x : Long} (he : encode i = w :: longWords x)
    (hd : ∀ a b, x = a ++ b → decode w a b = .ok i) : Decodes i := by
  intro op a b h
  rw [he, longWords, List.cons_prefix_cons, List.cons_prefix_cons, List.cons_prefix_cons] at h
  obtain ⟨rfl, rfl, rfl, -⟩ := h
  exact hd _ _ ((append_halves_iff ..).2 ⟨rfl, rfl⟩).symm

variable {l : BitVec 4} {h d : BitVec 3} {p : Ea → Bool} {sz : Size} {k : Ea → Instr} {o : Option Instr → Decoded}
  {e : Ea}

theorem pick_of_fields {a b : Word} (hs : sizedImm sz e = true) (hp : p e = true) (hw : eaWords e <+: [a, b]) :
    pick p (srcEa sz (opw l h d (eaMode e) (eaReg e)) a b) k = some (k e) :=
  pick_eq_some_iff.2 ⟨e, by rw [srcEa, mode_opw, lo_opw]; exact eaOf_eq_some_iff.2 ⟨rfl, rfl, hs, hw⟩, hp, rfl⟩

/-- A row whose words are the operation word and those of the effective address. -/
theorem decodes_ea (l : BitVec 4) (h d : BitVec 3) (ho : ∀ i, o (some i) = .ok i) (hs : sizedImm sz e = true)
    (hp : p e = true)
    (he : encode (k e) = opw l h d (eaMode e) (eaReg e) :: eaWords e)
    (hd : ∀ a b, decode (opw l h d (eaMode e) (eaReg e)) a b =
      o (pick p (srcEa sz (opw l h d (eaMode e) (eaReg e)) a b) k)) : Decodes (k e) := by
  intro op a b hx
  rw [he, List.cons_prefix_cons] at hx
  rw [← hx.1, hd, pick_of_fields hs hp hx.2, ho]

/-- A row with an extension word of its own before those of the effective address. -/
theorem decodes_extEa (l : BitVec 4) (h d : BitVec 3) (v : Word) (ho : ∀ i, o (some i) = .ok i) (hs : sizedImm sz e = true)
    (hp : p e = true)
    (he : encode (k e) = opw l h d (eaMode e) (eaReg e) :: v :: eaWords e)
    (hd : ∀ b, decode (opw l h d (eaMode e) (eaReg e)) v b =
      o (pick p (srcEa sz (opw l h d (eaMode e) (eaReg e)) b 0#16) k)) : Decodes (k e) := by
  intro op a b hx
  rw [he, List.cons_prefix_cons, List.cons_prefix_cons] at hx
  obtain ⟨rfl, rfl, hw⟩ := hx
  rw [hd, pick_of_fields hs hp (hw.trans ⟨[0#16], rfl⟩), ho]

/-- The words of a MOVE, read back: the destination's begin where the source's end (R200). -/
theorem move_words_split {s d : List Word} {a b : Word} (h : s ++ d <+: [a, b]) :
    s <+: [a, b] ∧ d <+: [if s.length = 0 then a else b, b] := by
  refine ⟨(List.prefix_append s d).trans h, ?_⟩
  match s, h with
  | [], h => exact h
  | [x], h => exact (List.cons_prefix_cons.1 h).2.trans ⟨[b], rfl⟩
  | x :: y :: s, h =>
    obtain ⟨-, h⟩ := List.cons_prefix_cons.1 h
    obtain ⟨-, h⟩ := List.cons_prefix_cons.1 h
    have := List.append_eq_nil_iff.1 (List.prefix_nil.1 h)
    rw [this.2]
    exact List.nil_prefix

theorem eaMode_ne_one_of_dataAlter {e : Ea} (h : eaDataAlter e = true) : eaMode e ≠ 1#3 := by
  cases e <;> simp_all [eaDataAlter, eaMemAlter, eaMode]

theorem decodes_move {s d : Ea} {mk : Ea → Ea → Instr} {mkA : Ea → Reg → Option Instr} (l : BitVec 4)
    (hok : moveOk sz s d = true)
    (he : encode (mk s d) = opw l (eaReg d) (eaMode d) (eaMode s) (eaReg s) :: (eaWords s ++ eaWords d))
    (hd : ∀ a b, decode (opw l (eaReg d) (eaMode d) (eaMode s) (eaReg s)) a b =
      orIllegal (move sz (opw l (eaReg d) (eaMode d) (eaMode s) (eaReg s)) a b mk mkA)) : Decodes (mk s d) := by
  intro op a b hx
  rw [he, List.cons_prefix_cons] at hx
  obtain ⟨rfl, hx⟩ := hx
  obtain ⟨hs, hdst⟩ := move_words_split hx
  have hany : eaAny sz s = true ∧ eaDataAlter d = true := by
    simp only [moveOk, Bool.and_eq_true] at hok; exact hok.1
  have hsrc : eaOf sz (eaMode s) (eaReg s) a b = some s :=
    eaOf_eq_some_iff.2 ⟨rfl, rfl, sizedImm_of_any hany.1, hs⟩
  have hdst' : eaOf sz (eaMode d) (eaReg d) (if eaLen s = 0 then a else b) b = some d :=
    eaOf_eq_some_iff.2 ⟨rfl, rfl, sizedImm_of_dataAlter hany.2 sz, length_eaWords s ▸ hdst⟩
  rw [hd, move]
  simp only [srcEa, mode_opw, lo_opw, hi_opw, dmode_opw, hsrc, hdst', if_neg (eaMode_ne_one_of_dataAlter hany.2)]
  rw [pick, if_pos hok, orIllegal_some]

theorem decodes_movea {s : Ea} {ax : Reg} {i : Instr} {mk : Ea → Ea → Instr} {mkA : Ea → Reg → Option Instr}
    (l : BitVec 4) (hok : eaAny sz s = true)
    (he : encode i = opw l ax 1#3 (eaMode s) (eaReg s) :: eaWords s)
    (hd : ∀ a b, decode (opw l ax 1#3 (eaMode s) (eaReg s)) a b =
      orIllegal (move sz (opw l ax 1#3 (eaMode s) (eaReg s)) a b mk mkA)) (hA : mkA s ax = some i) :
    Decodes i := by
  intro op a b hx
  rw [he, List.cons_prefix_cons] at hx
  obtain ⟨rfl, hx⟩ := hx
  have hsrc : eaOf sz (eaMode s) (eaReg s) a b = some s := eaOf_eq_some_iff.2 ⟨rfl, rfl, sizedImm_of_any hok, hx⟩
  rw [hd, move]
  simp only [srcEa, mode_opw, lo_opw, hi_opw, dmode_opw, hsrc, if_true, hok, hA, orIllegal_some]
end Shapes

namespace DecodeRow

theorem oriL (dx : Reg) (v : Long) : Decodes (.oriL dx v) :=
  decodes_long (by rw [encode, at0_eq, or_opw]) (fun a b h => by
    simp [decode, line0, opw_and, opw_eq_iff, and_seven, h, orIllegal_some])

theorem andiL (dx : Reg) (v : Long) : Decodes (.andiL dx v) :=
  decodes_long (by rw [encode, at0_eq, or_opw]) (fun a b h => by
    simp [decode, line0, opw_and, opw_eq_iff, and_seven, h, orIllegal_some])

theorem subiL (dx : Reg) (v : Long) : Decodes (.subiL dx v) :=
  decodes_long (by rw [encode, at0_eq, or_opw]) (fun a b h => by
    simp [decode, line0, opw_and, opw_eq_iff, and_seven, h, orIllegal_some])

theorem addiL (dx : Reg) (v : Long) : Decodes (.addiL dx v) :=
  decodes_long (by rw [encode, at0_eq, or_opw]) (fun a b h => by
    simp [decode, line0, opw_and, opw_eq_iff, and_seven, h, orIllegal_some])

theorem eoriL (dx : Reg) (v : Long) : Decodes (.eoriL dx v) :=
  decodes_long (by rw [encode, at0_eq, or_opw]) (fun a b h => by
    simp [decode, line0, opw_and, opw_eq_iff, and_seven, h, orIllegal_some])

theorem cmpiL (dx : Reg) (v : Long) : Decodes (.cmpiL dx v) :=
  decodes_long (by rw [encode, at0_eq, or_opw]) (fun a b h => by
    simp [decode, line0, opw_and, opw_eq_iff, and_seven, h, orIllegal_some])

theorem btstI (rsv num : Byte) (e : Ea) (he : eaShort e = true) : Decodes (.btstI rsv num e) :=
  decodes_extEa 0#4 4#3 0#3 (rsv ++ num) orIllegal_some (sizedImm_of_short he .b) he
    (by simp [encode, eaBits_eq, or_opw])
    (fun _ => by simp [decode, line0, opw_and, opw_eq_iff, and_seven, high_bytes, low_bytes])

theorem bchgI (rsv num : Byte) (e : Ea) (he : eaShort e = true) : Decodes (.bchgI rsv num e) :=
  decodes_extEa 0#4 4#3 1#3 (rsv ++ num) orIllegal_some (sizedImm_of_short he .b) he
    (by simp [encode, eaBits_eq, or_opw])
    (fun _ => by simp [decode, line0, opw_and, opw_eq_iff, and_seven, high_bytes, low_bytes])

theorem bclrI (rsv num : Byte) (e : Ea) (he : eaShort e = true) : Decodes (.bclrI rsv num e) :=
  decodes_extEa 0#4 4#3 2#3 (rsv ++ num) orIllegal_some (sizedImm_of_short he .b) he
    (by simp [encode, eaBits_eq, or_opw])
    (fun _ => by simp [decode, line0, opw_and, opw_eq_iff, and_seven, high_bytes, low_bytes])

theorem bsetI (rsv num : Byte) (e : Ea) (he : eaShort e = true) : Decodes (.bsetI rsv num e) :=
  decodes_extEa 0#4 4#3 3#3 (rsv ++ num) orIllegal_some (sizedImm_of_short he .b) he
    (by simp [encode, eaBits_eq, or_opw])
    (fun _ => by simp [decode, line0, opw_and, opw_eq_iff, and_seven, high_bytes, low_bytes])

theorem btstD (dy : Reg) (e : Ea) (he : eaDataNoImm e = true) : Decodes (.btstD dy e) :=
  decodes_ea 0#4 dy 4#3 orIllegal_some (sizedImm_of_dataNoImm he .b) he
    (by simp [encode, at9_eq, eaBits_eq, or_opw]) (fun _ _ => by simp [decode, line0, opw_and, opw_eq_iff, and_seven])

theorem bchgD (dy : Reg) (e : Ea) (he : eaDataAlter e = true) : Decodes (.bchgD dy e) :=
  decodes_ea 0#4 dy 5#3 orIllegal_some (sizedImm_of_dataAlter he .b) he
    (by simp [encode, at9_eq, eaBits_eq, or_opw]) (fun _ _ => by simp [decode, line0, opw_and, opw_eq_iff, and_seven])

theorem bclrD (dy : Reg) (e : Ea) (he : eaDataAlter e = true) : Decodes (.bclrD dy e) :=
  decodes_ea 0#4 dy 6#3 orIllegal_some (sizedImm_of_dataAlter he .b) he
    (by simp [encode, at9_eq, eaBits_eq, or_opw]) (fun _ _ => by simp [decode, line0, opw_and, opw_eq_iff, and_seven])

theorem bsetD (dy : Reg) (e : Ea) (he : eaDataAlter e = true) : Decodes (.bsetD dy e) :=
  decodes_ea 0#4 dy 7#3 orIllegal_some (sizedImm_of_dataAlter he .b) he
    (by simp [encode, at9_eq, eaBits_eq, or_opw]) (fun _ _ => by simp [decode, line0, opw_and, opw_eq_iff, and_seven])

theorem negxL (dx : Reg) : Decodes (.negxL dx) :=
  decodes_word (w := opw 4#4 0#3 2#3 0#3 dx) (by simp [encode, at0_eq, or_opw]) (fun _ _ => by
    simp [decode, line4, line4lo, opw_and, opw_eq_iff, and_seven, and_fifteen, orIllegal_some])

theorem moveFromSr (dx : Reg) : Decodes (.moveFromSr dx) :=
  decodes_word (w := opw 4#4 0#3 3#3 0#3 dx) (by simp [encode, at0_eq, or_opw]) (fun _ _ => by
    simp [decode, line4, line4lo, opw_and, opw_eq_iff, and_seven, and_fifteen, orIllegal_some])

theorem lea (e : Ea) (ax : Reg) (he : eaControl e = true) : Decodes (.lea e ax) :=
  decodes_ea (k := fun e => .lea e ax) 4#4 ax 7#3 orIllegal_some (sizedImm_of_control he .l) he
    (by simp [encode, at9_eq, eaBits_eq, or_opw])
    (fun _ _ => by simp [decode, line4, opw_and, opw_eq_iff, and_seven, and_fifteen, eaMode_ne_zero_of_control he])

theorem clrB (e : Ea) (he : eaDataAlter e = true) : Decodes (.clrB e) :=
  decodes_ea 4#4 1#3 0#3 orIllegal_some (sizedImm_of_dataAlter he .b) he
    (by simp [encode, eaBits_eq, or_opw])
    (fun _ _ => by simp [decode, line4, line4lo, opw_and, opw_eq_iff, and_seven, and_fifteen])

theorem clrW (e : Ea) (he : eaDataAlter e = true) : Decodes (.clrW e) :=
  decodes_ea 4#4 1#3 1#3 orIllegal_some (sizedImm_of_dataAlter he .w) he
    (by simp [encode, eaBits_eq, or_opw])
    (fun _ _ => by simp [decode, line4, line4lo, opw_and, opw_eq_iff, and_seven, and_fifteen])

theorem clrL (e : Ea) (he : eaDataAlter e = true) : Decodes (.clrL e) :=
  decodes_ea 4#4 1#3 2#3 orIllegal_some (sizedImm_of_dataAlter he .l) he
    (by simp [encode, eaBits_eq, or_opw])
    (fun _ _ => by simp [decode, line4, line4lo, opw_and, opw_eq_iff, and_seven, and_fifteen])

theorem moveFromCcr (dx : Reg) : Decodes (.moveFromCcr dx) :=
  decodes_word (w := opw 4#4 1#3 3#3 0#3 dx) (by simp [encode, at0_eq, or_opw]) (fun _ _ => by
    simp [decode, line4, line4lo, opw_and, opw_eq_iff, and_seven, and_fifteen, orIllegal_some])

theorem negL (dx : Reg) : Decodes (.negL dx) :=
  decodes_word (w := opw 4#4 2#3 2#3 0#3 dx) (by simp [encode, at0_eq, or_opw]) (fun _ _ => by
    simp [decode, line4, line4lo, opw_and, opw_eq_iff, and_seven, and_fifteen, orIllegal_some])

theorem moveToCcrD (dy : Reg) : Decodes (.moveToCcrD dy) :=
  decodes_word (w := opw 4#4 2#3 3#3 0#3 dy) (by simp [encode, at0_eq, or_opw]) (fun _ _ => by
    simp [decode, line4, line4lo, opw_and, opw_eq_iff, and_seven, and_fifteen, orIllegal_some])

theorem moveToCcrI (v : Word) : Decodes (.moveToCcrI v) :=
  decodes_word1 (w := opw 4#4 2#3 3#3 7#3 4#3) (v := v) (by rfl) (fun _ => by
    simp [decode, line4, line4lo, opw_and, opw_eq_iff, and_seven, and_fifteen, orIllegal_some])

theorem notL (dx : Reg) : Decodes (.notL dx) :=
  decodes_word (w := opw 4#4 3#3 2#3 0#3 dx) (by simp [encode, at0_eq, or_opw]) (fun _ _ => by
    simp [decode, line4, line4lo, opw_and, opw_eq_iff, and_seven, and_fifteen, orIllegal_some])

theorem moveToSrD (dy : Reg) : Decodes (.moveToSrD dy) :=
  decodes_word (w := opw 4#4 3#3 3#3 0#3 dy) (by simp [encode, at0_eq, or_opw]) (fun _ _ => by
    simp [decode, line4, line4lo, opw_and, opw_eq_iff, and_seven, and_fifteen, orIllegal_some])

theorem moveToSrI (v : Word) : Decodes (.moveToSrI v) :=
  decodes_word1 (w := opw 4#4 3#3 3#3 7#3 4#3) (v := v) (by rfl) (fun _ => by
    simp [decode, line4, line4lo, opw_and, opw_eq_iff, and_seven, and_fifteen, orIllegal_some])

theorem swap (dx : Reg) : Decodes (.swap dx) :=
  decodes_word (w := opw 4#4 4#3 1#3 0#3 dx) (by simp [encode, at0_eq, or_opw]) (fun _ _ => by
    simp [decode, line4, line4lo, opw_and, opw_eq_iff, and_seven, and_fifteen, orIllegal_some])

theorem pea (e : Ea) (he : eaControl e = true) : Decodes (.pea e) :=
  decodes_ea 4#4 4#3 1#3 orIllegal_some (sizedImm_of_control he .l) he
    (by simp [encode, eaBits_eq, or_opw])
    (fun _ _ => by simp [decode, line4, line4lo, opw_and, opw_eq_iff, and_seven, and_fifteen, eaMode_ne_zero_of_control he])

theorem extW (dx : Reg) : Decodes (.extW dx) :=
  decodes_word (w := opw 4#4 4#3 2#3 0#3 dx) (by simp [encode, at0_eq, or_opw]) (fun _ _ => by
    simp [decode, line4, line4lo, opw_and, opw_eq_iff, and_seven, and_fifteen, orIllegal_some])

theorem extL (dx : Reg) : Decodes (.extL dx) :=
  decodes_word (w := opw 4#4 4#3 3#3 0#3 dx) (by simp [encode, at0_eq, or_opw]) (fun _ _ => by
    simp [decode, line4, line4lo, opw_and, opw_eq_iff, and_seven, and_fifteen, orIllegal_some])

theorem extbL (dx : Reg) : Decodes (.extbL dx) :=
  decodes_word (w := opw 4#4 4#3 7#3 0#3 dx) (by simp [encode, at0_eq, or_opw]) (fun _ _ => by
    simp [decode, line4, opw_and, opw_eq_iff, and_seven, and_fifteen, orIllegal_some])

theorem movemStore (mask : Word) (e : Ea) (he : eaBase e = true) : Decodes (.movemStore mask e) :=
  decodes_extEa 4#4 4#3 3#3 mask orIllegal_some (sizedImm_of_base he .l) he
    (by simp [encode, eaBits_eq, or_opw])
    (fun _ => by simp [decode, line4, line4lo, opw_and, opw_eq_iff, and_seven, and_fifteen, eaMode_ne_zero_of_base he])

theorem movemLoad (mask : Word) (e : Ea) (he : eaBase e = true) : Decodes (.movemLoad mask e) :=
  decodes_extEa 4#4 6#3 3#3 mask orIllegal_some (sizedImm_of_base he .l) he
    (by simp [encode, eaBits_eq, or_opw])
    (fun _ => by simp [decode, line4, line4lo, opw_and, opw_eq_iff, and_seven, and_fifteen])

theorem tstB (e : Ea) (he : eaAny .b e = true) : Decodes (.tstB e) :=
  decodes_ea 4#4 5#3 0#3 orIllegal_some (sizedImm_of_any he) he
    (by simp [encode, eaBits_eq, or_opw])
    (fun _ _ => by simp [decode, line4, line4lo, opw_and, opw_eq_iff, and_seven, and_fifteen])

theorem tstW (e : Ea) (he : eaAny .w e = true) : Decodes (.tstW e) :=
  decodes_ea 4#4 5#3 1#3 orIllegal_some (sizedImm_of_any he) he
    (by simp [encode, eaBits_eq, or_opw])
    (fun _ _ => by simp [decode, line4, line4lo, opw_and, opw_eq_iff, and_seven, and_fifteen])

theorem tstL (e : Ea) (he : eaAny .l e = true) : Decodes (.tstL e) :=
  decodes_ea 4#4 5#3 2#3 orIllegal_some (sizedImm_of_any he) he
    (by simp [encode, eaBits_eq, or_opw])
    (fun _ _ => by simp [decode, line4, line4lo, opw_and, opw_eq_iff, and_seven, and_fifteen])

theorem halt : Decodes (.halt) :=
  decodes_word (w := opw 4#4 5#3 3#3 1#3 0#3) (by rfl) (fun _ _ => by
    simp [decode, line4, line4lo, opw_and, opw_eq_iff, and_seven, and_fifteen, orIllegal_some])

theorem pulse : Decodes (.pulse) :=
  decodes_word (w := opw 4#4 5#3 3#3 1#3 4#3) (by rfl) (fun _ _ => by
    simp [decode, line4, line4lo, opw_and, opw_eq_iff, and_seven, and_fifteen, orIllegal_some])

theorem illegal : Decodes (.illegal) :=
  decodes_word (w := opw 4#4 5#3 3#3 7#3 4#3) (by rfl) (fun _ _ => by
    simp [decode, line4, line4lo, opw_and, opw_eq_iff, and_seven, and_fifteen, orIllegal_some])

theorem trap (v : BitVec 4) : Decodes (.trap v) :=
  decodes_word (w := opw 4#4 7#3 1#3 ((v.extractLsb' 3 1).setWidth 3) (v.extractLsb' 0 3))
    (by rw [encode, low4_eq, or_opw]; simp) (fun _ _ => by
    simp [decode, line4, line4e, opw_and, opw_eq_iff, and_seven, and_fifteen, bit_and_six, low4_opw, orIllegal_some])

theorem link (ay : Reg) (d : Word) : Decodes (.link ay d) :=
  decodes_word1 (w := opw 4#4 7#3 1#3 2#3 ay) (v := d) (by simp [encode, at0_eq, or_opw]) (fun _ => by
    simp [decode, line4, line4e, opw_and, opw_eq_iff, and_seven, and_fifteen, orIllegal_some])

theorem unlk (ax : Reg) : Decodes (.unlk ax) :=
  decodes_word (w := opw 4#4 7#3 1#3 3#3 ax) (by simp [encode, at0_eq, or_opw]) (fun _ _ => by
    simp [decode, line4, line4e, opw_and, opw_eq_iff, and_seven, and_fifteen, orIllegal_some])

theorem nop : Decodes (.nop) :=
  decodes_word (w := opw 4#4 7#3 1#3 6#3 1#3) (by rfl) (fun _ _ => by
    simp [decode, line4, line4e, opw_and, opw_eq_iff, and_seven, and_fifteen, orIllegal_some])

theorem stop (v : Word) : Decodes (.stop v) :=
  decodes_word1 (w := opw 4#4 7#3 1#3 6#3 2#3) (v := v) (by rfl) (fun _ => by
    simp [decode, line4, line4e, opw_and, opw_eq_iff, and_seven, and_fifteen, orIllegal_some])

theorem rte : Decodes (.rte) :=
  decodes_word (w := opw 4#4 7#3 1#3 6#3 3#3) (by rfl) (fun _ _ => by
    simp [decode, line4, line4e, opw_and, opw_eq_iff, and_seven, and_fifteen, orIllegal_some])

theorem rts : Decodes (.rts) :=
  decodes_word (w := opw 4#4 7#3 1#3 6#3 5#3) (by rfl) (fun _ _ => by
    simp [decode, line4, line4e, opw_and, opw_eq_iff, and_seven, and_fifteen, orIllegal_some])

theorem movec (ry : RegX) (rc : BitVec 12) : Decodes (.movec ry rc) :=
  decodes_word1 (w := opw 4#4 7#3 1#3 7#3 3#3) (v := ry ++ rc) (by rfl) (fun _ => by
    simp [decode, line4, line4e, opw_and, opw_eq_iff, and_seven, and_fifteen, high_movec, low_movec, orIllegal_some])

theorem jsr (e : Ea) (he : eaControl e = true) : Decodes (.jsr e) :=
  decodes_ea 4#4 7#3 2#3 orIllegal_some (sizedImm_of_control he .l) he
    (by simp [encode, eaBits_eq, or_opw])
    (fun _ _ => by simp [decode, line4, line4e, opw_and, opw_eq_iff, and_seven, and_fifteen])

theorem jmp (e : Ea) (he : eaControl e = true) : Decodes (.jmp e) :=
  decodes_ea 4#4 7#3 3#3 orIllegal_some (sizedImm_of_control he .l) he
    (by simp [encode, eaBits_eq, or_opw])
    (fun _ _ => by simp [decode, line4, line4e, opw_and, opw_eq_iff, and_seven, and_fifteen])

theorem addqL (q : Reg) (e : Ea) (he : eaAlter e = true) : Decodes (.addqL q e) :=
  decodes_ea 5#4 q 2#3 orIllegal_some (sizedImm_of_alter he .l) he
    (by simp [encode, at9_eq, eaBits_eq, or_opw])
    (fun _ _ => by simp [decode, line5, opw_and, opw_eq_iff, and_seven, and_fifteen])

theorem subqL (q : Reg) (e : Ea) (he : eaAlter e = true) : Decodes (.subqL q e) :=
  decodes_ea 5#4 q 6#3 orIllegal_some (sizedImm_of_alter he .l) he
    (by simp [encode, at9_eq, eaBits_eq, or_opw])
    (fun _ _ => by simp [decode, line5, opw_and, opw_eq_iff, and_seven, and_fifteen])

theorem scc (cc : BitVec 4) (dx : Reg) : Decodes (.scc cc dx) :=
  decodes_word (w := opw 5#4 (cc.extractLsb' 1 3) (3#3 ||| (cc.extractLsb' 0 1).setWidth 3 <<< 2) 0#3 dx)
    (by rw [encode, cc_eq, at0_eq, or_opw, or_opw]; simp) (fun _ _ => by
    simp [decode, line5, opw_and, opw_eq_iff, and_seven, and_fifteen, cc_opw _ _ _ (scc_high _), scc_and, scc_ne_two, scc_ne_six, orIllegal_some])

theorem trapfW (w : Word) : Decodes (.trapfW w) :=
  decodes_word1 (w := opw 5#4 0#3 7#3 7#3 2#3) (v := w) (by rfl) (fun _ => by
    simp [decode, line5, opw_and, opw_eq_iff, and_fifteen, orIllegal_some])

theorem trapfL (v w : Word) : Decodes (.trapfL v w) := by
  intro op a b h
  simp only [encode, List.cons_prefix_cons] at h
  obtain ⟨rfl, rfl, rfl, -⟩ := h
  simp [decode, line5, orIllegal_some]

theorem trapf : Decodes (.trapf) :=
  decodes_word (w := opw 5#4 0#3 7#3 7#3 4#3) (by rfl) (fun _ _ => by
    simp [decode, line5, opw_and, opw_eq_iff, and_fifteen, orIllegal_some])

theorem moveq (v : Byte) (dx : Reg) : Decodes (.moveq v dx) :=
  decodes_word (w := opw 7#4 dx ((v.extractLsb' 6 2).setWidth 3) (v.extractLsb' 3 3) (v.extractLsb' 0 3))
    (by rw [encode, at9_eq, low8_eq, or_opw, or_opw]; simp) (fun _ _ => by
    simp [decode, line7, opw_and, opw_eq_iff, and_fifteen, pair_and_four, low8_opw _ _ (pair_low _), orIllegal_some])

theorem orToD (e : Ea) (dx : Reg) (he : eaData .l e = true) : Decodes (.orToD e dx) :=
  decodes_ea (k := fun e => .orToD e dx) 8#4 dx 2#3 orIllegal_some (sizedImm_of_data he) he
    (by simp [encode, at9_eq, eaBits_eq, or_opw])
    (fun _ _ => by simp [decode, line8, opw_and, opw_eq_iff, and_seven, and_fifteen])

theorem divuW (e : Ea) (dx : Reg) (he : eaData .w e = true) : Decodes (.divuW e dx) :=
  decodes_ea (k := fun e => .divuW e dx) 8#4 dx 3#3 orIllegal_some (sizedImm_of_data he) he
    (by simp [encode, at9_eq, eaBits_eq, or_opw])
    (fun _ _ => by simp [decode, line8, opw_and, opw_eq_iff, and_seven, and_fifteen])

theorem divsW (e : Ea) (dx : Reg) (he : eaData .w e = true) : Decodes (.divsW e dx) :=
  decodes_ea (k := fun e => .divsW e dx) 8#4 dx 7#3 orIllegal_some (sizedImm_of_data he) he
    (by simp [encode, at9_eq, eaBits_eq, or_opw]) (fun _ _ => by simp [decode, line8, opw_and, opw_eq_iff, and_fifteen])

theorem subToD (e : Ea) (dx : Reg) (he : eaAny .l e = true) : Decodes (.subToD e dx) :=
  decodes_ea (k := fun e => .subToD e dx) 9#4 dx 2#3 orIllegal_some (sizedImm_of_any he) he
    (by simp [encode, at9_eq, eaBits_eq, or_opw])
    (fun _ _ => by simp [decode, line9, opw_and, opw_eq_iff, and_seven, and_fifteen])

theorem subaL (e : Ea) (ax : Reg) (he : eaAny .l e = true) : Decodes (.subaL e ax) :=
  decodes_ea (k := fun e => .subaL e ax) 9#4 ax 7#3 orIllegal_some (sizedImm_of_any he) he
    (by simp [encode, at9_eq, eaBits_eq, or_opw])
    (fun _ _ => by simp [decode, line9, opw_and, opw_eq_iff, and_seven, and_fifteen])

theorem cmpL (e : Ea) (dx : Reg) (he : eaAny .l e = true) : Decodes (.cmpL e dx) :=
  decodes_ea (k := fun e => .cmpL e dx) 11#4 dx 2#3 orIllegal_some (sizedImm_of_any he) he
    (by simp [encode, at9_eq, eaBits_eq, or_opw])
    (fun _ _ => by simp [decode, lineB, opw_and, opw_eq_iff, and_seven, and_fifteen])

theorem cmpaL (e : Ea) (ax : Reg) (he : eaAny .l e = true) : Decodes (.cmpaL e ax) :=
  decodes_ea (k := fun e => .cmpaL e ax) 11#4 ax 7#3 orIllegal_some (sizedImm_of_any he) he
    (by simp [encode, at9_eq, eaBits_eq, or_opw]) (fun _ _ => by simp [decode, lineB, opw_and, opw_eq_iff, and_fifteen])

theorem andToD (e : Ea) (dx : Reg) (he : eaData .l e = true) : Decodes (.andToD e dx) :=
  decodes_ea (k := fun e => .andToD e dx) 12#4 dx 2#3 orIllegal_some (sizedImm_of_data he) he
    (by simp [encode, at9_eq, eaBits_eq, or_opw])
    (fun _ _ => by simp [decode, lineC, opw_and, opw_eq_iff, and_seven, and_fifteen])

theorem muluW (e : Ea) (dx : Reg) (he : eaData .w e = true) : Decodes (.muluW e dx) :=
  decodes_ea (k := fun e => .muluW e dx) 12#4 dx 3#3 orIllegal_some (sizedImm_of_data he) he
    (by simp [encode, at9_eq, eaBits_eq, or_opw])
    (fun _ _ => by simp [decode, lineC, opw_and, opw_eq_iff, and_seven, and_fifteen])

theorem mulsW (e : Ea) (dx : Reg) (he : eaData .w e = true) : Decodes (.mulsW e dx) :=
  decodes_ea (k := fun e => .mulsW e dx) 12#4 dx 7#3 orIllegal_some (sizedImm_of_data he) he
    (by simp [encode, at9_eq, eaBits_eq, or_opw]) (fun _ _ => by simp [decode, lineC, opw_and, opw_eq_iff, and_fifteen])

theorem addToD (e : Ea) (dx : Reg) (he : eaAny .l e = true) : Decodes (.addToD e dx) :=
  decodes_ea (k := fun e => .addToD e dx) 13#4 dx 2#3 orIllegal_some (sizedImm_of_any he) he
    (by simp [encode, at9_eq, eaBits_eq, or_opw])
    (fun _ _ => by simp [decode, lineD, opw_and, opw_eq_iff, and_seven, and_fifteen])

theorem addaL (e : Ea) (ax : Reg) (he : eaAny .l e = true) : Decodes (.addaL e ax) :=
  decodes_ea (k := fun e => .addaL e ax) 13#4 ax 7#3 orIllegal_some (sizedImm_of_any he) he
    (by simp [encode, at9_eq, eaBits_eq, or_opw])
    (fun _ _ => by simp [decode, lineD, opw_and, opw_eq_iff, and_seven, and_fifteen])

theorem orToEa (dy : Reg) (e : Ea) (he : eaMemAlter e = true) : Decodes (.orToEa dy e) :=
  decodes_ea 8#4 dy 6#3 orIllegal_some (sizedImm_of_memAlter he .l) he
    (by simp [encode, at9_eq, eaBits_eq, or_opw])
    (fun _ _ => by simp [decode, line8, opw_and, opw_eq_iff, and_seven, and_fifteen])

theorem subToEa (dy : Reg) (e : Ea) (he : eaMemAlter e = true) : Decodes (.subToEa dy e) :=
  decodes_ea 9#4 dy 6#3 orIllegal_some (sizedImm_of_memAlter he .l) he
    (by simp [encode, at9_eq, eaBits_eq, or_opw])
    (fun _ _ => by simp [decode, line9, opw_and, opw_eq_iff, and_seven, and_fifteen, eaMode_ne_zero_of_memAlter he])

theorem eorToEa (dy : Reg) (e : Ea) (he : eaDataAlter e = true) : Decodes (.eorToEa dy e) :=
  decodes_ea 11#4 dy 6#3 orIllegal_some (sizedImm_of_dataAlter he .l) he
    (by simp [encode, at9_eq, eaBits_eq, or_opw])
    (fun _ _ => by simp [decode, lineB, opw_and, opw_eq_iff, and_seven, and_fifteen])

theorem andToEa (dy : Reg) (e : Ea) (he : eaMemAlter e = true) : Decodes (.andToEa dy e) :=
  decodes_ea 12#4 dy 6#3 orIllegal_some (sizedImm_of_memAlter he .l) he
    (by simp [encode, at9_eq, eaBits_eq, or_opw])
    (fun _ _ => by simp [decode, lineC, opw_and, opw_eq_iff, and_seven, and_fifteen])

theorem addToEa (dy : Reg) (e : Ea) (he : eaMemAlter e = true) : Decodes (.addToEa dy e) :=
  decodes_ea 13#4 dy 6#3 orIllegal_some (sizedImm_of_memAlter he .l) he
    (by simp [encode, at9_eq, eaBits_eq, or_opw])
    (fun _ _ => by simp [decode, lineD, opw_and, opw_eq_iff, and_seven, and_fifteen, eaMode_ne_zero_of_memAlter he])

theorem subxL (dy dx : Reg) : Decodes (.subxL dy dx) :=
  decodes_word (w := opw 9#4 dx 6#3 0#3 dy) (by simp [encode, at9_eq, at0_eq, or_opw]) (fun _ _ => by
    simp [decode, line9, opw_and, opw_eq_iff, and_seven, and_fifteen, orIllegal_some])

theorem addxL (dy dx : Reg) : Decodes (.addxL dy dx) :=
  decodes_word (w := opw 13#4 dx 6#3 0#3 dy) (by simp [encode, at9_eq, at0_eq, or_opw]) (fun _ _ => by
    simp [decode, lineD, opw_and, opw_eq_iff, and_seven, and_fifteen, orIllegal_some])

theorem asrI (n dx : Reg) : Decodes (.asrI n dx) :=
  decodes_word (w := opw 14#4 n 2#3 0#3 dx) (by simp [encode, at9_eq, at0_eq, or_opw]) (fun _ _ => by
    simp [decode, lineE, opw_and, opw_eq_iff, and_seven, and_fifteen, orIllegal_some])

theorem lsrI (n dx : Reg) : Decodes (.lsrI n dx) :=
  decodes_word (w := opw 14#4 n 2#3 1#3 dx) (by simp [encode, at9_eq, at0_eq, or_opw]) (fun _ _ => by
    simp [decode, lineE, opw_and, opw_eq_iff, and_seven, and_fifteen, orIllegal_some])

theorem asrD (dy dx : Reg) : Decodes (.asrD dy dx) :=
  decodes_word (w := opw 14#4 dy 2#3 4#3 dx) (by simp [encode, at9_eq, at0_eq, or_opw]) (fun _ _ => by
    simp [decode, lineE, opw_and, opw_eq_iff, and_seven, and_fifteen, orIllegal_some])

theorem lsrD (dy dx : Reg) : Decodes (.lsrD dy dx) :=
  decodes_word (w := opw 14#4 dy 2#3 5#3 dx) (by simp [encode, at9_eq, at0_eq, or_opw]) (fun _ _ => by
    simp [decode, lineE, opw_and, opw_eq_iff, and_seven, and_fifteen, orIllegal_some])

theorem aslI (n dx : Reg) : Decodes (.aslI n dx) :=
  decodes_word (w := opw 14#4 n 6#3 0#3 dx) (by simp [encode, at9_eq, at0_eq, or_opw]) (fun _ _ => by
    simp [decode, lineE, opw_and, opw_eq_iff, and_seven, and_fifteen, orIllegal_some])

theorem lslI (n dx : Reg) : Decodes (.lslI n dx) :=
  decodes_word (w := opw 14#4 n 6#3 1#3 dx) (by simp [encode, at9_eq, at0_eq, or_opw]) (fun _ _ => by
    simp [decode, lineE, opw_and, opw_eq_iff, and_seven, and_fifteen, orIllegal_some])

theorem aslD (dy dx : Reg) : Decodes (.aslD dy dx) :=
  decodes_word (w := opw 14#4 dy 6#3 4#3 dx) (by simp [encode, at9_eq, at0_eq, or_opw]) (fun _ _ => by
    simp [decode, lineE, opw_and, opw_eq_iff, and_seven, and_fifteen, orIllegal_some])

theorem lslD (dy dx : Reg) : Decodes (.lslD dy dx) :=
  decodes_word (w := opw 14#4 dy 6#3 5#3 dx) (by simp [encode, at9_eq, at0_eq, or_opw]) (fun _ _ => by
    simp [decode, lineE, opw_and, opw_eq_iff, and_seven, and_fifteen, orIllegal_some])

theorem moveToAcc (e : Ea) (he : eaMacSrc e = true) : Decodes (.moveToAcc e) :=
  decodes_ea 10#4 0#3 4#3 orLineA_some (sizedImm_of_macSrc he) he
    (by simp [encode, eaBits_eq, or_opw])
    (fun _ _ => by simp [decode, lineMac, opw_and, opw_eq_iff, and_seven, and_fifteen])

theorem moveToMacsr (e : Ea) (he : eaMacSrc e = true) : Decodes (.moveToMacsr e) :=
  decodes_ea 10#4 4#3 4#3 orLineA_some (sizedImm_of_macSrc he) he
    (by simp [encode, eaBits_eq, or_opw])
    (fun _ _ => by simp [decode, lineMac, opw_and, opw_eq_iff, and_seven, and_fifteen])

theorem moveToMask (e : Ea) (he : eaMacSrc e = true) : Decodes (.moveToMask e) :=
  decodes_ea 10#4 6#3 4#3 orLineA_some (sizedImm_of_macSrc he) he
    (by simp [encode, eaBits_eq, or_opw])
    (fun _ _ => by simp [decode, lineMac, opw_and, opw_eq_iff, and_seven, and_fifteen])

theorem moveFromAcc (rx : RegX) : Decodes (.moveFromAcc rx) :=
  decodes_word (w := opw 10#4 0#3 6#3 ((rx.extractLsb' 3 1).setWidth 3) (rx.extractLsb' 0 3))
    (by rw [encode, at0x, low4_eq, or_opw]; simp) (fun _ _ => by
    simp [decode, lineMac, opw_and, opw_eq_iff, and_seven, and_fifteen, bit_and_six, lo4, low4_opw, orLineA_some])

theorem moveFromMacsr (rx : RegX) : Decodes (.moveFromMacsr rx) :=
  decodes_word (w := opw 10#4 4#3 6#3 ((rx.extractLsb' 3 1).setWidth 3) (rx.extractLsb' 0 3))
    (by rw [encode, at0x, low4_eq, or_opw]; simp) (fun _ _ => by
    simp [decode, lineMac, opw_and, opw_eq_iff, and_seven, and_fifteen, bit_and_six, lo4, low4_opw, orLineA_some])

theorem moveFromMask (rx : RegX) : Decodes (.moveFromMask rx) :=
  decodes_word (w := opw 10#4 6#3 6#3 ((rx.extractLsb' 3 1).setWidth 3) (rx.extractLsb' 0 3))
    (by rw [encode, at0x, low4_eq, or_opw]; simp) (fun _ _ => by
    simp [decode, lineMac, opw_and, opw_eq_iff, and_seven, and_fifteen, bit_and_six, lo4, low4_opw, orLineA_some])

theorem moveMacsrToCcr : Decodes (.moveMacsrToCcr) :=
  decodes_word (w := opw 10#4 4#3 7#3 0#3 0#3) (by rfl) (fun _ _ => by
    simp [decode, lineMac, opw_and, opw_eq_iff, and_seven, and_fifteen, orLineA_some])

theorem cpushl (ax : Reg) : Decodes (.cpushl ax) :=
  decodes_word (w := opw 15#4 2#3 3#3 5#3 ax) (by simp [encode, at0_eq, or_opw]) (fun _ _ => by
    simp [decode, lineF, opw_and, opw_eq_iff, and_seven, orLineF_some])

theorem wddataB (e : Ea) (he : eaMemAlter e = true) : Decodes (.wddataB e) :=
  decodes_ea 15#4 5#3 4#3 orLineF_some (sizedImm_of_memAlter he .b) he
    (by simp [encode, eaBits_eq, or_opw]) (fun _ _ => by simp [decode, lineF, opw_and, opw_eq_iff, and_seven])

theorem wddataW (e : Ea) (he : eaMemAlter e = true) : Decodes (.wddataW e) :=
  decodes_ea 15#4 5#3 5#3 orLineF_some (sizedImm_of_memAlter he .w) he
    (by simp [encode, eaBits_eq, or_opw]) (fun _ _ => by simp [decode, lineF, opw_and, opw_eq_iff, and_seven])

theorem wddataL (e : Ea) (he : eaMemAlter e = true) : Decodes (.wddataL e) :=
  decodes_ea 15#4 5#3 6#3 orLineF_some (sizedImm_of_memAlter he .l) he
    (by simp [encode, eaBits_eq, or_opw]) (fun _ _ => by simp [decode, lineF, opw_and, opw_eq_iff, and_seven])

theorem wdebug (x : Word) (e : Ea) (he : eaBase e = true) : Decodes (.wdebug x e) :=
  decodes_extEa 15#4 5#3 7#3 x orLineF_some (sizedImm_of_base he .l) he
    (by simp [encode, eaBits_eq, or_opw]) (fun _ => by simp [decode, lineF, opw_and, opw_eq_iff, and_seven])

/-! The branches: the displacement in the operation word or after it (R382). -/

theorem bra (d : Disp) (hd : d.wf = true) : Decodes (.bra d) := by
  intro op a b h
  cases d with
  | d8 d =>
    simp only [encode, branch, low8_eq, or_opw, List.cons_prefix_cons] at h
    obtain ⟨rfl, -⟩ := h
    simp [decode, line6, opw_and, opw_eq_iff, and_fifteen, orIllegal_some, pair_and_four, disp, low8_opw _ _ (pair_low _)]
    simpa [Disp.wf] using hd
  | d16 d =>
    simp only [encode, branch, List.cons_prefix_cons] at h
    obtain ⟨rfl, rfl, -⟩ := h
    simp [decode, line6, orIllegal_some, disp]

theorem bsr (d : Disp) (hd : d.wf = true) : Decodes (.bsr d) := by
  intro op a b h
  cases d with
  | d8 d =>
    simp only [encode, branch, low8_eq, or_opw, List.cons_prefix_cons] at h
    obtain ⟨rfl, -⟩ := h
    simp [decode, line6, opw_and, opw_eq_iff, and_fifteen, orIllegal_some, disp, low8_opw _ _ (four_or_pair_low _), four_or_pair_and_four]
    simpa [Disp.wf] using hd
  | d16 d =>
    simp only [encode, branch, List.cons_prefix_cons] at h
    obtain ⟨rfl, rfl, -⟩ := h
    simp [decode, line6, orIllegal_some, disp]

theorem bcc (cc : BitVec 4) (d : Disp) (hi : (Instr.bcc cc d).encodable = true) : Decodes (.bcc cc d) := by
  simp only [Instr.encodable, Bool.and_eq_true, decide_eq_true_eq] at hi
  obtain ⟨hd, hc⟩ := hi
  have hne := cc_not_branch hc
  intro op a b h
  cases d with
  | d8 d =>
    simp only [encode, branch, low8_eq, cc_eq, or_opw, List.cons_prefix_cons] at h
    obtain ⟨rfl, -⟩ := h
    simp [decode, line6, opw_and, opw_eq_iff, and_seven, and_fifteen, orIllegal_some, hne, disp,
      low8_opw _ _ (cc_or_pair_low _ _), cc_opw _ _ _ (cc_or_pair_high _ _)]
    simpa [Disp.wf] using hd
  | d16 d =>
    simp only [encode, branch, cc_eq, or_opw, List.cons_prefix_cons] at h
    obtain ⟨rfl, rfl, -⟩ := h
    have h8 : (opw 6#4 (cc.extractLsb' 1 3) ((cc.extractLsb' 0 1).setWidth 3 <<< 2) 0#3 0#3).extractLsb' 0 8 = 0#8 :=
      low8_opw (k := 0#8) _ _ (by generalize cc.extractLsb' 0 1 = x; revert x; decide)
    simp [decode, line6, opw_and, opw_eq_iff, and_seven, and_fifteen, orIllegal_some, hne, disp, h8,
      cc_opw _ _ _ (show ((cc.extractLsb' 0 1).setWidth 3 <<< 2 : BitVec 3).extractLsb' 2 1 = cc.extractLsb' 0 1 by
        generalize cc.extractLsb' 0 1 = x; revert x; decide)]

theorem decode_line1 {op a b : Word} (h : op.extractLsb' 12 4 = 1#4) : decode op a b = orIllegal (line1 op a b) := by
  simp [decode, h]
theorem decode_line2 {op a b : Word} (h : op.extractLsb' 12 4 = 2#4) : decode op a b = orIllegal (line2 op a b) := by
  simp [decode, h]
theorem decode_line3 {op a b : Word} (h : op.extractLsb' 12 4 = 3#4) : decode op a b = orIllegal (line3 op a b) := by
  simp [decode, h]

theorem moveB (s d : Ea) (h : moveOk .b s d = true) : Decodes (.moveB s d) :=
  decodes_move 1#4 h (by simp [encode, eaBits_eq, dstBits_eq, or_opw]) (fun _ _ => decode_line1 (opw_line ..))

theorem moveL (s d : Ea) (h : moveOk .l s d = true) : Decodes (.moveL s d) :=
  decodes_move 2#4 h (by simp [encode, eaBits_eq, dstBits_eq, or_opw]) (fun _ _ => decode_line2 (opw_line ..))

theorem moveW (s d : Ea) (h : moveOk .w s d = true) : Decodes (.moveW s d) :=
  decodes_move 3#4 h (by simp [encode, eaBits_eq, dstBits_eq, or_opw]) (fun _ _ => decode_line3 (opw_line ..))

theorem moveaL (s : Ea) (ax : Reg) (h : eaAny .l s = true) : Decodes (.moveaL s ax) :=
  decodes_movea (ax := ax) 2#4 h (by simp [encode, eaBits_eq, at9_eq, or_opw]) (fun _ _ => decode_line2 (opw_line ..)) rfl

theorem moveaW (s : Ea) (ax : Reg) (h : eaAny .w s = true) : Decodes (.moveaW s ax) :=
  decodes_movea (ax := ax) 3#4 h (by simp [encode, eaBits_eq, at9_eq, or_opw]) (fun _ _ => decode_line3 (opw_line ..)) rfl

/-! The multiply and divide rows, and MAC: size, sign and operation stand in the extension word. -/

theorem mulRow_mulExt (s : Bool) (rsv : BitVec 12) (dx : Reg) :
    mulRow (mulExt s rsv dx) = if s then .mulsL rsv dx else .muluL rsv dx := by
  obtain ⟨hs, hv, hx⟩ := mulExt_inj (mulExt_fields (mulExt s rsv dx))
  rw [mulRow, hs, hv, hx]

theorem divRow_divExt (s : Bool) (rsv : BitVec 9) (dw dx : Reg) :
    divRow (divExt s rsv dw dx) = if dw = dx then (if s then .divsL rsv dx else .divuL rsv dx)
      else (if s then .remsL rsv dw dx else .remuL rsv dw dx) := by
  obtain ⟨hs, hv, hw, hx⟩ := divExt_inj (divExt_fields (divExt s rsv dw dx))
  rw [divRow, hs, hv, hw, hx]

theorem mac_macExt (op : Word) (l s ux uy : Bool) (rsv : BitVec 10) (sf : BitVec 2) :
    mac op (macExt l s rsv sf ux uy) =
      if s then (if l then .msacL rsv sf ux uy (macReg op) (lo4 op) else .msacW rsv sf ux uy (macReg op) (lo4 op))
      else (if l then .macL rsv sf ux uy (macReg op) (lo4 op) else .macW rsv sf ux uy (macReg op) (lo4 op)) := by
  obtain ⟨hl, hs, hv, hf, hx, hy⟩ := macExt_inj (macExt_fields (macExt l s rsv sf ux uy))
  rw [mac, hl, hs, hv, hf, hx, hy]

theorem macLoad_macLoadExt (op : Word) (l s rsv ux uy m : Bool) (sf : BitVec 2) (rx ry : RegX) (e : Ea) :
    Dec.macLoad op (macLoadExt l s rsv sf ux uy m rx ry) e =
      if s then (if l then .msacLLoad rsv sf ux uy m rx ry (macReg op) e
        else .msacWLoad rsv sf ux uy m rx ry (macReg op) e)
      else (if l then .macLLoad rsv sf ux uy m rx ry (macReg op) e
        else .macWLoad rsv sf ux uy m rx ry (macReg op) e) := by
  obtain ⟨hl, hs, hv, hf, hx, hy, hm, hrx, hry⟩ :=
    macLoadExt_inj (macLoadExt_fields (macLoadExt l s rsv sf ux uy m rx ry))
  rw [Dec.macLoad, hl, hs, hv, hf, hx, hy, hm, hrx, hry]

theorem decode_mul (m r : BitVec 3) (w b : Word) : decode (opw 4#4 6#3 0#3 m r) w b =
    orIllegal (pick eaShort (srcEa .l (opw 4#4 6#3 0#3 m r) b 0#16) (mulRow w)) := by
  simp [decode, line4, line4lo, opw_and, opw_eq_iff, and_seven, and_fifteen]
  rfl

theorem decode_div (m r : BitVec 3) (w b : Word) : decode (opw 4#4 6#3 1#3 m r) w b =
    orIllegal (pick eaShort (srcEa .l (opw 4#4 6#3 1#3 m r) b 0#16) (divRow w)) := by
  simp [decode, line4, line4lo, opw_and, opw_eq_iff, and_seven, and_fifteen]
  rfl

theorem decode_mac (rx ry : RegX) (w b : Word) :
    decode (opw 10#4 (rx.extractLsb' 0 3) ((rx.extractLsb' 3 1).setWidth 3) ((ry.extractLsb' 3 1).setWidth 3)
      (ry.extractLsb' 0 3)) w b =
    .ok (mac (opw 10#4 (rx.extractLsb' 0 3) ((rx.extractLsb' 3 1).setWidth 3) ((ry.extractLsb' 3 1).setWidth 3)
      (ry.extractLsb' 0 3)) w) := by
  simp [decode, lineMac, opw_and, opw_eq_iff, bit_and_six, orLineA_some]

theorem decode_macLoad (rw : RegX) (m r : BitVec 3) (w b : Word) :
    decode (opw 10#4 (rw.extractLsb' 0 3) (2#3 ||| (rw.extractLsb' 3 1).setWidth 3) m r) w b =
    orLineA (pick eaLoad
      (srcEa .l (opw 10#4 (rw.extractLsb' 0 3) (2#3 ||| (rw.extractLsb' 3 1).setWidth 3) m r) b 0#16)
      (Dec.macLoad (opw 10#4 (rw.extractLsb' 0 3) (2#3 ||| (rw.extractLsb' 3 1).setWidth 3) m r) w)) := by
  simp [decode, lineMac, opw_and, opw_eq_iff, two_or_bit_and_six]

theorem muluL (rsv : BitVec 12) (dx : Reg) (e : Ea) (he : eaShort e = true) : Decodes (.muluL rsv dx e) :=
  decodes_extEa (k := .muluL rsv dx) 4#4 6#3 0#3 (mulExt false rsv dx) orIllegal_some (sizedImm_of_short he .l) he
    (by simp [encode, eaBits_eq, or_opw]) (fun _ => by rw [decode_mul, mulRow_mulExt]; rfl)

theorem mulsL (rsv : BitVec 12) (dx : Reg) (e : Ea) (he : eaShort e = true) : Decodes (.mulsL rsv dx e) :=
  decodes_extEa (k := .mulsL rsv dx) 4#4 6#3 0#3 (mulExt true rsv dx) orIllegal_some (sizedImm_of_short he .l) he
    (by simp [encode, eaBits_eq, or_opw]) (fun _ => by rw [decode_mul, mulRow_mulExt]; rfl)

theorem divuL (rsv : BitVec 9) (dx : Reg) (e : Ea) (he : eaShort e = true) : Decodes (.divuL rsv dx e) :=
  decodes_extEa (k := .divuL rsv dx) 4#4 6#3 1#3 (divExt false rsv dx dx) orIllegal_some (sizedImm_of_short he .l) he
    (by simp [encode, eaBits_eq, or_opw]) (fun _ => by rw [decode_div, divRow_divExt, if_pos rfl]; rfl)

theorem divsL (rsv : BitVec 9) (dx : Reg) (e : Ea) (he : eaShort e = true) : Decodes (.divsL rsv dx e) :=
  decodes_extEa (k := .divsL rsv dx) 4#4 6#3 1#3 (divExt true rsv dx dx) orIllegal_some (sizedImm_of_short he .l) he
    (by simp [encode, eaBits_eq, or_opw]) (fun _ => by rw [decode_div, divRow_divExt, if_pos rfl]; rfl)

theorem remuL (rsv : BitVec 9) (dw dx : Reg) (e : Ea) (he : eaShort e = true) (hne : dw ≠ dx) :
    Decodes (.remuL rsv dw dx e) :=
  decodes_extEa (k := .remuL rsv dw dx) 4#4 6#3 1#3 (divExt false rsv dw dx) orIllegal_some (sizedImm_of_short he .l) he
    (by simp [encode, eaBits_eq, or_opw]) (fun _ => by rw [decode_div, divRow_divExt, if_neg hne]; rfl)

theorem remsL (rsv : BitVec 9) (dw dx : Reg) (e : Ea) (he : eaShort e = true) (hne : dw ≠ dx) :
    Decodes (.remsL rsv dw dx e) :=
  decodes_extEa (k := .remsL rsv dw dx) 4#4 6#3 1#3 (divExt true rsv dw dx) orIllegal_some (sizedImm_of_short he .l) he
    (by simp [encode, eaBits_eq, or_opw]) (fun _ => by rw [decode_div, divRow_divExt, if_neg hne]; rfl)

theorem macW (rsv : BitVec 10) (sf : BitVec 2) (ux uy : Bool) (rx ry : RegX) :
    Decodes (.macW rsv sf ux uy rx ry) :=
  decodes_word1 (by rw [encode, atMac_eq, at0x, low4_eq, or_opw, or_opw])
    (fun _ => by
      simp only [BitVec.reduceExtractLsb', opw_line, opw_high, opw_dmode, opw_mode, opw_low, BitVec.zero_or, BitVec.or_zero]
      rw [decode_mac, mac_macExt, macReg_opw _ _ _ (bit_low _), lo4, low4_opw]; rfl)

theorem macL (rsv : BitVec 10) (sf : BitVec 2) (ux uy : Bool) (rx ry : RegX) :
    Decodes (.macL rsv sf ux uy rx ry) :=
  decodes_word1 (by rw [encode, atMac_eq, at0x, low4_eq, or_opw, or_opw])
    (fun _ => by
      simp only [BitVec.reduceExtractLsb', opw_line, opw_high, opw_dmode, opw_mode, opw_low, BitVec.zero_or, BitVec.or_zero]
      rw [decode_mac, mac_macExt, macReg_opw _ _ _ (bit_low _), lo4, low4_opw]; rfl)

theorem msacW (rsv : BitVec 10) (sf : BitVec 2) (ux uy : Bool) (rx ry : RegX) :
    Decodes (.msacW rsv sf ux uy rx ry) :=
  decodes_word1 (by rw [encode, atMac_eq, at0x, low4_eq, or_opw, or_opw])
    (fun _ => by
      simp only [BitVec.reduceExtractLsb', opw_line, opw_high, opw_dmode, opw_mode, opw_low, BitVec.zero_or, BitVec.or_zero]
      rw [decode_mac, mac_macExt, macReg_opw _ _ _ (bit_low _), lo4, low4_opw]; rfl)

theorem msacL (rsv : BitVec 10) (sf : BitVec 2) (ux uy : Bool) (rx ry : RegX) :
    Decodes (.msacL rsv sf ux uy rx ry) :=
  decodes_word1 (by rw [encode, atMac_eq, at0x, low4_eq, or_opw, or_opw])
    (fun _ => by
      simp only [BitVec.reduceExtractLsb', opw_line, opw_high, opw_dmode, opw_mode, opw_low, BitVec.zero_or, BitVec.or_zero]
      rw [decode_mac, mac_macExt, macReg_opw _ _ _ (bit_low _), lo4, low4_opw]; rfl)

theorem macWLoad (rsv : Bool) (sf : BitVec 2) (ux uy m : Bool) (rx ry rw : RegX) (e : Ea) (he : eaLoad e = true) :
    Decodes (.macWLoad rsv sf ux uy m rx ry rw e) :=
  decodes_extEa (k := .macWLoad rsv sf ux uy m rx ry rw) 10#4 (rw.extractLsb' 0 3) (2#3 ||| (rw.extractLsb' 3 1).setWidth 3)
    (macLoadExt false false rsv sf ux uy m rx ry) orLineA_some (sizedImm_of_load he .l) he
    (by simp [encode, atMac_eq, eaBits_eq, or_opw])
    (fun _ => by
      rw [decode_macLoad]
      refine congrArg (fun k => orLineA (pick eaLoad _ k)) (funext fun e => ?_)
      rw [macLoad_macLoadExt, macReg_opw _ _ _ (two_or_bit_low _)]; rfl)

theorem macLLoad (rsv : Bool) (sf : BitVec 2) (ux uy m : Bool) (rx ry rw : RegX) (e : Ea) (he : eaLoad e = true) :
    Decodes (.macLLoad rsv sf ux uy m rx ry rw e) :=
  decodes_extEa (k := .macLLoad rsv sf ux uy m rx ry rw) 10#4 (rw.extractLsb' 0 3) (2#3 ||| (rw.extractLsb' 3 1).setWidth 3)
    (macLoadExt true false rsv sf ux uy m rx ry) orLineA_some (sizedImm_of_load he .l) he
    (by simp [encode, atMac_eq, eaBits_eq, or_opw])
    (fun _ => by
      rw [decode_macLoad]
      refine congrArg (fun k => orLineA (pick eaLoad _ k)) (funext fun e => ?_)
      rw [macLoad_macLoadExt, macReg_opw _ _ _ (two_or_bit_low _)]; rfl)

theorem msacWLoad (rsv : Bool) (sf : BitVec 2) (ux uy m : Bool) (rx ry rw : RegX) (e : Ea) (he : eaLoad e = true) :
    Decodes (.msacWLoad rsv sf ux uy m rx ry rw e) :=
  decodes_extEa (k := .msacWLoad rsv sf ux uy m rx ry rw) 10#4 (rw.extractLsb' 0 3) (2#3 ||| (rw.extractLsb' 3 1).setWidth 3)
    (macLoadExt false true rsv sf ux uy m rx ry) orLineA_some (sizedImm_of_load he .l) he
    (by simp [encode, atMac_eq, eaBits_eq, or_opw])
    (fun _ => by
      rw [decode_macLoad]
      refine congrArg (fun k => orLineA (pick eaLoad _ k)) (funext fun e => ?_)
      rw [macLoad_macLoadExt, macReg_opw _ _ _ (two_or_bit_low _)]; rfl)

theorem msacLLoad (rsv : Bool) (sf : BitVec 2) (ux uy m : Bool) (rx ry rw : RegX) (e : Ea) (he : eaLoad e = true) :
    Decodes (.msacLLoad rsv sf ux uy m rx ry rw e) :=
  decodes_extEa (k := .msacLLoad rsv sf ux uy m rx ry rw) 10#4 (rw.extractLsb' 0 3) (2#3 ||| (rw.extractLsb' 3 1).setWidth 3)
    (macLoadExt true true rsv sf ux uy m rx ry) orLineA_some (sizedImm_of_load he .l) he
    (by simp [encode, atMac_eq, eaBits_eq, or_opw])
    (fun _ => by
      rw [decode_macLoad]
      refine congrArg (fun k => orLineA (pick eaLoad _ k)) (funext fun e => ?_)
      rw [macLoad_macLoadExt, macReg_opw _ _ _ (two_or_bit_low _)]; rfl)

end DecodeRow

/-- The words of an instruction that the encoding admits decode to it. -/
theorem decodes_of_encodable : (i : Instr) → i.encodable = true → Decodes i
  | .oriL dx imm, _ => DecodeRow.oriL dx imm
  | .andiL dx imm, _ => DecodeRow.andiL dx imm
  | .subiL dx imm, _ => DecodeRow.subiL dx imm
  | .addiL dx imm, _ => DecodeRow.addiL dx imm
  | .eoriL dx imm, _ => DecodeRow.eoriL dx imm
  | .cmpiL dx imm, _ => DecodeRow.cmpiL dx imm
  | .btstI rsv num ea, h => DecodeRow.btstI rsv num ea h
  | .bchgI rsv num ea, h => DecodeRow.bchgI rsv num ea h
  | .bclrI rsv num ea, h => DecodeRow.bclrI rsv num ea h
  | .bsetI rsv num ea, h => DecodeRow.bsetI rsv num ea h
  | .btstD dy ea, h => DecodeRow.btstD dy ea h
  | .bchgD dy ea, h => DecodeRow.bchgD dy ea h
  | .bclrD dy ea, h => DecodeRow.bclrD dy ea h
  | .bsetD dy ea, h => DecodeRow.bsetD dy ea h
  | .moveB src dst, h => DecodeRow.moveB src dst h
  | .moveL src dst, h => DecodeRow.moveL src dst h
  | .moveaL src ax, h => DecodeRow.moveaL src ax h
  | .moveW src dst, h => DecodeRow.moveW src dst h
  | .moveaW src ax, h => DecodeRow.moveaW src ax h
  | .negxL dx, _ => DecodeRow.negxL dx
  | .moveFromSr dx, _ => DecodeRow.moveFromSr dx
  | .lea ea ax, h => DecodeRow.lea ea ax h
  | .clrB ea, h => DecodeRow.clrB ea h
  | .clrW ea, h => DecodeRow.clrW ea h
  | .clrL ea, h => DecodeRow.clrL ea h
  | .moveFromCcr dx, _ => DecodeRow.moveFromCcr dx
  | .negL dx, _ => DecodeRow.negL dx
  | .moveToCcrD dy, _ => DecodeRow.moveToCcrD dy
  | .moveToCcrI imm, _ => DecodeRow.moveToCcrI imm
  | .notL dx, _ => DecodeRow.notL dx
  | .moveToSrD dy, _ => DecodeRow.moveToSrD dy
  | .moveToSrI imm, _ => DecodeRow.moveToSrI imm
  | .swap dx, _ => DecodeRow.swap dx
  | .pea ea, h => DecodeRow.pea ea h
  | .extW dx, _ => DecodeRow.extW dx
  | .extL dx, _ => DecodeRow.extL dx
  | .extbL dx, _ => DecodeRow.extbL dx
  | .movemStore mask ea, h => DecodeRow.movemStore mask ea h
  | .movemLoad mask ea, h => DecodeRow.movemLoad mask ea h
  | .tstB ea, h => DecodeRow.tstB ea h
  | .tstW ea, h => DecodeRow.tstW ea h
  | .tstL ea, h => DecodeRow.tstL ea h
  | .halt, _ => DecodeRow.halt
  | .pulse, _ => DecodeRow.pulse
  | .illegal, _ => DecodeRow.illegal
  | .muluL rsv dx ea, h => DecodeRow.muluL rsv dx ea h
  | .mulsL rsv dx ea, h => DecodeRow.mulsL rsv dx ea h
  | .divuL rsv dx ea, h => DecodeRow.divuL rsv dx ea h
  | .divsL rsv dx ea, h => DecodeRow.divsL rsv dx ea h
  | .remuL rsv dw dx ea, h => by
    simp only [Instr.encodable, Bool.and_eq_true, bne_iff_ne] at h
    exact DecodeRow.remuL rsv dw dx ea h.1 h.2
  | .remsL rsv dw dx ea, h => by
    simp only [Instr.encodable, Bool.and_eq_true, bne_iff_ne] at h
    exact DecodeRow.remsL rsv dw dx ea h.1 h.2
  | .trap v, _ => DecodeRow.trap v
  | .link ay d, _ => DecodeRow.link ay d
  | .unlk ax, _ => DecodeRow.unlk ax
  | .nop, _ => DecodeRow.nop
  | .stop imm, _ => DecodeRow.stop imm
  | .rte, _ => DecodeRow.rte
  | .rts, _ => DecodeRow.rts
  | .movec ry rc, _ => DecodeRow.movec ry rc
  | .jsr ea, h => DecodeRow.jsr ea h
  | .jmp ea, h => DecodeRow.jmp ea h
  | .addqL q ea, h => DecodeRow.addqL q ea h
  | .subqL q ea, h => DecodeRow.subqL q ea h
  | .scc cc dx, _ => DecodeRow.scc cc dx
  | .trapfW w1, _ => DecodeRow.trapfW w1
  | .trapfL w1 w2, _ => DecodeRow.trapfL w1 w2
  | .trapf, _ => DecodeRow.trapf
  | .bra d, h => DecodeRow.bra d h
  | .bsr d, h => DecodeRow.bsr d h
  | .bcc cc d, h => DecodeRow.bcc cc d h
  | .moveq d dx, _ => DecodeRow.moveq d dx
  | .orToD ea dx, h => DecodeRow.orToD ea dx h
  | .divuW ea dx, h => DecodeRow.divuW ea dx h
  | .orToEa dy ea, h => DecodeRow.orToEa dy ea h
  | .divsW ea dx, h => DecodeRow.divsW ea dx h
  | .subToD ea dx, h => DecodeRow.subToD ea dx h
  | .subxL dy dx, _ => DecodeRow.subxL dy dx
  | .subToEa dy ea, h => DecodeRow.subToEa dy ea h
  | .subaL ea ax, h => DecodeRow.subaL ea ax h
  | .macW rsv sf ux uy rx ry, _ => DecodeRow.macW rsv sf ux uy rx ry
  | .macL rsv sf ux uy rx ry, _ => DecodeRow.macL rsv sf ux uy rx ry
  | .msacW rsv sf ux uy rx ry, _ => DecodeRow.msacW rsv sf ux uy rx ry
  | .msacL rsv sf ux uy rx ry, _ => DecodeRow.msacL rsv sf ux uy rx ry
  | .macWLoad rsv sf ux uy msk rx ry rw ea, h => DecodeRow.macWLoad rsv sf ux uy msk rx ry rw ea h
  | .macLLoad rsv sf ux uy msk rx ry rw ea, h => DecodeRow.macLLoad rsv sf ux uy msk rx ry rw ea h
  | .msacWLoad rsv sf ux uy msk rx ry rw ea, h => DecodeRow.msacWLoad rsv sf ux uy msk rx ry rw ea h
  | .msacLLoad rsv sf ux uy msk rx ry rw ea, h => DecodeRow.msacLLoad rsv sf ux uy msk rx ry rw ea h
  | .moveToAcc ea, h => DecodeRow.moveToAcc ea h
  | .moveFromAcc rx, _ => DecodeRow.moveFromAcc rx
  | .moveToMacsr ea, h => DecodeRow.moveToMacsr ea h
  | .moveFromMacsr rx, _ => DecodeRow.moveFromMacsr rx
  | .moveMacsrToCcr, _ => DecodeRow.moveMacsrToCcr
  | .moveToMask ea, h => DecodeRow.moveToMask ea h
  | .moveFromMask rx, _ => DecodeRow.moveFromMask rx
  | .cmpL ea dx, h => DecodeRow.cmpL ea dx h
  | .eorToEa dy ea, h => DecodeRow.eorToEa dy ea h
  | .cmpaL ea ax, h => DecodeRow.cmpaL ea ax h
  | .andToD ea dx, h => DecodeRow.andToD ea dx h
  | .muluW ea dx, h => DecodeRow.muluW ea dx h
  | .andToEa dy ea, h => DecodeRow.andToEa dy ea h
  | .mulsW ea dx, h => DecodeRow.mulsW ea dx h
  | .addToD ea dx, h => DecodeRow.addToD ea dx h
  | .addxL dy dx, _ => DecodeRow.addxL dy dx
  | .addToEa dy ea, h => DecodeRow.addToEa dy ea h
  | .addaL ea ax, h => DecodeRow.addaL ea ax h
  | .asrI n dx, _ => DecodeRow.asrI n dx
  | .lsrI n dx, _ => DecodeRow.lsrI n dx
  | .asrD dy dx, _ => DecodeRow.asrD dy dx
  | .lsrD dy dx, _ => DecodeRow.lsrD dy dx
  | .aslI n dx, _ => DecodeRow.aslI n dx
  | .lslI n dx, _ => DecodeRow.lslI n dx
  | .aslD dy dx, _ => DecodeRow.aslD dy dx
  | .lslD dy dx, _ => DecodeRow.lslD dy dx
  | .cpushl ax, _ => DecodeRow.cpushl ax
  | .wddataB ea, h => DecodeRow.wddataB ea h
  | .wddataW ea, h => DecodeRow.wddataW ea h
  | .wddataL ea, h => DecodeRow.wddataL ea h
  | .wdebug ext ea, h => DecodeRow.wdebug ext ea h

end Sys2Proof.Decoder
end

