-- ==== Sys2Proof/Proofs/DecoderRoundTrip.lean ====
section
/-! PROOF. Sys2Proof/Proofs/DecoderRoundTrip.lean: decoding and encoding undo each other (obligations O1, O2). -/

namespace Sys2Proof.Decoder
open Sys2Proof.Machine Sys2Proof.Dec Sys2Proof.Enc Sys2Proof.Laws

theorem wordsOf_bytesOf_append (ws : List Word) (rest : List Byte) :
    wordsOf (bytesOf ws ++ rest) = ws ++ wordsOf rest := by
  induction ws with
  | nil => rfl
  | cons w ws ih =>
    have hw : w.extractLsb' 8 8 ++ w.extractLsb' 0 8 = w := (append_eq_iff (n := 8) (k := 8) _ _ w).2 ⟨rfl, rfl⟩
    simp only [bytesOf, List.cons_append, wordsOf, ih]
    exact congrArg (· :: _) hw

theorem length_bytesOf (ws : List Word) : (bytesOf ws).length = 2 * ws.length := by
  induction ws with
  | nil => rfl
  | cons w ws ih => simp [bytesOf, ih]; omega

/-- The bytes of the words of a list of bytes are its first bytes. -/
theorem bytesOf_wordsOf_prefix : (bs : List Byte) → bytesOf (wordsOf bs) <+: bs
  | [] => List.nil_prefix
  | [_] => List.nil_prefix
  | a :: b :: t => by
    simp only [wordsOf, bytesOf, high_bytes, low_bytes, List.cons_prefix_cons, true_and]
    exact bytesOf_wordsOf_prefix t

theorem bytesOf_append (a b : List Word) : bytesOf (a ++ b) = bytesOf a ++ bytesOf b := by
  induction a with
  | nil => rfl
  | cons w a ih => simp [bytesOf, ih]

/-- The three words that the decoder is given, of the words read. -/
theorem prefix_three {ws v : List Word} {op : Word} (h : ws <+: op :: v) (hl : ws.length ≤ 3) :
    ws <+: [op, wordAt v 0, wordAt v 1] := by
  match ws, h with
  | [], _ => exact List.nil_prefix
  | [a], h => simpa using h
  | [a, b], h =>
    match v, h with
    | x :: v, h => simpa [wordAt] using h
  | [a, b, c], h =>
    match v, h with
    | x :: y :: v, h => simpa [wordAt] using h

theorem prefix_of_three {ws v : List Word} {op : Word} (h : ws <+: [op, wordAt v 0, wordAt v 1])
    (hl : ws.length ≤ v.length + 1) : ws <+: op :: v := by
  match ws, h with
  | [], _ => exact List.nil_prefix
  | [a], h => simpa using h
  | [a, b], h =>
    match v, hl, h with
    | x :: v, _, h => simpa [wordAt] using h
  | [a, b, c], h =>
    match v, hl, h with
    | x :: y :: v, _, h => simpa [wordAt] using h

/-- Every instruction that the encoding admits takes one to three words (R200, R203). -/
theorem encodeLength : (i : Instr) → EncodeLength.Statement i
  | .oriL dx imm => EncodeLength.oriL _ _
  | .andiL dx imm => EncodeLength.andiL _ _
  | .subiL dx imm => EncodeLength.subiL _ _
  | .addiL dx imm => EncodeLength.addiL _ _
  | .eoriL dx imm => EncodeLength.eoriL _ _
  | .cmpiL dx imm => EncodeLength.cmpiL _ _
  | .btstI rsv num ea => EncodeLength.btstI _ _ _
  | .bchgI rsv num ea => EncodeLength.bchgI _ _ _
  | .bclrI rsv num ea => EncodeLength.bclrI _ _ _
  | .bsetI rsv num ea => EncodeLength.bsetI _ _ _
  | .btstD dy ea => EncodeLength.btstD _ _
  | .bchgD dy ea => EncodeLength.bchgD _ _
  | .bclrD dy ea => EncodeLength.bclrD _ _
  | .bsetD dy ea => EncodeLength.bsetD _ _
  | .moveB src dst => EncodeLength.moveB _ _
  | .moveL src dst => EncodeLength.moveL _ _
  | .moveaL src ax => EncodeLength.moveaL _ _
  | .moveW src dst => EncodeLength.moveW _ _
  | .moveaW src ax => EncodeLength.moveaW _ _
  | .negxL dx => EncodeLength.negxL _
  | .moveFromSr dx => EncodeLength.moveFromSr _
  | .lea ea ax => EncodeLength.lea _ _
  | .clrB ea => EncodeLength.clrB _
  | .clrW ea => EncodeLength.clrW _
  | .clrL ea => EncodeLength.clrL _
  | .moveFromCcr dx => EncodeLength.moveFromCcr _
  | .negL dx => EncodeLength.negL _
  | .moveToCcrD dy => EncodeLength.moveToCcrD _
  | .moveToCcrI imm => EncodeLength.moveToCcrI _
  | .notL dx => EncodeLength.notL _
  | .moveToSrD dy => EncodeLength.moveToSrD _
  | .moveToSrI imm => EncodeLength.moveToSrI _
  | .swap dx => EncodeLength.swap _
  | .pea ea => EncodeLength.pea _
  | .extW dx => EncodeLength.extW _
  | .extL dx => EncodeLength.extL _
  | .extbL dx => EncodeLength.extbL _
  | .movemStore mask ea => EncodeLength.movemStore _ _
  | .movemLoad mask ea => EncodeLength.movemLoad _ _
  | .tstB ea => EncodeLength.tstB _
  | .tstW ea => EncodeLength.tstW _
  | .tstL ea => EncodeLength.tstL _
  | .halt => EncodeLength.halt
  | .pulse => EncodeLength.pulse
  | .illegal => EncodeLength.illegal
  | .muluL rsv dx ea => EncodeLength.muluL _ _ _
  | .mulsL rsv dx ea => EncodeLength.mulsL _ _ _
  | .divuL rsv dx ea => EncodeLength.divuL _ _ _
  | .divsL rsv dx ea => EncodeLength.divsL _ _ _
  | .remuL rsv dw dx ea => EncodeLength.remuL _ _ _ _
  | .remsL rsv dw dx ea => EncodeLength.remsL _ _ _ _
  | .trap v => EncodeLength.trap _
  | .link ay d => EncodeLength.link _ _
  | .unlk ax => EncodeLength.unlk _
  | .nop => EncodeLength.nop
  | .stop imm => EncodeLength.stop _
  | .rte => EncodeLength.rte
  | .rts => EncodeLength.rts
  | .movec ry rc => EncodeLength.movec _ _
  | .jsr ea => EncodeLength.jsr _
  | .jmp ea => EncodeLength.jmp _
  | .addqL q ea => EncodeLength.addqL _ _
  | .subqL q ea => EncodeLength.subqL _ _
  | .scc cc dx => EncodeLength.scc _ _
  | .trapfW w1 => EncodeLength.trapfW _
  | .trapfL w1 w2 => EncodeLength.trapfL _ _
  | .trapf => EncodeLength.trapf
  | .bra d => EncodeLength.bra _
  | .bsr d => EncodeLength.bsr _
  | .bcc cc d => EncodeLength.bcc _ _
  | .moveq d dx => EncodeLength.moveq _ _
  | .orToD ea dx => EncodeLength.orToD _ _
  | .divuW ea dx => EncodeLength.divuW _ _
  | .orToEa dy ea => EncodeLength.orToEa _ _
  | .divsW ea dx => EncodeLength.divsW _ _
  | .subToD ea dx => EncodeLength.subToD _ _
  | .subxL dy dx => EncodeLength.subxL _ _
  | .subToEa dy ea => EncodeLength.subToEa _ _
  | .subaL ea ax => EncodeLength.subaL _ _
  | .macW rsv sf ux uy rx ry => EncodeLength.macW _ _ _ _ _ _
  | .macL rsv sf ux uy rx ry => EncodeLength.macL _ _ _ _ _ _
  | .msacW rsv sf ux uy rx ry => EncodeLength.msacW _ _ _ _ _ _
  | .msacL rsv sf ux uy rx ry => EncodeLength.msacL _ _ _ _ _ _
  | .macWLoad rsv sf ux uy msk rx ry rw ea => EncodeLength.macWLoad _ _ _ _ _ _ _ _ _
  | .macLLoad rsv sf ux uy msk rx ry rw ea => EncodeLength.macLLoad _ _ _ _ _ _ _ _ _
  | .msacWLoad rsv sf ux uy msk rx ry rw ea => EncodeLength.msacWLoad _ _ _ _ _ _ _ _ _
  | .msacLLoad rsv sf ux uy msk rx ry rw ea => EncodeLength.msacLLoad _ _ _ _ _ _ _ _ _
  | .moveToAcc ea => EncodeLength.moveToAcc _
  | .moveFromAcc rx => EncodeLength.moveFromAcc _
  | .moveToMacsr ea => EncodeLength.moveToMacsr _
  | .moveFromMacsr rx => EncodeLength.moveFromMacsr _
  | .moveMacsrToCcr => EncodeLength.moveMacsrToCcr
  | .moveToMask ea => EncodeLength.moveToMask _
  | .moveFromMask rx => EncodeLength.moveFromMask _
  | .cmpL ea dx => EncodeLength.cmpL _ _
  | .eorToEa dy ea => EncodeLength.eorToEa _ _
  | .cmpaL ea ax => EncodeLength.cmpaL _ _
  | .andToD ea dx => EncodeLength.andToD _ _
  | .muluW ea dx => EncodeLength.muluW _ _
  | .andToEa dy ea => EncodeLength.andToEa _ _
  | .mulsW ea dx => EncodeLength.mulsW _ _
  | .addToD ea dx => EncodeLength.addToD _ _
  | .addxL dy dx => EncodeLength.addxL _ _
  | .addToEa dy ea => EncodeLength.addToEa _ _
  | .addaL ea ax => EncodeLength.addaL _ _
  | .asrI n dx => EncodeLength.asrI _ _
  | .lsrI n dx => EncodeLength.lsrI _ _
  | .asrD dy dx => EncodeLength.asrD _ _
  | .lsrD dy dx => EncodeLength.lsrD _ _
  | .aslI n dx => EncodeLength.aslI _ _
  | .lslI n dx => EncodeLength.lslI _ _
  | .aslD dy dx => EncodeLength.aslD _ _
  | .lslD dy dx => EncodeLength.lslD _ _
  | .cpushl ax => EncodeLength.cpushl _
  | .wddataB ea => EncodeLength.wddataB _
  | .wddataW ea => EncodeLength.wddataW _
  | .wddataL ea => EncodeLength.wddataL _
  | .wdebug ext ea => EncodeLength.wdebug _ _

/-- Settles O1: the words of each row, after which the decoder asks for no more than they are, read back field by
field. -/
theorem decodeEncode : Obligations.DecodeEncode := by
  intro i rest hi
  obtain ⟨h1, h3⟩ := encodeLength i hi
  obtain ⟨op, ws, he⟩ := List.exists_cons_of_length_pos h1
  have hd : decode op (wordAt (ws ++ wordsOf rest) 0) (wordAt (ws ++ wordsOf rest) 1) = .ok i :=
    decodes_of_encodable i hi _ _ _ (prefix_three (he ▸ List.prefix_append _ _) h3)
  have hx : extLen i = ws.length := by rw [extLen, he]; rfl
  have hl : ¬ (ws ++ wordsOf rest).length < extLen i := by rw [hx, List.length_append]; omega
  have hb : (bytesOf (encode i)).length = 2 * (extLen i + 1) := by rw [length_bytesOf, hx, he]; rfl
  rw [decodeBytes, wordsOf_bytesOf_append, he, List.cons_append]
  simp only [hd, if_neg hl]
  rw [← he, ← hb, List.drop_left]

/-- Settles O2: every row answers an instruction whose words are the first of those read. -/
theorem encodeDecode : Obligations.EncodeDecode := by
  intro bs rest i h
  unfold decodeBytes at h
  split at h
  · cases h
  next op ws hw =>
    split at h
    case h_1 j hd =>
      split at h
      · cases h
      next hl =>
        cases h
        obtain ⟨hi, hp⟩ := reads_of_decode hd
        refine ⟨hi, ?_⟩
        have h1 := (encodeLength i hi).1
        have hlen : (encode i).length ≤ ws.length + 1 := by rw [extLen] at hl; omega
        have hpre : bytesOf (encode i) <+: bs := by
          refine List.IsPrefix.trans ?_ (bytesOf_wordsOf_prefix bs)
          obtain ⟨t, ht⟩ := prefix_of_three hp hlen
          rw [hw, ← ht, bytesOf_append]
          exact List.prefix_append _ _
        obtain ⟨t, rfl⟩ := hpre
        have hb : (bytesOf (encode i)).length = 2 * (extLen i + 1) := by rw [length_bytesOf, extLen]; omega
        rw [← hb, List.drop_left]
    all_goals cases h
end Sys2Proof.Decoder
end

