-- ==== Sys2Proof/Proofs/DecoderOpword.lean ====
section
/-! PROOF. Sys2Proof/Proofs/DecoderOpword.lean: what the operation word alone decides (obligations O4, O5; spec/30_encoding.md R201, R202). -/

namespace Sys2Proof.Decoder
open Sys2Proof.Machine Sys2Proof.Dec Sys2Proof.Enc Sys2Proof.Laws

/-- The effective address with zeros in its extension words: what the operation word says of it (R202). -/
def bareEa : Ea → Ea
  | .disp r _ => .disp r 0#16
  | .idx r _ => .idx r 0#16
  | .absW _ => .absW 0#16
  | .absL _ => .absL 0#32
  | .pcDisp _ => .pcDisp 0#16
  | .pcIdx _ => .pcIdx 0#16
  | .immW _ => .immW 0#16
  | .immL _ => .immL 0#32
  | e => e

/-- The set of modes is one that the operation word decides. -/
def OfMode (p : Ea → Bool) : Prop := ∀ e, p (bareEa e) = p e

theorem ofMode_short : OfMode eaShort := fun e => by cases e <;> rfl
theorem ofMode_base : OfMode eaBase := fun e => by cases e <;> rfl
theorem ofMode_load : OfMode eaLoad := fun e => by cases e <;> rfl
theorem ofMode_control : OfMode eaControl := fun e => by cases e <;> rfl
theorem ofMode_macSrc : OfMode eaMacSrc := fun e => by cases e <;> rfl
theorem ofMode_memAlter : OfMode eaMemAlter := fun e => by cases e <;> rfl
theorem ofMode_dataAlter : OfMode eaDataAlter := fun e => by cases e <;> rfl
theorem ofMode_alter : OfMode eaAlter := fun e => by cases e <;> rfl
theorem ofMode_dataNoImm : OfMode eaDataNoImm := fun e => by cases e <;> rfl
theorem ofMode_data (sz : Size) : OfMode (eaData sz) := fun e => by cases sz <;> cases e <;> rfl
theorem ofMode_any (sz : Size) : OfMode (eaAny sz) := fun e => by cases sz <;> cases e <;> rfl

theorem length_eaWords_bareEa (e : Ea) : (eaWords (bareEa e)).length = (eaWords e).length := by cases e <;> rfl

theorem moveOk_bareEa (sz : Size) (s d : Ea) : moveOk sz (bareEa s) (bareEa d) = moveOk sz s d := by
  have hs := ofMode_short d
  unfold moveOk
  rw [ofMode_any, ofMode_dataAlter]
  refine congrArg₂ (· && ·) rfl ?_
  cases s
  case disp | pcDisp => exact hs
  case dn | an | ind | postinc | predec => rfl
  all_goals cases d <;> rfl

theorem eaOf_bareEa (sz : Size) (m r : BitVec 3) (a b c d : Word) :
    (eaOf sz m r a b).map bareEa = (eaOf sz m r c d).map bareEa := by
  cases sz <;>
    simp only [eaOf, apply_ite (Option.map bareEa), Option.map_some, Option.map_none, bareEa]

/-- Both parts of the decoder answer, with instructions of one length, or neither does. -/
inductive Alike : Option Instr → Option Instr → Prop where
  | none : Alike none none
  | some {i j : Instr} (h : extLen j = extLen i) : Alike (some i) (some j)

theorem Alike.ite {c : Prop} [Decidable c] {a a' b b' : Option Instr} (ha : Alike a a') (hb : Alike b b') :
    Alike (if c then a else b) (if c then a' else b') := by
  split
  · exact ha
  · exact hb

theorem Alike.pick {p : Ea → Bool} {sz : Size} {op a b c d : Word} {k k' : Ea → Instr} (hp : OfMode p)
    (hk : ∀ e e', (eaWords e').length = (eaWords e).length → extLen (k' e') = extLen (k e)) :
    Alike (pick p (srcEa sz op a b) k) (pick p (srcEa sz op c d) k') := by
  have h := eaOf_bareEa sz (mode op) (lo op) a b c d
  unfold srcEa
  cases h1 : eaOf sz (mode op) (lo op) a b <;> cases h2 : eaOf sz (mode op) (lo op) c d <;> rw [h1, h2] at h
  case none.none => exact .none
  case some.some e e' =>
    have he : bareEa e = bareEa e' := Option.some.inj h
    have hp' : p e = p e' := by rw [← hp e, he, hp]
    have hl : (eaWords e').length = (eaWords e).length := by
      rw [← length_eaWords_bareEa e, he, length_eaWords_bareEa]
    simp only [Dec.pick, hp']
    exact .ite (.some (hk e e' hl)) .none
  all_goals cases h

theorem extLen_of_ea {k k' : Ea → Instr} {w w' : Ea → Word} (h : ∀ e, encode (k e) = w e :: eaWords e)
    (h' : ∀ e, encode (k' e) = w' e :: eaWords e) (e e' : Ea) (hl : (eaWords e').length = (eaWords e).length) :
    extLen (k' e') = extLen (k e) := by
  rw [extLen, extLen, h, h', List.length_cons, List.length_cons, hl]

theorem extLen_of_long {i j : Instr} {w w' : Word} {x y : Long} (h : encode i = w :: longWords x)
    (h' : encode j = w' :: longWords y) : extLen j = extLen i := by
  rw [extLen, extLen, h, h', longWords, longWords]; rfl

theorem extLen_of_extEa {k k' : Ea → Instr} {w w' : Ea → Word} {v v' : Word}
    (h : ∀ e, encode (k e) = w e :: v :: eaWords e) (h' : ∀ e, encode (k' e) = w' e :: v' :: eaWords e) (e e' : Ea)
    (hl : (eaWords e').length = (eaWords e).length) : extLen (k' e') = extLen (k e) := by
  rw [extLen, extLen, h, h', List.length_cons, List.length_cons, List.length_cons, List.length_cons, hl]

section Lines
variable (op a b c d : Word)

theorem Alike.of_move (sz : Size) {mk : Ea → Ea → Instr} {mkA : Ea → Reg → Option Instr} {w : Ea → Ea → Word}
    (hmk : ∀ s d, encode (mk s d) = w s d :: (eaWords s ++ eaWords d))
    (hA : ∀ s s' r, (eaWords s').length = (eaWords s).length → Alike (mkA s r) (mkA s' r)) :
    Alike (move sz op a b mk mkA) (move sz op c d mk mkA) := by
  have h := eaOf_bareEa sz (mode op) (lo op) a b c d
  unfold move srcEa
  cases h1 : eaOf sz (mode op) (lo op) a b <;> cases h2 : eaOf sz (mode op) (lo op) c d <;> rw [h1, h2] at h
  case none.none => exact .none
  case some.some s s' =>
    have he : bareEa s = bareEa s' := Option.some.inj h
    have hl : (eaWords s').length = (eaWords s).length := by
      rw [← length_eaWords_bareEa s, he, length_eaWords_bareEa]
    have ha : eaAny sz s = eaAny sz s' := by rw [← ofMode_any sz s, he, ofMode_any]
    simp only [ha]
    refine .ite (.ite (hA s s' _ hl) .none) ?_
    generalize (if eaLen s = 0 then a else b) = x, (if eaLen s' = 0 then c else d) = y
    have h := eaOf_bareEa sz (dmode op) (hi op) x b y d
    cases h1 : eaOf sz (dmode op) (hi op) x b <;> cases h2 : eaOf sz (dmode op) (hi op) y d <;> rw [h1, h2] at h
    case none.none => exact .none
    case some.some t t' =>
      have ht : bareEa t = bareEa t' := Option.some.inj h
      have hlt : (eaWords t').length = (eaWords t).length := by
        rw [← length_eaWords_bareEa t, ht, length_eaWords_bareEa]
      have hok : moveOk sz s t = moveOk sz s' t' := by rw [← moveOk_bareEa sz s, he, ht, moveOk_bareEa]
      simp only [Dec.pick, hok]
      refine .ite (.some ?_) .none
      rw [extLen, extLen, hmk, hmk, List.length_cons, List.length_cons, List.length_append, List.length_append, hl, hlt]
    all_goals cases h
  all_goals cases h

theorem line0_alike : Alike (line0 op a b) (line0 op c d) := by
  unfold line0
  iterate 6 refine .ite (.some (extLen_of_long rfl rfl)) ?_
  iterate 4 refine .ite (.pick ofMode_short (extLen_of_extEa (fun _ => rfl) (fun _ => rfl))) ?_
  refine .ite (.pick ofMode_dataNoImm (extLen_of_ea (fun _ => rfl) (fun _ => rfl))) ?_
  iterate 3 refine .ite (.pick ofMode_dataAlter (extLen_of_ea (fun _ => rfl) (fun _ => rfl))) ?_
  exact .none

theorem line1_alike : Alike (line1 op a b) (line1 op c d) :=
  .of_move op a b c d .b (fun _ _ => rfl) (fun _ _ _ _ => .none)

theorem line2_alike : Alike (line2 op a b) (line2 op c d) :=
  .of_move op a b c d .l (fun _ _ => rfl)
    (fun _ _ r h => .some (extLen_of_ea (k := (.moveaL · r)) (k' := (.moveaL · r)) (fun _ => rfl) (fun _ => rfl) _ _ h))

theorem line3_alike : Alike (line3 op a b) (line3 op c d) :=
  .of_move op a b c d .w (fun _ _ => rfl)
    (fun _ _ r h => .some (extLen_of_ea (k := (.moveaW · r)) (k' := (.moveaW · r)) (fun _ => rfl) (fun _ => rfl) _ _ h))

theorem line4lo_alike : Alike (line4lo op a b) (line4lo op c d) := by
  unfold line4lo
  iterate 2 refine .ite (.some rfl) ?_
  iterate 3 refine .ite (.pick ofMode_dataAlter (extLen_of_ea (fun _ => rfl) (fun _ => rfl))) ?_
  iterate 8 refine .ite (.some rfl) ?_
  refine .ite (.pick ofMode_control (extLen_of_ea (fun _ => rfl) (fun _ => rfl))) ?_
  iterate 2 refine .ite (.some rfl) ?_
  iterate 2 refine .ite (.pick ofMode_base (extLen_of_extEa (fun _ => rfl) (fun _ => rfl))) ?_
  refine .ite (.pick (ofMode_any .b) (extLen_of_ea (fun _ => rfl) (fun _ => rfl))) ?_
  refine .ite (.pick (ofMode_any .w) (extLen_of_ea (fun _ => rfl) (fun _ => rfl))) ?_
  refine .ite (.pick (ofMode_any .l) (extLen_of_ea (fun _ => rfl) (fun _ => rfl))) ?_
  iterate 3 refine .ite (.some rfl) ?_
  refine .ite (.pick ofMode_short (extLen_of_extEa (encode_mulRow a) (encode_mulRow c))) ?_
  exact .ite (.pick ofMode_short (extLen_of_extEa (encode_divRow a) (encode_divRow c))) .none

theorem line4e_alike : Alike (line4e op a b) (line4e op c d) := by
  unfold line4e
  iterate 8 refine .ite (.some rfl) ?_
  iterate 2 refine .ite (.pick ofMode_control (extLen_of_ea (fun _ => rfl) (fun _ => rfl))) ?_
  exact .none

theorem line4_alike : Alike (line4 op a b) (line4 op c d) := by
  unfold line4
  refine .ite (.some rfl) ?_
  refine .ite (.pick ofMode_control (extLen_of_ea (fun _ => rfl) (fun _ => rfl))) ?_
  exact .ite (line4e_alike op a b c d) (line4lo_alike op a b c d)

theorem line5_alike : Alike (line5 op a b) (line5 op c d) := by
  unfold line5
  iterate 2 refine .ite (.pick ofMode_alter (extLen_of_ea (fun _ => rfl) (fun _ => rfl))) ?_
  iterate 4 refine .ite (.some rfl) ?_
  exact .none

theorem line6_alike : Alike (line6 op a b) (line6 op c d) := by
  unfold line6 disp
  split_ifs <;> exact .some rfl

theorem line7_alike : Alike (line7 op a b) (line7 op c d) := .ite (.some rfl) .none

theorem line8_alike : Alike (line8 op a b) (line8 op c d) := by
  unfold line8
  refine .ite (.pick (ofMode_data .l) (extLen_of_ea (fun _ => rfl) (fun _ => rfl))) ?_
  refine .ite (.pick (ofMode_data .w) (extLen_of_ea (fun _ => rfl) (fun _ => rfl))) ?_
  refine .ite (.pick ofMode_memAlter (extLen_of_ea (fun _ => rfl) (fun _ => rfl))) ?_
  exact .ite (.pick (ofMode_data .w) (extLen_of_ea (fun _ => rfl) (fun _ => rfl))) .none

theorem line9_alike : Alike (line9 op a b) (line9 op c d) := by
  unfold line9
  refine .ite (.pick (ofMode_any .l) (extLen_of_ea (fun _ => rfl) (fun _ => rfl))) ?_
  refine .ite (.some rfl) ?_
  refine .ite (.pick ofMode_memAlter (extLen_of_ea (fun _ => rfl) (fun _ => rfl))) ?_
  exact .ite (.pick (ofMode_any .l) (extLen_of_ea (fun _ => rfl) (fun _ => rfl))) .none

theorem lineMac_alike : Alike (lineMac op a b) (lineMac op c d) := by
  unfold lineMac
  refine .ite (.some (by rw [extLen, extLen, encode_mac, encode_mac]; rfl)) ?_
  refine .ite (.pick ofMode_load (extLen_of_extEa (encode_macLoad op a) (encode_macLoad op c))) ?_
  refine .ite (.pick ofMode_macSrc (extLen_of_ea (fun _ => rfl) (fun _ => rfl))) ?_
  refine .ite (.some rfl) ?_
  refine .ite (.pick ofMode_macSrc (extLen_of_ea (fun _ => rfl) (fun _ => rfl))) ?_
  iterate 2 refine .ite (.some rfl) ?_
  refine .ite (.pick ofMode_macSrc (extLen_of_ea (fun _ => rfl) (fun _ => rfl))) ?_
  exact .ite (.some rfl) .none

theorem lineB_alike : Alike (lineB op a b) (lineB op c d) := by
  unfold lineB
  refine .ite (.pick (ofMode_any .l) (extLen_of_ea (fun _ => rfl) (fun _ => rfl))) ?_
  refine .ite (.pick ofMode_dataAlter (extLen_of_ea (fun _ => rfl) (fun _ => rfl))) ?_
  exact .ite (.pick (ofMode_any .l) (extLen_of_ea (fun _ => rfl) (fun _ => rfl))) .none

theorem lineC_alike : Alike (lineC op a b) (lineC op c d) := by
  unfold lineC
  refine .ite (.pick (ofMode_data .l) (extLen_of_ea (fun _ => rfl) (fun _ => rfl))) ?_
  refine .ite (.pick (ofMode_data .w) (extLen_of_ea (fun _ => rfl) (fun _ => rfl))) ?_
  refine .ite (.pick ofMode_memAlter (extLen_of_ea (fun _ => rfl) (fun _ => rfl))) ?_
  exact .ite (.pick (ofMode_data .w) (extLen_of_ea (fun _ => rfl) (fun _ => rfl))) .none

theorem lineD_alike : Alike (lineD op a b) (lineD op c d) := by
  unfold lineD
  refine .ite (.pick (ofMode_any .l) (extLen_of_ea (fun _ => rfl) (fun _ => rfl))) ?_
  refine .ite (.some rfl) ?_
  refine .ite (.pick ofMode_memAlter (extLen_of_ea (fun _ => rfl) (fun _ => rfl))) ?_
  exact .ite (.pick (ofMode_any .l) (extLen_of_ea (fun _ => rfl) (fun _ => rfl))) .none

theorem lineE_alike : Alike (lineE op a b) (lineE op c d) := by
  unfold lineE
  iterate 8 refine .ite (.some rfl) ?_
  exact .none

theorem lineF_alike : Alike (lineF op a b) (lineF op c d) := by
  unfold lineF
  refine .ite (.some rfl) ?_
  iterate 3 refine .ite (.pick ofMode_memAlter (extLen_of_ea (fun _ => rfl) (fun _ => rfl))) ?_
  exact .ite (.pick ofMode_base (extLen_of_extEa (fun _ => rfl) (fun _ => rfl))) .none
end Lines

/-- Both answers of the decoder are instructions of one length, or both are one rejection. -/
def SameKind (r r' : Decoded) : Prop :=
  match r with
  | .ok i => ∃ j, r' = .ok j ∧ extLen j = extLen i
  | r => r' = r

section SameKind
variable {o o' : Option Instr} (h : Alike o o')
include h

theorem sameKind_orIllegal : SameKind (orIllegal o) (orIllegal o') := by
  cases h with
  | none => rfl
  | some h => exact ⟨_, rfl, h⟩

theorem sameKind_orLineA : SameKind (orLineA o) (orLineA o') := by
  cases h with
  | none => rfl
  | some h => exact ⟨_, rfl, h⟩

theorem sameKind_orLineF : SameKind (orLineF o) (orLineF o') := by
  cases h with
  | none => rfl
  | some h => exact ⟨_, rfl, h⟩
end SameKind

theorem decode_sameKind (op a b c d : Word) : SameKind (decode op a b) (decode op c d) := by
  unfold decode
  split
  case h_1 => exact sameKind_orIllegal (line0_alike ..)
  case h_2 => exact sameKind_orIllegal (line1_alike ..)
  case h_3 => exact sameKind_orIllegal (line2_alike ..)
  case h_4 => exact sameKind_orIllegal (line3_alike ..)
  case h_5 => exact sameKind_orIllegal (line4_alike ..)
  case h_6 => exact sameKind_orIllegal (line5_alike ..)
  case h_7 => exact sameKind_orIllegal (line6_alike ..)
  case h_8 => exact sameKind_orIllegal (line7_alike ..)
  case h_9 => exact sameKind_orIllegal (line8_alike ..)
  case h_10 => exact sameKind_orIllegal (line9_alike ..)
  case h_11 => exact sameKind_orLineA (lineMac_alike ..)
  case h_12 => exact sameKind_orIllegal (lineB_alike ..)
  case h_13 => exact sameKind_orIllegal (lineC_alike ..)
  case h_14 => exact sameKind_orIllegal (lineD_alike ..)
  case h_15 => exact sameKind_orIllegal (lineE_alike ..)
  case h_16 => exact sameKind_orLineF (lineF_alike ..)

/-- Settles O4: each row looks at the words after the operation word for its operands only. -/
theorem opwordDecides : Obligations.OpwordDecides := by
  intro op a b c d
  have h := decode_sameKind op a b c d
  split
  next i hi =>
    rw [hi] at h
    obtain ⟨j, hj, hl⟩ := h
    have hlen := (reads_of_decode hi).2.length_le
    exact ⟨j, hj, hl, by rw [extLen]; simp at hlen; omega⟩
  next r hr =>
    cases hd : decode op a b with
    | ok i => exact absurd hd (hr i)
    | _ => rw [hd] at h; exact h

theorem decode_orIllegal {op : Word} (a b : Word) (hA : op.extractLsb' 12 4 ≠ 0xA#4)
    (hF : op.extractLsb' 12 4 ≠ 0xF#4) : ∃ o, decode op a b = orIllegal o := by
  unfold decode
  generalize op.extractLsb' 12 4 = l at *
  split
  case h_11 h => exact absurd (BitVec.eq_of_toNat_eq h) hA
  case h_16 =>
    simp only [imp_false] at *
    have hl : l = 0xF#4 := by bv_omega
    exact absurd hl hF
  all_goals exact ⟨_, rfl⟩

/-- What an operation word that selects no instruction decodes to (R201). -/
theorem decode_rejects {op a b : Word} (h : ∀ i, decode op a b ≠ .ok i) :
    decode op a b = if op.extractLsb' 12 4 = 0xA#4 then .lineA else if op.extractLsb' 12 4 = 0xF#4 then .lineF
      else .illegal := by
  split_ifs with hA hF
  · have hd : decode op a b = orLineA (lineMac op a b) := by simp [decode, hA]
    rw [hd] at h ⊢
    cases ho : lineMac op a b with
    | none => rfl
    | some i => exact absurd (by rw [ho]; rfl) (h i)
  · have hd : decode op a b = orLineF (lineF op a b) := by simp [decode, hF]
    rw [hd] at h ⊢
    cases ho : lineF op a b with
    | none => rfl
    | some i => exact absurd (by rw [ho]; rfl) (h i)
  · obtain ⟨o, hd⟩ := decode_orIllegal a b hA hF
    rw [hd] at h ⊢
    cases o with
    | none => rfl
    | some i => exact absurd rfl (h i)

/-- Settles O5: the exception of the line, with nothing done before it. -/
theorem unassignedOpwords : Obligations.UnassignedOpwords := by
  intro op a b s hs hd
  rw [decode_rejects hd]
  split_ifs with hA hF
  · exact ⟨_, rfl, State.raiseFault_enters hs _⟩
  · exact ⟨_, rfl, State.raiseFault_enters hs _⟩
  · exact ⟨_, rfl, State.raiseFault_enters hs _⟩
end Sys2Proof.Decoder
end

