-- ==== Sys2Proof/Proofs/DataMoves.lean ====
section
/-! PROOF. Sys2Proof/Proofs/DataMoves.lean: MOVE, CLR, LEA, PEA, LINK and UNLK (obligations O13, O14, O16, O17, O18; spec/40_data_movement.md). -/

namespace Sys2Proof.Machine
open Sys2Proof.Dec (eaLen)

/-! ### MOVE and MOVEA to a register -/

section Moves
variable {i : Instr} {s : State} {src dst : Ea} {sz : Size} {r : Reg}

theorem moveD_valueFlags_reads (hb : eaBad src = false) (h : exec i s = moveOp sz src (.dn r) s) :
    Reads i s src sz (withReg (s.regsAfter src sz) (dNum r) (putLow (8 * sz.bytes) (s.getD r) (s.operand src sz)))
      (valueFlags s.flags (8 * sz.bytes) (s.operand src sz)) (s.after (eaLen src)) := by
  rw [← nzFlags_eq, ← merge_eq]
  exact moveD_reads hb h

theorem extendA_word (v : Long) : extendA .w v = BitVec.ofInt 32 (v.setWidth 16).toInt := by
  rw [extendA, extract16_eq, signExtend_eq]

/-- A longword replaces the whole register. -/
theorem putLow_all (old v : Long) : putLow (8 * Size.l.bytes) old v = v := (merge_eq .l old v).symm

/-- Settles O13: each size of MOVE replaces its low bytes, a longword all of them; MOVEA extends a word. -/
theorem moveToRegister : Obligations.MoveToRegister := by
  intro s src r hb
  have hl := moveD_valueFlags_reads (i := .moveL src (.dn r)) (s := s) (sz := .l) hb rfl
  rw [putLow_all] at hl
  refine ⟨moveD_valueFlags_reads hb rfl, moveD_valueFlags_reads hb rfl, hl, ?_, movea_reads (sz := .l) hb rfl⟩
  rw [← extendA_word]
  exact movea_reads hb rfl

/-! ### MOVE to memory -/

theorem move_valueFlags_stores (hb : eaBad src = false) (hd : eaBad dst = false) (hm : eaMemAlter dst = true)
    (h : exec i s = moveOp sz src dst s) :
    Stores i s ((s.located src sz).regsAfter dst sz) (valueFlags s.flags (8 * sz.bytes) (s.operand src sz))
      (s.after (eaLen src + eaLen dst)) ((s.located src sz).address dst sz) sz (s.operand src sz) := by
  rw [← nzFlags_eq]
  exact move_stores hb hd hm h

/-- Settles O14: the destination is located in the state that the source's move of its address register leaves. -/
theorem moveToMemory : Obligations.MoveToMemory := fun _ _ _ hb hd hm =>
  ⟨move_valueFlags_stores hb hd hm rfl, move_valueFlags_stores hb hd hm rfl, move_valueFlags_stores hb hd hm rfl⟩
end Moves

/-! ### CLR -/

/-- The flags of a zero: Z alone. -/
theorem nzFlags_zero (old : Flags) (sz : Size) :
    nzFlags old sz 0#32 = { x := old.x, n := false, z := true, v := false, c := false } := by
  cases sz <;> rfl

theorem clrD_zeroFlags_onRegs {i : Instr} {s : State} {sz : Size} {r : Reg} (h : exec i s = clrOp sz (.dn r) s) :
    OnRegs i s (withReg s.getR (dNum r) (putLow (8 * sz.bytes) (s.getD r) 0#32))
      { x := s.flags.x, n := false, z := true, v := false, c := false } (s.after 0) := by
  rw [← nzFlags_zero s.flags sz, ← merge_eq]
  exact clrD_onRegs h

theorem clr_zeroFlags_stores {i : Instr} {s : State} {ea : Ea} {sz : Size} (hb : eaBad ea = false)
    (hm : eaMemAlter ea = true) (h : exec i s = clrOp sz ea s) :
    Stores i s (s.regsAfter ea sz) { x := s.flags.x, n := false, z := true, v := false, c := false }
      (s.after (eaLen ea)) (s.address ea sz) sz 0#32 := by
  rw [← nzFlags_zero s.flags sz]
  exact clr_stores hb hm h

/-- Settles O16: CLR writes a zero of its size and does not read. -/
theorem clear : Obligations.Clear := by
  intro s ea r hb hm
  have hl := clrD_zeroFlags_onRegs (i := .clrL (.dn r)) (s := s) (sz := .l) rfl
  rw [putLow_all] at hl
  exact ⟨clrD_zeroFlags_onRegs (sz := .b) rfl, clrD_zeroFlags_onRegs (sz := .w) rfl, hl,
    clr_zeroFlags_stores hb hm rfl, clr_zeroFlags_stores hb hm rfl, clr_zeroFlags_stores hb hm rfl⟩

/-! ### LEA, PEA, LINK, UNLK -/

/-- A push by an instruction of n extension words that writes no flag. -/
theorem push_stores {i : Instr} {s : State} {v : Long} {n : Nat}
    (h : exec i s = .next (((s.pst 1#4).push v).advance n)) :
    Stores i s (withReg s.getR (aNum spReg) (s.sp - 4#32)) s.flags (s.after n) (s.sp - 4#32) .l v :=
  stores_of (m := s.ms) h (by simp [State.advance]) (flagsNow_same (by simp [State.advance]))
    (by simp [State.advance, State.nextPc, State.after]) (.mk' (by simp [State.advance])) (by simp [State.advance])
    fun _ _ => rfl

/-- A new value into Ax by an instruction of n extension words that writes no flag. -/
theorem setA_advance_onRegs {i : Instr} {s : State} {ax : Reg} {v : Long} {n : Nat}
    (h : exec i s = .next (((s.pst 1#4).setA ax v).advance n)) :
    OnRegs i s (withReg s.getR (aNum ax) v) s.flags (s.after n) :=
  onRegs_of h (by simp [State.advance]) (flagsNow_same (by simp [State.advance]))
    (by simp [State.advance, State.nextPc, State.after]) (by simp [State.advance]) (.mk' (by simp [State.advance]))

/-- Settles O17: the address is that of the state before SP moves. -/
theorem effectiveAddress : Obligations.EffectiveAddress := by
  intro s ea ax hc hb
  have hlea : exec (.lea ea ax) s = .next (((s.pst 1#4).setA ax (s.address ea .l)).advance (eaLen ea)) := by
    show checked s ea _ = _
    rw [checked, hb]; rfl
  have hpea : exec (.pea ea) s = .next (((s.pst 1#4).push (s.address ea .l)).advance (eaLen ea)) := by
    show checked s ea _ = _
    rw [checked, hb]; rfl
  exact ⟨setA_advance_onRegs hlea, push_stores hpea⟩

/-- A register written before another one and again after it. -/
theorem withReg_again (g : RegX → Long) (p k : RegX) (a v b : Long) :
    withReg (withReg (withReg g p a) k v) p b = withReg (withReg g k v) p b := by
  funext j
  unfold withReg
  split <;> simp_all

theorem withReg_twice (g : RegX → Long) (p : RegX) (a b : Long) : withReg (withReg g p a) p b = withReg g p b := by
  funext j
  unfold withReg
  split <;> simp_all

theorem link_stores (s : State) (r : Reg) (d : Word) :
    Stores (.link r d) s
      (withReg (withReg s.getR (aNum r) (s.sp - 4#32)) (aNum spReg) (s.sp - 4#32 + BitVec.ofInt 32 d.toInt)) s.flags
      (s.after 1) (s.sp - 4#32) .l (if r = spReg then s.sp - 4#32 else s.getA r) := by
  have hv : ((s.pst 1#4).setA spReg (s.sp - 4#32)).getA r = if r = spReg then s.sp - 4#32 else s.getA r := by
    rw [← State.getR_aNum, State.getR_setA, withReg]
    simp
  refine stores_of (m := s.ms) (i := .link r d) rfl ?_ (flagsNow_same ?_) ?_ (.mk' ?_) ?_ fun _ _ => rfl
  · rw [← withReg_again s.getR (aNum spReg) (aNum r) (s.sp - 4#32)]
    simp [State.advance, State.setSp, State.sp, signExtend_eq]
  · simp [State.advance, State.setSp]
  · simp [State.advance, State.setSp, State.nextPc, State.after]
  · simp [State.advance, State.setSp]
  · have hs : ((s.pst 1#4).setA spReg (s.sp - 4#32)).sp = s.sp - 4#32 := by simp [State.sp]
    simp [State.advance, State.setSp, hs, hv]

/-- The state in which UNLK reads the saved register: SP is Ax. -/
def State.unlkStart (s : State) (r : Reg) : State := (s.pst 1#4).setSp (s.getA r)

theorem State.sp_unlkStart (s : State) (r : Reg) : (s.unlkStart r).sp = s.getA r := by
  simp [State.unlkStart, State.setSp, State.sp]

theorem State.getR_unlkStart (s : State) (r : Reg) : (s.unlkStart r).getR = withReg s.getR (aNum spReg) (s.getA r) := by
  simp [State.unlkStart, State.setSp]

/-- The read of the saved register is the read of the operand (Ax). -/
theorem State.load_unlkStart (s : State) (r : Reg) :
    ((s.unlkStart r).load (s.unlkStart r).sp .l).1 = s.operand (.ind r) .l ∧
      ((s.unlkStart r).load (s.unlkStart r).sp .l).2.ms = s.msAfter (.ind r) .l := by
  rw [State.load_val, State.ms_load, State.sp_unlkStart, State.operand, State.msAfter, State.eaRead, State.locate,
    State.readLoc, State.ms_load, State.load_val]
  simp [State.unlkStart, State.setSp]

/-- UNLK of another register than A7. -/
theorem unlk_reads {s : State} {r : Reg} (hr : r ≠ spReg) :
    Reads (.unlk r) s (.ind r) .l
      (withReg (withReg s.getR (aNum r) (s.operand (.ind r) .l)) (aNum spReg) (s.getA r + 4#32)) s.flags
      (s.after 0) := by
  obtain ⟨hv, hm⟩ := s.load_unlkStart r
  have h : exec (.unlk r) s = .next (((((s.unlkStart r).load (s.unlkStart r).sp .l).2.setA r (s.operand (.ind r) .l)).setSp
      (((s.unlkStart r).load (s.unlkStart r).sp .l).2.sp + 4#32)).advance 0) := by
    rw [← hv]
    show (if r = spReg then _ else _) = _
    rw [if_neg hr]; rfl
  refine reads_of h ?_ (flagsNow_same ?_) ?_ ?_ (.mk' ?_)
  · have hsp : (s.unlkStart r).getA spReg = s.getA r := s.sp_unlkStart r
    rw [← withReg_again s.getR (aNum spReg) (aNum r) (s.getA r)]
    simp [State.advance, State.setSp, State.getR_unlkStart, State.sp, hsp]
  · simp [State.advance, State.setSp, State.unlkStart]
  · simp [State.advance, State.setSp, State.unlkStart, State.nextPc, State.after]
  · simpa [State.advance, State.setSp] using hm
  · simp [State.advance, State.setSp, State.unlkStart]

/-- Memory reads as before if what routes an access is as before and the memory system shows the same bytes. -/
theorem sameMem_of_route {s t : State} (hc : t.ctl = s.ctl) (hp : t.pins = s.pins) (he : t.ev = s.ev) (hd : t.dbg = s.dbg)
    (hs : t.super = s.super) (hm : ∀ b, peekByte s.route t.ms s.dataSpace false b = s.peek b) : SameMem s t := by
  intro b
  unfold State.peek
  rw [State.route_congr hc hp he hd, State.dataSpace_congr he hd hs]
  exact hm b

/-- UNLK A7 reads at A7; the value that A7 takes is a free one. -/
theorem unlk_sp (s : State) : ∃ t v, exec (.unlk spReg) s = .next t ∧ t.getR = withReg s.getR (aNum spReg) v ∧
    t.cpu.sr = s.cpu.sr ∧ t.cpu.pc = s.after 0 ∧ t.mac = s.mac ∧ t.ctl = s.ctl ∧ t.dbg = s.dbg ∧ t.ev = s.ev ∧
    t.pins = s.pins ∧ t.bdm = s.bdm ∧ (s.cacheOff → SameMem s t) := by
  obtain ⟨-, hm⟩ := s.load_unlkStart spReg
  let u := ((s.unlkStart spReg).load (s.unlkStart spReg).sp .l).2
  have h : exec (.unlk spReg) s = .next (((u.setSp (Config.unlkA7 u.free)).drawn).advance 0) := rfl
  refine ⟨_, Config.unlkA7 u.free, h, ?_, ?_, ?_, ?_, ?_, ?_, ?_, ?_, ?_, fun hc => ?_⟩
  · simp only [u, State.advance, State.setSp, State.getR_setPc, State.getR_drawn, State.getR_setA, State.getR_load,
      State.getR_unlkStart]
    exact withReg_twice ..
  case refine_10 =>
    refine sameMem_of_route ?_ ?_ ?_ ?_ ?_ fun b => ?_
    case refine_6 =>
      have : (((u.setSp (Config.unlkA7 u.free)).drawn).advance 0).ms = s.msAfter (.ind spReg) .l := by
        simpa [u, State.advance, State.setSp] using hm
      rw [this]
      exact State.peekByte_eaRead hc _ _ _ b
    all_goals simp [u, State.super, State.advance, State.setSp, State.unlkStart]
  all_goals simp [u, State.advance, State.setSp, State.unlkStart, State.nextPc, State.after]

/-- Settles O18: LINK stores Ay as it is after SP moved, UNLK reads at Ax; A7 is the one that the last step writes. -/
theorem frames : Obligations.Frames := fun s r d => ⟨link_stores s r d, unlk_reads, unlk_sp s⟩
end Sys2Proof.Machine
end

