-- ==== Sys2Proof/Proofs/MovemTransfers.lean ====
section
/-! PROOF. Sys2Proof/Proofs/MovemTransfers.lean: MOVEM in both directions (obligation O19; spec/40_data_movement.md R275, R276). -/

namespace Sys2Proof.Machine
open Sys2Proof.Dec (eaLen)

/-! ### The registers of a mask -/

/-- Where a register stands in the list of a mask: after the lower ones, and once. -/
theorem maskRegs_split (mask : Word) {k : Nat} (hk : k < 16) (hm : mask.getLsbD k = true) :
    ∃ l r, maskRegs mask = l ++ BitVec.ofNat 4 k :: r ∧ l.length = maskCount mask k ∧ BitVec.ofNat 4 k ∉ r := by
  have hr : List.range 16 = List.range k ++ k :: (List.range (15 - k)).map (k + 1 + ·) := by
    have h16 : 16 = k + ((15 - k) + 1) := by omega
    conv_lhs => rw [h16, List.range_add, List.range_succ_eq_map]
    simp [Function.comp_def, Nat.add_comm, Nat.add_left_comm]
  refine ⟨((List.range k).filter (fun j => mask.getLsbD j)).map (fun j => BitVec.ofNat 4 j),
    (((List.range (15 - k)).map (k + 1 + ·)).filter (fun j => mask.getLsbD j)).map (fun j => BitVec.ofNat 4 j),
    ?_, ?_, ?_⟩
  · unfold maskRegs
    rw [hr, List.filter_append, List.filter_cons_of_pos hm, List.map_append, List.map_cons]
  · rw [List.length_map, maskCount]
  · intro h
    simp only [List.mem_map, List.mem_filter, List.mem_range] at h
    obtain ⟨_, ⟨⟨j, hj, rfl⟩, -⟩, he⟩ := h
    have := congrArg BitVec.toNat he
    simp at this
    omega

theorem not_mem_maskRegs (mask : Word) {k : Nat} (hk : k < 16) (hm : mask.getLsbD k = false) :
    BitVec.ofNat 4 k ∉ maskRegs mask := by
  simp only [maskRegs, List.mem_map, List.mem_filter, List.mem_range, not_exists, not_and, and_imp]
  intro j hj hb h
  have := congrArg BitVec.toNat h
  simp at this
  have : j = k := by omega
  subst this
  simp [hm] at hb

theorem length_maskRegs (mask : Word) : (maskRegs mask).length = maskCount mask 16 := by
  rw [maskRegs, List.length_map, maskCount]

theorem maskCount_lt (mask : Word) {k : Nat} (hk : k < 16) (hm : mask.getLsbD k = true) :
    maskCount mask k < maskCount mask 16 := by
  obtain ⟨l, r, h, hl, -⟩ := maskRegs_split mask hk hm
  rw [← length_maskRegs, h, ← hl]; simp

theorem maskCount_le (mask : Word) (k : Nat) : maskCount mask k ≤ k := by
  rw [maskCount]
  exact (List.length_filter_le _ _).trans (by simp)

/-! ### Loads -/

theorem regsFrom_of_not_mem {g : RegX → Long} {f : Long → Long} {a : Long} {ks : List RegX} {k : RegX} (h : k ∉ ks) :
    regsFrom g f a ks k = g k := by
  induction ks generalizing g a with
  | nil => rfl
  | cons j t ih =>
    rw [List.mem_cons, not_or] at h
    rw [regsFrom, ih h.2, withReg, if_neg h.1]

theorem regsFrom_split {g : RegX → Long} {f : Long → Long} {a : Long} {l r : List RegX} {k : RegX} (h : k ∉ r) :
    regsFrom g f a (l ++ k :: r) k = f (a + BitVec.ofNat 32 (4 * l.length)) := by
  induction l generalizing g a with
  | nil =>
    rw [List.nil_append, regsFrom, regsFrom_of_not_mem h, withReg, if_pos rfl]
    simp
  | cons j t ih =>
    rw [List.cons_append, regsFrom, ih, List.length_cons, Nat.mul_succ, BitVec.ofNat_add, BitVec.add_assoc,
      BitVec.add_comm (BitVec.ofNat 32 4)]

theorem setRegs_of_not_mem {s : State} {ks : List RegX} {vs : List Long} {k : RegX} (h : k ∉ ks) :
    (setRegs s ks vs).getR k = s.getR k := by
  induction ks generalizing s vs with
  | nil => rfl
  | cons j t ih =>
    rw [List.mem_cons, not_or] at h
    cases vs with
    | nil => rfl
    | cons v vs => rw [setRegs, ih h.2, State.getR_setR, withReg, if_neg h.1]

theorem loadUnit_of_not_mem {s : State} {a : Long} {ks : List RegX} {k : RegX} (h : k ∉ ks) :
    (loadUnit s a ks).getR k = s.getR k := by
  unfold loadUnit
  split
  · rw [List.mem_singleton] at h
    rw [State.getR_setR, withReg, if_neg h, State.getR_load]
  · exact setRegs_of_not_mem h

/-- The units of a MOVEM hold the registers of its list. -/
theorem mem_of_mem_movemUnits {a : Long} {ks : List RegX} {u : Long × List RegX} (hu : u ∈ movemUnits a ks) {k : RegX}
    (hk : k ∈ u.2) : k ∈ ks := by
  induction a, ks using movemUnits.induct with
  | case1 a k0 k1 k2 k3 t h ih =>
    rw [movemUnits, if_pos h, List.mem_cons] at hu
    rcases hu with rfl | hu
    · simp only [List.mem_cons, List.not_mem_nil, or_false] at hk ⊢
      tauto
    · simp [ih hu]
  | case2 a k0 k1 k2 k3 t h ih =>
    rw [movemUnits, if_neg h, List.mem_cons] at hu
    rcases hu with rfl | hu
    · simp_all
    · exact List.mem_cons_of_mem _ (ih hu)
  | case3 a k t h ih =>
    rw [movemUnits.eq_2 _ _ _ h, List.mem_cons] at hu
    rcases hu with rfl | hu
    · simp_all
    · exact List.mem_cons_of_mem _ (ih hu)
  | case4 a => exact absurd hu (List.not_mem_nil)

/-- A register that is not in the list keeps its value. -/
theorem loadRegs_of_not_mem {s : State} {a : Long} {ks : List RegX} {k : RegX} (h : k ∉ ks) :
    (loadRegs s a ks).getR k = s.getR k := by
  have hall : ∀ u ∈ movemUnits a ks, k ∉ u.2 := fun u hu hk => h (mem_of_mem_movemUnits hu hk)
  unfold loadRegs
  generalize movemUnits a ks = us at hall
  induction us generalizing s with
  | nil => rfl
  | cons u t ih =>
    rw [List.foldl_cons, ih fun v hv => hall v (List.mem_cons_of_mem _ hv), loadUnit_of_not_mem (hall u List.mem_cons_self)]

theorem State.longAt_pst (s : State) (v : BitVec 4) : (s.pst v).longAt = s.longAt := by
  funext a
  simp [State.longAt, State.bytes]

theorem movemLoad_spec (s : State) (mask : Word) (ea : Ea) :
    ∃ t, exec (.movemLoad mask ea) s = .next t ∧ t.cpu.sr = s.cpu.sr ∧ t.cpu.pc = s.after (1 + eaLen ea) ∧
      SameUnits s t ∧ (∀ k < 16, mask.getLsbD k = false → t.getR (BitVec.ofNat 4 k) = s.getR (BitVec.ofNat 4 k)) ∧
      (s.cacheOff → SameMem s t ∧ ∀ k < 16, mask.getLsbD k = true →
        t.getR (BitVec.ofNat 4 k) = s.longAt (s.address ea .l + BitVec.ofNat 32 (4 * maskCount mask k))) := by
  obtain ⟨hpc, hsr, hu⟩ := loadRegs_frame (s.pst 1#4) (s.address ea .l) (maskRegs mask)
  have hunits : SameUnits s ((loadRegs (s.pst 1#4) (s.address ea .l) (maskRegs mask)).advance (1 + eaLen ea)) :=
    .mk' (by simp [State.advance, hu.mac, hu.ctl, hu.dbg, hu.ev, hu.pins, hu.bdm, hu.free])
  have hexec : exec (.movemLoad mask ea) s =
      .next ((loadRegs (s.pst 1#4) (s.address ea .l) (maskRegs mask)).advance (1 + eaLen ea)) := rfl
  refine ⟨_, hexec, ?_, ?_, hunits, fun k hk hm => ?_, fun hc => ?_⟩
  · simpa [State.advance] using hsr
  · simp [State.advance, State.nextPc, State.after, hpc]
  · simp only [State.advance, State.getR_setPc]
    rw [loadRegs_of_not_mem (not_mem_maskRegs mask hk hm), State.getR_pst]
  · obtain ⟨hg, hmem⟩ := loadRegs_spec (s := s.pst 1#4) (by simpa [State.cacheOff] using hc) (s.address ea .l)
      (maskRegs mask)
    refine ⟨sameMem_of hunits (by simpa [State.super, State.advance] using congrArg (·.getLsbD 13) hsr) fun b => ?_,
      fun k hk hm => ?_⟩
    · have := hmem s.dataSpace b
      simp at this
      exact this
    · obtain ⟨l, r, he, hl, hr⟩ := maskRegs_split mask hk hm
      rw [he] at hg
      have hk := congrFun hg (BitVec.ofNat 4 k)
      rw [regsFrom_split hr, hl, State.longAt_pst] at hk
      simpa [State.advance, he] using hk

/-! ### Stores -/

theorem length_flatMap_beBytes (g : RegX → Long) (ks : List RegX) :
    (ks.flatMap fun k => beBytes 4 (g k)).length = 4 * ks.length := by
  induction ks with
  | nil => rfl
  | cons k t ih => rw [List.flatMap_cons, List.length_append, ih, beBytes_length, List.length_cons]; omega

theorem movemStore_spec (s : State) (mask : Word) (ea : Ea) :
    ∃ t, exec (.movemStore mask ea) s = .next t ∧ t.getR = s.getR ∧ t.cpu.sr = s.cpu.sr ∧
      t.cpu.pc = s.after (1 + eaLen ea) ∧ SameUnits s t ∧
      (s.cacheOff → MemBut s t (s.address ea .l) (4 * maskCount mask 16) ∧
        (s.Writable (s.address ea .l) (4 * maskCount mask 16) →
          ∀ k < 16, mask.getLsbD k = true →
            t.bytes (s.address ea .l + BitVec.ofNat 32 (4 * maskCount mask k)) 4
              = beBytes 4 (s.getR (BitVec.ofNat 4 k)))) := by
  have hexec : exec (.movemStore mask ea) s =
      .next ((storeRegs (s.pst 1#4) (s.address ea .l) (maskRegs mask)).advance (1 + eaLen ea)) := rfl
  generalize s.address ea .l = a at *
  have hu := storeRegs_eq (s.pst 1#4) a (maskRegs mask)
  obtain ⟨l, hal, hch, hsum, hms⟩ := storeRegs_ms (s.pst 1#4) a (maskRegs mask)
  simp only [State.route_pst, State.ms_pst, State.dataSpace_pst, State.getR_pst] at hms
  generalize storeRegs (s.pst 1#4) a (maskRegs mask) = u at *
  have hunits : SameUnits s (u.advance (1 + eaLen ea)) := by rw [hu]; exact .mk' (by simp [State.advance])
  have hsr : (u.advance (1 + eaLen ea)).cpu.sr = s.cpu.sr := by rw [hu]; simp [State.advance]
  refine ⟨_, hexec, ?_, hsr, ?_, hunits, fun hc => ?_⟩
  · rw [hu]
    exact State.getR_pst s 1#4
  · rw [hu]; simp [State.advance, State.nextPc, State.after]
  have hlen := length_flatMap_beBytes s.getR (maskRegs mask)
  rw [length_maskRegs] at hsum hlen
  have hsuper : (u.advance (1 + eaLen ea)).super = s.super := by simp only [State.super, hsr]
  have hpeek : ∀ b, (u.advance (1 + eaLen ea)).peek b =
      peekByte s.route (writePieces s.route s.ms s.dataSpace l ((maskRegs mask).flatMap fun k => beBytes 4 (s.getR k)))
        s.dataSpace false b := by
    intro b
    rw [← hms]
    unfold State.peek
    rw [hunits.route, hunits.dataSpace hsuper]; rfl
  refine ⟨fun b hb => ?_, fun hw k hk hm => ?_⟩
  · rw [hpeek]
    refine peekByte_writePieces_ne hc _ _ _ _ _ hal (by omega) _ fun c hcl i hi e => ?_
    obtain ⟨j, hj, e2⟩ := chained_mem hch hcl hi
    exact hb j (by omega) (e.trans e2)
  · obtain ⟨lo, hi, he, hl, -⟩ := maskRegs_split mask hk hm
    have h16 := maskCount_le mask 16
    have hlt := maskCount_lt mask hk hm
    apply List.ext_getElem (by simp [State.bytes, peekBytes])
    intro i h1 h2
    have hi4 : i < 4 := by simpa using h2
    refine (readBytes_getElem ..).trans ?_
    simp only [BitVec.ofNat_toNat, BitVec.setWidth_eq]
    refine (hpeek _).trans ?_
    rw [BitVec.add_assoc, ← BitVec.ofNat_add]
    rw [peekByte_writePieces_at hc _ _ _ _ _ hal hch (by omega) (by omega) (fun j hj => hw j (by omega)) _ (by omega)]
    simp only [he, List.flatMap_append, List.flatMap_cons]
    rw [List.getElem_append_right (by rw [length_flatMap_beBytes]; omega),
      List.getElem_append_left (by simp; omega)]
    congr 1
    rw [length_flatMap_beBytes, hl]
    omega

/-- Settles O19: the accesses of a MOVEM are one chain of longwords from the address on, in the order of the registers. -/
theorem movem : Obligations.Movem := fun s mask ea => ⟨movemStore_spec s mask ea, movemLoad_spec s mask ea⟩
end Sys2Proof.Machine
end

