-- ==== Sys2Proof/Proofs/MemoryOperands.lean ====
section
/-! PROOF. Sys2Proof/Proofs/MemoryOperands.lean: operands, mode by mode, and the arithmetic, logic and bit instructions on memory
(obligations O11, O22, O24, O26). -/

namespace Sys2Proof.Machine
open Sys2Proof.Dec (eaLen)

theorem shiftLeft_eq_mul (v : Long) (n : Nat) : v <<< n = v * BitVec.ofNat 32 (2 ^ n) := by
  apply BitVec.eq_of_toNat_eq
  simp [BitVec.toNat_mul, Nat.shiftLeft_eq]

theorem State.index_eq (s : State) (xw : Word) :
    s.index xw = s.getR (xw.extractLsb' 12 4) * BitVec.ofNat 32 (2 ^ (xw.extractLsb' 9 2).toNat) +
      BitVec.ofInt 32 (xw.extractLsb' 0 8).toInt := by
  rw [State.index, shiftLeft_eq_mul, signExtend_eq]

/-- The value of a memory operand, while the cache is disabled (R81). -/
theorem State.operand_mem {s : State} (h : s.cacheOff) {ea : Ea} (hm : eaMemAlter ea = true ∨ eaPcRel ea = true)
    (sz : Size) : s.operand ea sz = beValue (s.bytes (s.address ea sz) sz.bytes) := by
  rw [State.operand, State.eaRead, locate_mem hm, State.readLoc, State.load_val, State.route_locate, State.ms_locate,
    State.dataSpace_locate]
  exact readOperand_val h ..

/-- Settles O11: each mode as its equation, and a memory operand by the value of its bytes. -/
theorem operands : Obligations.Operands := by
  intro s sz r d xw v
  dsimp only
  rw [← State.index_eq]
  refine ⟨rfl, rfl, rfl, ?_, rfl, ?_, rfl, ?_, rfl, ?_, ?_, ?_, ?_, fun ea hm hc => State.operand_mem hc hm sz⟩
  · exact congrArg (s.getA r + ·) (signExtend_eq d)
  · exact signExtend_eq d
  · exact congrArg (s.cpu.pc + 2#32 + ·) (signExtend_eq d)
  all_goals exact sized_eq ..

section ToMemory
variable {i : Instr} {s : State} {ea : Ea} {v : Long}

/-! ### A source and an operand of memory -/

/-- A sum into memory (ADD, ADDQ). -/
theorem toEa_sum_stores (hm : eaMemAlter ea = true) (hb : eaBad ea = false)
    (h : exec i s = toEa v ea s addL (fun _ v d => addFlags v d false)) :
    Stores i s (s.regsAfter ea .l) (sumFlags v (s.operand ea .l) false) (s.after (eaLen ea)) (s.address ea .l) .l
      (s.operand ea .l + v) := by
  rw [← addL_eq, ← addFlags_eq]
  exact toEa_stores (f := fun _ v d => addFlags v d false) hm hb h

/-- A difference into memory (SUB, SUBQ). -/
theorem toEa_difference_stores (hm : eaMemAlter ea = true) (hb : eaBad ea = false)
    (h : exec i s = toEa v ea s subL (fun _ v d => subFlags v d false)) :
    Stores i s (s.regsAfter ea .l) (diffFlags v (s.operand ea .l) false) (s.after (eaLen ea)) (s.address ea .l) .l
      (s.operand ea .l - v) := by
  rw [← subL_eq, ← subFlags_eq]
  exact toEa_stores (f := fun _ v d => subFlags v d false) hm hb h

/-- A logical operation into memory (AND, OR, EOR). -/
theorem toEa_logic_stores {r : Long → Long → Long} (hm : eaMemAlter ea = true) (hb : eaBad ea = false)
    (h : exec i s = toEa v ea s r (logicFlags r)) :
    Stores i s (s.regsAfter ea .l) (valueFlags s.flags 32 (r v (s.operand ea .l))) (s.after (eaLen ea))
      (s.address ea .l) .l (r v (s.operand ea .l)) := by
  rw [← logicFlags_eq]
  exact toEa_stores hm hb h
end ToMemory

/-- ADDQ and SUBQ of an operand of memory are ordinary additions. -/
theorem quickOp_mem {ea : Ea} (hm : eaMemAlter ea = true) (q : Reg) (s : State) (r : Long → Long → Long)
    (f : Long → Long → Flags) : quickOp q ea s r f = toEa (quickLong q) ea s r (fun _ v d => f v d) := by
  cases ea
  case an => cases hm
  all_goals rfl

/-- Settles O22: the four are read-modify-writes of memory; the immediate data of ADDQ and SUBQ are 1 to 8. -/
theorem arithmeticToMemory : Obligations.ArithmeticToMemory := by
  intro s ea dy q hm hb
  dsimp only
  rw [← quickLong_eq]
  exact ⟨toEa_sum_stores hm hb rfl, toEa_difference_stores hm hb rfl,
    toEa_sum_stores hm hb (quickOp_mem hm q s _ _), toEa_difference_stores hm hb (quickOp_mem hm q s _ _)⟩

/-- Settles O24: the operand and the register are the two arguments of a bitwise operation. -/
theorem logicToMemory : Obligations.LogicToMemory := by
  intro s ea dy r hm hb
  simp only [← andL_eq, ← orL_eq, ← eorL_eq]
  refine ⟨toEa_logic_stores hm hb rfl, toEa_logic_stores hm hb rfl, toEa_logic_stores hm hb rfl, ?_⟩
  rw [← logicFlags_eq]
  exact toEa_onRegs rfl

/-! ### The bit instructions -/

theorem withReg_self (g : RegX → Long) (k : RegX) : withReg g k (g k) = g := by
  funext j
  unfold withReg
  split <;> simp_all

section BitOps
variable {i : Instr} {s : State} {ea : Ea} {b : Long} {r : Reg} {n : Nat} {g : Long → Nat → Long}

/-- BTST of a data register. -/
theorem bitTest_onRegs (h : exec i s = bitOp b (.dn r) n s none) :
    OnRegs i s (withReg s.getR (dNum r) (s.getD r)) { s.flags with z := !(s.getD r).getLsbD (b.toNat % 32) }
      (s.after n) := by
  rw [← State.getR_dNum, withReg_self, State.getR_dNum]
  simp only [bitOp, checked, eaBad, Bool.false_eq_true, if_false, State.locate, State.readLoc, bitSize, sized,
    State.getD_pst] at h
  exact onRegs_of h (by simp [State.advance])
    (flagsNow_setFlags (by simp [State.advance, onlyZ, bitNumber, bitSize, Size.bytes]))
    (by simp [State.advance, State.nextPc, State.after]) (by simp [State.advance]) (.mk' (by simp [State.advance]))

/-- A bit of a data register changed. -/
theorem bitWrite_onRegs (h : exec i s = bitOp b (.dn r) n s (some g)) :
    OnRegs i s (withReg s.getR (dNum r) (g (s.getD r) (b.toNat % 32)))
      { s.flags with z := !(s.getD r).getLsbD (b.toNat % 32) } (s.after n) := by
  simp only [bitOp, checked, eaBad, Bool.false_eq_true, if_false, State.locate, State.readLoc, bitSize, sized,
    State.getD_pst] at h
  exact onRegs_of h (by simp [State.advance, State.writeLoc, merge, bitNumber, bitSize, Size.bytes])
    (flagsNow_setFlags (by simp [State.advance, onlyZ, bitNumber, bitSize, Size.bytes]))
    (by simp [State.advance, State.nextPc, State.after]) (by simp [State.advance, State.writeLoc])
    (.mk' (by simp [State.advance]))

theorem bitSize_mem (hm : eaMemAlter ea = true ∨ eaPcRel ea = true) : bitSize ea = .b := by
  cases ea <;> simp_all [eaMemAlter, eaPcRel, bitSize]

/-- BTST of a byte of memory. -/
theorem bitTest_reads (hm : eaMemAlter ea = true ∨ eaPcRel ea = true) (hb : eaBad ea = false)
    (h : exec i s = bitOp b ea n s none) :
    Reads i s ea .b (s.regsAfter ea .b) { s.flags with z := !(s.operand ea .b).getLsbD (b.toNat % 8) } (s.after n) := by
  simp only [bitOp, checked, hb, Bool.false_eq_true, if_false, bitNumber, bitSize_mem hm, State.operand_eq] at h
  exact reads_of h (by simp [State.advance]) (flagsNow_setFlags (by simp [State.advance, onlyZ, Size.bytes]))
    (by simp [State.advance, State.nextPc, State.after])
    (by rw [← State.msAfter_eq s 1#4]; simp [State.advance]) (.mk' (by simp [State.advance]))

/-- A bit of a byte of memory changed. -/
theorem bitWrite_stores (hm : eaMemAlter ea = true) (hb : eaBad ea = false) (h : exec i s = bitOp b ea n s (some g)) :
    Stores i s (s.regsAfter ea .b) { s.flags with z := !(s.operand ea .b).getLsbD (b.toNat % 8) } (s.after n)
      (s.address ea .b) .b (g (s.operand ea .b) (b.toNat % 8)) := by
  have hl := locate_mem (.inl hm) s .b
  simp only [bitOp, checked, hb, Bool.false_eq_true, if_false, bitNumber, bitSize_mem (.inl hm), State.operand_eq] at h
  refine stores_of h (m := s.msAfter ea .b) ?_ (flagsNow_setFlags (by simp [State.advance, onlyZ, Size.bytes])) ?_
    (.mk' (by simp [State.advance])) ?_ (fun hc c => State.peekByte_eaRead hc ea .b _ c)
  · simp [State.advance, hl, Loc.write]
  · simp [State.advance, State.nextPc, State.after]
  · simp only [State.advance, State.ms_setPc, State.locate_pst, hl, State.ms_writeLoc_mem, State.ms_setFlags,
      State.route_setFlags, State.dataSpace_setFlags]
    rw [← hl, ← State.locate_pst s 1#4 ea .b, State.msAfter_eq]
    simp [Size.bytes]
end BitOps

/-- The number of the immediate forms is a byte (R366). -/
theorem byte_number (num : Byte) : (num.setWidth 32).toNat = num.toNat := by
  rw [BitVec.toNat_setWidth]
  exact Nat.mod_eq_of_lt (by have := num.isLt; omega)

/-- Settles O26: every form is a bit operation with the number from a register or from the extension word. -/
theorem bits : Obligations.Bits := by
  intro s ea dy r num
  rw [← byte_number num]
  refine ⟨⟨bitTest_onRegs rfl, bitTest_onRegs rfl, bitWrite_onRegs (g := bitChange) rfl,
    bitWrite_onRegs (g := bitChange) rfl, bitWrite_onRegs (g := bitClear) rfl, bitWrite_onRegs (g := bitClear) rfl,
    bitWrite_onRegs (g := bitSet) rfl, bitWrite_onRegs (g := bitSet) rfl⟩, fun hm hb => ⟨bitTest_reads hm hb rfl,
    bitTest_reads hm hb rfl, fun ha => ⟨bitWrite_stores (g := bitChange) ha hb rfl,
    bitWrite_stores (g := bitChange) ha hb rfl, bitWrite_stores (g := bitClear) ha hb rfl,
    bitWrite_stores (g := bitClear) ha hb rfl, bitWrite_stores (g := bitSet) ha hb rfl,
    bitWrite_stores (g := bitSet) ha hb rfl⟩⟩⟩
end Sys2Proof.Machine
end

