-- ==== Sys2Proof/Proofs/ControlTransfers.lean ====
section
/-! PROOF. Sys2Proof/Proofs/ControlTransfers.lean: branches, jumps, calls and the faults that leave nothing else changed
(obligations O12, O27, O28, O30, O33, O38, O43). -/

namespace Sys2Proof.Machine
open Sys2Proof.Dec (eaLen)

/-! ### Jumps that complete -/

@[simp] theorem State.route_setPc (s : State) (v : Long) : (s.setPc v).route = s.route := rfl

/-- A target shown on the trace port, or not: nothing else of the state. -/
theorem jumpTo_jumps {i : Instr} {s u : State} {t : Long} (hu : u = s.pst 5#4 ∨ u = (s.pst 5#4).target t)
    (h : exec i s = .next (u.jumpTo t)) : Jumps i s s.getR t := by
  rcases hu with rfl | rfl <;>
    exact jumps_of h (by simp [State.jumpTo]) (by simp [State.jumpTo]) (by simp [State.jumpTo])
      (by simp [State.jumpTo]) (.mk' (by simp [State.jumpTo]))

/-- The return address pushed, and then the jump. -/
theorem push_jumpTo_stores {i : Instr} {s u : State} {t v : Long} (hu : u = s.pst 5#4 ∨ u = (s.pst 5#4).target t)
    (h : exec i s = .next ((u.push v).jumpTo t)) :
    Stores i s (withReg s.getR (aNum spReg) (s.sp - 4#32)) s.flags t (s.sp - 4#32) .l v := by
  rcases hu with rfl | rfl <;>
    exact stores_of_flush (m := s.ms) h (by simp [State.jumpTo]) (flagsNow_same (by simp [State.jumpTo]))
      (by simp [State.jumpTo]) (.mk' (by simp [State.jumpTo])) (by simp [State.jumpTo]; rfl) fun _ _ => rfl

theorem evenTarget_even {s : State} {t : Long} (h : t.getLsbD 0 = false) (k : Res) : evenTarget s t k = k := by
  rw [evenTarget, h]; rfl

theorem evenTarget_odd {s : State} {t : Long} (h : t.getLsbD 0 = true) (k : Res) :
    evenTarget s t k = .next s.addressError := by
  rw [evenTarget, h]; rfl

theorem checked_ok {s : State} {ea : Ea} (h : eaBad ea = false) (k : Res) : checked s ea k = k := by
  rw [checked, h]; rfl

theorem checked_bad {s : State} {ea : Ea} (h : eaBad ea = true) (k : Res) : checked s ea k = .next s.addressError := by
  rw [checked, h]; rfl

/-- Settles O27: the target is tested only where the branch is taken. -/
theorem branches : Obligations.Branches := by
  intro s d cc
  rw [branchTarget_eq, ← cond_eq]
  refine ⟨fun he => jumpTo_jumps (.inl rfl) (evenTarget_even he _), fun he hc => jumpTo_jumps (.inl rfl) ?_, fun hc => ?_⟩
  · show (if cond s.flags cc = true then _ else _) = _
    rw [if_pos hc, evenTarget_even he]
  · have h : exec (.bcc cc d) s = .next ((s.pst 1#4).advance (dispWords d)) := by
      show (if cond s.flags cc = true then _ else _) = _
      rw [hc]; cases d <;> rfl
    exact advance_onRegs h

/-- Settles O28: BSR and JSR push the next instruction's address; the target of JSR is that of the state before. -/
theorem jumpsAndCalls : Obligations.JumpsAndCalls := by
  intro s d ea _ hb
  rw [branchTarget_eq]
  have hw : s.after (dispWords d) = s.nextPc (dispLen d) := by cases d <;> rfl
  have hshow := (State.showJump_cases s ea (s.address ea .l)).symm
  refine ⟨fun he => ?_, fun he => ⟨?_, ?_⟩⟩
  · rw [hw]
    exact push_jumpTo_stores (.inl rfl) (evenTarget_even he _)
  · exact jumpTo_jumps hshow ((checked_ok hb _).trans (evenTarget_even he _))
  · exact push_jumpTo_stores hshow ((checked_ok hb _).trans (evenTarget_even he _))

/-! ### Address errors -/

/-- An address error of the instruction, with nothing changed before it. -/
theorem addressError_enters {i : Instr} {s : State} (hs : s.CanEnter) (h : exec i s = .next s.addressError) :
    ∃ t, exec i s = .next t ∧ EntersAddressError s t s.cpu.pc :=
  ⟨_, h, State.addressErrorAt_enters hs (.refl s) _⟩

/-- Settles O30: an odd target is found before anything else is done. -/
theorem oddTarget : Obligations.OddTarget := by
  intro s d cc ea hs _ hb
  rw [branchTarget_eq, ← cond_eq]
  refine ⟨fun ho => ⟨addressError_enters hs (evenTarget_odd ho _), addressError_enters hs (evenTarget_odd ho _),
    fun hc => addressError_enters hs ?_⟩, fun ho => ⟨?_, ?_⟩⟩
  · show (if cond s.flags cc = true then _ else _) = _
    rw [if_pos hc, evenTarget_odd ho]
  · exact addressError_enters hs ((checked_ok hb _).trans (evenTarget_odd ho _))
  · exact addressError_enters hs ((checked_ok hb _).trans (evenTarget_odd ho _))

theorem quickOp_bad {q : Reg} {ea : Ea} (h : eaBad ea = true) (s : State) (r : Long → Long → Long)
    (f : Long → Long → Flags) : quickOp q ea s r f = .next s.addressError := by
  cases ea with
  | idx | pcIdx => exact checked_bad h _
  | _ => exact absurd h (by simp [eaBad])

theorem moveOp_bad {src dst : Ea} {s : State} (h : eaBad src = true ∨ eaBad dst = true) (sz : Size) :
    moveOp sz src dst s = .next s.addressError := by
  by_cases hs : eaBad src = true
  · exact checked_bad hs _
  · exact (checked_ok (by simpa using hs) _).trans (checked_bad (h.resolve_left hs) _)

theorem withDiv_present {s : State} (h : s.pins.hasDiv = true) (k : Res) : withDiv s k = k := if_pos h

/-- Every instruction with an indexed address looks at the index word before anything else. -/
theorem exec_badIndex {i : Instr} {s : State} (hbad : i.eas.any eaBad = true) (hd : s.pins.hasDiv = true) :
    exec i s = .next s.addressError := by
  cases i with
  | moveB | moveW | moveL => exact moveOp_bad (by simpa [Instr.eas] using hbad) _
  | addqL | subqL => exact quickOp_bad (by simpa [Instr.eas] using hbad) _ _ _
  | divuW | divsW => exact (withDiv_present hd _).trans (checked_bad (by simpa [Instr.eas] using hbad) _)
  | moveaW | moveaL | btstD | bchgD | bclrD | bsetD | lea | pea | jsr | jmp | clrB | clrW | clrL | tstB | tstW | tstL
  | orToD | andToD | addToD | subToD | cmpL | addaL | subaL | cmpaL | orToEa | andToEa | eorToEa | addToEa | subToEa
  | muluW | mulsW | wddataB | wddataW | wddataL => exact checked_bad (by simpa [Instr.eas] using hbad) _
  | _ => cases hbad

/-- Settles O12: the address error of the instruction is all that happens. -/
theorem badIndexWord : Obligations.BadIndexWord :=
  fun _ _ _ hbad hd hs => addressError_enters hs (exec_badIndex hbad hd)

/-! ### Faults of the instruction -/

/-- A fault of the instruction with nothing changed before it. -/
theorem fault_enters {i : Instr} {s : State} {v : Byte} (hs : s.CanEnter) (h : exec i s = .next (s.raiseFault v)) :
    ∃ t, exec i s = .next t ∧ Enters s t v 0#4 s.cpu.pc := ⟨_, h, State.raiseFault_enters hs v⟩

/-- Settles O33: the vector number of a TRAP is 32 + n. -/
theorem traps : Obligations.Traps := by
  intro s n hs
  have hv : 0x20#8 + n.setWidth 8 = BitVec.ofNat 8 (32 + n.toNat) := by
    apply BitVec.eq_of_toNat_eq
    simp
  rw [← hv]
  exact ⟨⟨_, rfl, (State.takeException_enters hs (.pst s 1#4) rfl rfl).1⟩, fault_enters hs rfl⟩

theorem privileged_user {s : State} (h : s.super = false) (k : Res) : privileged s k = .next s.privilegeViolation := by
  rw [privileged, h]; rfl

theorem privileged_super {s : State} (h : s.super = true) (k : Res) : privileged s k = k := if_pos h

theorem exec_privileged_user {i : Instr} {s : State} (hi : i.privileged = true) (hu : s.super = false) :
    exec i s = .next s.privilegeViolation := by
  cases i with
  | cpushl | moveFromSr | moveToSrD | moveToSrI | movec | rte | stop | wdebug => exact privileged_user hu _
  | _ => cases hi

theorem exec_halt_user {s : State} (hu : s.super = false) (hc : s.dbg.csr.getLsbD 10 = false) :
    exec .halt s = .next s.privilegeViolation := by
  show (if (s.super || s.dbg.csr.getLsbD 10) = true then _ else _) = _
  rw [hu, hc]; rfl

/-- Settles O43: the mode is tested first. -/
theorem privilege : Obligations.Privilege := by
  rintro s i hu hs (hi | ⟨rfl, hc⟩)
  · exact fault_enters hs (exec_privileged_user hi hu)
  · exact fault_enters hs (exec_halt_user hu hc)

theorem withMac_absent {s : State} (h : s.pins.hasMac = false) (k : Res) : withMac s k = .next s.nonSupported := by
  rw [withMac, h]; rfl

theorem withDiv_absent {s : State} (h : s.pins.hasDiv = false) (k : Res) : withDiv s k = .next s.nonSupported := by
  rw [withDiv, h]; rfl

theorem exec_mac_absent {i : Instr} {s : State} (hi : i.usesMac = true) (hm : s.pins.hasMac = false) :
    exec i s = .next s.nonSupported := by
  cases i with
  | macW | macL | msacW | msacL | macWLoad | macLLoad | msacWLoad | msacLLoad | moveToAcc | moveFromAcc | moveToMacsr
  | moveFromMacsr | moveMacsrToCcr | moveToMask | moveFromMask => exact withMac_absent hm _
  | _ => cases hi

theorem exec_div_absent {i : Instr} {s : State} (hi : i.usesDiv = true) (hd : s.pins.hasDiv = false) :
    exec i s = .next s.nonSupported := by
  cases i with
  | divuW | divsW | divuL | divsL | remuL | remsL => exact withDiv_absent hd _
  | _ => cases hi

/-- Settles O38: the presence of the unit is tested first. -/
theorem absentUnits : Obligations.AbsentUnits := by
  rintro s i hs (⟨hi, hm⟩ | ⟨hi, hd⟩)
  · exact fault_enters hs (exec_mac_absent hi hm)
  · exact fault_enters hs (exec_div_absent hi hd)
end Sys2Proof.Machine
end

