-- ==== Sys2Proof/Proofs/ReturnAndNop.lean ====
section
/-! PROOF. Sys2Proof/Proofs/ReturnAndNop.lean: RTS and NOP (obligations O29, O32; spec/43_program_control.md R388, R390). -/

namespace Sys2Proof.Machine
open Sys2Proof.Dec (eaLen)

/-! ### RTS -/

/-- A read shown or not, and then hidden again: an exception entry does not see it. -/
theorem SameEntry.load {s : State} (hc : s.cacheOff) (v : BitVec 4) (a : Long) (sz : Size) (p : List PortEvent) :
    SameEntry s { ((s.pst v).load a sz).2 with port := p } :=
  ⟨(State.getR_load _ _ _).trans (State.getR_pst s v), by simp, by simp, by simp, by simp, by simp, by simp, by simp,
    fun b => by
      show peekByte _ ((s.pst v).load a sz).2.ms _ _ _ = _
      rw [State.ms_load, State.route_pst, State.ms_pst]
      exact peekByte_readOperand hc ..⟩

/-- The state in which RTS has read the return address. -/
def State.rtsRead (s : State) : State := ((s.pst 1#4).load s.sp .l).2

theorem State.load_rts (s : State) : ((s.pst 1#4).load s.sp .l).1 = s.operand (.ind spReg) .l := by
  rw [State.load_val, State.operand, State.eaRead, State.locate, State.readLoc, State.load_val]
  simp [State.sp]

theorem exec_rts (s : State) : exec .rts s = if (s.operand (.ind spReg) .l).getLsbD 0 then
      .next { s.rtsRead with port := s.port }.addressError
    else .next ((((s.rtsRead.setSp (s.sp + 4#32)).jumpTo (s.operand (.ind spReg) .l)).pst 5#4).target
      (s.operand (.ind spReg) .l)) := by
  rw [← State.load_rts]
  rfl

/-- The memory system after a jump, as a program reads it. -/
theorem peekByte_jumpTo (s : State) (t : Long) (r : Route) (sp : Space) (b : Long) :
    peekByte r (s.jumpTo t).ms sp false b = peekByte r s.ms sp false b := peekByte_stale ..

/-- Settles O29: SP moves only after the test of the return address. -/
theorem returnFromSubroutine : Obligations.ReturnFromSubroutine := by
  intro s
  have hex := exec_rts s
  refine ⟨fun he => ?_, fun ho hs => ?_⟩
  · rw [he, if_neg (by simp)] at hex
    refine ⟨_, hex, by simp [State.jumpTo, State.setSp, State.rtsRead], by simp [State.jumpTo, State.setSp, State.rtsRead],
      by simp [State.jumpTo], .mk' (by simp [State.jumpTo, State.setSp, State.rtsRead]), fun hc => ⟨?_, ?_⟩⟩
    · rw [← State.load_rts, State.load_val]
      simp only [State.route_pst, State.ms_pst, State.dataSpace_pst]
      exact readOperand_val hc ..
    · refine sameMem_of (.mk' (by simp [State.jumpTo, State.setSp, State.rtsRead]))
        (by simp [State.super, State.jumpTo, State.setSp, State.rtsRead]) fun b => ?_
      rw [State.ms_target, State.ms_pst, peekByte_jumpTo]
      simp only [State.setSp, State.ms_setA, State.rtsRead, State.ms_load, State.route_pst, State.ms_pst]
      exact peekByte_readOperand hc ..
  · rw [ho, if_pos rfl] at hex
    refine ⟨_, hex, ?_⟩
    have hpc : ({ s.rtsRead with port := s.port } : State).cpu.pc = s.cpu.pc := by simp [State.rtsRead]
    rw [State.addressError, hpc]
    exact State.addressErrorAt_enters hs (.load hs.cache 1#4 s.sp .l s.port) _

/-! ### NOP -/

theorem exec_nop (s : State) : exec .nop s =
    if s.ms.writeError then .next (s.drainBuffers.drawn.accessError
      (if Config.nopCollects s.free = 1#1 then s.nextPc 0 else s.cpu.pc))
    else .next ((s.drainBuffers.pst 1#4).advance 0) := by
  rw [← drain_writeError s.route s.ms]
  rfl

/-- Emptied buffers, a pending write error done with and a draw: an exception entry does not see them. -/
theorem SameEntry.drained {s : State} (hc : s.cacheOff) :
    SameEntry s (s.drainBuffers.drawn.setMs { s.drainBuffers.drawn.ms with writeError := false }) :=
  ⟨by simp, by simp, by simp, by simp, by simp, by simp, by simp, by simp, fun b => by
    rw [State.ms_setMs, peekByte_writeError, State.ms_drawn, State.ms_drainBuffers, peekByte_drain hc]⟩

/-- Settles O32: emptying the buffers leaves a pending write error pending. -/
theorem nopSynchronises : Obligations.NopSynchronises := by
  intro s
  have hex := exec_nop s
  refine ⟨fun hw => ?_, fun hw hs => ?_⟩ <;> rw [hw] at hex
  · obtain ⟨-, -, -, -, hst, hpush⟩ := drain_spec s.route s.ms
    refine ⟨_, hex, by simp [State.advance], by simp [State.advance], by simp [State.advance, State.nextPc, State.after],
      by simpa [State.advance] using hst, by simpa [State.advance] using hpush,
      by simpa [State.advance] using (drain_writeError s.route s.ms).trans hw, .mk' (by simp [State.advance]),
      fun hc => sameMem_of (.mk' (by simp [State.advance])) (by simp [State.super, State.advance]) fun b => ?_⟩
    simp only [State.advance, State.ms_setPc, State.ms_pst, State.ms_drainBuffers]
    exact peekByte_drain hc ..
  · refine ⟨_, (if Config.nopCollects s.free = 1#1 then s.nextPc 0 else s.cpu.pc), hex, ?_,
      (State.takeException_enters hs (.drained hs.cache) rfl rfl).1⟩
    split
    · exact .inr rfl
    · exact .inl rfl
end Sys2Proof.Machine
end

