-- ==== Sys2Proof/Proofs/Division.lean ====
section
/-! PROOF. Sys2Proof/Proofs/Division.lean: divide and remainder (obligations O35, O36, O37; spec/44_mul_div_mac.md R425 to R431). -/

namespace Sys2Proof.Machine
open Sys2Proof.Dec (eaLen)

/-! ### The operands of a division -/

/-- The divisor: the word or the longword that was read, signed or not. -/
def divisorOf (sz : Size) (signed : Bool) (v : Long) : Int :=
  match sz with
  | .w => asNumber signed (v.setWidth 16)
  | _ => asNumber signed v

theorem wordAs_asInt (signed : Bool) (v : Long) : asInt signed (wordAs signed v) = asNumber signed (v.setWidth 16) := by
  cases signed <;> simp only [asInt, wordAs, asNumber, extract16_eq, if_true, Bool.false_eq_true, if_false]
  · have := (v.setWidth 16).isLt
    rw [BitVec.toNat_setWidth_of_le (by omega)]
  · rw [BitVec.toInt_signExtend_of_le (by omega)]

/-- A divisor of zero is the number zero. -/
theorem divisorOf_zero (sz : Size) (signed : Bool) : divisorOf sz signed 0#32 = 0 := by
  cases sz <;> cases signed <;> rfl

/-- The remainder has the sign of the dividend. -/
theorem divide_eq (d v : Int) : divide d v = { q := d.tdiv v, r := d.tmod v } := by
  rw [divide, Int.tmod_def, Int.mul_comm]

theorem fits_iff (signed : Bool) (n : Nat) (q : Int) : fits signed n q = true ↔ inRange signed n q := by
  cases signed <;> simp [fits, inRange]

/-- The quotient and the remainder of a division. -/
def State.quot (s : State) (sz : Size) (signed : Bool) (ea : Ea) (dx : Reg) : Quot :=
  { q := (asNumber signed (s.getD dx)).tdiv (divisorOf sz signed (s.operand ea sz))
    r := (asNumber signed (s.getD dx)).tmod (divisorOf sz signed (s.operand ea sz)) }

section Division
variable {i : Instr} {s : State} {ea : Ea} {sz : Size} {signed : Bool} {dx w : Reg} {n : Nat} {res : Quot → Long}

/-- The three courses of a division. -/
theorem divOp_eq (hb : eaBad ea = false) : divOp sz signed ea dx w n s res =
      if s.operand ea sz = 0#32 then .next (divZero s ((s.pst 1#4).eaRead ea sz).2)
      else if !fits signed (8 * sz.bytes) (s.quot sz signed ea dx).q then
        .next (divOverflow ((s.pst 1#4).eaRead ea sz).2 n)
      else .next (((((s.pst 1#4).eaRead ea sz).2.setFlags (divFlags s.flags sz (s.quot sz signed ea dx).q)).setD w
          (res (s.quot sz signed ea dx))).advance n) := by
  have hd : divide (asInt signed (((s.pst 1#4).eaRead ea sz).2.getD dx))
      (asInt signed (match sz with | .w => wordAs signed (s.operand ea sz) | _ => s.operand ea sz))
        = s.quot sz signed ea dx := by
    rw [divide_eq, State.getD_eaRead, State.getD_pst]
    cases sz with
    | w => rw [wordAs_asInt]; rfl
    | b | l => rfl
  have hf : ((s.pst 1#4).eaRead ea sz).2.flags = s.flags := by simp
  rw [← hd, ← hf, ← State.operand_pst s 1#4 ea sz]
  refine (checked_ok hb _).trans ?_
  cases sz <;> rfl

/-- A division that goes through. -/
theorem div_reads (hb : eaBad ea = false) (h : exec i s = divOp sz signed ea dx w n s res)
    (hv : divisorOf sz signed (s.operand ea sz) ≠ 0) (hf : inRange signed (8 * sz.bytes) (s.quot sz signed ea dx).q) :
    Reads i s ea sz (withReg (s.regsAfter ea sz) (dNum w) (res (s.quot sz signed ea dx)))
      (valueFlags s.flags (8 * sz.bytes) (BitVec.ofInt 32 (s.quot sz signed ea dx).q)) (s.after n) := by
  have hz : s.operand ea sz ≠ 0#32 := fun e => hv (by rw [e, divisorOf_zero])
  rw [divOp_eq hb, if_neg hz, (fits_iff ..).mpr hf] at h
  rw [← nzFlags_eq]
  exact reads_of h (by simp [State.advance]) (flagsNow_setFlags (by simp [State.advance, divFlags]))
    (by simp [State.advance, State.nextPc, State.after]) (by simp [State.advance]) (.mk' (by simp [State.advance]))

/-- A division whose quotient does not fit: N and Z are free. -/
theorem div_overflows (hb : eaBad ea = false) (h : exec i s = divOp sz signed ea dx w n s res)
    (hv : divisorOf sz signed (s.operand ea sz) ≠ 0) (hf : ¬inRange signed (8 * sz.bytes) (s.quot sz signed ea dx).q) :
    ∃ t, exec i s = .next t ∧ t.getR = s.regsAfter ea sz ∧
      (∃ n z, FlagsNow s t { x := s.flags.x, n := n, z := z, v := true, c := false }) ∧ t.cpu.pc = s.after n ∧
      t.mac = s.mac ∧ t.ctl = s.ctl ∧ t.dbg = s.dbg ∧ t.ev = s.ev ∧ t.pins = s.pins ∧ t.bdm = s.bdm ∧
      (s.cacheOff → SameMem s t) := by
  have hz : s.operand ea sz ≠ 0#32 := fun e => hv (by rw [e, divisorOf_zero])
  have hfit : fits signed (8 * sz.bytes) (s.quot sz signed ea dx).q = false := by rwa [← Bool.not_eq_true, fits_iff]
  rw [divOp_eq hb, if_neg hz, hfit] at h
  let u := ((s.pst 1#4).eaRead ea sz).2
  have hflags : FlagsNow s (divOverflow u n) _ :=
    flagsNow_setFlags (by simp only [divOverflow, State.advance, State.sr_setPc, State.sr_drawn, State.sr_setFlags]; simp [u]; rfl)
  refine ⟨divOverflow u n, h, ?_, ⟨_, _, hflags⟩, ?_, ?_, ?_, ?_, ?_, ?_, ?_, fun hc => ?_⟩
  case refine_9 =>
    refine sameMem_of_route ?_ ?_ ?_ ?_ hflags.super fun b => ?_
    case refine_5 =>
      have hm : (divOverflow u n).ms = s.msAfter ea sz := by simp [divOverflow, u, State.advance]
      rw [hm]
      exact State.peekByte_eaRead hc _ _ _ b
    all_goals simp [divOverflow, u, State.advance]
  all_goals simp [divOverflow, u, State.advance, State.nextPc, State.after]

/-- An exception of the instruction, seen from a state that the entry does not tell from its own. -/
theorem State.raiseFault_entersFrom {s u : State} (hs : s.CanEnter) (hu : SameEntry s u) (v : Byte) :
    Enters s (u.raiseFault v) v 0#4 u.cpu.pc := (State.takeException_enters hs hu rfl rfl).1

/-- The state in which the exception of a zero divisor is taken. -/
theorem divZero_eq (s u : State) : divZero s u =
    if Config.divZeroKeepsUpdate s.free = 1#1 then ({ u with port := s.port } : State).drawn.divideByZero
    else ({ u with cpu := s.cpu, port := s.port } : State).drawn.divideByZero := by
  unfold divZero
  by_cases hk : Config.divZeroKeepsUpdate s.free = 1#1 <;> simp [hk]

/-- A division by zero: the postincrement or predecrement of the source is kept or not. -/
theorem div_zero (hb : eaBad ea = false) (h : exec i s = divOp sz signed ea dx w n s res) (hs : s.CanEnter)
    (hz : s.operand ea sz = 0#32) (hl : (s.located ea sz).CanEnter) :
    ∃ t u, exec i s = .next t ∧ (u = s ∨ u = s.located ea sz) ∧ Enters u t 5#8 0#4 s.cpu.pc := by
  rw [divOp_eq hb, if_pos hz, divZero_eq] at h
  let u := ((s.pst 1#4).eaRead ea sz).2
  have hmem : ∀ sp b, peekByte s.route u.ms sp false b = peekByte s.route s.ms sp false b := fun sp b => by
    simp only [u, State.msAfter_pst]
    exact State.peekByte_eaRead hs.cache ea sz sp b
  have hpc : u.cpu.pc = s.cpu.pc := by simp [u]
  have hregs : u.getR = (s.located ea sz).getR := by simp [u, State.located]
  split at h
  · have hu : SameEntry (s.located ea sz) ({ u with port := s.port } : State).drawn :=
      ⟨hregs, by simp [u, State.located], by simp [u, State.located], by simp [u, State.located],
        by simp [u, State.located], by simp [u, State.located], by simp [u, State.located], by simp [u, State.located],
        fun b => by simpa [State.located] using hmem _ b⟩
    have he := State.raiseFault_entersFrom hl hu 5#8
    rw [State.pc_drawn, hpc] at he
    exact ⟨_, _, h, .inr rfl, he⟩
  · have hu : SameEntry s ({ u with cpu := s.cpu, port := s.port } : State).drawn :=
      ⟨rfl, rfl, by simp [u], by simp [u], by simp [u], by simp [u], by simp [u], by simp [u], fun b => hmem _ b⟩
    exact ⟨_, _, h, .inl rfl, State.raiseFault_entersFrom hs hu 5#8⟩
end Division

end Sys2Proof.Machine

namespace Sys2Proof.Division
open Sys2Proof.Machine
open Sys2Proof.Dec (eaLen)

section
variable {s : State}

theorem exec_divW (hd : s.pins.hasDiv = true) (signed : Bool) (ea : Ea) (dx : Reg) :
    exec (if signed then .divsW ea dx else .divuW ea dx) s = divOp .w signed ea dx dx (eaLen ea) s packWord := by
  cases signed <;> exact withDiv_present hd _

theorem exec_divL (hd : s.pins.hasDiv = true) (signed : Bool) (ea : Ea) (dx : Reg) :
    exec (if signed then .divsL 0#9 dx ea else .divuL 0#9 dx ea) s
      = divOp .l signed ea dx dx (1 + eaLen ea) s quotLong := by
  cases signed <;> exact withDiv_present hd _

theorem exec_remL (hd : s.pins.hasDiv = true) (signed : Bool) (ea : Ea) (dw dx : Reg) :
    exec (if signed then .remsL 0#9 dw dx ea else .remuL 0#9 dw dx ea) s
      = divOp .l signed ea dx dw (1 + eaLen ea) s remLong := by
  cases signed <;> exact withDiv_present hd _
end

/-- Settles O35: the word forms pack the remainder over the quotient, the long forms write one of the two. -/
theorem divide : Obligations.Divide := fun _ ea dw dx signed hb hd =>
  ⟨div_reads hb (exec_divW hd signed ea dx),
    fun hv hf => ⟨div_reads hb (exec_divL hd signed ea dx) hv hf, div_reads hb (exec_remL hd signed ea dw dx) hv hf⟩⟩

/-- Settles O36: whatever N and Z become, the destination is not written. -/
theorem divideOverflow : Obligations.DivideOverflow := fun _ ea dw dx signed hb hd =>
  ⟨div_overflows hb (exec_divW hd signed ea dx),
    fun hv hf => ⟨div_overflows hb (exec_divL hd signed ea dx) hv hf,
      div_overflows hb (exec_remL hd signed ea dw dx) hv hf⟩⟩

/-- Settles O37: the six forms share the test of the divisor. -/
theorem divideByZero : Obligations.DivideByZero := fun _ ea dw dx hb hd hs =>
  ⟨div_zero hb (exec_divW hd true ea dx) hs, div_zero hb (exec_divW hd false ea dx) hs,
    div_zero hb (exec_divL hd true ea dx) hs, div_zero hb (exec_divL hd false ea dx) hs,
    div_zero hb (exec_remL hd true ea dw dx) hs, div_zero hb (exec_remL hd false ea dw dx) hs⟩
end Sys2Proof.Division
end

