-- ==== Sys2Proof/Proofs/Accumulation.lean ====
section
/-! PROOF. Sys2Proof/Proofs/Accumulation.lean: one multiply-accumulate in integers (spec/44_mul_div_mac.md R440). -/

namespace Sys2Proof.Machine

/-! ### Numbers of 32 bits -/

theorem asInt_ofInt (signed : Bool) (i : Int) : asInt signed (BitVec.ofInt 32 i) = wrapped signed i := by
  cases signed
  · simp [asInt, wrapped]
    omega
  · simp [asInt, wrapped]

theorem inRange_asInt (signed : Bool) (v : Long) : inRange signed 32 (asInt signed v) := by
  have h1 := v.isLt
  have h2 := BitVec.le_toInt v
  have h3 := BitVec.toInt_lt (x := v)
  cases signed <;> simp only [inRange, asInt, if_true, Bool.false_eq_true, if_false] <;> constructor <;> norm_num at * <;> omega

/-- A number that 32 bits hold is not changed. -/
theorem wrapped_of_inRange {signed : Bool} {i : Int} (h : inRange signed 32 i) : wrapped signed i = i := by
  cases signed
  · simp only [inRange, wrapped, Bool.false_eq_true, if_false] at h ⊢
    exact Int.emod_eq_of_lt h.1 (by simpa using h.2)
  · simp only [inRange, wrapped, if_true] at h ⊢
    exact Int.bmod_eq_of_le (by norm_num at *; omega) (by norm_num at *; omega)

/-! ### The product -/

/-- The exact product of the factors that the form takes. -/
def macExact (f : MacForm) (signed : Bool) (x y : Long) : Int :=
  if f.long then asNumber signed x * asNumber signed y
  else asNumber signed (macHalf f.ux x) * asNumber signed (macHalf f.uy y)

theorem macOperand_mul (f : MacForm) (signed : Bool) (x y : Long) :
    macOperand f.long f.ux signed x * macOperand f.long f.uy signed y = macExact f signed x y := by
  unfold macOperand macExact
  cases f.long <;> rfl

/-- The product of two signed numbers of n + 1 bits is at most 2^(2n), which (-2^n)(-2^n) alone reaches. -/
theorem signed_mul_bounds {b p q : Int} (hb : 1 ≤ b) (hp : -b ≤ p) (hp' : p < b) (hq : -b ≤ q) (hq' : q < b) :
    -(b * b) + b ≤ p * q ∧ (p * q = b * b ∨ p * q ≤ b * b - b) := by
  refine ⟨?_, ?_⟩
  · rcases le_or_gt 0 q with h | h <;> nlinarith
  by_cases h : p = -b ∧ q = -b
  · obtain ⟨rfl, rfl⟩ := h
    exact .inl (by ring)
  · right
    rcases not_and_or.mp h with h | h
    · have : -b + 1 ≤ p := by omega
      nlinarith
    · have : -b + 1 ≤ q := by omega
      nlinarith

theorem macExact_long_bounds {f : MacForm} (hl : f.long = true) (x y : Long) :
    -2 ^ 62 + 2 ^ 31 ≤ macExact f true x y ∧ (macExact f true x y = 2 ^ 62 ∨ macExact f true x y ≤ 2 ^ 62 - 2 ^ 31) := by
  have :=
    signed_mul_bounds (b := 2 ^ 31) (by norm_num) (BitVec.le_toInt x) (BitVec.toInt_lt (x := x)) (BitVec.le_toInt y)
    (BitVec.toInt_lt (x := y))
  rw [macExact, hl]
  norm_num at this ⊢
  exact this

theorem macExact_word_bounds {f : MacForm} (hl : f.long = false) (x y : Long) :
    -2 ^ 30 + 2 ^ 15 ≤ macExact f true x y ∧ (macExact f true x y = 2 ^ 30 ∨ macExact f true x y ≤ 2 ^ 30 - 2 ^ 15) := by
  have :=
    signed_mul_bounds (b := 2 ^ 15) (by norm_num) (BitVec.le_toInt (macHalf f.ux x)) (BitVec.toInt_lt (x := macHalf f.ux x))
    (BitVec.le_toInt (macHalf f.uy y)) (BitVec.toInt_lt (x := macHalf f.uy y))
  rw [macExact, hl]
  norm_num at this ⊢
  exact this

/-- Truncation of a doubled fractional product. -/
theorem fracUpper_truncated (p : Int) (up : Bool) : fracUpper p false up = p / 2 ^ 32 := by simp [fracUpper]

/-- Rounding goes to a nearest. -/
theorem fracUpper_rounded (p : Int) (up : Bool) :
    -2 ^ 31 ≤ fracUpper p true up * 2 ^ 32 - p ∧ fracUpper p true up * 2 ^ 32 - p ≤ 2 ^ 31 := by
  have h := Int.emod_add_mul_ediv p (2 ^ 32)
  have h0 := Int.emod_nonneg p (b := 2 ^ 32) (by norm_num)
  have h1 := Int.emod_lt_of_pos p (b := 2 ^ 32) (by norm_num)
  unfold fracUpper
  norm_num at *
  split <;> omega

/-- But for the product of -1 and -1, the upper half of a doubled product is a number of 32 bits. -/
theorem fracUpper_bounds {ab : Int} (h : -2 ^ 62 + 2 ^ 31 ≤ ab) (h' : ab ≤ 2 ^ 62 - 2 ^ 31) (round up : Bool) :
    -2 ^ 31 ≤ fracUpper (2 * ab) round up ∧ fracUpper (2 * ab) round up < 2 ^ 31 := by
  unfold fracUpper
  norm_num at *
  split <;> omega

/-- The doubled fractional product: of long operands its upper half. -/
def fracProduct (m : Mac) (f : MacForm) (x y : Long) (n : Nat) : Int :=
  if f.long then fracUpper (2 * macExact f true x y) m.round (Config.macTie n == 1#1) else 2 * macExact f true x y

section Product
variable {m : Mac} {f : MacForm} {x y : Long} {n : Nat}

theorem macProduct_integer (h : m.frac = false) :
    macProduct m f x y n = BitVec.ofInt 32 (macExact f (!m.unsigned) x y) := by
  rw [macProduct, macOperand_mul, h]
  rfl

theorem macProduct_frac (h : m.frac = true) : macProduct m f x y n =
    if fracProduct m f x y n = 2 ^ 31 then Config.macMinusOne n else BitVec.ofInt 32 (fracProduct m f x y n) := by
  rw [macProduct, macOperand_mul, h]
  rfl

theorem macProduct_integer_iff (h : m.frac = false) (p : Int) :
    MacProduct m f x y p ↔ p = wrapped (!m.unsigned) (macExact f (!m.unsigned) x y) := by
  have h' : m.macsr.getLsbD 5 = false := h
  unfold MacProduct
  rw [h', if_pos rfl]
  rfl

theorem macProduct_frac_iff (h : m.frac = true) (p : Int) : MacProduct m f x y p ↔
    if macExact f true x y = (if f.long then 2 ^ 62 else 2 ^ 30) then inRange true 32 p
    else if f.long = false then p = 2 * macExact f true x y
    else if m.round = false then p = 2 * macExact f true x y / 2 ^ 32
    else -2 ^ 31 ≤ p * 2 ^ 32 - 2 * macExact f true x y ∧ p * 2 ^ 32 - 2 * macExact f true x y ≤ 2 ^ 31 := by
  have h' : m.macsr.getLsbD 5 = true := h
  unfold MacProduct
  rw [h', if_neg (by simp)]
  rfl

theorem fracProduct_bounds (h : macExact f true x y ≠ if f.long then 2 ^ 62 else 2 ^ 30) :
    -2 ^ 31 ≤ fracProduct m f x y n ∧ fracProduct m f x y n < 2 ^ 31 := by
  unfold fracProduct
  cases hl : f.long <;> rw [hl] at h
  · have hb := macExact_word_bounds hl x y
    norm_num at *
    omega
  · obtain ⟨h1, h2⟩ := macExact_long_bounds hl x y
    exact fracUpper_bounds h1 (h2.resolve_left h) _ _

/-- The product before scaling is one that the statement allows (R440). -/
theorem macProduct_spec : MacProduct m f x y (asInt (m.frac || !m.unsigned) (macProduct m f x y n)) := by
  cases hf : m.frac
  · rw [macProduct_integer_iff hf, macProduct_integer hf, asInt_ofInt]
    rfl
  rw [macProduct_frac_iff hf, macProduct_frac hf]
  by_cases hone : macExact f true x y = if f.long then 2 ^ 62 else 2 ^ 30
  · rw [if_pos hone]
    exact inRange_asInt true _
  have hb := fracProduct_bounds (m := m) (n := n) hone
  have hp : asInt (true || !m.unsigned) (if fracProduct m f x y n = 2 ^ 31 then Config.macMinusOne n
      else BitVec.ofInt 32 (fracProduct m f x y n)) = fracProduct m f x y n := by
    rw [if_neg (by omega), asInt_ofInt]
    exact wrapped_of_inRange hb
  rw [if_neg hone, hp, fracProduct]
  cases f.long
  · rfl
  · cases m.round
    · exact fracUpper_truncated _ (Config.macTie n == 1#1)
    · exact fracUpper_rounded _ (Config.macTie n == 1#1)
end Product

/-! ### The scale, the sum and the flags -/

theorem ofInt_asInt (signed : Bool) (v : Long) : BitVec.ofInt 32 (asInt signed v) = v := by
  cases signed <;> simp [asInt]

theorem shiftLeft_one_eq (signed : Bool) (p : Long) : p <<< 1 = BitVec.ofInt 32 (2 * asInt signed p) := by
  rw [BitVec.ofInt_mul, ofInt_asInt, shiftLeft_eq_mul, BitVec.mul_comm]
  rfl

theorem asInt_macScale (signed : Bool) (sf : BitVec 2) (p : Long) : asInt signed (macScale signed sf p) =
    if sf = 1#2 then wrapped signed (2 * asInt signed p) else if sf = 3#2 then asInt signed p / 2 else asInt signed p := by
  unfold macScale
  split
  · rw [shiftLeft_one_eq signed, asInt_ofInt]
  · split
    · cases signed <;> simp [asInt, Int.shiftRight_eq_div_pow, Nat.shiftRight_eq_div_pow]
    · rfl

theorem macFlags_eq (macsr : Byte) (n z v : Bool) :
    macFlags macsr n z v = macsr.extractLsb' 4 4 ++ BitVec.ofBool n ++ BitVec.ofBool z ++ BitVec.ofBool v ++ 0#1 := by
  revert macsr n z v
  decide

/-- The accumulator under saturation: the nearest number of 32 bits. -/
theorem saturate_eq {signed : Bool} {t : Int} (h : fits signed 32 t = false) : saturate signed t =
    BitVec.ofInt 32 (max (if signed then -2 ^ 31 else 0) (min (if signed then 2 ^ 31 - 1 else 2 ^ 32 - 1) t)) := by
  rw [← Bool.not_eq_true, fits_iff] at h
  unfold saturate
  by_cases ht : t < 0
  · cases signed <;> simp only [inRange, if_true, Bool.false_eq_true, if_false] at h ⊢
    · rw [if_pos ht, max_eq_left (by omega)]; rfl
    · rw [if_pos ht, max_eq_left (by norm_num at *; omega)]; rfl
  · cases signed <;> simp only [inRange, if_true, Bool.false_eq_true, if_false] at h ⊢
    · rw [if_neg ht, min_eq_left (by norm_num at *; omega)]; rfl
    · rw [if_neg ht, min_eq_left (by norm_num at *; omega)]; rfl

theorem clamp_of_fits {signed : Bool} {t : Int} (h : fits signed 32 t = true) :
    max (if signed then -2 ^ 31 else 0) (min (if signed then 2 ^ 31 - 1 else 2 ^ 32 - 1) t) = t := by
  rw [fits_iff] at h
  cases signed <;> simp only [inRange, if_true, Bool.false_eq_true, if_false] at h ⊢ <;> norm_num at * <;> omega

theorem not_fits_eq (signed : Bool) (t : Int) : (!fits signed 32 t) =
    decide (t < (if signed then -2 ^ 31 else 0) ∨ (if signed then 2 ^ 31 - 1 else 2 ^ 32 - 1) < t) := by
  rw [Bool.eq_iff_iff, Bool.not_eq_true', ← Bool.not_eq_true, fits_iff, decide_eq_true_iff]
  cases signed <;> simp only [inRange, if_true, Bool.false_eq_true, if_false] <;> norm_num <;> omega

/-- The accumulator is signed: fractions, or integers unless MACSR.S/U is set. -/
def Mac.signed (m : Mac) : Bool := m.frac || !m.unsigned

/-- The exact sum or difference of the accumulator and a product, the product scaled. -/
def macTotal (m : Mac) (f : MacForm) (p : Int) : Int :=
  let q : Int := if f.sf = 1#2 then wrapped m.signed (2 * p) else if f.sf = 3#2 then p / 2 else p
  if f.sub then asNumber m.signed m.acc - q else asNumber m.signed m.acc + q

theorem macSum_eq (m : Mac) (f : MacForm) (p : Long) :
    macSum m.signed f.sub m.acc (macScale m.signed f.sf p) = macTotal m f (asInt m.signed p) := by
  rw [macSum, asInt_macScale]
  rfl

/-- The accumulator after a sum or difference: under OMC the nearest number of 32 bits. -/
theorem macAcc_eq (signed omc : Bool) (t : Int) :
    (if (!fits signed 32 t && omc) = true then saturate signed t else BitVec.ofInt 32 t) = BitVec.ofInt 32
      (if omc then max (if signed then -2 ^ 31 else 0) (min (if signed then 2 ^ 31 - 1 else 2 ^ 32 - 1) t) else t) := by
  cases omc
  · simp
  · cases hf : fits signed 32 t
    · exact saturate_eq hf
    · rw [if_pos rfl, clamp_of_fits hf]
      rfl

/-- What one multiply-accumulate leaves in the MAC registers. -/
theorem macStep_result (m : Mac) (f : MacForm) (x y : Long) (n : Nat) : MacResult m (macStep m f x y n) f x y := by
  have ht := macSum_eq m f (macProduct m f x y n)
  refine ⟨_, macProduct_spec (n := n), ?_, rfl, ?_⟩
  · show _ = BitVec.ofInt 32 (if m.omc then max (if m.signed then _ else _) (min (if m.signed then _ else _)
      (macTotal m f (asInt m.signed (macProduct m f x y n)))) else macTotal m f (asInt m.signed (macProduct m f x y n)))
    rw [← macAcc_eq, ← ht]
    rfl
  · show _ = m.macsr.extractLsb' 4 4 ++ _ ++ _ ++ BitVec.ofBool (decide
      (macTotal m f (asInt m.signed (macProduct m f x y n)) < (if m.signed then _ else _) ∨
        (if m.signed then _ else _) < macTotal m f (asInt m.signed (macProduct m f x y n)))) ++ 0#1
    rw [← not_fits_eq, ← ht]
    exact macFlags_eq ..
end Sys2Proof.Machine
end

