-- ==== Sys2Proof/Proofs/MacInstructions.lean ====
section
/-! PROOF. Sys2Proof/Proofs/MacInstructions.lean: the instructions of the MAC unit (obligations O39, O40, O41). -/

namespace Sys2Proof.Machine
open Sys2Proof.Dec (eaLen)

/-! ### MAC and MSAC -/

theorem withMac_present {s : State} (h : s.pins.hasMac = true) (k : Res) : withMac s k = k := if_pos h

theorem extChecked_ok {ok : Bool} (h : ok = true) (k : Res) : extChecked ok k = k := if_pos h

section MacOp
variable (s : State) (f : MacForm) (x y : Long)

@[simp] theorem State.cpu_macOp : (s.macOp f x y).cpu = s.cpu := rfl
@[simp] theorem State.mac_macOp : (s.macOp f x y).mac = macStep s.mac f x y s.free := rfl
@[simp] theorem State.ms_macOp : (s.macOp f x y).ms = s.ms := rfl
@[simp] theorem State.ctl_macOp : (s.macOp f x y).ctl = s.ctl := rfl
@[simp] theorem State.dbg_macOp : (s.macOp f x y).dbg = s.dbg := rfl
@[simp] theorem State.ev_macOp : (s.macOp f x y).ev = s.ev := rfl
@[simp] theorem State.pins_macOp : (s.macOp f x y).pins = s.pins := rfl
@[simp] theorem State.bdm_macOp : (s.macOp f x y).bdm = s.bdm := rfl
@[simp] theorem State.getR_macOp : (s.macOp f x y).getR = s.getR := rfl
end MacOp

/-- A mark on the trace port changes no register. -/
@[simp] theorem State.cpu_pst (s : State) (v : BitVec 4) : (s.pst v).cpu = s.cpu := by
  unfold State.pst State.event
  split <;> rfl

theorem macPlain_leaves {i : Instr} {s : State} {f : MacForm} {rx ry : RegX} (hm : s.pins.hasMac = true) (hsf : f.sf ≠ 2#2)
    (h : exec i s = macPlain 0#10 f rx ry s) :
    ∃ t, exec i s = .next t ∧ MacResult s.mac t.mac f (s.getR rx) (s.getR ry) ∧ t.cpu.d = s.cpu.d ∧
      t.cpu.a = s.cpu.a ∧ t.cpu.sr = s.cpu.sr ∧ t.cpu.pc = s.after 1 ∧ t.ms = s.ms ∧ t.ctl = s.ctl ∧
      t.dbg = s.dbg ∧ t.ev = s.ev ∧ t.pins = s.pins ∧ t.bdm = s.bdm ∧ SameMem s t := by
  have hp : macPlain 0#10 f rx ry s = .next (((s.pst 1#4).macOp f (s.getR rx) (s.getR ry)).advance 1) :=
    (withMac_present hm _).trans (extChecked_ok (by simp [hsf]) _)
  refine ⟨_, h.trans hp, ?_, ?_, ?_, ?_, ?_, ?_, ?_, ?_, ?_, ?_, ?_, sameMem_of_route ?_ ?_ ?_ ?_ ?_ fun b => ?_⟩
  case refine_1 => simpa [State.advance] using macStep_result ..
  case refine_17 =>
    simp only [State.advance, State.ms_setPc, State.ms_macOp, State.ms_pst]
    rfl
  all_goals simp [State.advance, State.setPc, State.nextPc, State.after, State.super]

/-- Settles O39: the four forms are one accumulation. -/
theorem multiplyAccumulate : Obligations.MultiplyAccumulate := fun _ _ _ _ _ _ hm hsf =>
  ⟨macPlain_leaves hm hsf rfl, macPlain_leaves hm hsf rfl, macPlain_leaves hm hsf rfl, macPlain_leaves hm hsf rfl⟩

/-! ### MAC and MSAC with load -/

theorem maskedAddr_eq (msk : Bool) (mask : Word) (a : Long) :
    maskedAddr msk mask a = if msk then a &&& (0xFFFF0000#32 ||| mask.setWidth 32) else a := by
  have h : (0xFFFF#16 ++ mask : Long) = 0xFFFF0000#32 ||| mask.setWidth 32 := by
    rw [BitVec.append_def]
    rfl
  rw [maskedAddr, h]

theorem macLoad_leaves {i : Instr} {s : State} {f : MacForm} {msk : Bool} {rx ry rw' : RegX} {ea : Ea}
    (hm : s.pins.hasMac = true) (hsf : f.sf ≠ 2#2) (h : exec i s = macLoad false f msk rx ry rw' ea s) :
    ∃ t v, exec i s = .next t ∧ MacResult s.mac t.mac f (s.getR rx) (s.getR ry) ∧
      t.getR = withReg (s.regsAfter ea .l) rw' v ∧ t.cpu.sr = s.cpu.sr ∧ t.cpu.pc = s.after (1 + eaLen ea) ∧
      t.ctl = s.ctl ∧ t.dbg = s.dbg ∧ t.ev = s.ev ∧ t.pins = s.pins ∧ t.bdm = s.bdm ∧
      (s.cacheOff → v = s.longAt (if msk then s.address ea .l &&& (0xFFFF0000#32 ||| s.mac.mask.setWidth 32)
        else s.address ea .l) ∧ SameMem s t) := by
  let a := maskedAddr msk s.mac.mask (s.address ea .l)
  let u := (((s.pst 1#4).locate ea .l).2.load a .l)
  have hp : macLoad false f msk rx ry rw' ea s =
      .next (((u.2.macOp f (s.getR rx) (s.getR ry)).setR rw' u.1).advance (1 + eaLen ea)) := by
    refine (withMac_present hm _).trans ((extChecked_ok (by simp [hsf]) _).trans ?_)
    simp only [u, a, State.address, State.locate_pst]
  have hms : u.2.ms = (readOperand s.route s.ms s.dataSpace a .l).2 := by simp [u]
  have hval : u.1 = (readOperand s.route s.ms s.dataSpace a .l).1 := by simp [u, State.load_val]
  rw [← maskedAddr_eq]
  refine ⟨_, u.1, h.trans hp, ?_, ?_, ?_, ?_, ?_, ?_, ?_, ?_, ?_,
    fun hc => ⟨hval.trans (readOperand_val hc ..), sameMem_of_route ?_ ?_ ?_ ?_ ?_ fun b => ?_⟩⟩
  case refine_1 => simpa [State.advance, u] using macStep_result ..
  case refine_15 =>
    simp only [State.advance, State.ms_setPc, State.ms_setR, State.ms_macOp, hms]
    exact peekByte_readOperand hc ..
  all_goals simp [State.advance, State.nextPc, State.after, State.super, u]

/-- Settles O40: the load comes between the reading of the factors and the writing of Rw. -/
theorem multiplyAccumulateLoad : Obligations.MultiplyAccumulateLoad := fun _ _ _ _ _ _ _ _ _ hm hsf _ =>
  ⟨macLoad_leaves hm hsf rfl, macLoad_leaves hm hsf rfl, macLoad_leaves hm hsf rfl, macLoad_leaves hm hsf rfl⟩

/-! ### The moves of the MAC registers -/

theorem macOut_onRegs {i : Instr} {s : State} {rx : RegX} {v : Long} (hm : s.pins.hasMac = true)
    (h : exec i s = macOut rx v s) : OnRegs i s (withReg s.getR rx v) s.flags (s.after 0) :=
  onRegs_of (h.trans (withMac_present hm _)) (by simp [State.advance]) (flagsNow_same (by simp [State.advance]))
    (by simp [State.advance, State.nextPc, State.after]) (by simp [State.advance]) (.mk' (by simp [State.advance]))

/-- Reading a register or immediate data changes nothing. -/
theorem State.eaRead_macSrc {ea : Ea} (h : eaMacSrc ea = true) (s : State) (sz : Size) : (s.eaRead ea sz).2 = s := by
  cases ea with
  | dn | an | immL => rfl
  | _ => cases h

theorem macIn_leaves {i : Instr} {s : State} {ea : Ea} {f : Mac → Long → Mac} {m : Mac} (hm : s.pins.hasMac = true)
    (hea : eaMacSrc ea = true) (h : exec i s = macIn ea s f) (hf : f s.mac (s.operand ea .l) = m) :
    ∃ t, exec i s = .next t ∧ t.mac = m ∧ t.cpu = { s.cpu with pc := s.after (eaLen ea) } ∧
      t.ms = s.ms ∧ t.ctl = s.ctl ∧ t.dbg = s.dbg ∧ t.ev = s.ev ∧ t.pins = s.pins ∧ t.bdm = s.bdm ∧ SameMem s t := by
  have hp : macIn ea s f =
      .next (({ s.pst 1#4 with mac := f s.mac (s.operand ea .l) } : State).advance (eaLen ea)) := by
    refine (withMac_present hm _).trans ?_
    rw [← State.operand_pst s 1#4 ea .l, ← State.mac_pst s 1#4]
    show Host.Outcome.next (State.advance { ((s.pst 1#4).eaRead ea .l).2 with
      mac := f ((s.pst 1#4).eaRead ea .l).2.mac ((s.pst 1#4).eaRead ea .l).1 } _) = _
    rw [State.eaRead_macSrc hea]
  refine ⟨_, h.trans hp, hf, ?_, ?_, ?_, ?_, ?_, ?_, ?_, sameMem_of_route ?_ ?_ ?_ ?_ ?_ fun b => ?_⟩
  case refine_13 =>
    simp only [State.advance, State.ms_setPc, State.ms_pst]
    rfl
  all_goals simp [State.advance, State.setPc, State.nextPc, State.after, State.super]

theorem setMacsr_eq (m : Mac) (v : Long) : setMacsr m v = { m with macsr := (v >>> 1).setWidth 7 ++ 0#1 } := by
  have h : v.extractLsb' 0 8 &&& 0xFE#8 = (v >>> 1).setWidth 7 ++ 0#1 := by
    apply BitVec.eq_of_getLsbD_eq
    intro k hk
    erw [BitVec.getLsbD_append]
    interval_cases k <;> simp
  rw [setMacsr, h]

theorem setAcc_eq (m : Mac) (v : Long) : setAcc m v =
    { m with acc := v, macsr := (m.macsr >>> 4).setWidth 4 ++ BitVec.ofBool v.msb ++ BitVec.ofBool (v == 0#32) ++ 0#2 } := by
  have h : m.macsr.extractLsb' 4 4 = (m.macsr >>> 4).setWidth 4 := by
    apply BitVec.eq_of_getLsbD_eq
    intro k hk
    simp [hk]
  have ha : ∀ u : BitVec 6, (u ++ BitVec.ofBool false ++ 0#1 : Byte) = u ++ 0#2 := by decide
  rw [setAcc, macFlags_eq, h]
  exact congrArg (fun w => ({ m with acc := v, macsr := w } : Mac)) (ha _)

/-- Settles O41: X is clear after MOVE MACSR,CCR; a value into ACC sets N and Z of MACSR. -/
theorem macMoves : Obligations.MacMoves := by
  intro s rx ea hm hea
  have hmask : maskLong s.mac = 0xFFFF0000#32 ||| s.mac.mask.setWidth 32 := by
    rw [maskLong, BitVec.append_def]
    rfl
  rw [← hmask]
  exact ⟨macOut_onRegs hm rfl, macOut_onRegs hm rfl, macOut_onRegs hm rfl,
    onRegs_of (withMac_present hm _) (by simp [State.advance]) (flagsNow_setFlags (by simp [State.advance]; rfl))
      (by simp [State.advance, State.nextPc, State.after]) (by simp [State.advance]) (.mk' (by simp [State.advance])),
    macIn_leaves hm hea rfl (by rw [setMask, extract16_eq]), macIn_leaves hm hea rfl (setMacsr_eq ..),
    macIn_leaves hm hea rfl (setAcc_eq ..)⟩
end Sys2Proof.Machine
end

