-- ==== Sys2Proof/Proofs/StatusAndControl.lean ====
section
/-! PROOF. Sys2Proof/Proofs/StatusAndControl.lean: the moves of CCR and SR, and MOVEC (obligations O42, O44). -/

namespace Sys2Proof.Machine
open Sys2Proof.Dec (eaLen)

/-! ### The CCR and SR -/

/-- A marked change of the mode changes only the trace port. -/
theorem State.showUser_cases (old s : State) : State.showUser old s = s.pst 3#4 ∨ State.showUser old s = s := by
  unfold State.showUser
  split
  · exact .inl rfl
  · exact .inr rfl

theorem State.peekIn_congr {s t : State} (hc : t.ctl = s.ctl) (hp : t.pins = s.pins) (he : t.ev = s.ev) (hd : t.dbg = s.dbg)
    (hm : t.ms = s.ms) (sp : Space) (a : Long) : t.peekIn sp a = s.peekIn sp a := by
  unfold State.peekIn
  rw [State.route_congr hc hp he hd, hm]

/-- A move into SR by an instruction of n extension words, marked or not. -/
theorem setSr_leaves {i : Instr} {s u : State} {v : Word} {n : Nat}
    (hu : u = (s.pst 1#4).setSr v ∨ u = ((s.pst 1#4).setSr v).pst 3#4) (h : exec i s = .next (u.advance n)) :
    ∃ t, exec i s = .next t ∧ t.cpu.sr = v &&& 0xB79F#16 ∧ t.getR = s.getR ∧ t.cpu.pc = s.after n ∧
      t.ms = s.ms ∧ SameUnits s t ∧ ∀ sp a, t.peekIn sp a = s.peekIn sp a := by
  rcases hu with rfl | rfl <;>
    exact ⟨_, h, by simp [State.advance, srMask], by simp [State.advance],
      by simp [State.advance, State.nextPc, State.after], by simp [State.advance], .mk' (by simp [State.advance]),
      State.peekIn_congr (by simp [State.advance]) (by simp [State.advance]) (by simp [State.advance])
        (by simp [State.advance]) (by simp [State.advance])⟩

theorem setCcr_pst (s : State) (v : Byte) (w : Word) (hw : v.setWidth 16 = w &&& 0x00FF#16) :
    (s.pst 1#4).setCcr v = (s.pst 1#4).setSr ((s.cpu.sr &&& 0xFF00#16) ||| (w &&& 0x00FF#16)) := by
  rw [State.setCcr, State.sr_pst, hw]

theorem lowByte_eq (w : Word) : (w.extractLsb' 0 8).setWidth 16 = w &&& 0x00FF#16 := by
  apply BitVec.eq_of_getLsbD_eq
  intro k hk
  interval_cases k <;> simp

theorem lowByte_long_eq (v : Long) : (v.extractLsb' 0 8).setWidth 16 = v.setWidth 16 &&& 0x00FF#16 := by
  apply BitVec.eq_of_getLsbD_eq
  intro k hk
  interval_cases k <;> simp

theorem moveToCcr_leaves {i : Instr} {s : State} {v : Byte} {w : Word} {n : Nat} (hw : v.setWidth 16 = w &&& 0x00FF#16)
    (h : exec i s = moveToCcr v n s) : ∃ t, exec i s = .next t ∧
      t.cpu.sr = ((s.cpu.sr &&& 0xFF00#16) ||| (w &&& 0x00FF#16)) &&& 0xB79F#16 ∧ t.getR = s.getR ∧
      t.cpu.pc = s.after n ∧ t.ms = s.ms ∧ SameUnits s t ∧ ∀ sp a, t.peekIn sp a = s.peekIn sp a :=
  setSr_leaves (.inl rfl) (h.trans (by rw [moveToCcr, setCcr_pst s v w hw]))

theorem moveToSr_leaves {i : Instr} {s : State} {v : Word} {n : Nat} (hs : s.super = true)
    (h : exec i s = moveToSr v n s) : ∃ t, exec i s = .next t ∧ t.cpu.sr = v &&& 0xB79F#16 ∧ t.getR = s.getR ∧
      t.cpu.pc = s.after n ∧ t.ms = s.ms ∧ SameUnits s t ∧ ∀ sp a, t.peekIn sp a = s.peekIn sp a :=
  setSr_leaves (State.showUser_cases s _).symm (h.trans (privileged_super hs _))

/-- A word into the low half of Dx. -/
theorem setWord_onRegs {i : Instr} {s : State} {r : Reg} {v : Long}
    (h : exec i s = .next (((s.pst 1#4).setD r (merge .w (s.getD r) v)).advance 0)) :
    OnRegs i s (withReg s.getR (dNum r) (putLow 16 (s.getD r) v)) s.flags (s.after 0) := by
  have := setD_onRegs h
  rwa [merge_eq] at this

/-- Settles O42: the CCR is the low byte of SR. -/
theorem statusMoves : Obligations.StatusMoves := by
  intro s r v
  have hccr : s.ccr.setWidth 32 = s.cpu.sr.setWidth 32 &&& 0xFF#32 := by
    apply BitVec.eq_of_getLsbD_eq
    intro k hk
    simp only [State.ccr]
    interval_cases k <;> simp
  have hd : (s.getD r).extractLsb' 0 16 = (s.getD r).setWidth 16 := extract16_eq _
  rw [← hccr]
  refine ⟨setWord_onRegs rfl, moveToCcr_leaves (lowByte_long_eq _) rfl, moveToCcr_leaves (lowByte_eq v) rfl, fun hs =>
    ⟨setWord_onRegs (privileged_super hs _), ?_, moveToSr_leaves hs rfl⟩⟩
  rw [← hd]
  exact moveToSr_leaves hs rfl

/-! ### MOVEC -/

/-- A property of every entry and of the value elsewhere. -/
theorem sparseGet_of_all {α : Type} {P : α → Prop} {z : α} {l : List (Nat × α)} (hz : P z) (hl : ∀ c ∈ l, P c.2) (a : Nat) :
    P (sparseGet z l a) := by
  induction l with
  | nil => exact hz
  | cons c t ih =>
    rw [sparseGet]
    split
    · exact hl c List.mem_cons_self
    · exact ih fun d hd => hl d (List.mem_cons_of_mem _ hd)

/-- CACR.CINVA leaves no valid line. -/
theorem invalidateCache_lines (m : MemSys) (set lv : Nat) :
    (lineAt (invalidateCache m) set lv).v = false ∧ (lineAt (invalidateCache m) set lv).d = false := by
  refine sparseGet_of_all (P := fun l : Line => l.v = false ∧ l.d = false) ⟨rfl, rfl⟩ (fun c hc => ?_) _
  obtain ⟨d, -, rfl⟩ := List.mem_map.mp (List.mem_of_mem_filter hc)
  exact ⟨rfl, rfl⟩

/-- The control registers after a write of one of them. -/
def ctlWritten (c : Ctl) (r : CtlReg) (v : Long) : Ctl :=
  match r with
  | .cacr => { c with cacr := v &&& cacrMask }
  | .acr0 => { c with acr0 := v &&& acrMask }
  | .acr1 => { c with acr1 := v &&& acrMask }
  | .vbr => { c with vbr := v &&& vbrMask }
  | .rombar => { c with rombar := v &&& barMask }
  | .rambar => { c with rambar := v &&& barMask }

/-- The memory system after a write of a control register: CINVA is a command to the cache. -/
def ctlMs (m : MemSys) (r : CtlReg) (v : Long) : MemSys :=
  if r = .cacr ∧ v.getLsbD 24 = true then invalidateCache m else m

/-- What writing a control register leaves: the control registers, the memory system and the prefetch alone change. -/
theorem State.setCtl_eq (s : State) (r : CtlReg) (v : Long) :
    ∃ l, s.setCtl r v = { s with ctl := ctlWritten s.ctl r v, ms := { ctlMs s.ms r v with stale := l } } := by
  cases r with
  | cacr =>
    refine ⟨(s.setCtl .cacr v).ms.stale, ?_⟩
    simp only [State.setCtl, State.writeCtl, State.setCacr, ctlMs]
    cases v.getLsbD 24 <;> rfl
  | _ => exact ⟨_, rfl⟩

theorem ctlMs_kept (m : MemSys) (r : CtlReg) (v : Long) :
    (ctlMs m r v).stores = m.stores ∧ (ctlMs m r v).push = m.push ∧ (ctlMs m r v).ram = m.ram ∧
      ∀ sp a, busByte (ctlMs m r v) sp a = busByte m sp a := by
  unfold ctlMs
  split
  · exact ⟨rfl, rfl, rfl, fun _ _ => rfl⟩
  · exact ⟨rfl, rfl, rfl, fun _ _ => rfl⟩

theorem drain_ram (r : Route) (m : MemSys) : (drain r m).ram = m.ram := by
  unfold drain
  split
  · rfl
  · exact settle_ram m

/-- The bytes behind the M-Bus after the buffers were emptied. -/
theorem busByte_drain (r : Route) (m : MemSys) (sp : Space) (a : Nat) :
    busByte (drain r m) sp a = busByte (settle m) sp a := by
  obtain ⟨hm, he, -⟩ := drain_spec r m
  rw [busByte_eq, busByte_eq, busPair, busPair, hm, he]

/-- MOVEC to a register that has a number. -/
theorem movec_leaves {s : State} {ry : RegX} {rc : BitVec 12} {r : CtlReg} (hs : s.super = true) (hr : ctlReg rc = some r)
    (hc : rc = 0x002#12 ↔ r = .cacr) :
    ∃ t, exec (.movec ry rc) s = .next t ∧ t.ctl = ctlWritten s.ctl r (s.getR ry) ∧ t.getR = s.getR ∧
      t.cpu.sr = s.cpu.sr ∧ t.cpu.pc = s.after 1 ∧ t.mac = s.mac ∧ t.dbg = s.dbg ∧ t.ev = s.ev ∧ t.pins = s.pins ∧
      t.bdm = s.bdm ∧ t.ms.stores = [] ∧ t.ms.push = none ∧ t.ms.ram = s.ms.ram ∧
      (∀ sp a, busByte t.ms sp a = busByte (settle s.ms) sp a) ∧
      (rc = 0x002#12 → (s.getR ry).getLsbD 24 = true →
        t.ms.fill.valid = false ∧ ∀ set lv, (lineAt t.ms set lv).v = false ∧ (lineAt t.ms set lv).d = false) ∧
      (rc ≠ 0x002#12 ∨ (s.getR ry).getLsbD 24 = false → t.ms.cache = s.ms.cache) := by
  obtain ⟨l, hl⟩ := ((s.pst 1#4).drainBuffers).setCtl_eq r (s.getR ry)
  have hex : exec (.movec ry rc) s = .next (((s.pst 1#4).drainBuffers.setCtl r (s.getR ry)).advance 1) := by
    refine (privileged_super hs _).trans ?_
    rw [hr]
  have hms : (((s.pst 1#4).drainBuffers.setCtl r (s.getR ry)).advance 1).ms
      = { ctlMs (drain s.route s.ms) r (s.getR ry) with stale := l } := by
    rw [hl]
    simp [State.advance]
  obtain ⟨hst, hpush, hram, hbus⟩ := ctlMs_kept (drain s.route s.ms) r (s.getR ry)
  obtain ⟨-, -, hcache, -, hst', hpush'⟩ := drain_spec s.route s.ms
  refine ⟨_, hex, ?_, ?_, ?_, ?_, ?_, ?_, ?_, ?_, ?_, ?_, ?_, ?_, ?_, ?_, ?_⟩
  case refine_10 => rw [hms]; exact hst.trans hst'
  case refine_11 => rw [hms]; exact hpush.trans hpush'
  case refine_12 => rw [hms]; exact hram.trans (drain_ram ..)
  case refine_13 => intro sp a; rw [hms]; exact (hbus sp a).trans (busByte_drain ..)
  case refine_14 =>
    intro h0 h24
    rw [hms, ctlMs, if_pos ⟨hc.mp h0, h24⟩]
    exact ⟨rfl, invalidateCache_lines _⟩
  case refine_15 =>
    intro h
    have hn : ¬(r = .cacr ∧ (s.getR ry).getLsbD 24 = true) := by
      rw [← hc]
      rcases h with h | h
      · exact fun e => h e.1
      · exact fun e => absurd (h.symm.trans e.2) (by simp)
    rw [hms, ctlMs, if_neg hn]
    exact hcache
  case refine_2 =>
    rw [hl]
    exact (State.getR_congr (fun _ => rfl) fun _ => rfl).trans ((State.getR_drainBuffers _).trans (State.getR_pst ..))
  all_goals (rw [hl]; simp [State.advance, State.setPc, State.nextPc, State.after])

/-- Settles O44: the six registers differ in the bits that they store, and CACR in the command CINVA. -/
theorem moveToControl : Obligations.MoveToControl := by
  intro s ry hs
  refine ⟨movec_leaves (r := .cacr) hs rfl ?_, movec_leaves (r := .acr0) hs rfl ?_, movec_leaves (r := .acr1) hs rfl ?_,
    movec_leaves (r := .vbr) hs rfl ?_, movec_leaves (r := .rombar) hs rfl ?_, movec_leaves (r := .rambar) hs rfl ?_⟩ <;>
    decide
end Sys2Proof.Machine
end

