-- ==== Sys2Proof/Proofs/HaltStopPush.lean ====
section
/-! PROOF. Sys2Proof/Proofs/HaltStopPush.lean: HALT, STOP and CPUSHL (obligations O45, O46). -/

namespace Sys2Proof.Machine
open Sys2Proof.Dec (eaLen)

/-! ### HALT and STOP -/

/-- The halt sources route no access. -/
theorem getLsbD_haltSource_map (c : Long) {n : Nat} (hn : 24 ≤ n) : (haltSource c n).getLsbD 15 = c.getLsbD 15 := by
  have h : (1#32 <<< n).getLsbD 15 = false := by simp [show 15 < n by omega]
  rw [haltSource, BitVec.getLsbD_or, h, BitVec.getLsbD_and]
  simp

theorem State.route_haltSource {s t : State} {n : Nat} (hn : 24 ≤ n) (hc : t.ctl = s.ctl) (hp : t.pins = s.pins)
    (he : t.ev.emulator = s.ev.emulator) (hd : t.dbg = { s.dbg with csr := haltSource s.dbg.csr n }) :
    t.route = s.route ∧ (t.super = s.super → t.dataSpace = s.dataSpace) := by
  have hm : t.dbg.csr.getLsbD 15 = s.dbg.csr.getLsbD 15 := by rw [hd]; exact getLsbD_haltSource_map _ hn
  have hemu : t.emuMap = s.emuMap := by rw [State.emuMap, hm, he, State.emuMap]
  refine ⟨by rw [State.route, hc, hp, hm, hemu, State.route], fun hs => ?_⟩
  rw [State.dataSpace, hemu, hs, State.dataSpace]

theorem halt_leaves {s : State} (h : s.super = true ∨ s.dbg.csr.getLsbD 10 = true) :
    ∃ t, exec .halt s = .next t ∧ t.getR = s.getR ∧ t.cpu.sr = s.cpu.sr ∧ t.cpu.pc = s.after 0 ∧ t.mac = s.mac ∧
      t.ctl = s.ctl ∧ t.dbg = { s.dbg with csr := haltSource s.dbg.csr (if s.ev.haltTrg then 26 else 25) } ∧
      t.ev = { s.ev with run := .halted, haltTrg := false, haltBkpt := false } ∧ t.pins = s.pins ∧ t.bdm = s.bdm ∧
      t.ms.stores = [] ∧ t.ms.push = none ∧ (s.cacheOff → SameMem s t) := by
  let n : Nat := if s.ev.haltTrg then 26 else 25
  have hn : 24 ≤ n := by
    unfold n
    split <;> decide
  let u := (s.pst 1#4).drainBuffers.advance 0
  have hex : exec .halt s = .next (u.haltFor n) := if_pos (by simpa using h)
  have hms : ∃ r, (u.haltFor n).ms = drain r (drain s.route s.ms) :=
    ⟨_, by rw [State.ms_haltFor]; simp [u, State.advance]; rfl⟩
  obtain ⟨r, hms⟩ := hms
  obtain ⟨-, -, -, -, hst, hpush⟩ := drain_spec r (drain s.route s.ms)
  have hdbg : (u.haltFor n).dbg = { s.dbg with csr := haltSource s.dbg.csr n } := by simp [u, State.advance, haltSource]
  have hroute :=
    State.route_haltSource (s := s) (t := u.haltFor n) hn (by simp [u, State.advance]) (by simp [u, State.advance])
    (by simp [u, State.advance]) hdbg
  refine ⟨_, hex, ?_, ?_, ?_, ?_, ?_, hdbg, ?_, ?_, ?_, ?_, ?_, fun hc b => ?_⟩
  case refine_9 => rw [hms]; exact hst
  case refine_10 => rw [hms]; exact hpush
  case refine_11 =>
    unfold State.peek
    rw [hroute.1, hroute.2 (by simp [u, State.super, State.advance]), hms, peekByte_drain hc, peekByte_drain hc]
  case refine_1 => exact (State.getR_congr (by simp [u, State.advance]) (by simp [u, State.advance]))
  all_goals simp [u, State.advance, State.nextPc, State.after]

/-- The state after STOP wrote SR. -/
def State.stopStart (s : State) (v : Word) : State := ((s.pst 1#4).drainBuffers.setSr v).advance 1

theorem exec_stop {s : State} (hs : s.super = true) (v : Word) : exec (.stop v) s =
    if s.trace || v.getLsbD 15 then .next ((s.stopStart v).traceException (s.after 1))
    else .next (((s.stopStart v).setEv { s.ev with run := .stopped }).pst 0xE#4) := by
  have ht : v.getLsbD 15 = (s.stopStart v).trace := by simp [State.trace, State.stopStart, State.advance, srMask]
  have hpc : s.after 1 = (s.stopStart v).cpu.pc := by simp [State.stopStart, State.advance, State.nextPc, State.after]
  have hev : s.ev = (s.stopStart v).ev := by simp [State.stopStart, State.advance]
  rw [ht, hpc]
  refine (privileged_super hs _).trans ?_
  conv_rhs => rw [hev]
  rfl

theorem stop_leaves {s : State} {v : Word} (hs : s.super = true) (ht : (s.trace || v.getLsbD 15) = false) :
    ∃ t, exec (.stop v) s = .next t ∧ t.getR = s.getR ∧ t.cpu.sr = v &&& 0xB79F#16 ∧ t.cpu.pc = s.after 1 ∧
      t.mac = s.mac ∧ t.ctl = s.ctl ∧ t.dbg = s.dbg ∧ t.ev = { s.ev with run := .stopped } ∧ t.pins = s.pins ∧
      t.bdm = s.bdm ∧ t.ms.stores = [] ∧ t.ms.push = none ∧
      (s.cacheOff → ∀ sp a, t.peekIn sp a = s.peekIn sp a) := by
  have hex := exec_stop hs v
  rw [ht, if_neg (by simp)] at hex
  obtain ⟨-, -, -, -, hst, hpush⟩ := drain_spec s.route s.ms
  let t := ((s.stopStart v).setEv { s.ev with run := .stopped }).pst 0xE#4
  have hms : t.ms = drain s.route s.ms := by simp [t, State.stopStart, State.advance]
  refine ⟨t, hex, ?_, ?_, ?_, ?_, ?_, ?_, ?_, ?_, ?_, by rw [hms]; exact hst, by rw [hms]; exact hpush, fun hc sp a => ?_⟩
  case refine_10 =>
    have hr : t.route = s.route := by simp [State.route, State.emuMap, t, State.stopStart, State.advance]
    unfold State.peekIn
    rw [hr, hms, peekByte_drain hc]
  all_goals simp [t, State.stopStart, State.advance, State.nextPc, State.after, srMask]

/-- The trace exception of a STOP. -/
def State.stopEntry (s : State) : Entry :=
  { stackedPc := s.after 1, fs := 0#4, vector := 9#8, irq := none, emulator := s.dbg.csr.getLsbD 14 }

/-- STOP with T set takes the trace exception of the state in which SR is written. -/
theorem stop_traces {s : State} {v : Word} (hs : s.super = true) (ht : (s.trace || v.getLsbD 15) = true)
    (hu : ((s.setSr v).intoMode s.stopEntry).CanEnter) :
    ∃ t, exec (.stop v) s = .next t ∧ Enters ((s.setSr v).intoMode s.stopEntry) t 9#8 0#4 (s.after 1) := by
  have hex := exec_stop hs v
  have he : (s.stopStart v).traceException (s.after 1) = (s.stopStart v).takeException s.stopEntry := by
    simp [State.traceException, State.stopEntry, State.stopStart, State.advance]
  rw [ht, if_pos rfl, he] at hex
  have hsame : SameEntry ((s.setSr v).intoMode s.stopEntry) ((s.stopStart v).intoMode s.stopEntry) := by
    refine ⟨?_, ?_, ?_, ?_, ?_, ?_, ?_, ?_, fun b => ?_⟩
    case refine_9 =>
      have hms : ((s.stopStart v).intoMode s.stopEntry).ms = drain s.route s.ms := by
        simp [State.intoMode, State.stopStart, State.advance]
      rw [hms, peekByte_drain hu.cache]
      rfl
    all_goals simp [State.intoMode, State.stopStart, State.advance]
  exact ⟨_, hex, (State.takeException_enters_intoMode hu hsame rfl).1⟩

/-- Settles O45. -/
theorem haltAndStop : Obligations.HaltAndStop := fun _ _ => ⟨halt_leaves, stop_leaves, stop_traces⟩

/-! ### CPUSHL -/

theorem lineAddr_toNat (l : BitVec 28) : (lineAddr l).toNat = l.toNat * 16 := by
  rw [lineAddr, BitVec.toNat_append]
  simp [Nat.shiftLeft_eq]

theorem lineBase_toNat (a : Long) : (a &&& 0xFFFFFFF0#32).toNat = a.toNat / 16 * 16 := by
  have h : a &&& 0xFFFFFFF0#32 = lineAddr (a.extractLsb' 4 28) := by
    apply BitVec.eq_of_getLsbD_eq
    intro k hk
    rw [lineAddr, BitVec.getLsbD_append]
    interval_cases k <;> simp
  rw [h, lineAddr_toNat]
  simp [Nat.shiftRight_eq_div_pow]
  omega

/-- An address lies in a line when the line is that of the address. -/
theorem lineBase_eq_iff (a : Long) (l : BitVec 28) :
    a &&& 0xFFFFFFF0#32 = lineAddr l ↔ ∃ i < 16, a = lineAddr l + BitVec.ofNat 32 i := by
  have hl := l.isLt
  have hadd : ∀ i < 16, (lineAddr l + BitVec.ofNat 32 i).toNat = l.toNat * 16 + i := by
    intro i hi
    rw [BitVec.toNat_add, lineAddr_toNat, BitVec.toNat_ofNat]
    omega
  rw [← BitVec.toNat_inj, lineBase_toNat, lineAddr_toNat]
  constructor
  · intro h
    refine ⟨a.toNat % 16, by omega, ?_⟩
    rw [← BitVec.toNat_inj, hadd _ (by omega)]
    omega
  · rintro ⟨i, hi, rfl⟩
    rw [hadd i hi]
    omega

/-- A line in the push buffer goes to the memory of every transfer type but TT = 10. -/
theorem busByte_push (m : MemSys) (p : Push) (hs : m.stores = []) (sp : Space) (a : Long) :
    busByte (settle { m with push := some p }) sp a.toNat =
      if sp.tt ≠ 2#2 ∧ a &&& 0xFFFFFFF0#32 = lineAddr p.line then lineByte p.data (a.toNat % 16)
      else busByte m sp a.toNat := by
  have hb : busPair (settle { m with push := some p })
      = (memWrite m.mem (lineAddr p.line) (lineBytes p.data 16), m.emem) := by
    rw [busPair_settle]
    show pairStores _ m.stores = _
    rw [hs]
    rfl
  rw [busByte_eq, hb, busByte_eq, pairByte, pairByte]
  by_cases ht : sp.tt = 2#2
  · simp [ht, busPair]
  simp only [ht, if_false, ne_eq, not_false_eq_true, true_and]
  split
  · next h =>
    obtain ⟨i, hi, rfl⟩ := (lineBase_eq_iff a _).mp h
    have hl := p.line.isLt
    rw [memByte_write_at _ _ _ i (by simpa using hi) (by simp), lineBytes_getElem _ _ _ (le_refl _)]
    congr 1
    rw [BitVec.toNat_add, lineAddr_toNat, BitVec.toNat_ofNat]
    omega
  · next h =>
    refine memByte_write_ne _ _ _ _ fun i hi e => h ((lineBase_eq_iff a _).mpr ⟨i, by simpa using hi, e⟩)

section CpushLine
variable {r : Route} {m : MemSys} {an : Long}

/-- The line that An names, by set and level. -/
def namedLine (r : Route) (m : MemSys) (an : Long) : Line :=
  lineAt m (an.toNat / 16 % 2 ^ setBits r.pins.cacheSize) (an.toNat % 4)

/-- The line address that the tag of the named line and its set give. -/
def namedAddr (r : Route) (m : MemSys) (an : Long) : BitVec 28 :=
  (((namedLine r m an).tag <<< setBits r.pins.cacheSize)
    ||| BitVec.ofNat 32 (an.toNat / 16 % 2 ^ setBits r.pins.cacheSize)).setWidth 28

/-- The memory system with the named line, if it is dirty, in the push buffer. -/
def pushNamed (r : Route) (m : MemSys) (an : Long) : MemSys :=
  if (namedLine r m an).v && (namedLine r m an).d then
    { m with push := some { line := namedAddr r m an, data := (namedLine r m an).data } }
  else m

theorem cpushLine_eq (h : r.pins.cacheSize ≠ .absent) : cpushLine r m an =
    setLine (pushNamed r m an) (an.toNat / 16 % 2 ^ setBits r.pins.cacheSize) (an.toNat % 4)
      { namedLine r m an with v := (namedLine r m an).v && r.ctl.cacr.getLsbD 28, d := false } := by
  have hv : (if r.ctl.cacr.getLsbD 28 then (namedLine r m an).v else false)
      = ((namedLine r m an).v && r.ctl.cacr.getLsbD 28) := by
    cases r.ctl.cacr.getLsbD 28 <;> simp
  rw [← hv]
  exact if_neg (by simpa using h)

theorem lineAt_pushNamed (set lv : Nat) : lineAt (pushNamed r m an) set lv = lineAt m set lv := by
  unfold pushNamed
  split <;> rfl

theorem cpushLine_line (h : r.pins.cacheSize ≠ .absent) :
    lineAt (cpushLine r m an) (an.toNat / 16 % 2 ^ setBits r.pins.cacheSize) (an.toNat % 4) =
      { namedLine r m an with v := (namedLine r m an).v && r.ctl.cacr.getLsbD 28, d := false } := by
  rw [cpushLine_eq h, lineAt_setLine_self]

theorem cpushLine_others (h : r.pins.cacheSize ≠ .absent) {set lv : Nat} (hl : lv < 4)
    (hne : (set, lv) ≠ (an.toNat / 16 % 2 ^ setBits r.pins.cacheSize, an.toNat % 4)) :
    lineAt (cpushLine r m an) set lv = lineAt m set lv := by
  rw [cpushLine_eq h, lineAt_setLine_ne _ _ (by omega) hl hne, lineAt_pushNamed]

theorem cpushLine_ram (h : r.pins.cacheSize ≠ .absent) : (cpushLine r m an).ram = m.ram := by
  rw [cpushLine_eq h]
  unfold pushNamed
  split <;> rfl

theorem cpushLine_busByte (h : r.pins.cacheSize ≠ .absent) (hs : m.stores = []) (hp : m.push = none) (sp : Space) (a : Long) :
    busByte (settle (cpushLine r m an)) sp a.toNat =
      if sp.tt ≠ 2#2 ∧ (namedLine r m an).v = true ∧ (namedLine r m an).d = true ∧
        a &&& 0xFFFFFFF0#32 = lineAddr (namedAddr r m an) then lineByte (namedLine r m an).data (a.toNat % 16)
      else busByte m sp a.toNat := by
  have hset : ∀ (n : MemSys) set lv l, busByte (settle (setLine n set lv l)) sp a.toNat = busByte (settle n) sp a.toNat := by
    intro n set lv l
    rw [busByte_eq, busByte_eq, busPair_settle, busPair_settle]
    rfl
  rw [cpushLine_eq h, hset]
  cases hd : (namedLine r m an).v && (namedLine r m an).d
  · have hm : busPair (settle m) = busPair m := by
      rw [busPair_settle, hs, hp]
      rfl
    rw [pushNamed, hd, if_neg (by simp), busByte_eq, hm, if_neg]
    · rfl
    · rintro ⟨-, hv, hd', -⟩
      simp [hv, hd'] at hd
  · rw [pushNamed, hd, if_pos rfl, busByte_push m _ hs]
    simp only [Bool.and_eq_true] at hd
    simp only [hd, true_and]
end CpushLine

/-- The address that a tag and a set give, in 28 bits or in 32. -/
theorem lineAddr_setWidth (v : Long) : lineAddr (v.setWidth 28) = v <<< 4 := by
  apply BitVec.eq_of_getLsbD_eq
  intro k hk
  rw [lineAddr, BitVec.getLsbD_append, BitVec.getLsbD_shiftLeft]
  by_cases h : k < 4
  · simp [h]
  · simp [h, show k - 4 < 28 by omega, hk]

/-- Settles O46: the buffers are emptied before the line is pushed, and the push buffer after it. -/
theorem pushLine : Obligations.PushLine := by
  intro s ax hs hsize
  let m := drain s.route s.ms
  let n := cpushLine s.route m (s.getA ax)
  let t := ((((s.pst 1#4).drainBuffers).setMs n).drainBuffers).advance 0
  have hex : exec (.cpushl ax) s = .next t := by
    refine (privileged_super hs _).trans ?_
    have hr : (s.pst 1#4).drainBuffers.route = s.route := (State.route_congr rfl rfl rfl rfl).trans (s.route_pst 1#4)
    have hm : (s.pst 1#4).drainBuffers.ms = m := by simp [m]
    rw [hr, hm]
  have hms : t.ms = drain s.route n := by
    have hr : ((s.pst 1#4).drainBuffers.setMs n).route = s.route :=
      (State.route_congr rfl rfl rfl rfl).trans (s.route_pst 1#4)
    simp only [t, State.advance, State.ms_setPc, State.ms_drainBuffers, State.ms_setMs, hr]
  obtain ⟨-, -, hcache, -, hst, hpush⟩ := drain_spec s.route s.ms
  obtain ⟨-, -, hcache', -, hst', hpush'⟩ := drain_spec s.route n
  have hline : ∀ set lv, lineAt m set lv = lineAt s.ms set lv := lineAt_congr hcache
  have hnamed : namedLine s.route m (s.getA ax) = namedLine s.route s.ms (s.getA ax) := hline _ _
  have haddr : namedAddr s.route m (s.getA ax) = namedAddr s.route s.ms (s.getA ax) := by rw [namedAddr, hnamed, namedAddr]
  refine ⟨t, hex, by simp [t, State.advance], by simp [t, State.advance], by simp [t, State.advance, State.nextPc, State.after],
    .mk' (by simp [t, State.advance]), by rw [hms]; exact hst', by rw [hms]; exact hpush', ?_, ?_, ?_, ?_⟩
  · rw [hms, drain_ram, cpushLine_ram (r := s.route) hsize, drain_ram]
  · rw [hms, lineAt_congr hcache']
    refine (cpushLine_line (r := s.route) hsize).trans ?_
    rw [hnamed]
    rfl
  · intro set' lv' hlv hne
    rw [hms, lineAt_congr hcache', cpushLine_others (r := s.route) hsize hlv hne, hline]
  · intro sp a
    rw [hms, busByte_drain, cpushLine_busByte (r := s.route) hsize hst hpush, busByte_drain, hnamed, haddr, namedAddr, lineAddr_setWidth]
    rfl
end Sys2Proof.Machine
end

