-- ==== Sys2Proof/Proofs/TracePort.lean ====
section
/-! PROOF. Sys2Proof/Proofs/TracePort.lean: PULSE and WDDATA (obligation O47). -/

namespace Sys2Proof.Machine
open Sys2Proof.Dec (eaLen)

/-! ### The trace port -/

theorem State.port_event {s : State} (h : s.dbg.csr.getLsbD 17 = false) (e : PortEvent) :
    (s.event e).port = s.port ++ [e] := by
  rw [State.event, h]
  rfl

/-- DDATA between items: the breakpoint status and a low bit. -/
theorem State.ddataIdle_eq (s : State) : s.ddataIdle = statusOf s.dbg ++ s.dbg.csr.extractLsb' 28 1 := by
  apply BitVec.eq_of_getLsbD_eq
  intro k hk
  rw [State.ddataIdle, statusOf, BitVec.getLsbD_append]
  interval_cases k <;> simp

theorem length_nibbles (n : Nat) (v : Long) : (nibbles n v).length = n := by
  induction n generalizing v with
  | zero => rfl
  | succ n ih => simp [nibbles, ih]

/-- The nibbles of a value are its hexadecimal digits. -/
theorem nibbles_getElem (n : Nat) (v : Long) (k : Nat) (h : k < (nibbles n v).length) :
    (nibbles n v)[k].toNat = v.toNat / 16 ^ k % 16 := by
  induction n generalizing v k with
  | zero => simp [nibbles] at h
  | succ n ih =>
    cases k with
    | zero => simp [nibbles]
    | succ k =>
      simp only [nibbles, List.getElem_cons_succ]
      rw [ih, BitVec.toNat_ushiftRight, Nat.shiftRight_eq_div_pow, Nat.div_div_eq_div_mul, pow_succ 16 k,
        Nat.mul_comm (16 ^ k) 16]

/-! ### PULSE and WDDATA -/

section Wddata
variable {i : Instr} {s : State} {ea : Ea} {sz : Size}

/-- The state in which WDDATA has read its operand. -/
def State.wddataRead (s : State) (ea : Ea) (sz : Size) : State :=
  (((s.pst 4#4).locate ea sz).2.loadQuiet (s.address ea sz) sz).2

theorem wddataOp_eq (hb : eaBad ea = false) (hm : eaMemAlter ea = true) :
    wddataOp sz ea s = .next (((s.wddataRead ea sz).item sz.bytes (s.operand ea sz)).advance (eaLen ea)) := by
  have hl := locate_mem (.inl hm) s sz
  have hv : (((s.pst 4#4).locate ea sz).2.loadQuiet (s.address ea sz) sz).1 = s.operand ea sz := by
    rw [State.operand, State.eaRead, hl, State.readLoc, State.loadQuiet_val, State.load_val]
    simp
  rw [← hv]
  refine (checked_ok hb _).trans ?_
  simp only [State.wddataRead, State.locate_pst, State.address]

theorem State.ms_wddataRead (hm : eaMemAlter ea = true) : (s.wddataRead ea sz).ms = s.msAfter ea sz := by
  have hl := locate_mem (.inl hm) s sz
  rw [State.wddataRead, State.ms_loadQuiet, State.msAfter, State.eaRead, hl, State.readLoc, State.ms_load]
  simp

theorem wddata_reads (hb : eaBad ea = false) (hm : eaMemAlter ea = true) (h : exec i s = wddataOp sz ea s) :
    Reads i s ea sz (s.regsAfter ea sz) s.flags (s.after (eaLen ea)) := by
  rw [wddataOp_eq hb hm] at h
  refine reads_of h ?_ (flagsNow_same ?_) ?_ ?_ (.mk' ?_)
  · simp [State.advance, State.wddataRead]
  · simp [State.advance, State.wddataRead]
  · simp [State.advance, State.wddataRead, State.nextPc, State.after]
  · simp [State.advance, State.ms_wddataRead hm]
  · simp [State.advance, State.wddataRead]

theorem wddata_port (hp : s.dbg.csr.getLsbD 17 = false) (hb : eaBad ea = false) (hm : eaMemAlter ea = true)
    (h : exec i s = wddataOp sz ea s) :
    ∃ t dd, ∃ x y : BitVec 1, exec i s = .next t ∧
      t.port = s.port ++ [{ pst := 4#4, status := statusOf s.dbg ++ x, dd := [] },
        { pst := BitVec.ofNat 4 (7 + sz.bytes), status := statusOf s.dbg ++ y, dd := dd }] ∧
      dd.length = 2 * sz.bytes ∧
      ∀ k (h : k < dd.length), dd[k].toNat = (s.operand ea sz).toNat / 16 ^ k % 16 := by
  rw [wddataOp_eq hb hm] at h
  refine ⟨_, nibbles (2 * sz.bytes) (s.operand ea sz), s.dbg.csr.extractLsb' 28 1, s.dbg.csr.extractLsb' 28 1, h, ?_,
    length_nibbles _ _, nibbles_getElem _ _⟩
  have hdbg : (s.wddataRead ea sz).dbg = s.dbg := by simp [State.wddataRead]
  have hport : (s.wddataRead ea sz).port = (s.pst 4#4).port := by simp [State.wddataRead]
  have hidle : (s.wddataRead ea sz).ddataIdle = s.ddataIdle := by rw [State.ddataIdle, hdbg, State.ddataIdle]
  show (State.event _ _).port = _
  rw [State.port_event (by rw [hdbg]; exact hp), hport, hidle, ← State.ddataIdle_eq]
  show (State.event _ _).port ++ _ = _
  rw [State.port_event hp, List.append_assoc]
  rfl
end Wddata

/-- Settles O47: the item of n bytes has the mark 7 + n. -/
theorem traceInstructions : Obligations.TraceInstructions := by
  intro s ea hp
  refine ⟨⟨(s.pst 4#4).advance 0, s.dbg.csr.extractLsb' 28 1, rfl, ?_, by simp [State.advance], by simp [State.advance],
    by simp [State.advance, State.nextPc, State.after], by simp [State.advance], .mk' (by simp [State.advance]), ?_⟩,
    fun hm hb => ⟨⟨wddata_reads hb hm rfl, wddata_port (sz := .b) hp hb hm rfl⟩,
      ⟨wddata_reads hb hm rfl, wddata_port (sz := .w) hp hb hm rfl⟩,
      ⟨wddata_reads hb hm rfl, wddata_port (sz := .l) hp hb hm rfl⟩⟩⟩
  · rw [← State.ddataIdle_eq]
    exact State.port_event hp _
  · exact sameMem_of (.mk' (by simp [State.advance])) (by simp [State.advance, State.super]) fun b => by
      simp only [State.advance, State.ms_setPc, State.ms_pst]
      rfl
end Sys2Proof.Machine
end

