-- ==== Sys2Proof/Proofs/DebugWrites.lean ====
section
/-! PROOF. Sys2Proof/Proofs/DebugWrites.lean: WDEBUG (obligation O48; spec/61_debug_and_bdm.md R632, R640, R651). -/

namespace Sys2Proof.Machine
open Sys2Proof.Dec (eaLen)

/-! ### The breakpoints on accesses -/

/-- Where no level waits for triggers, no trigger is completed. -/
theorem triggerStep_idle {g : Dbg} (h1 : statusOf g ≠ 1#3) (h5 : statusOf g ≠ 5#3) (fires : Bool → Bool) :
    triggerStep g fires = none := by
  simp [triggerStep, h1, h5]

theorem State.xferBreakpoints_idle {s : State} (h1 : statusOf s.dbg ≠ 1#3) (h5 : statusOf s.dbg ≠ 5#3) (pc : Long)
    (xs : List Xfer) : s.xferBreakpoints pc xs = .next s := by
  induction xs with
  | nil => rfl
  | cons x t ih => rw [State.xferBreakpoints, triggerStep_idle h1 h5]; exact ih

/-- The accesses recorded in a step are done with, unless breakpoints are inhibited. -/
def State.xfersDone (s : State) : State := if s.ev.inhibitBp then s else s.setMs { s.ms with xfers := [] }

theorem State.takeBreakpoints_eq (s : State) : s.takeBreakpoints =
    if s.ev.inhibitBp then .next s else (s.setMs { s.ms with xfers := [] }).xferBreakpoints s.cpu.pc s.ms.xfers := rfl

theorem State.takeBreakpoints_idle {s : State} (h : s.ev.inhibitBp = true ∨ statusOf s.dbg ≠ 1#3 ∧ statusOf s.dbg ≠ 5#3) :
    s.takeBreakpoints = .next s.xfersDone := by
  rw [State.takeBreakpoints_eq, State.xfersDone]
  split
  · rfl
  · next hn =>
    obtain ⟨h1, h5⟩ := h.resolve_left hn
    exact State.xferBreakpoints_idle (s := s.setMs { s.ms with xfers := [] }) h1 h5 _ _

theorem setStatus_eq (csr : Long) (st : BitVec 4) : setStatus csr st = st ++ csr.extractLsb' 0 28 := by
  apply BitVec.eq_of_getLsbD_eq
  intro k hk
  by_cases h : k < 28
  · rw [getLsbD_setStatus csr st k h, BitVec.getLsbD_append]
    simp [h]
  · have hm : (0x0FFFFFFF#32 : Long).getLsbD k = false := by interval_cases k <;> rfl
    rw [setStatus, BitVec.getLsbD_or, BitVec.getLsbD_and, hm, BitVec.getLsbD_shiftLeft, BitVec.getLsbD_setWidth,
      BitVec.getLsbD_append]
    simp [h, hk, show k - 28 < 32 by omega]

/-- What the trigger logic may change: the status in the CSR, the requests of a halt and of a debug interrupt, and the
free values' counter. -/
def Triggered (s t : State) : Prop :=
  ∃ (st : BitVec 4) (halt int : Bool) (f : Nat), (s.ev.haltTrg = true → halt = true) ∧
    (s.ev.debugInt = true → int = true) ∧
    t = { s with dbg := { s.dbg with csr := st ++ s.dbg.csr.extractLsb' 0 28 }
                 ev := { s.ev with haltTrg := halt, debugInt := int }, free := f }

theorem Triggered.refl (s : State) : Triggered s s := by
  refine ⟨s.dbg.csr.extractLsb' 28 4, s.ev.haltTrg, s.ev.debugInt, s.free, id, id, ?_⟩
  have h : s.dbg.csr.extractLsb' 28 4 ++ s.dbg.csr.extractLsb' 0 28 = s.dbg.csr := by
    rw [← setStatus_eq]
    apply BitVec.eq_of_getLsbD_eq
    intro k hk
    by_cases h : k < 28
    · exact getLsbD_setStatus _ _ k h
    · rw [setStatus_eq, BitVec.getLsbD_append]
      simp [h, show k - 28 < 4 by omega, show 28 + (k - 28) = k by omega]
  rw [h]

theorem Triggered.trans {s t u : State} (h : Triggered s t) (h' : Triggered t u) : Triggered s u := by
  obtain ⟨st, halt, int, f, hh, hi, rfl⟩ := h
  obtain ⟨st', halt', int', f', hh', hi', rfl⟩ := h'
  refine ⟨st', halt', int', f', fun h => hh' (hh h), fun h => hi' (hi h), ?_⟩
  have h : (st ++ s.dbg.csr.extractLsb' 0 28).extractLsb' 0 28 = s.dbg.csr.extractLsb' 0 28 := by
    apply BitVec.eq_of_getLsbD_eq
    intro k hk
    rw [BitVec.getLsbD_extractLsb', Nat.zero_add, BitVec.getLsbD_append]
    simp [hk]
  simp only [h]

theorem Triggered.tdr {s t : State} (h : Triggered s t) : t.dbg.tdr = s.dbg.tdr := by
  obtain ⟨_, _, _, _, -, -, rfl⟩ := h
  rfl

/-- A completed trigger whose response is not the reserved one. -/
theorem State.respond_triggered {s : State} (h : responseOf s.dbg ≠ .reserved) (fires : Bool → Bool) :
    ∃ t, s.respond (triggerStep s.dbg fires) = .next t ∧ Triggered s t := by
  have key : ∀ st r, r ≠ .reserved → ∃ t, s.respond (some (st, r)) = .next t ∧ Triggered s t := by
    intro st r hr
    have hst : ∀ e, (s.setStatus st).setEv e = { s with
        dbg := { s.dbg with csr := (st ++ Config.statusLow s.free) ++ s.dbg.csr.extractLsb' 0 28 }, ev := e
        free := s.free + 1 } := by
      intro e
      rw [← setStatus_eq]
      rfl
    cases r with
    | none => exact ⟨(s.setStatus st).setEv s.ev, rfl, _, s.ev.haltTrg, s.ev.debugInt, _, id, id, hst _⟩
    | halt => exact ⟨_, rfl, _, true, s.ev.debugInt, _, fun _ => rfl, id, hst _⟩
    | interrupt => exact ⟨_, rfl, _, s.ev.haltTrg, true, _, id, fun _ => rfl, hst _⟩
    | reserved => exact absurd rfl hr
  unfold triggerStep
  split
  · split
    · exact key _ _ (by simp)
    · exact key _ _ h
  split
  · exact key _ _ h
  · exact ⟨s, rfl, .refl s⟩

theorem State.xferBreakpoints_triggered {s : State} (h : responseOf s.dbg ≠ .reserved) (pc : Long) (xs : List Xfer) :
    ∃ t, s.xferBreakpoints pc xs = .next t ∧ Triggered s t := by
  induction xs generalizing s with
  | nil => exact ⟨s, rfl, .refl s⟩
  | cons x xs ih =>
    obtain ⟨t, ht, hst⟩ := State.respond_triggered h (fun l2 => xferTrigger s.dbg l2 pc x)
    obtain ⟨u, hu, htu⟩ := ih (s := t) (by rwa [responseOf, hst.tdr])
    exact ⟨u, by rw [State.xferBreakpoints, ht]; exact hu, hst.trans htu⟩

theorem State.takeBreakpoints_triggered {s : State} (h : responseOf s.dbg ≠ .reserved) :
    ∃ t, s.takeBreakpoints = .next t ∧ Triggered s.xfersDone t := by
  rw [State.takeBreakpoints_eq, State.xfersDone]
  split
  · exact ⟨s, rfl, .refl s⟩
  · exact State.xferBreakpoints_triggered (s := s.setMs { s.ms with xfers := [] }) h _ _

theorem responseOf_ne_reserved {g : Dbg} (h : g.tdr.extractLsb' 30 2 ≠ 3#2) : responseOf g ≠ .reserved := by
  unfold responseOf
  generalize g.tdr.extractLsb' 30 2 = c at h ⊢
  revert c
  decide

/-! ### The write of the debug register -/

/-- A write by the core, in the terms of the statement. -/
theorem writeDebugReg_eq (g : Dbg) (drc : BitVec 4) (v : Long) (h : drc ≠ 7#4) (b : Bool) :
    writeDebugReg g csrMask drc v = debugWritten g drc v b := by
  have hcsr : ~~~csrMask = 0xFFF9008F#32 := by decide
  unfold writeDebugReg debugWritten
  rw [hcsr]
  have h8 : v.extractLsb' 0 8 = v.setWidth 8 := extract8_eq v
  have h16 : v.extractLsb' 0 16 = v.setWidth 16 := extract16_eq v
  rw [h8, h16]
  generalize hk : drc.toNat = k
  have hk7 : k ≠ 7 := fun e => h (BitVec.eq_of_toNat_eq (hk.trans e))
  have hlt := drc.isLt
  rw [hk] at hlt
  interval_cases k
  any_goals rfl
  exact absurd rfl hk7

theorem setStatus_tdr_eq (g : Dbg) (v : Long) (b : BitVec 1) :
    { g with tdr := v, csr := setStatus g.csr (statusOfTdr v ++ b) } = debugWritten g 7#4 v (b == 1#1) := by
  have hst : ((statusOfTdr v ++ b : BitVec 4).setWidth 32 <<< 28 : Long) =
      (if v.getLsbD 13 then 0x20000000#32 else 0#32) ||| (if b == 1#1 then 0x10000000#32 else 0#32) := by
    unfold statusOfTdr
    cases v.getLsbD 13 <;> revert b <;> decide
  show _ = { g with tdr := v, csr := _ }
  rw [setStatus, hst, BitVec.or_assoc]

theorem State.coreWriteDebug_eq (s : State) (drc : BitVec 4) (v : Long) :
    ∃ f b, s.coreWriteDebug drc v =
      { s with dbg := if s.dbg.csr.getLsbD 16 = true then s.dbg else debugWritten s.dbg drc v b, free := f } := by
  unfold State.coreWriteDebug
  split
  · exact ⟨s.free, false, rfl⟩
  obtain ⟨g, f, hw, hreg, htdr⟩ := s.writeDebug_eq csrMask drc v
  by_cases h : drc = 7#4
  · obtain ⟨b, hg, -⟩ := htdr h
    refine ⟨f, b == 1#1, ?_⟩
    rw [hw, hg, setStatus_tdr_eq, h]
  · refine ⟨f, false, ?_⟩
    rw [hw, (hreg h).1, writeDebugReg_eq _ _ _ h false]

/-! ### The operand of WDEBUG -/

theorem beValue_beBytes (v : Long) : beValue (beBytes 4 v) = v := by
  apply BitVec.eq_of_getLsbD_eq
  intro k hk
  simp only [beValue, beBytes, List.foldl]
  interval_cases k <;> simp

/-- The first longword of a WDMREG command with its register and the upper half of the value. -/
def wdmregWord (drc : BitVec 4) (v : Long) : Long := 0x2C8#12 ++ drc ++ v.extractLsb' 16 16

/-- The second longword: the lower half of the value. -/
def valueWord (v : Long) (low : Word) : Long := v.extractLsb' 0 16 ++ low

theorem wdmregWord_fields (drc : BitVec 4) (v : Long) (low : Word) :
    wdebugCommand (wdmregWord drc v) = true ∧ (wdmregWord drc v).extractLsb' 16 4 = drc ∧
      (wdmregWord drc v).extractLsb' 0 16 ++ (valueWord v low).extractLsb' 16 16 = v := by
  refine ⟨?_, ?_, ?_⟩
  · rw [wdebugCommand, beq_iff_eq]
    apply BitVec.eq_of_getLsbD_eq
    intro k hk
    rw [BitVec.getLsbD_extractLsb', wdmregWord, BitVec.getLsbD_append, BitVec.getLsbD_append]
    interval_cases k <;> rfl
  · apply BitVec.eq_of_getLsbD_eq
    intro k hk
    rw [BitVec.getLsbD_extractLsb', wdmregWord, BitVec.getLsbD_append, BitVec.getLsbD_append]
    interval_cases k <;> simp
  · apply BitVec.eq_of_getLsbD_eq
    intro k hk
    rw [BitVec.getLsbD_append, BitVec.getLsbD_extractLsb', BitVec.getLsbD_extractLsb', wdmregWord, valueWord,
      BitVec.getLsbD_append, BitVec.getLsbD_append]
    interval_cases k <;> simp

/-- The state in which WDEBUG has read its two longwords. -/
def State.wdebugRead (s : State) (a : Long) : State :=
  ((((s.pst 1#4).drainBuffers).load a .l).2.load (a + 4#32) .l).2

/-- Of the debug registers CSR.MAP alone routes an access, of the run state the emulator mode alone. -/
theorem State.access_congr {s t : State} (hm : t.dbg.csr.getLsbD 15 = s.dbg.csr.getLsbD 15) (hc : t.ctl = s.ctl)
    (hp : t.pins = s.pins) (he : t.ev.emulator = s.ev.emulator) (hs : t.cpu.sr = s.cpu.sr) :
    t.route = s.route ∧ t.dataSpace = s.dataSpace := by
  have hemu : t.emuMap = s.emuMap := by rw [State.emuMap, he, hm, State.emuMap]
  constructor
  · rw [State.route, hc, hp, hm, hemu, State.route]
  · rw [State.dataSpace, hemu, State.super, hs, State.dataSpace, State.super]

section Wdebug
variable {s : State} {ea : Ea} {drc : BitVec 4} {v : Long} {low : Word}

/-- Reads with the cache disabled show memory as it is. -/
theorem State.peekByte_wdebugRead (hc : s.cacheOff) (a : Long) (sp : Space) (b : Long) :
    peekByte s.route (s.wdebugRead a).ms sp false b = peekByte s.route s.ms sp false b := by
  have hr : (s.pst 1#4).drainBuffers.route = s.route := (State.route_congr rfl rfl rfl rfl).trans (s.route_pst 1#4)
  have hr' : (((s.pst 1#4).drainBuffers).load a .l).2.route = s.route :=
    (State.route_congr (by simp) (by simp) (by simp) (by simp)).trans hr
  rw [State.wdebugRead, State.ms_load, hr', peekByte_readOperand hc, State.ms_load, hr, peekByte_readOperand hc,
    State.ms_drainBuffers, State.ms_pst, State.route_pst, peekByte_drain hc]

/-- The two longwords that WDEBUG reads. -/
theorem State.load_wdebug (hc : s.cacheOff) {a : Long} {w0 w1 : Long} (hm : s.bytes a 8 = beBytes 4 w0 ++ beBytes 4 w1) :
    (((s.pst 1#4).drainBuffers).load a .l).1 = w0 ∧
      ((((s.pst 1#4).drainBuffers).load a .l).2.load (a + 4#32) .l).1 = w1 := by
  have hr : (s.pst 1#4).drainBuffers.route = s.route := (State.route_congr rfl rfl rfl rfl).trans (s.route_pst 1#4)
  have hd : (s.pst 1#4).drainBuffers.dataSpace = s.dataSpace :=
    State.dataSpace_congr (by simp) (by simp) (by simp [State.super])
  have hr' : (((s.pst 1#4).drainBuffers).load a .l).2.route = s.route :=
    (State.route_congr (by simp) (by simp) (by simp) (by simp)).trans hr
  have hd' : (((s.pst 1#4).drainBuffers).load a .l).2.dataSpace = s.dataSpace :=
    (State.dataSpace_congr (by simp) (by simp) (by simp [State.super])).trans hd
  have hms : (s.pst 1#4).drainBuffers.ms = drain s.route s.ms := by simp
  have happ : s.bytes a 8 = peekBytes s.route s.ms s.dataSpace a 4 ++ peekBytes s.route s.ms s.dataSpace (a + 4#32) 4 := by
    exact readBytes_append (fun i => peekByte s.route s.ms s.dataSpace false (BitVec.ofNat 32 i)) a 4 4
  obtain ⟨h0, h1⟩ := List.append_inj (happ.symm.trans hm) (by simp [peekBytes])
  constructor
  · rw [State.load_val, hr, hd, hms, readOperand_val hc, ← beValue_beBytes w0, ← h0]
    exact congrArg beValue (peekBytes_congr (fun b => peekByte_drain hc ..) _ _)
  · rw [State.load_val, hr', hd', State.ms_load, hr, hd, hms, readOperand_val hc, ← beValue_beBytes w1, ← h1]
    refine congrArg beValue (peekBytes_congr (fun b => ?_) _ _)
    rw [peekByte_readOperand hc, peekByte_drain hc]

theorem exec_wdebug (hs : s.super = true) (hc : s.cacheOff) (ha : (s.address ea .l).extractLsb' 0 2 = 0#2)
    (hm : s.bytes (s.address ea .l) 8 = beBytes 4 (wdmregWord drc v) ++ beBytes 4 (valueWord v low)) {u : State}
    (hu : (s.wdebugRead (s.address ea .l)).takeBreakpoints = .next u) :
    exec (.wdebug 0x0003#16 ea) s = .next ((u.coreWriteDebug drc v).advance (1 + eaLen ea)) := by
  obtain ⟨h0, h1⟩ := State.load_wdebug hc hm
  obtain ⟨hcmd, hdrc, hval⟩ := wdmregWord_fields drc v low
  refine (privileged_super hs _).trans ((extChecked_ok rfl _).trans ?_)
  show (if (s.address ea .l).extractLsb' 0 2 = 0#2 ∧
    wdebugCommand (((s.pst 1#4).drainBuffers).load (s.address ea .l) .l).1 = true then _ else _) = _
  rw [h0, if_pos ⟨ha, hcmd⟩]
  show (match (s.wdebugRead (s.address ea .l)).takeBreakpoints with
    | .next s3 => Host.Outcome.next ((s3.coreWriteDebug
      ((((s.pst 1#4).drainBuffers).load (s.address ea .l) .l).1.extractLsb' 16 4)
      ((((s.pst 1#4).drainBuffers).load (s.address ea .l) .l).1.extractLsb' 0 16 ++
        ((((s.pst 1#4).drainBuffers).load (s.address ea .l) .l).2.load (s.address ea .l + 4#32) .l).1.extractLsb' 16 16)).advance
      (1 + eaLen ea))
    | .fault f => .fault f
    | .refused f => .refused f) = _
  rw [hu, h0, h1, hdrc, hval]

theorem State.xfersDone_eq (s : State) : ∃ x, s.xfersDone = s.setMs { s.ms with xfers := x } := by
  unfold State.xfersDone
  split
  · exact ⟨s.ms.xfers, rfl⟩
  · exact ⟨[], rfl⟩

theorem peekByte_xfers (r : Route) (m : MemSys) (x : List Xfer) (sp : Space) (f : Bool) (b : Long) :
    peekByte r { m with xfers := x } sp f b = peekByte r m sp f b := by
  have hs : busPair (settle { m with xfers := x }) = busPair (settle m) := by rw [busPair_settle, busPair_settle]; rfl
  unfold peekByte
  simp only [busByte_eq, hs]
  rfl

/-- What the reads of WDEBUG and the breakpoints on them leave as it was. -/
structure WdebugKept (s u : State) : Prop where
  regs : u.getR = s.getR
  sr : u.cpu.sr = s.cpu.sr
  pc : u.cpu.pc = s.cpu.pc
  mac : u.mac = s.mac
  ctl : u.ctl = s.ctl
  pins : u.pins = s.pins
  bdm : u.bdm = s.bdm
  emulator : u.ev.emulator = s.ev.emulator
  csr : ∀ k < 28, u.dbg.csr.getLsbD k = s.dbg.csr.getLsbD k
  mem : ∀ sp b, peekByte s.route u.ms sp false b = peekByte s.route s.ms sp false b

theorem WdebugKept.of_triggered (hc : s.cacheOff) {a : Long} {u : State} (h : Triggered (s.wdebugRead a).xfersDone u) :
    WdebugKept s u := by
  obtain ⟨x, hx⟩ := (s.wdebugRead a).xfersDone_eq
  rw [hx] at h
  obtain ⟨st, halt, int, k, -, -, rfl⟩ := h
  refine ⟨?_, ?_, ?_, ?_, ?_, ?_, ?_, ?_, fun k hk => ?_, fun sp b => ?_⟩
  case refine_9 =>
    rw [BitVec.getLsbD_append]
    simp [hk, State.wdebugRead]
  case refine_10 => exact (peekByte_xfers ..).trans (s.peekByte_wdebugRead hc ..)
  case refine_1 =>
    have hregs : (s.wdebugRead a).getR = s.getR := by simp [State.wdebugRead]
    exact (State.getR_congr (fun _ => rfl) fun _ => rfl).trans hregs
  all_goals simp [State.wdebugRead]

/-- What WDEBUG leaves, from the state in which the breakpoints on its reads were taken. -/
theorem wdebug_leaves (hs : s.super = true) (hc : s.cacheOff) (ha : (s.address ea .l).extractLsb' 0 2 = 0#2)
    (hm : s.bytes (s.address ea .l) 8 = beBytes 4 (wdmregWord drc v) ++ beBytes 4 (valueWord v low)) {u : State}
    (hu : (s.wdebugRead (s.address ea .l)).takeBreakpoints = .next u) (hk : WdebugKept s u) :
    ∃ t, exec (.wdebug 0x0003#16 ea) s = .next t ∧ t.getR = s.getR ∧ t.cpu.sr = s.cpu.sr ∧
      t.cpu.pc = s.after (1 + eaLen ea) ∧ t.mac = s.mac ∧ t.ctl = s.ctl ∧ t.ev = u.ev ∧ t.pins = s.pins ∧
      t.bdm = s.bdm ∧ (∃ b, t.dbg = if s.dbg.csr.getLsbD 16 = true then u.dbg else debugWritten u.dbg drc v b) ∧
      (t.dbg.csr.getLsbD 15 = s.dbg.csr.getLsbD 15 → SameMem s t) := by
  have hex := exec_wdebug hs hc ha hm hu
  obtain ⟨f, b, hw⟩ := u.coreWriteDebug_eq drc v
  rw [hw] at hex
  have hregs : ∀ g : Dbg, ({ u with dbg := g, free := f } : State).getR = u.getR := fun _ =>
    State.getR_congr (fun _ => rfl) fun _ => rfl
  refine ⟨_, hex, ?_, hk.sr, ?_, hk.mac, hk.ctl, rfl, hk.pins, hk.bdm, ⟨b, ?_⟩, fun hmap a => ?_⟩
  · rw [State.advance, State.getR_setPc, hregs, hk.regs]
  · simp [State.advance, State.nextPc, State.after, hk.pc]
  · rw [← hk.csr 16 (by omega)]
    rfl
  · obtain ⟨hr, hd⟩ := State.access_congr (t := State.advance _ _) hmap hk.ctl hk.pins hk.emulator hk.sr
    unfold State.peek
    rw [hr, hd]
    exact hk.mem _ _
end Wdebug

/-- Settles O48: the breakpoints on the reads come before the write; unless they are the reserved response they change the
status and the requests alone. -/
theorem writeDebugRegister : Obligations.WriteDebugRegister := by
  intro s ea drc v low _ hs hc ha hm
  have hread : (s.wdebugRead (s.address ea .l)).dbg = s.dbg ∧ (s.wdebugRead (s.address ea .l)).ev = s.ev := by
    simp [State.wdebugRead]
  obtain ⟨x, hx⟩ := (s.wdebugRead (s.address ea .l)).xfersDone_eq
  refine ⟨fun h => ?_, fun h => ?_⟩
  · have hu := (s.wdebugRead (s.address ea .l)).takeBreakpoints_idle (by rw [hread.1, hread.2]; exact h)
    have := wdebug_leaves hs hc ha hm hu (.of_triggered hc (.refl _))
    rwa [hx, State.ev_setMs, State.dbg_setMs, hread.1, hread.2] at this
  · obtain ⟨u, hu, ht⟩ := (s.wdebugRead (s.address ea .l)).takeBreakpoints_triggered
      (by rw [hread.1]; exact responseOf_ne_reserved h)
    have := wdebug_leaves hs hc ha hm hu (.of_triggered hc ht)
    rw [hx] at ht
    obtain ⟨st, halt, int, f, hh, hi, rfl⟩ := ht
    rw [State.ev_setMs, hread.2] at hh hi
    refine ⟨st, halt, int, hh, hi, ?_⟩
    simp only [State.ev_setMs, State.dbg_setMs, hread.1, hread.2] at this
    exact this
end Sys2Proof.Machine
end

