-- ==== Sys2Proof/Proofs/ExceptionEvents.lean ====
section
/-! PROOF. Sys2Proof/Proofs/ExceptionEvents.lean: interrupts, access errors and rejected frame writes (obligations O52, O53, O54). -/

namespace Sys2Proof.Machine

/-! ### Interrupts and access errors -/

/-- The address of an acknowledge cycle. -/
theorem iackAddr_eq (l : BitVec 3) :
    (0xFFFFFFE0#32 + (l.setWidth 32 <<< 2) : Long) = 0xFFFFFFE0#32 + 4#32 * l.setWidth 32 := by
  revert l
  decide

/-- No local memory answers the acknowledge cycle: the host does. -/
theorem State.iackCycle_host {s : State} {l : BitVec 3}
    (hram : ramClaims s.route { tt := 3#2, tm := l } (0xFFFFFFE0#32 + 4#32 * l.setWidth 32) = false)
    (hrom : romClaims s.route { tt := 3#2, tm := l } (0xFFFFFFE0#32 + 4#32 * l.setWidth 32) = false) :
    (s.iackCycle l).1 = s.pins.iack[l.toNat]'l.isLt := by
  rw [← iackAddr_eq] at hram hrom
  simp only [State.iackCycle, hram, hrom]
  rfl

theorem entrySr_interrupt (sr : Word) (l : BitVec 3) :
    entrySr sr (some l) &&& srMask = handlerSr sr &&& 0xE8FF#16 ||| l.setWidth 16 <<< 8 := by
  have hl : (l.setWidth 16 <<< 8 : Word) &&& srMask = l.setWidth 16 <<< 8 := by
    revert l
    decide
  show (((sr ||| 0x2000#16) &&& 0x7FFF#16) &&& 0xE8FF#16 ||| l.setWidth 16 <<< 8) &&& srMask = _
  rw [BitVec.and_or_distrib_right, hl, handlerSr, BitVec.and_assoc _ 0xE8FF#16, BitVec.and_comm 0xE8FF#16,
    ← BitVec.and_assoc]

/-- Settles O52: the vector number is read in the acknowledge cycle, after the mask was set. -/
theorem interruptEntry : Obligations.InterruptEntry := by
  intro s l hs hram hrom r
  let e : Entry := { stackedPc := s.cpu.pc, fs := 0#4, vector := 0#8, irq := some l, emulator := false }
  have hr : r.CanEnter := ⟨hs.cache, hs.frame, hs.idle⟩
  have hv : r.vectorOf e = s.pins.iack[l.toNat]'l.isLt := by
    obtain ⟨hk, -, -⟩ := r.entryMode_kept e 0xC#4
    have hroute : ((r.entryMode e).pst 0xC#4).route = s.route := by
      rw [hk.route, r.intoMode_eq rfl]
      rfl
    have hpins : ((r.entryMode e).pst 0xC#4).pins = s.pins := hk.pins
    show (((r.entryMode e).pst 0xC#4).iackCycle l).1 = _
    rw [State.iackCycle_host (by rw [hroute]; exact hram) (by rw [hroute]; exact hrom)]
    simp only [hpins]
  have := (State.takeException_entersAs hr e rfl).1
  rw [hv, entrySr_interrupt] at this
  exact this

/-- Settles O53: the test for a pending access error is the first of the boundary. -/
theorem accessErrorTaken : Obligations.AccessErrorTaken := by
  intro s hs hw hb
  let r := s.setEv { s.ev with tracePending := false }
  have hr : r.CanEnter := ⟨hs.cache, hs.frame, hs.idle⟩
  have hsame : SameEntry r (r.setMs { r.ms with writeError := false }) :=
    ⟨by simp, rfl, rfl, rfl, rfl, rfl, rfl, rfl, fun b => peekByte_writeError ..⟩
  obtain ⟨henters, hwe⟩ := State.takeException_enters hr hsame
    (e := { stackedPc := s.cpu.pc, fs := 9#4, vector := 2#8, irq := none, emulator := false }) rfl rfl
  refine ⟨r.accessError s.cpu.pc, if_pos (by rw [hw, hb]; rfl), hwe, henters⟩

/-! ### A rejected frame write -/

/-- An aligned write never takes back an access error. -/
theorem writePiece_writeError_mono {r : Route} (h : r.Off) {m : MemSys} (sp : Space) (a : Long) (bs : List Byte)
    (hm : m.writeError = true) : (writePiece r m sp a bs).writeError = true := by
  unfold writePiece
  rw [usesCache_off h]
  split
  · split
    · rfl
    · exact hm
  split
  · split
    · rfl
    · exact hm
  split
  · rfl
  · rw [if_neg (by simp), externalWrite_writeError]
    exact hm

theorem writePieces_writeError_mono {r : Route} (h : r.Off) (sp : Space) (l : List (Long × Nat)) {m : MemSys}
    (bs : List Byte) (hm : m.writeError = true) : (writePieces r m sp l bs).writeError = true := by
  induction l generalizing m bs with
  | nil => exact hm
  | cons c t ih =>
    obtain ⟨st, x, e⟩ := writePieces_cons r m sp c t bs
    rw [e]
    exact ih _ (writePiece_writeError_mono (m := { m with stale := st }) h _ _ _ hm)

theorem frameAddr_pieces (a7 : Long) : pieces (frameAddr a7) .l = [(frameAddr a7, 4)] := by
  simp [pieces, frameAddr]

/-- A frame whose first longword is rejected leaves an access error. -/
theorem writeFrame_rejected {r : Route} (h : r.Off) (m : MemSys) (sp : Space) (a7 b : Long) (v w : Long)
    (hr : byteRejected r sp (frameAddr a7)) :
    (writeOperand r (writeOperand r m sp (frameAddr a7) .l v) sp b .l w).writeError = true := by
  refine writePieces_writeError_mono h _ _ _ ?_
  rw [writeOperand, frameAddr_pieces]
  obtain ⟨st, x, e⟩ := writePieces_cons r m sp (frameAddr a7, 4) [] (beBytes Size.l.bytes v)
  rw [e, writePiece_rejected _ _ _ _ hr]
  rfl

/-- An exception whose first frame write is rejected ends in the fault-on-fault halt. -/
theorem State.takeException_faults {s : State} {e : Entry} (hc : s.cacheOff) (hi : s.ev.inException = false)
    (he : e.emulator = false) (hr : byteRejected s.route s.superSpace (frameAddr s.sp)) :
    let t := s.takeException e
    t.ev.run = .halted ∧ t.ev.faultOnFault = true ∧ t.dbg = { s.dbg with csr := haltSource s.dbg.csr 27 } ∧
      t.getR = s.getR ∧ t.cpu.sr = entrySr s.cpu.sr e.irq &&& srMask ∧ t.mac = s.mac ∧ t.ctl = s.ctl := by
  have hm := s.intoMode_eq he
  obtain ⟨a1, a2, a3, -, -⟩ := State.atFrame_kept s e (by rw [hm]; exact hc)
  rw [hm] at a1
  obtain ⟨f1, f2, f3⟩ := State.entryFrame_kept a1 a3 e (s.vectorOf e) s.cpu.sr
  have hwe : ((s.atFrame e).entryFrame e (s.vectorOf e) s.cpu.sr).ms.writeError = true := by
    rw [f3]
    exact writeFrame_rejected hc _ _ _ _ _ _ hr
  rw [State.takeException_eq s e hi]
  simp only [hwe, if_true]
  obtain ⟨g1, g2, g3, g4, -, -, -, -, -, g10, g11⟩ :=
    State.faultOnFault_leaves ((s.atFrame e).entryFrame e (s.vectorOf e) s.cpu.sr)
  refine ⟨by rw [g11], by rw [g11], by rw [g10, f1.dbg], g2.trans f1.regs, g1.trans (f2.trans a2), g3.trans f1.mac,
    g4.trans f1.ctl⟩

/-- Settles O54: neither A7 nor the PC of a handler is loaded after the rejected write. -/
theorem faultOnFault : Obligations.FaultOnFault := by
  intro s n hc hi hr
  obtain ⟨h1, h2, h3, h4, h5, h6, h7⟩ := State.takeException_faults (s := s.pst 1#4)
    (e := { stackedPc := s.nextPc 0, fs := 0#4, vector := 0x20#8 + n.setWidth 8, irq := none, emulator := false })
    (by rw [State.cacheOff, State.route_pst]; exact hc) (by rw [State.ev_pst]; exact hi) rfl
    (by rw [State.route_pst, (SameEntry.pst s 1#4).superSpace, State.sp_pst]; exact hr)
  exact ⟨_, rfl, h1, h2, by rw [State.dbg_pst] at h3; exact h3, h4.trans (State.getR_pst ..),
    by rw [State.sr_pst] at h5; exact h5, h6.trans (State.mac_pst ..), h7.trans (State.ctl_pst ..)⟩
end Sys2Proof.Machine
end

