-- ==== Sys2Proof/Proofs/ExceptionReturns.lean ====
section
/-! PROOF. Sys2Proof/Proofs/ExceptionReturns.lean: RTE (obligation O49; spec/43_program_control.md R396). -/

namespace Sys2Proof.Machine

/-! ### What no read changes -/

/-- Memories that hold the same RAM, and the same bytes behind the M-Bus once the buffers are empty. -/
structure SameStorage (m n : MemSys) : Prop where
  ram : n.ram = m.ram
  bus : busPair (settle n) = busPair (settle m)

theorem SameStorage.trans {m n k : MemSys} (h : SameStorage m n) (h' : SameStorage n k) : SameStorage m k :=
  ⟨h'.ram.trans h.ram, h'.bus.trans h.bus⟩

/-- Memories whose buffers were emptied. -/
theorem SameStorage.settled {m n : MemSys} (hram : n.ram = (settle m).ram) (hmem : n.mem = (settle m).mem)
    (hemem : n.emem = (settle m).emem) (hpush : n.push = none) (hst : n.stores = []) : SameStorage m n := by
  refine ⟨by rw [hram, settle_ram], ?_⟩
  rw [busPair_settle n, hpush, hst]
  simp [pairStores, pairPush, busPair, hmem, hemem]

theorem SameStorage.drain (r : Route) (m : MemSys) : SameStorage m (drain r m) := by
  obtain ⟨hm, he, -, -, hst, hpush⟩ := drain_spec r m
  exact .settled (by rw [drain_ram, settle_ram]) hm he hpush hst

theorem SameStorage.readPiece {r : Route} (h : r.Off) (m : MemSys) (sp : Space) (f : Bool) (a : Long) (n : Nat) :
    SameStorage m (readPiece r m sp f a n).2 := by
  unfold Machine.readPiece
  rw [usesCache_off h]
  split
  · exact ⟨rfl, rfl⟩
  split
  · exact ⟨rfl, rfl⟩
  split
  · next hc => simp at hc
  split
  · exact ⟨rfl, rfl⟩
  split
  · exact .settled rfl rfl rfl (settle_push m) (settle_stores m)
  · unfold busRead
    split <;> exact .settled rfl rfl rfl (settle_push m) (settle_stores m)

theorem SameStorage.readPieces {r : Route} (h : r.Off) (m : MemSys) (sp : Space) (l : List (Long × Nat)) :
    SameStorage m (readPieces r m sp l).2 := by
  induction l generalizing m with
  | nil => exact ⟨rfl, rfl⟩
  | cons c t ih =>
    have hn : ∀ k x, SameStorage k (note k x) := fun k x => ⟨rfl, by rw [busPair_settle, busPair_settle]; rfl⟩
    exact ((SameStorage.readPiece h m sp false c.1 c.2).trans (hn _ _)).trans (ih _)

/-! ### RTE -/

/-- The state in which RTE begins its reads. -/
def State.rteStart (s : State) : State := s.drainBuffers.pst 7#4

/-- The state after RTE has read the first longword of the frame. -/
def State.rteFormat (s : State) : State := (s.rteStart.load s.rteStart.sp .l).2

/-- The state after RTE has read both. -/
def State.rteFrame (s : State) : State := (s.rteFormat.loadQuiet (s.rteFormat.sp + 4#32) .l).2

/-- The state in which RTE has loaded SR, A7 and left emulator mode: `w` and `t` are the longwords of the frame. -/
def State.rteLoaded (s : State) (w t : Long) : State :=
  let u := (State.showUser s (s.rteFrame.setSr (w.extractLsb' 0 16))).showRead .l t
  let v := u.setSp (u.sp + 4#32 + (w.extractLsb' 28 4).setWidth 32)
  v.setEv { v.ev with emulator := false, inhibitBp := v.ev.inhibitBp || v.ev.emulator }

section Rte
variable {s : State}

theorem State.sp_rteStart (s : State) : s.rteStart.sp = s.sp := by
  simp [State.rteStart, State.sp]

theorem State.sp_rteFormat (s : State) : s.rteFormat.sp = s.sp := by
  have h : s.rteFormat.getR = s.getR := by simp [State.rteFormat, State.rteStart]
  rw [State.sp, ← State.getR_aNum, h, State.getR_aNum, State.sp]

theorem State.route_rteStart (s : State) : s.rteStart.route = s.route :=
  State.route_congr (by simp [State.rteStart]) (by simp [State.rteStart]) (by simp [State.rteStart])
    (by simp [State.rteStart])

theorem State.route_rteFormat (s : State) : s.rteFormat.route = s.route :=
  State.route_congr (by simp [State.rteFormat, State.rteStart]) (by simp [State.rteFormat, State.rteStart])
    (by simp [State.rteFormat, State.rteStart]) (by simp [State.rteFormat, State.rteStart])

theorem State.dataSpace_rteStart (s : State) : s.rteStart.dataSpace = s.dataSpace :=
  State.dataSpace_congr (by simp [State.rteStart]) (by simp [State.rteStart]) (by simp [State.rteStart, State.super])

theorem State.dataSpace_rteFormat (s : State) : s.rteFormat.dataSpace = s.dataSpace :=
  State.dataSpace_congr (by simp [State.rteFormat, State.rteStart]) (by simp [State.rteFormat, State.rteStart])
    (by simp [State.rteFormat, State.rteStart, State.super])

theorem SameStorage.rteFrame (hc : s.cacheOff) : SameStorage s.ms s.rteFrame.ms := by
  have h0 : SameStorage s.ms s.rteStart.ms := by
    rw [State.rteStart, State.ms_pst, State.ms_drainBuffers]
    exact .drain ..
  have h1 : SameStorage s.rteStart.ms s.rteFormat.ms := by
    rw [State.rteFormat, State.ms_load, State.route_rteStart]
    exact .readPieces hc ..
  have h2 : SameStorage s.rteFormat.ms s.rteFrame.ms := by
    rw [State.rteFrame, State.ms_loadQuiet, State.route_rteFormat]
    exact .readPieces hc ..
  exact (h0.trans h1).trans h2

theorem State.peekByte_rteFormat (hc : s.cacheOff) (sp : Space) (b : Long) :
    peekByte s.route s.rteFormat.ms sp false b = peekByte s.route s.ms sp false b := by
  rw [State.rteFormat, State.ms_load, State.route_rteStart, peekByte_readOperand hc, State.rteStart, State.ms_pst,
    State.ms_drainBuffers, peekByte_drain hc]

theorem State.peekByte_rteFrame {r : Route} (h : r.Off) (hc : s.cacheOff) (sp : Space) (b : Long) :
    peekByte r s.rteFrame.ms sp false b = peekByte r s.ms sp false b :=
  peekByte_congr h (SameStorage.rteFrame hc).ram (SameStorage.rteFrame hc).bus sp b

/-- The two longwords of the frame, as data. -/
theorem State.load_rte (hc : s.cacheOff) : (s.rteStart.load s.rteStart.sp .l).1 = s.longAt s.sp ∧
    (s.rteFormat.loadQuiet (s.rteFormat.sp + 4#32) .l).1 = s.longAt (s.sp + 4#32) := by
  constructor
  · rw [State.load_val, State.sp_rteStart, State.route_rteStart, State.dataSpace_rteStart, readOperand_val hc]
    refine congrArg beValue (peekBytes_congr (fun b => ?_) _ _)
    rw [State.rteStart, State.ms_pst, State.ms_drainBuffers, peekByte_drain hc]
  · rw [State.loadQuiet_val, State.sp_rteFormat, State.route_rteFormat, State.dataSpace_rteFormat, readOperand_val hc]
    exact congrArg beValue (peekBytes_congr (State.peekByte_rteFormat hc s.dataSpace) _ _)

/-- The courses of RTE. -/
theorem exec_rte (hs : s.super = true) (hc : s.cacheOff) : exec .rte s =
    .next (if !formatOk (s.longAt s.sp) then { s.rteFormat with port := s.port }.formatError
      else if (s.longAt (s.sp + 4#32)).getLsbD 0 then
        (s.rteLoaded (s.longAt s.sp) (s.longAt (s.sp + 4#32))).addressErrorAt s.cpu.pc
      else (((s.rteLoaded (s.longAt s.sp) (s.longAt (s.sp + 4#32))).jumpTo (s.longAt (s.sp + 4#32))).pst 5#4).target
        (s.longAt (s.sp + 4#32))) := by
  obtain ⟨h0, h1⟩ := State.load_rte hc
  rw [← h0, ← h1]
  refine (privileged_super hs _).trans (congrArg Host.Outcome.next ?_)
  rfl

/-- The format of a frame that RTE accepts. -/
theorem formatOk_iff (w : Long) : formatOk w = true ↔ 4 ≤ w.toNat / 2 ^ 28 ∧ w.toNat / 2 ^ 28 ≤ 7 := by
  have h : (w.extractLsb' 30 2).toNat = w.toNat / 2 ^ 30 := by
    rw [BitVec.extractLsb'_toNat, Nat.shiftRight_eq_div_pow]
    have := w.isLt
    omega
  rw [formatOk, beq_iff_eq, ← BitVec.toNat_inj, h]
  have := w.isLt
  simp
  omega

/-- Marks and items change the trace port alone. -/
theorem State.event_eq (s : State) (e : PortEvent) : ∃ p, s.event e = { s with port := p } := by
  unfold State.event
  split
  · exact ⟨s.port, rfl⟩
  · exact ⟨_, rfl⟩

theorem State.showRead_eq (s : State) (sz : Size) (v : Long) : ∃ p, s.showRead sz v = { s with port := p } := by
  unfold State.showRead
  split
  · exact s.event_eq _
  · exact ⟨s.port, rfl⟩

theorem State.showUser_eq (old s : State) : ∃ p, State.showUser old s = { s with port := p } := by
  rcases State.showUser_cases old s with h | h <;> rw [h]
  · exact s.event_eq _
  · exact ⟨s.port, rfl⟩

/-- What RTE reads leaves every register and the run state. -/
theorem State.rteFrame_kept (s : State) : s.rteFrame.getR = s.getR ∧ s.rteFrame.ev = s.ev ∧ s.rteFrame.mac = s.mac ∧
    s.rteFrame.ctl = s.ctl ∧ s.rteFrame.dbg = s.dbg ∧ s.rteFrame.pins = s.pins ∧ s.rteFrame.bdm = s.bdm := by
  simp [State.rteFrame, State.rteFormat, State.rteStart]

/-- What RTE changes besides the trace port, of a frame whose format is right. -/
theorem State.rteLoaded_kept (s : State) (w t : Long) :
    (s.rteLoaded w t).cpu.sr = w.setWidth 16 &&& 0xB79F#16 ∧
      (s.rteLoaded w t).getR = withReg s.getR (aNum spReg) (s.sp + 4#32 + BitVec.ofNat 32 (w.toNat / 2 ^ 28)) ∧
      (s.rteLoaded w t).mac = s.mac ∧ (s.rteLoaded w t).ctl = s.ctl ∧ (s.rteLoaded w t).dbg = s.dbg ∧
      (s.rteLoaded w t).pins = s.pins ∧ (s.rteLoaded w t).bdm = s.bdm ∧
      (s.rteLoaded w t).ev = { s.ev with emulator := false, inhibitBp := s.ev.inhibitBp || s.ev.emulator } ∧
      (s.rteLoaded w t).ms = s.rteFrame.ms := by
  have hf : ((w.extractLsb' 28 4).setWidth 32 : Long) = BitVec.ofNat 32 (w.toNat / 2 ^ 28) := by
    apply BitVec.eq_of_toNat_eq
    have := w.isLt
    simp [Nat.shiftRight_eq_div_pow]
    omega
  obtain ⟨hregs, hev, hmac, hctl, hdbg, hpins, hbdm⟩ := s.rteFrame_kept
  have hsp : s.rteFrame.sp = s.sp := by rw [State.sp, ← State.getR_aNum, hregs, State.getR_aNum, State.sp]
  let u0 := s.rteFrame.setSr (w.extractLsb' 0 16)
  obtain ⟨p, hp⟩ := State.showUser_eq s u0
  obtain ⟨q, hq⟩ := ({ u0 with port := p } : State).showRead_eq .l t
  have hu : s.rteLoaded w t = (({ u0 with port := q } : State).setSp (s.sp + 4#32 + BitVec.ofNat 32 (w.toNat / 2 ^ 28))).setEv
      { s.ev with emulator := false, inhibitBp := s.ev.inhibitBp || s.ev.emulator } := by
    rw [← hf, ← hsp, ← hev]
    unfold State.rteLoaded
    rw [hp, hq]
    rfl
  have hq' : ({ u0 with port := q } : State).getR = s.getR := (State.getR_congr (fun _ => rfl) fun _ => rfl).trans hregs
  rw [hu, ← extract16_eq]
  exact ⟨rfl, by rw [State.getR_setEv, State.setSp, State.getR_setA, hq'], hmac, hctl, hdbg, hpins, hbdm, rfl, rfl⟩

/-- RTE of a frame of format 4 to 7 with an even PC. -/
theorem rte_returns (hs : s.super = true) (hc : s.cacheOff) (hf : formatOk (s.longAt s.sp) = true)
    (he : (s.longAt (s.sp + 4#32)).getLsbD 0 = false) :
    ∃ t, exec .rte s = .next t ∧ t.cpu.sr = (s.longAt s.sp).setWidth 16 &&& 0xB79F#16 ∧ t.cpu.pc = s.longAt (s.sp + 4#32) ∧
      t.getR = withReg s.getR (aNum spReg) (s.sp + 4#32 + BitVec.ofNat 32 ((s.longAt s.sp).toNat / 2 ^ 28)) ∧
      t.mac = s.mac ∧ t.ctl = s.ctl ∧ t.dbg = s.dbg ∧ t.pins = s.pins ∧ t.bdm = s.bdm ∧
      t.ev = { s.ev with emulator := false, inhibitBp := s.ev.inhibitBp || s.ev.emulator } ∧
      ∀ sp a, peekByte s.route t.ms sp false a = s.peekIn sp a := by
  have hex := exec_rte hs hc
  rw [hf, he, if_neg (by simp), if_neg (by simp)] at hex
  obtain ⟨k1, k2, k3, k4, k5, k6, k7, k8, k9⟩ := s.rteLoaded_kept (s.longAt s.sp) (s.longAt (s.sp + 4#32))
  refine ⟨_, hex, ?_, ?_, ?_, ?_, ?_, ?_, ?_, ?_, ?_, fun sp a => ?_⟩
  case refine_10 =>
    rw [State.ms_target, State.ms_pst, peekByte_jumpTo, k9]
    exact State.peekByte_rteFrame hc hc sp a
  case refine_3 => simpa [State.jumpTo] using k2
  all_goals simp [State.jumpTo, k1, k3, k4, k5, k6, k7, k8]

/-- RTE of a frame of format 4 to 7 with an odd PC. -/
theorem rte_oddPc (hs : s.super = true) (hc : s.cacheOff) (hf : formatOk (s.longAt s.sp) = true)
    (ho : (s.longAt (s.sp + 4#32)).getLsbD 0 = true) {u : State}
    (hu : u = ((s.setSr ((s.longAt s.sp).setWidth 16)).setSp
      (s.sp + 4#32 + BitVec.ofNat 32 ((s.longAt s.sp).toNat / 2 ^ 28))).setEv
        { s.ev with emulator := false, inhibitBp := s.ev.inhibitBp || s.ev.emulator }) (hcan : u.CanEnter) :
    ∃ t, exec .rte s = .next t ∧ EntersAddressError u t s.cpu.pc := by
  have hex := exec_rte hs hc
  rw [hf, ho, if_neg (by simp), if_pos rfl] at hex
  obtain ⟨k1, k2, k3, k4, k5, k6, k7, k8, k9⟩ := s.rteLoaded_kept (s.longAt s.sp) (s.longAt (s.sp + 4#32))
  have hsame : SameEntry u (s.rteLoaded (s.longAt s.sp) (s.longAt (s.sp + 4#32))) := by
    subst hu
    refine ⟨by simpa [State.setSp] using k2, k1, k3, k4, k5, k8, k6, k7, fun b => ?_⟩
    rw [k9]
    exact State.peekByte_rteFrame hcan.cache hc _ _
  exact ⟨_, hex, State.addressErrorAt_enters hcan hsame _⟩

/-- RTE of a frame of another format. -/
theorem rte_formatError (hs : s.super = true) (hcan : s.CanEnter) (hf : formatOk (s.longAt s.sp) = false) :
    ∃ t, exec .rte s = .next t ∧ Enters s t 14#8 0#4 s.cpu.pc := by
  have hex := exec_rte hs hcan.cache
  rw [hf, if_pos (by rfl)] at hex
  have hkept : s.rteFormat.getR = s.getR ∧ s.rteFormat.cpu.sr = s.cpu.sr ∧ s.rteFormat.mac = s.mac ∧
      s.rteFormat.ctl = s.ctl ∧ s.rteFormat.dbg = s.dbg ∧ s.rteFormat.ev = s.ev ∧ s.rteFormat.pins = s.pins ∧
      s.rteFormat.bdm = s.bdm := by
    simp [State.rteFormat, State.rteStart]
  obtain ⟨k1, k2, k3, k4, k5, k6, k7, k8⟩ := hkept
  have hsame : SameEntry s { s.rteFormat with port := s.port } :=
    ⟨k1, k2, k3, k4, k5, k6, k7, k8, fun b => State.peekByte_rteFormat hcan.cache _ b⟩
  have hpc : s.rteFormat.cpu.pc = s.cpu.pc := by simp [State.rteFormat, State.rteStart]
  rw [← hpc]
  exact ⟨_, hex, State.raiseFault_entersFrom hcan hsame 14#8⟩
end Rte

/-- Settles O49: the format is tested before anything is loaded, the PC after SR and A7 are. -/
theorem returnFromException : Obligations.ReturnFromException := by
  intro s hs hc
  refine ⟨fun h4 h7 he => rte_returns hs hc ((formatOk_iff _).mpr ⟨h4, h7⟩) he,
    fun h4 h7 ho hcan => rte_oddPc hs hc ((formatOk_iff _).mpr ⟨h4, h7⟩) ho rfl hcan, fun h hcan => rte_formatError hs hcan ?_⟩
  rw [← Bool.not_eq_true, formatOk_iff]
  omega
end Sys2Proof.Machine
end

