-- ==== Sys2Proof/Proofs/TrapRoundTrip.lean ====
section
/-! PROOF. Sys2Proof/Proofs/TrapRoundTrip.lean: TRAP and then RTE (obligation O50). -/

namespace Sys2Proof.Machine

/-- The two longwords of a frame, from its bytes. -/
theorem State.longAt_frame {t : State} {a w pc : Long} (h : t.bytes a 8 = beBytes 4 w ++ beBytes 4 pc) :
    t.longAt a = w ∧ t.longAt (a + 4#32) = pc := by
  have hsplit : peekBytes t.route t.ms t.dataSpace a 8 =
      peekBytes t.route t.ms t.dataSpace a 4 ++ peekBytes t.route t.ms t.dataSpace (a + 4#32) 4 :=
    readBytes_append _ _ 4 4
  rw [State.bytes, hsplit] at h
  obtain ⟨h1, h2⟩ := List.append_inj h (by simp [peekBytes])
  exact ⟨by rw [State.longAt, State.bytes, h1, beValue_beBytes], by rw [State.longAt, State.bytes, h2, beValue_beBytes]⟩

/-- The format field of a frame (R507). -/
theorem frameWord_format (a7 : Long) (fs : BitVec 4) (v : Byte) (sr : Word) :
    (frameWord a7 fs v sr).toNat / 2 ^ 28 = 4 + a7.toNat % 4 := by
  have hf : (frameWord a7 fs v sr).extractLsb' 28 4 = frameFormat a7 := by
    apply BitVec.eq_of_getLsbD_eq
    intro i hi
    rw [BitVec.getLsbD_extractLsb', frameWord]
    simp only [BitVec.getLsbD_append]
    have h16 : ¬ 28 + i < 16 := by omega
    have h2 : ¬ 28 + i - 16 < 2 := by omega
    have h8 : ¬ 28 + i - 16 - 2 < 8 := by omega
    have h2' : ¬ 28 + i - 16 - 2 - 8 < 2 := by omega
    simp [hi, h16, h2, h8, h2', show 28 + i - 16 - 2 - 8 - 2 = i by omega]
  have hn := congrArg BitVec.toNat hf
  have := (frameWord a7 fs v sr).isLt
  simp [frameFormat, BitVec.extractLsb'_toNat, Nat.shiftRight_eq_div_pow] at hn
  omega

theorem frameWord_sr (a7 : Long) (fs : BitVec 4) (v : Byte) (sr : Word) : (frameWord a7 fs v sr).setWidth 16 = sr := by
  apply BitVec.eq_of_getLsbD_eq
  intro i hi
  rw [BitVec.getLsbD_setWidth, frameWord]
  simp only [BitVec.getLsbD_append]
  simp [hi]

/-- RTE undoes the alignment of the frame (R507). -/
theorem frameAddr_undone (a7 : Long) : frameAddr a7 + 4#32 + BitVec.ofNat 32 (4 + a7.toNat % 4) = a7 := by
  have hmask : (a7 - 8#32) &&& 0xFFFFFFFC#32 = (a7 - 8#32).extractLsb' 2 30 ++ 0#2 := by
    apply BitVec.eq_of_getLsbD_eq
    intro k hk
    rw [BitVec.getLsbD_append]
    interval_cases k <;> simp
  have hnat : ((a7 - 8#32) &&& 0xFFFFFFFC#32).toNat = (a7 - 8#32).toNat / 4 * 4 := by
    rw [hmask, BitVec.toNat_append, BitVec.extractLsb'_toNat, BitVec.toNat_ofNat]
    have := (a7 - 8#32).isLt
    simp [Nat.shiftLeft_eq, Nat.shiftRight_eq_div_pow]
    omega
  rw [frameAddr]
  bv_omega

/-- A word without a bit outside the mask. -/
theorem and_of_and_not {w : Nat} {x m : BitVec w} (h : x &&& ~~~m = 0#w) : x &&& m = x := by
  ext i hi
  have := congrArg (fun y => y.getLsbD i) h
  simp [hi] at this ⊢
  exact this

theorem handlerSr_super (sr : Word) : (handlerSr sr).getLsbD 13 = true := by
  simp [handlerSr, srMask]

/-- An exception that ends in no fault-on-fault halt found an even handler. -/
theorem Enters.entered {s t : State} {v : Byte} {fs : BitVec 4} {pc : Long} (h : Enters s t v fs pc)
    (hf : t.ev.faultOnFault = false) :
    t.dbg = s.dbg ∧ t.ev = { s.ev with inhibitInt := true, inException := false } := by
  cases ho : (t.longAt (s.ctl.vbr + 4#32 * v.setWidth 32)).getLsbD 0 with
  | false => exact (h.handler ho).2
  | true => exact absurd ((h.odd ho).2.1.symm.trans hf) (by simp)

/-- RTE of the frame that an exception has left. -/
theorem rte_after_entry {s t : State} {v : Byte} {fs : BitVec 4} {pc : Long} (hc : s.cacheOff) (h : Enters s t v fs pc)
    (hf : t.ev.faultOnFault = false) (hemu : s.ev.emulator = false) (hpc : pc.getLsbD 0 = false)
    (hsr : s.cpu.sr &&& ~~~0xB79F#16 = 0#16) :
    ∃ u, exec .rte t = .next u ∧ u.getR = s.getR ∧ u.cpu.sr = s.cpu.sr ∧ u.cpu.pc = pc ∧ u.mac = s.mac ∧
      u.ctl = s.ctl ∧ u.dbg = s.dbg ∧
      ∀ a, Outside (frameAddr s.sp) 8 a → u.peekIn s.superSpace a = s.peekIn s.superSpace a := by
  obtain ⟨hdbg, hev⟩ := h.entered hf
  have hsp : t.sp = frameAddr s.sp := by
    rw [State.sp, ← State.getR_aNum, h.regs]
    simp [withReg, frameAddr]
  have hsuper : t.super = true := by rw [State.super, h.sr, handlerSr_super]
  have hoff : t.cacheOff := by
    have := hc
    unfold State.cacheOff Route.Off State.route at this ⊢
    rwa [h.ctl]
  have hmap : t.emuMap = s.emuMap := by rw [State.emuMap, hev, hdbg, State.emuMap]
  have hspace : t.dataSpace = s.superSpace := by rw [State.dataSpace, hmap, hsuper]; rfl
  obtain ⟨hw, hp⟩ := State.longAt_frame h.frame
  have hfmt : (t.longAt t.sp).toNat / 2 ^ 28 = 4 + s.sp.toNat % 4 := by rw [hw, frameWord_format]
  have hok : formatOk (t.longAt t.sp) = true := (formatOk_iff _).mpr (by omega)
  obtain ⟨u, hex, usr, upc, uregs, umac, uctl, udbg, upins, -, uev, umem⟩ :=
    rte_returns hsuper hoff hok (hp ▸ hpc)
  refine ⟨u, hex, ?_, ?_, upc.trans hp, umac.trans h.mac, uctl.trans h.ctl, udbg.trans hdbg, fun a ha => ?_⟩
  · rw [uregs, hfmt, hsp, frameAddr_undone, h.regs]
    funext j
    unfold withReg
    split
    · next hj => rw [hj, State.getR_aNum, State.sp]
    · rfl
  · rw [usr, hw, frameWord_sr]
    exact and_of_and_not hsr
  · have hroute : u.route = t.route := by
      have : u.emuMap = t.emuMap := by simp [State.emuMap, uev, hev, hemu]
      rw [State.route, State.route, uctl, upins, udbg, this]
    have hrest := h.rest a (hsp ▸ ha)
    rw [State.peek, hspace] at hrest
    rw [State.peekIn, hroute, umem, State.peekIn, hrest]

/-- Settles O50. -/
theorem trapAndReturn : Obligations.TrapAndReturn := by
  intro s t n hs hex hf hemu hpc hsr
  obtain ⟨t', hex', h⟩ := (traps s n hs).1
  obtain rfl : t' = t := by simpa using hex'.symm.trans hex
  exact rte_after_entry hs.cache h hf hemu hpc hsr
end Sys2Proof.Machine
end

