-- ==== Sys2Proof/Proofs/BoundaryEvents.lean ====
section
/-! PROOF. Sys2Proof/Proofs/BoundaryEvents.lean: the boundary and the PC breakpoint (obligations O3, O7, O8, O9, O51, O59). -/

namespace Sys2Proof.Machine

/-- Settles O3. -/
theorem wordsOfTheTable : Obligations.WordsOfTheTable :=
  ⟨rfl, rfl, rfl, rfl, rfl, rfl, rfl, rfl, rfl, rfl⟩

/-! ### The boundary -/

section Boundary
variable {s : State}

/-- No PC breakpoint fires while no level is enabled. -/
theorem State.pcBreakpoint_disabled (h1 : s.dbg.tdr.getLsbD 13 = false) (h2 : s.dbg.tdr.getLsbD 29 = false) :
    s.pcBreakpoint = .next s := by
  have hf : ∀ l2, pcTrigger s.dbg l2 s.cpu.pc = false := by
    have hl : ∀ l2, levelEnabled s.dbg l2 = false
      | false => h1
      | true => h2
    intro l2
    rw [pcTrigger, hl]
    simp
  have hn : triggerStep s.dbg (fun l2 => pcTrigger s.dbg l2 s.cpu.pc) = none := by simp [triggerStep, hf]
  rw [State.pcBreakpoint, hn]
  split <;> rfl

/-- A boundary with no access error, trace exception or single step to take. -/
theorem State.boundary_eq {t : State} (hw : s.ms.writeError = false) (ht : s.ev.tracePending = false)
    (hs : s.ev.stepDone = false) (hr : s.ev.run = .running) (hb : s.pcBreakpoint = .next t) :
    s.boundary = t.boundaryHalts (t.ev.haltTrg && !s.ev.haltTrg) := by
  simp [State.boundary, State.boundaryStop, hw, ht, hs, hr, hb]

/-- A boundary at which no breakpoint can fire and no halt is asked for. -/
theorem State.boundary_interrupts (hw : s.ms.writeError = false) (ht : s.ev.tracePending = false)
    (hs : s.ev.stepDone = false) (hr : s.ev.run = .running) (h1 : s.dbg.tdr.getLsbD 13 = false)
    (h2 : s.dbg.tdr.getLsbD 29 = false) (htrg : s.ev.haltTrg = false) (hbkpt : s.ev.haltBkpt = false) :
    s.boundary = s.boundaryInterrupts := by
  rw [State.boundary_eq hw ht hs hr (State.pcBreakpoint_disabled h1 h2)]
  simp [State.boundaryHalts, htrg, hbkpt]

/-- The level on the pins (R69). -/
theorem State.level_eq (s : State) : s.level = 7#3 - s.pins.miplb ∧ s.level.toNat = 7 - s.pins.miplb.toNat := by
  have h : s.level = 7#3 - s.pins.miplb := by
    unfold State.level
    generalize s.pins.miplb = l
    revert l
    decide
  refine ⟨h, ?_⟩
  rw [h, BitVec.toNat_sub]
  have := s.pins.miplb.isLt
  simp
  omega

/-- When a request passes the mask (R540). -/
theorem State.takesInterrupt_iff (s : State) : s.takesInterrupt = true ↔
    s.ipl.toNat < 7 - s.pins.miplb.toNat ∨ s.pins.miplb = 0#3 ∧ s.ev.nmiTaken = false := by
  have hl : (s.level == 7#3) = true ↔ s.pins.miplb = 0#3 := by
    rw [beq_iff_eq, State.level]
    generalize s.pins.miplb = l
    revert l
    decide
  rw [State.takesInterrupt, Bool.or_eq_true, decide_eq_true_iff, Bool.and_eq_true, hl, BitVec.lt_def, s.level_eq.2,
    Bool.not_eq_true']
end Boundary

/-- Settles O51. -/
theorem interruptRecognition : Obligations.InterruptRecognition := by
  intro s hr hw ht hs htrg hbkpt hdbg htaken h1 h2 hack hcsr
  rw [State.boundary_interrupts hw ht hs hr h1 h2 htrg hbkpt]
  have hoff : s.interruptsOff = (s.ev.inhibitInt || s.ev.emulator) := by
    rw [State.interruptsOff, htaken, hcsr]
    simp
  rw [State.boundaryInterrupts, hoff, hdbg, hack, ← s.level_eq.1]
  cases hin : s.ev.inhibitInt || s.ev.emulator with
  | true => simp
  | false =>
    have hiff := s.takesInterrupt_iff
    by_cases htk : s.takesInterrupt = true
    · rw [if_pos (c := _ ∧ _) ⟨rfl, hiff.mp htk⟩]
      simp [htk]
    · rw [if_neg (c := _ ∧ _) fun h => htk (hiff.mpr h.2)]
      simp [htk]

/-- Settles O7: with no request on the pins, the boundary has nothing to take. -/
theorem quietBoundary : Obligations.QuietBoundary := by
  intro s ⟨hr, hw, ht, hs, ⟨htrg, hbkpt⟩, hdbg, ⟨hpin, hipl⟩, h1, h2⟩
  refine ⟨?_, rfl, rfl, rfl⟩
  have hdbg' : s.fresh.sample.ev.debugInt = false := by
    simp [State.fresh, State.sample, State.bkptEdge, State.setEv, hdbg, hpin]
  have hbk : s.fresh.sample.ev.haltBkpt = false := by
    simp [State.fresh, State.sample, State.bkptHalt, State.setEv, hbkpt, hpin]
  have htk : s.fresh.sample.takesInterrupt = false := by
    rw [← Bool.not_eq_true, State.takesInterrupt_iff, show s.fresh.sample.pins = s.pins from rfl, hipl]
    simp
  rw [State.boundary_interrupts (s := s.fresh.sample) hw ht hs hr h1 h2 htrg hbk]
  simp [State.boundaryInterrupts, hdbg', htk]

/-- Settles O8. -/
theorem afterInstruction : Obligations.AfterInstruction := by
  intro s0 t hsync h1 h5
  have hr : (if s0.ev.inhibitBp || t.ev.inhibitBp then (.next t : Res) else t.xferBreakpoints s0.cpu.pc t.ms.xfers) =
      .next t := by
    rw [State.xferBreakpoints_idle h1 h5, ite_self]
  rw [State.endInstr, hr]
  exact congrArg Host.Outcome.next (if_neg (by simp [State.setEv, hsync]))

/-- Settles O9. -/
theorem resetInvariant : Obligations.ResetInvariant := by
  refine ⟨⟨rfl, rfl, rfl, rfl, Nat.zero_le 4⟩, ?_, nofun, nofun, rfl⟩
  constructor <;> decide

/-! ### PC breakpoints -/

/-- The PC breakpoint with the halt response (R646, R651, R652). -/
theorem State.pcBreakpoint_halt {s : State} (hi : s.ev.inhibitBp = false) (htdr : s.dbg.tdr = 0x40002002#32)
    (hst : statusOf s.dbg = 1#3) (hm : s.dbg.pbmr = 0#32) : s.pcBreakpoint =
      if s.cpu.pc = s.dbg.pbr then .next ((s.setStatus 2#3).setEv { s.ev with haltTrg := true }) else .next s := by
  have hp : pcTrigger s.dbg false s.cpu.pc = decide (s.cpu.pc = s.dbg.pbr) := by
    have heq : maskedEq s.cpu.pc s.dbg.pbr 0#32 = decide (s.cpu.pc = s.dbg.pbr) := by
      rw [maskedEq, show ~~~(0#32 : Long) = BitVec.allOnes 32 from rfl, BitVec.and_allOnes, Bool.eq_iff_iff, beq_iff_eq,
        BitVec.xor_eq_zero_iff, decide_eq_true_iff]
    rw [pcTrigger, pcCondition, hm, heq]
    simp [levelEnabled, tdrBit, htdr, pcEnabled, addrEnabled, dataEnabled]
  have hl : levelEnabled s.dbg true = false := by simp [levelEnabled, tdrBit, htdr]
  have hres : responseOf s.dbg = .halt := by simp [responseOf, htdr]
  rw [State.pcBreakpoint, hi, if_neg (by simp), triggerStep, hst, hp, hl, hres]
  by_cases h : s.cpu.pc = s.dbg.pbr
  · simp [h, State.respond]
  · simp [h, State.respond]

/-- The halt source of a trigger, and what it leaves of the status (R596). -/
theorem haltSource_source (c : Long) : (haltSource c 26).extractLsb' 24 4 = 4#4 := by
  apply BitVec.eq_of_getLsbD_eq
  intro k hk
  rw [haltSource, BitVec.getLsbD_extractLsb', BitVec.getLsbD_or, BitVec.getLsbD_and]
  interval_cases k <;> simp

theorem statusOf_haltSource (g : Dbg) : statusOf { g with csr := haltSource g.csr 26 } = statusOf g := by
  apply BitVec.eq_of_getLsbD_eq
  intro k hk
  rw [statusOf, statusOf, BitVec.getLsbD_extractLsb', BitVec.getLsbD_extractLsb', haltSource, BitVec.getLsbD_or,
    BitVec.getLsbD_and]
  interval_cases k <;> simp

/-- Settles O59. -/
theorem pcBreakpoint : Obligations.PcBreakpoint := by
  intro s hr hw ht hs hi htdr hst hm htrg
  have hbp := State.pcBreakpoint_halt hi htdr hst hm
  refine ⟨fun h => ?_, fun h => by rw [hbp, if_neg h]⟩
  rw [if_pos h] at hbp
  rw [State.boundary_eq hw ht hs hr hbp]
  refine ⟨((s.setStatus 2#3).setEv { s.ev with haltTrg := true }).haltFor 26, by simp [State.boundaryHalts, htrg], ?_⟩
  have hdbg : (((s.setStatus 2#3).setEv { s.ev with haltTrg := true }).haltFor 26).dbg =
      { (s.setStatus 2#3).dbg with csr := haltSource (s.setStatus 2#3).dbg.csr 26 } := by
    simp [State.haltFor, State.enterHalted, State.setHaltSource, haltSource]
  refine ⟨by simp [State.haltFor, State.enterHalted], by rw [State.haltFor, State.enterHalted, State.cpu_pst]; rfl, ?_, ?_⟩
  · rw [hdbg]
    exact haltSource_source _
  · rw [hdbg]
    exact (statusOf_haltSource _).trans (statusOf_setStatus ..)
end Sys2Proof.Machine
end

