-- ==== Sys2Proof/Proofs/DebugExchange.lean ====
section
/-! PROOF. Sys2Proof/Proofs/DebugExchange.lean: register commands of the debug module (obligation O60). -/

namespace Sys2Proof.Machine

/-! ### Register commands of the debug module -/

/-- The operation words of the two register commands (R610). -/
theorem decodeCommand_rareg (k : RegX) : decodeCommand (0x2180#16 ||| k.setWidth 16) = some (.rareg k) := by
  revert k; decide

theorem decodeCommand_wareg (k : RegX) : decodeCommand (0x2080#16 ||| k.setWidth 16) = some (.wareg k) := by
  revert k; decide

/-- A word as it comes in (R607). -/
theorem packet_word (w : Word) : (w.setWidth 17 : BitVec 17).extractLsb' 0 16 = w := by
  apply BitVec.eq_of_getLsbD_eq
  intro i hi
  simp [hi, show i < 17 by omega]

theorem long_of_halves (v : Long) : v.extractLsb' 16 16 ++ v.extractLsb' 0 16 = v := by
  apply BitVec.eq_of_getLsbD_eq
  intro k hk
  rw [BitVec.getLsbD_append]
  by_cases h : k < 16
  · simp [h]
  · simp [h, show k - 16 < 16 by omega, show 16 + (k - 16) = k by omega]

section Exchange
variable {s : State}

/-- The first word of a command, with nothing to be answered. -/
theorem State.exchange_first (hcmd : s.bdm.cmd = []) (hresp : s.bdm.resp = []) (w : Word) :
    s.exchange (w.setWidth 17) = (s.answer completePacket []).assemble [w] := by
  rw [State.exchange, hcmd, hresp, packet_word]

/-- A further word of a command. -/
theorem State.exchange_more {c : Word} {cs : List Word} (hcmd : s.bdm.cmd = c :: cs) (w : Word) :
    s.exchange (w.setWidth 17) = (s.answer notReadyPacket []).assemble (c :: cs ++ [w]) := by
  rw [State.exchange, hcmd, packet_word]

/-- A command that lacks words waits for them. -/
theorem State.assemble_waits {ws : List Word} {c : Command} (hc : decodeCommand (commandWord ws 0) = some c)
    (hl : ws.length ≠ 1 + commandExt c) : s.assemble ws = .ok { s with bdm := { s.bdm with cmd := ws, resp := [] } } := by
  rw [State.assemble, hc]
  exact if_neg hl

/-- A complete command is performed. -/
theorem State.assemble_performs {ws : List Word} {c : Command} {rs : Reply × State}
    (hc : decodeCommand (commandWord ws 0) = some c) (hl : ws.length = 1 + commandExt c)
    (hx : s.bdmCommand c ws = .ok rs) :
    s.assemble ws = .ok { rs.2 with
      bdm := { rs.2.bdm with cmd := [], resp := replyPackets rs.1 }, ms := { rs.2.ms with xfers := [] } } := by
  rw [State.assemble, hc]
  refine (if_pos hl).trans ?_
  rw [hx]
  rfl

theorem State.whenHalted_halted (h : s.ev.run = .halted) (n : Nat) (k : Reply × State) : s.whenHalted n k = k :=
  if_pos h
end Exchange

/-- The register read (R612). -/
theorem exchange_rareg {s : State} (k : RegX) (hrun : s.ev.run = .halted) (hcmd : s.bdm.cmd = []) (hresp : s.bdm.resp = []) :
    ∃ t, s.exchange ((0x2180#16 ||| k.setWidth 16).setWidth 17) = .ok t ∧
      t.bdm.resp = [((s.getR k).extractLsb' 16 16).setWidth 17, ((s.getR k).extractLsb' 0 16).setWidth 17] ∧
      t.bdm.tx = s.bdm.tx ++ [0x0FFFF#17] ∧ t.cpu = s.cpu := by
  let s0 : State := { s.answer completePacket [] with
    bdm := { (s.answer completePacket []).bdm with chain := chainAfter (.rareg k) s.bdm.chain } }
  have hx : (s.answer completePacket []).bdmCommand (.rareg k) [0x2180#16 ||| k.setWidth 16] =
      .ok (.data .l (s0.getR k), s0) := congrArg Except.ok (State.whenHalted_halted (s := s0) hrun _ _)
  exact ⟨_, (State.exchange_first hcmd hresp _).trans (State.assemble_performs (decodeCommand_rareg k) rfl hx), rfl, rfl, rfl⟩

/-- A command of which the words `ws` were taken. -/
def State.taking (s : State) (p : BitVec 17) (ws : List Word) : State :=
  { s.answer p [] with bdm := { (s.answer p []).bdm with cmd := ws, resp := [] } }

/-- The last word of a register write (R613). -/
theorem exchange_wareg_last {s : State} (k : RegX) (v : Long) {w : Word} (hw : decodeCommand w = some (.wareg k))
    (hrun : s.ev.run = .halted) (hcmd : s.bdm.cmd = [w, v.extractLsb' 16 16]) :
    ∃ t, s.exchange ((v.extractLsb' 0 16).setWidth 17) = .ok t ∧ t.getR = withReg s.getR k v ∧
      t.bdm.resp = [0x0FFFF#17] ∧ t.bdm.tx = s.bdm.tx ++ [0x10000#17] := by
  let s0 : State := { s.answer notReadyPacket [] with
    bdm := { (s.answer notReadyPacket []).bdm with chain := chainAfter (.wareg k) s.bdm.chain } }
  have hv : commandLong [w, v.extractLsb' 16 16, v.extractLsb' 0 16] 1 = v := long_of_halves v
  have hx : (s.answer notReadyPacket []).bdmCommand (.wareg k) [w, v.extractLsb' 16 16, v.extractLsb' 0 16] =
      .ok (.complete, s0.setR k (commandLong [w, v.extractLsb' 16 16, v.extractLsb' 0 16] 1)) :=
    congrArg Except.ok (State.whenHalted_halted (s := s0) hrun _ _)
  rw [hv] at hx
  have hbdm : (s0.setR k v).bdm = s0.bdm := by
    rw [State.setR]
    split <;> rfl
  refine ⟨_, (State.exchange_more hcmd _).trans (State.assemble_performs hw rfl hx), ?_, rfl, ?_⟩
  · exact (State.getR_setR s0 k v).trans rfl
  · exact congrArg Bdm.tx hbdm

/-- Settles O60. -/
theorem bdmRegisters : Obligations.BdmRegisters := by
  intro s k v hrun hcmd hresp
  refine ⟨exchange_rareg k hrun hcmd hresp, ?_⟩
  have hw := decodeCommand_wareg k
  generalize (0x2080#16 ||| k.setWidth 16 : Word) = w at hw ⊢
  let t1 := s.taking completePacket [w]
  let t2 := t1.taking notReadyPacket [w, v.extractLsb' 16 16]
  obtain ⟨t3, h3, hreg, hresp3, htx⟩ := exchange_wareg_last (s := t2) k v hw hrun rfl
  have h1 : s.exchange (w.setWidth 17) = .ok t1 :=
    (State.exchange_first hcmd hresp w).trans (State.assemble_waits (ws := [w]) hw (by simp [commandExt]))
  have h2 : t1.exchange ((v.extractLsb' 16 16).setWidth 17) = .ok t2 :=
    (State.exchange_more (s := t1) rfl _).trans (State.assemble_waits (ws := [w, v.extractLsb' 16 16]) hw
      (by simp [commandExt]))
  refine ⟨t1, t2, t3, h1, h2, h3, hreg, hresp3, htx.trans ?_⟩
  show s.bdm.tx ++ [_] ++ [_] ++ [_] = _
  simp [completePacket, notReadyPacket]
end Sys2Proof.Machine
end

