-- ==== Sys2Proof/Proofs/ResetEvent.lean ====
section
/-! PROOF. Sys2Proof/Proofs/ResetEvent.lean: the reset event (obligation O55; spec/70_reset_and_hazards.md R680, R681). -/

namespace Sys2Proof.Machine

/-! ### Reset -/

/-- The SR after reset, but for the flags that reset leaves unspecified. -/
theorem resetSr_fixed (n : Nat) : resetSr n &&& 0xFFE0#16 = 0x2700#16 := by
  unfold resetSr
  generalize (resetReg n 0).setWidth 16 = x
  apply BitVec.eq_of_getLsbD_eq
  intro k hk
  simp only [BitVec.getLsbD_and, BitVec.getLsbD_or]
  interval_cases k <;> simp

/-- Settles O55. -/
theorem resetEvent : Obligations.ResetEvent := by
  intro s hr hram
  have hstep : step s = .next s.performReset := by
    rw [step, State.stepInner, hram, hr]
    rfl
  exact ⟨_, hstep, resetSr_fixed _, rfl, rfl, rfl, rfl, rfl, rfl, rfl, rfl, rfl, rfl, rfl, rfl, rfl, rfl, rfl, rfl, rfl⟩

end Sys2Proof.Machine
end

