-- ==== Sys2Proof/Proofs/MemoryFetches.lean ====
section
/-! PROOF. Sys2Proof/Proofs/MemoryFetches.lean: what emptying the buffers keeps, and fetches with the cache disabled
(spec/20_memory.md R106, spec/21_cache_and_local_memory.md R160). -/

namespace Sys2Proof.Machine

/-! ### What emptying the buffers keeps -/

/-- Emptying the buffers writes memory, as the M-Bus records it, and nothing else. -/
theorem busWrite_eq (m : MemSys) (sp : Space) (a : Long) (bs : List Byte) :
    ∃ mem emem bus, busWrite m sp a bs = { m with mem := mem, emem := emem, bus := bus } := by
  unfold busWrite
  split <;> exact ⟨_, _, _, rfl⟩

theorem drainPush_eq (m : MemSys) :
    ∃ mem emem bus, drainPush m = { m with mem := mem, emem := emem, bus := bus, push := none } := by
  cases hp : m.push with
  | none =>
    have h : drainPush m = m := by rw [drainPush, hp]
    exact ⟨m.mem, m.emem, m.bus, by rw [h]; cases m; cases hp; rfl⟩
  | some p =>
    obtain ⟨mem, emem, bus, h⟩ := busWrite_eq { m with push := none } pushSpace (lineAddr p.line) (lineBytes p.data 16)
    exact ⟨mem, emem, bus, by rw [drainPush, hp]; exact h⟩

theorem drainStores_eq (m : MemSys) (l : List Pending) :
    ∃ mem emem bus, drainStores m l = { m with mem := mem, emem := emem, bus := bus, stores := [] } := by
  induction l generalizing m with
  | nil => exact ⟨m.mem, m.emem, m.bus, rfl⟩
  | cons p t ih =>
    obtain ⟨mem, emem, bus, h⟩ := busWrite_eq m p.sp p.addr (beBytes p.len p.data)
    obtain ⟨mem', emem', bus', h'⟩ := ih { m with mem := mem, emem := emem, bus := bus }
    exact ⟨mem', emem', bus', by rw [drainStores, h, h']⟩

theorem settle_eq (m : MemSys) :
    ∃ mem emem bus, settle m = { m with mem := mem, emem := emem, bus := bus, stores := [], push := none } := by
  obtain ⟨mem, emem, bus, h⟩ := drainPush_eq m
  obtain ⟨mem', emem', bus', h'⟩ := drainStores_eq (drainPush m) m.stores
  exact ⟨mem', emem', bus', by rw [settle, h', h]⟩

theorem settle_stuck (m : MemSys) : (settle m).stuck = m.stuck := by
  obtain ⟨_, _, _, h⟩ := settle_eq m
  rw [h]

theorem settle_stale (m : MemSys) : (settle m).stale = m.stale := by
  obtain ⟨_, _, _, h⟩ := settle_eq m
  rw [h]

/-! ### Fetches from memory -/

/-- What the fill buffer serves, if anything, is what the memories hold once the buffers are empty. -/
def FillAgrees (m : MemSys) (sp : Space) : Prop :=
  m.fill.valid = true → ∀ i < 16, lineByte m.fill.data i = busByte (settle m) sp (m.fill.line.toNat * 16 + i)

theorem FillAgrees.of_invalid {m : MemSys} (h : m.fill.valid = false) (sp : Space) : FillAgrees m sp :=
  fun hv => absurd (h.symm.trans hv) (by simp)

theorem SameStorage.busByte {m n : MemSys} (h : SameStorage m n) (sp : Space) (a : Nat) :
    busByte (settle n) sp a = busByte (settle m) sp a := by
  rw [busByte_eq, busByte_eq, h.bus]

theorem FillAgrees.congr {m n : MemSys} {sp : Space} (h : FillAgrees m sp) (hs : SameStorage m n) (hf : n.fill = m.fill) :
    FillAgrees n sp := by
  intro hv i hi
  rw [hf] at hv ⊢
  rw [h hv i hi, hs.busByte]

/-- The number of a line, and the place in it. -/
theorem line_mul_add (a : Long) : (a.extractLsb' 4 28).toNat * 16 + a.toNat % 16 = a.toNat := by
  have := a.isLt
  rw [BitVec.extractLsb'_toNat, Nat.shiftRight_eq_div_pow]
  omega

/-- A fetch sees what a data read sees. -/
theorem peekByte_fetch {r : Route} (h : r.Off) {m : MemSys} {sp : Space} (hf : FillAgrees m sp) (b : Long) :
    peekByte r m sp true b = peekByte r m sp false b := by
  have hb : (if fillServes r m sp b then lineByte m.fill.data (b.toNat % 16) else busByte (settle m) sp b.toNat) =
      busByte (settle m) sp b.toNat := by
    split
    · next hs =>
      simp only [fillServes, Bool.and_eq_true, beq_iff_eq] at hs
      obtain ⟨⟨-, hv⟩, hl⟩ := hs
      rw [hf hv _ (Nat.mod_lt _ (by decide)), hl, line_mul_add]
    · rfl
  unfold peekByte
  simp only [usesCache_off h, Bool.true_and, Bool.false_and, Bool.false_eq_true, if_false, hb]

/-- The bytes of an aligned access lie in one line. -/
theorem aligned_line {a : Long} {n : Nat} (h : Aligned (a, n)) {i : Nat} (hi : i < n) :
    (a + BitVec.ofNat 32 i).toNat = a.toNat + i ∧ a.toNat % 16 + i < 16 := by
  obtain ⟨hn, ha⟩ := h
  simp only at hn ha
  have := a.isLt
  rw [BitVec.toNat_add, BitVec.toNat_ofNat]
  rcases hn with rfl | rfl | rfl | rfl <;> omega

section Fetch
variable {r : Route} {m : MemSys} {sp : Space} {a : Long} {n : Nat}

/-- An aligned read of a line shows the bytes that the line holds. -/
theorem lineRead_aligned (data : BitVec 128) (ha : Aligned (a, n)) {g : Nat → Byte}
    (hg : ∀ i < 16, lineByte data i = g (a.toNat / 16 * 16 + i)) : lineRead data a n = readBytes g a n := by
  refine readBytes_congr _ _ _ _ _ fun i hi => ?_
  obtain ⟨hadd, hline⟩ := aligned_line ha hi
  rw [hadd, hg _ (Nat.mod_lt _ (by decide))]
  exact congrArg g (by omega)

/-- Whatever serves a fetch that no local memory answers, it returns what the memories hold once the buffers are empty. -/
theorem readPiece_fetch_bus (h : r.Off) (hf : FillAgrees m sp) (ha : Aligned (a, n)) (hn : n < 16)
    (hram : ramClaims r sp a = false) (hrom : romClaims r sp a = false) :
    (readPiece r m sp true a n).1 = readBytes (busByte (settle m) sp) a n := by
  have hline : (a.extractLsb' 4 28).toNat = a.toNat / 16 := by
    have := line_mul_add a
    omega
  have hload : lineRead (busLine r m sp a).1 a n = readBytes (busByte (settle m) sp) a n :=
    lineRead_aligned _ ha fun i hi => by rw [busLine_byte r m sp a hi, lineBase_toNat]
  unfold readPiece
  rw [hram, hrom, usesCache_off h]
  simp only [Bool.true_and, Bool.false_eq_true, if_false]
  split
  · next hs =>
    simp only [fillServes, Bool.and_eq_true, beq_iff_eq] at hs
    obtain ⟨⟨-, hv⟩, hl⟩ := hs
    exact lineRead_aligned _ ha fun i hi => by rw [hf hv i hi, hl, hline]
  split
  · exact hload
  · rw [busRead, if_neg (by omega)]
    rfl

/-- An aligned fetch returns the bytes it shows. -/
theorem readPiece_fetch (h : r.Off) (hf : FillAgrees m sp) (ha : Aligned (a, n)) (hn : n < 16) :
    (readPiece r m sp true a n).1 = peekBytes r m sp a n := by
  have hlocal : ramClaims r sp a = true ∨ romClaims r sp a = true →
      (readPiece r m sp true a n).1 = (readPiece r m sp false a n).1 := by
    intro hl
    unfold readPiece
    cases hram : ramClaims r sp a with
    | true => rfl
    | false => rw [hl.resolve_left (by simp [hram])]; rfl
  cases hram : ramClaims r sp a with
  | true => rw [hlocal (.inl hram), readPiece_val h m sp ha]
  | false =>
    cases hrom : romClaims r sp a with
    | true => rw [hlocal (.inr hrom), readPiece_val h m sp ha]
    | false =>
      rw [readPiece_fetch_bus h hf ha hn hram hrom]
      refine readBytes_congr _ _ _ _ _ fun i hi => ?_
      simp only [BitVec.ofNat_toNat, BitVec.setWidth_eq]
      rw [peekByte_off h, ramClaims_aligned r sp ha hi, romClaims_aligned r sp ha hi, hram, hrom]
      rfl

/-- What a fetch leaves besides: what the memories hold, what the fill buffer serves, nothing more prefetched. -/
theorem readPiece_fetch_leaves (h : r.Off) (hf : FillAgrees m sp) (hn : n < 16) :
    SameStorage m (readPiece r m sp true a n).2 ∧ FillAgrees (readPiece r m sp true a n).2 sp ∧
      (readPiece r m sp true a n).2.stale = m.stale ∧
      ((readPiece r m sp true a n).2.stuck = true → m.stuck = true ∨ r.pins.noAck = true) := by
  have hs := SameStorage.readPiece h m sp true a n
  refine ⟨hs, ?_⟩
  revert hs
  have hline : (a &&& 0xFFFFFFF0#32).toNat = (a.extractLsb' 4 28).toNat * 16 := by
    rw [lineBase_toNat]
    have := line_mul_add a
    omega
  unfold readPiece
  rw [usesCache_off h]
  split
  · exact fun _ => ⟨hf, rfl, .inl⟩
  split
  · exact fun _ => ⟨hf, rfl, .inl⟩
  split
  · next hc => simp at hc
  split
  · exact fun _ => ⟨hf, rfl, .inl⟩
  split
  · intro hs
    refine ⟨fun _ i hi => ?_, settle_stale m, fun hst => ?_⟩
    · rw [hs.busByte]
      exact (busLine_byte r m sp a hi).trans (by rw [hline]; rfl)
    · have : ((settle m).stuck || r.pins.noAck) = true := hst
      rwa [settle_stuck, Bool.or_eq_true] at this
  · intro hs
    rw [busRead, if_neg (by omega)] at hs ⊢
    refine ⟨hf.congr hs (settle_fill m), settle_stale m, fun hst => ?_⟩
    have : ((settle m).stuck || r.pins.noAck) = true := hst
    rwa [settle_stuck, Bool.or_eq_true] at this
end Fetch
end Sys2Proof.Machine
end

