-- ==== Sys2Proof/Proofs/ResetVectors.lean ====
section
/-! PROOF. Sys2Proof/Proofs/ResetVectors.lean: the reset exception (obligation O56; spec/70_reset_and_hazards.md R682). -/

namespace Sys2Proof.Machine

/-! ### The reset exception -/

section Reset
variable {s : State}

/-- The state in which the reset exception begins its reads. -/
def State.resetStart (s : State) : State :=
  (s.fresh.setEv { s.ev with run := .running, resetPending := false, emulator := s.dbg.csr.getLsbD 13 }).pst 0xC#4

/-- The state in which it has read both longwords. -/
def State.resetFetched (s : State) : State := ((s.resetStart.resetRead 0#32).2.resetRead 4#32).2

/-- The state before the test of the PC. -/
def State.resetLoaded (s : State) (a7 pc : Long) : State :=
  ((((s.resetFetched.setSp a7).setPc pc).emptyPrefetch).pst 5#4).target pc

theorem State.resetException_eq (s : State) : s.fresh.resetException =
    let a7 := (s.resetStart.resetRead 0#32).1
    let pc := ((s.resetStart.resetRead 0#32).2.resetRead 4#32).1
    if pc.getLsbD 0 then (s.resetLoaded a7 pc).faultOnFault else s.resetLoaded a7 pc := rfl

theorem State.resetRead_eq (s : State) (a : Long) : s.resetRead a =
    (beValue (readPiece s.route s.ms s.resetSpace true a 4).1, s.setMs (readPiece s.route s.ms s.resetSpace true a 4).2) := rfl

/-- The reads of the reset exception, outside emulator mode. -/
theorem State.resetStart_route (hemu : s.ev.emulator = false) (h13 : s.dbg.csr.getLsbD 13 = false) :
    s.resetStart.route = s.route ∧ s.resetStart.resetSpace = { tt := 0#2, tm := 6#3 } := by
  have hev : s.resetStart.ev.emulator = s.dbg.csr.getLsbD 13 := by simp [State.resetStart]
  have he : s.resetStart.emuMap = false := by rw [State.emuMap, hev, h13]; rfl
  have he' : s.emuMap = false := by simp [State.emuMap, hemu]
  refine ⟨?_, by rw [State.resetSpace, he]; rfl⟩
  rw [State.route, State.route, he, he']
  simp [State.resetStart, State.fresh]

theorem State.getR_emptyPrefetch (s : State) : s.emptyPrefetch.getR = s.getR := rfl

theorem State.getR_fresh (s : State) : s.fresh.getR = s.getR := rfl

/-- What the two reads of the reset exception return and leave. -/
theorem State.resetFetched_spec (hc : s.cacheOff) (hf : s.ms.fill.valid = false) (hemu : s.ev.emulator = false)
    (h13 : s.dbg.csr.getLsbD 13 = false) :
    (s.resetStart.resetRead 0#32).1 = beValue (s.superCodeBytes 0#32 4) ∧
      ((s.resetStart.resetRead 0#32).2.resetRead 4#32).1 = beValue (s.superCodeBytes 4#32 4) ∧
      (∃ m, s.resetFetched = s.resetStart.setMs m ∧
        (m.stuck = true → s.ms.stuck = true ∨ s.pins.noAck = true)) := by
  let sp : Space := { tt := 0#2, tm := 6#3 }
  obtain ⟨hr, hsp⟩ := State.resetStart_route hemu h13
  have hs0 : SameStorage s.ms s.resetStart.ms := by
    rw [State.resetStart, State.ms_pst]
    exact ⟨rfl, by rw [busPair_settle, busPair_settle]; rfl⟩
  have hf0 : FillAgrees s.resetStart.ms sp := .of_invalid (by rw [State.resetStart, State.ms_pst]; exact hf) _
  have hst0 : s.resetStart.ms.stuck = s.ms.stuck := by rw [State.resetStart, State.ms_pst]; rfl
  let m1 := (readPiece s.route s.resetStart.ms sp true 0#32 4).2
  let m2 := (readPiece s.route m1 sp true 4#32 4).2
  have hal0 : Aligned (0#32, 4) := ⟨by simp, rfl⟩
  have hal4 : Aligned (4#32, 4) := ⟨by simp, rfl⟩
  obtain ⟨hs1, hf1, -, hst1⟩ := readPiece_fetch_leaves (r := s.route) (a := 0#32) (n := 4) hc hf0 (by omega)
  obtain ⟨-, -, -, hst2⟩ := readPiece_fetch_leaves (r := s.route) (a := 4#32) (n := 4) hc hf1 (by omega)
  have h1 : s.resetStart.resetRead 0#32 =
      (beValue (readPiece s.route s.resetStart.ms sp true 0#32 4).1, s.resetStart.setMs m1) := by
    rw [State.resetRead_eq, hr, hsp]
  have h2 : (s.resetStart.setMs m1).resetRead 4#32 =
      (beValue (readPiece s.route m1 sp true 4#32 4).1, s.resetStart.setMs m2) := by
    rw [State.resetRead_eq, show (s.resetStart.setMs m1).route = s.route from hr,
      show (s.resetStart.setMs m1).resetSpace = sp from hsp]
    rfl
  have hbytes : ∀ {m a}, SameStorage s.ms m → peekBytes s.route m sp a 4 = s.superCodeBytes a 4 := by
    intro m a hs
    refine readBytes_congr _ _ _ _ _ fun i hi => ?_
    rw [peekByte_fetch hc (.of_invalid hf sp), peekByte_congr hc hs.ram hs.bus]
  refine ⟨?_, ?_, m2, ?_, fun h => ?_⟩
  · rw [h1, readPiece_fetch hc hf0 hal0 (by omega), hbytes hs0]
  · rw [h1, h2, readPiece_fetch hc hf1 hal4 (by omega), hbytes (hs0.trans hs1)]
  · rw [State.resetFetched, h1, h2]
  · exact (hst2 h).elim (fun h => (hst1 h).imp_left (hst0 ▸ ·)) .inr

/-- What the reset exception has loaded before the test of the PC. -/
theorem State.resetLoaded_kept {m : MemSys} (hm : s.resetFetched = s.resetStart.setMs m) (a7 pc : Long) :
    (s.resetLoaded a7 pc).getR = withReg s.getR (aNum spReg) a7 ∧ (s.resetLoaded a7 pc).cpu.pc = pc ∧
      (s.resetLoaded a7 pc).cpu.sr = s.cpu.sr ∧ (s.resetLoaded a7 pc).ctl = s.ctl ∧ (s.resetLoaded a7 pc).dbg = s.dbg ∧
      (s.resetLoaded a7 pc).pins = s.pins ∧ (s.resetLoaded a7 pc).ms = { m with stale := [] } ∧
      (s.resetLoaded a7 pc).ev = { s.ev with run := .running, resetPending := false, emulator := s.dbg.csr.getLsbD 13 } := by
  rw [State.resetLoaded, hm]
  refine ⟨?_, ?_, ?_, ?_, ?_, ?_, ?_, ?_⟩
  case refine_1 => simp [State.setSp, State.resetStart, State.getR_emptyPrefetch, State.getR_fresh]
  all_goals simp [State.setSp, State.resetStart, State.fresh]

/-- What the reset exception shows on the trace port, while CSR.PCD and CSR.BTB are clear. -/
theorem State.resetLoaded_port {m : MemSys} (hm : s.resetFetched = s.resetStart.setMs m) (a7 pc : Long)
    (h17 : s.dbg.csr.getLsbD 17 = false) (hbtb : s.dbg.csr.extractLsb' 8 2 = 0#2) :
    (s.resetLoaded a7 pc).port.map (fun e => e.pst) = [0xC#4, 5#4] := by
  have htarget : ∀ t : State, t.dbg = s.dbg → t.target pc = t := by
    intro t ht
    rw [State.target, ht, hbtb]
    rfl
  have hport : s.resetFetched.port = [{ pst := 0xC#4, status := s.ddataIdle, dd := [] }] := by
    rw [hm]
    exact State.port_event (s := s.fresh.setEv _) h17 _
  have hdbg : s.resetFetched.dbg = s.dbg := by rw [hm]; simp [State.resetStart, State.fresh]
  let t := ((s.resetFetched.setSp a7).setPc pc).emptyPrefetch
  have hdbg' : t.dbg = s.dbg := by rw [← hdbg]; simp [t, State.setSp]
  have hport' : t.port = [{ pst := 0xC#4, status := s.ddataIdle, dd := [] }] := by
    rw [← hport]
    simp [t, State.setSp]
  rw [State.resetLoaded, htarget _ (by rw [State.dbg_pst]; exact hdbg')]
  rw [State.pst, State.port_event (by rw [hdbg']; exact h17), hport']
  rfl

/-- The halt of a fault-on-fault empties the buffers, shows the halted state and keeps the rest (R550). -/
theorem State.faultOnFault_memory (s : State) : s.faultOnFault.ms.stale = s.ms.stale ∧
    (s.faultOnFault.ms.stuck = true → s.ms.stuck = true ∨ s.pins.noAck = true) := by
  have hms : s.faultOnFault.ms = drain (s.setHaltSource 27).route s.ms := by
    simp [State.faultOnFault, State.enterHalted]
  rw [hms]
  unfold drain
  split
  · exact ⟨rfl, .inl⟩
  · refine ⟨settle_stale _, fun h => ?_⟩
    have : ((settle s.ms).stuck || s.pins.noAck) = true := h
    rwa [settle_stuck, Bool.or_eq_true] at this

theorem State.faultOnFault_port (h17 : s.dbg.csr.getLsbD 17 = false) :
    s.faultOnFault.port.map (fun e => e.pst) = s.port.map (fun e => e.pst) ++ [0xF#4] := by
  have hd : (haltSource s.dbg.csr 27).getLsbD 17 = false := by
    rw [haltSource, BitVec.getLsbD_or, BitVec.getLsbD_and, h17]
    simp
  have hp : s.faultOnFault.port = s.port ++ [{ pst := 0xF#4, status := (s.setHaltSource 27).ddataIdle, dd := [] }] := by
    let t := (s.setHaltSource 27).drainBuffers
    exact State.port_event (s := t.setEv { t.ev with run := .halted }) hd _
  rw [hp, List.map_append]
  rfl
end Reset

/-- Settles O56. -/
theorem resetException : Obligations.ResetException := by
  intro s hc hf h13 hpend hrun hemu hrsti hbkpt hack hstuck hram
  obtain ⟨hv0, hv4, m, hm, hmst⟩ := State.resetFetched_spec hc hf hemu h13
  set a7 := beValue (s.superCodeBytes 0#32 4)
  set pc := beValue (s.superCodeBytes 4#32 4)
  let u := s.resetLoaded a7 pc
  obtain ⟨kregs, kpc, ksr, kctl, kdbg, kpins, kms, kev⟩ := State.resetLoaded_kept hm a7 pc
  have hust : ¬ (u.ms.stuck = true ∨ u.pins.noAck = true) := by
    rw [show u.ms = _ from kms, show u.pins = s.pins from kpins, hack]
    intro h
    have := hmst (h.resolve_right (by simp))
    simp [hstuck, hack] at this
  have hstep : step s = checkStuck (.next (if pc.getLsbD 0 then u.faultOnFault else u)) := by
    have hinner : s.stepInner = .next s.fresh.resetException := by
      rw [State.stepInner, hram, hrsti, hpend, hrun]
      exact congrArg Host.Outcome.next (if_neg (by rw [show s.fresh.pins = s.pins from rfl, hbkpt]; simp))
    rw [step, hinner, State.resetException_eq, hv0, hv4]
  cases hodd : pc.getLsbD 0 with
  | false =>
    rw [hodd, if_neg (by simp), checkStuck, if_neg (fun h => hust (.inl h))] at hstep
    exact ⟨u, hstep, kregs, fun _ => ⟨kpc, by rw [show u.ev = _ from kev], by rw [show u.ev = _ from kev]⟩,
      fun h => absurd (hodd.symm.trans h) (by simp),
      fun h17 hbtb => (State.resetLoaded_port hm a7 pc h17 hbtb).trans (if_neg (by rw [hodd]; simp)).symm, by rw [show u.ms = _ from kms], ksr, kctl⟩
  | true =>
    obtain ⟨fsr, fregs, -, fctl, -, -, -, -, -, -, fev⟩ := State.faultOnFault_leaves u
    obtain ⟨fstale, fstuck⟩ := State.faultOnFault_memory u
    rw [hodd, if_pos rfl, checkStuck, if_neg (fun h => hust (fstuck h))] at hstep
    refine ⟨u.faultOnFault, hstep, fregs.trans kregs, fun h => absurd (hodd.symm.trans h) (by simp), fun _ => ⟨by rw [fev], by rw [fev]⟩, fun h17 hbtb => ?_,
      fstale.trans (by rw [show u.ms = _ from kms]), fsr.trans ksr, fctl.trans kctl⟩
    rw [State.faultOnFault_port (by rw [show u.dbg = s.dbg from kdbg]; exact h17), State.resetLoaded_port hm a7 pc h17 hbtb]
    exact (if_pos hodd).symm
end Sys2Proof.Machine
end

