-- ==== Sys2Proof/Proofs/StepOfInstruction.lean ====
section
/-! PROOF. Sys2Proof/Proofs/StepOfInstruction.lean: a step runs the decoded instruction (obligation O6). -/

namespace Sys2Proof.Machine
open Sys2Proof.Decoder

/-! ### The words that the decoder is given -/

/-- The decoder reads no more words than the instruction has. -/
theorem decode_congr {op a b a' b' : Word} {i : Instr} (h : decode op a b = .ok i) (ha : 1 ≤ extLen i → a' = a)
    (hb : 2 ≤ extLen i → b' = b) : decode op a' b' = .ok i := by
  obtain ⟨hi, hp⟩ := reads_of_decode h
  obtain ⟨h1, h3⟩ := encodeLength i hi
  refine decodes_of_encodable i hi _ _ _ ?_
  rw [extLen] at ha hb
  generalize encode i = ws at *
  match ws, hp, h1, ha, hb with
  | [x], hp, _, _, _ => simpa using hp
  | [x, y], hp, _, ha, _ => simpa [ha (by simp)] using hp
  | [x, y, z], hp, _, ha, hb => simpa [ha (by simp), hb (by simp)] using hp

/-- The operation word announces the instruction's extension words. -/
theorem opExtLen_of_decode {op a b : Word} {i : Instr} (h : decode op a b = .ok i) :
    opExtLen op = extLen i ∧ extLen i ≤ 2 := by
  have hd := opwordDecides op a b 0#16 0#16
  rw [h] at hd
  obtain ⟨j, hj, hl, h2⟩ := hd
  exact ⟨by rw [opExtLen, hj]; exact hl, h2⟩

/-! ### The fetch of an instruction -/

/-- The word at an address, as data. -/
def State.codeWord (s : State) (a : Long) : Word :=
  peekByte s.route s.ms s.codeSpace false a ++ peekByte s.route s.ms s.codeSpace false (a + 1#32)

/-- The state after so many words were fetched from memory. -/
structure FetchedWords (s : State) (n : Nat) (u : State) : Prop where
  state : ∃ m, u = { s with ms := m, free := s.free + n }
  storage : SameStorage s.ms u.ms
  fill : FillAgrees u.ms s.codeSpace
  stale : u.ms.stale = []

section Fetch
variable {s u : State} {n : Nat}

/-- One more word. -/
theorem FetchedWords.fetchCode (h : FetchedWords s n u) (hc : s.cacheOff) {a : Long} (ha : a.toNat % 2 = 0) :
    (u.fetchCode a).1 = s.codeWord a ∧ FetchedWords s (n + 1) (u.fetchCode a).2 := by
  obtain ⟨⟨m, rfl⟩, hstore, hfill, hstale⟩ := h
  have hal : Aligned (a, 2) := ⟨by simp, ha⟩
  have hold : oldWords m s.codeSpace a = [] := by
    have : m.stale = [] := hstale
    rw [oldWords, this]
    rfl
  have hval := readPiece_fetch (r := s.route) hc hfill hal (by omega)
  obtain ⟨hs, hf, hst, -⟩ := readPiece_fetch_leaves (r := s.route) (a := a) (n := 2) hc hfill (by omega)
  have hbyte : ∀ b, peekByte s.route m s.codeSpace false b = peekByte s.route s.ms s.codeSpace false b :=
    fun b => peekByte_congr hc hstore.ram hstore.bus _ _
  refine ⟨?_, ⟨_, rfl⟩, hstore.trans hs, hf, hst.trans hstale⟩
  have hword : (fetchWord s.route m s.codeSpace a (s.free + n)).1 =
      (peekBytes s.route m s.codeSpace a 2).getD 0 0#8 ++ (peekBytes s.route m s.codeSpace a 2).getD 1 0#8 := by
    rw [← hval]
    show (if (oldWords m s.codeSpace a).isEmpty then _ else _) = _
    rw [hold]
    rfl
  refine hword.trans ?_
  rw [State.codeWord, ← hbyte, ← hbyte]
  simp only [peekBytes, readBytes, BitVec.ofNat_toNat, BitVec.setWidth_eq]
  rfl

/-- The fetch of an instruction that the words at the PC decode to. -/
theorem fetchInstr_decodes (h : FetchedWords s 0 s) (hc : s.cacheOff) (hpc : s.cpu.pc.toNat % 2 = 0) {i : Instr}
    (hd : decode (s.codeWord s.cpu.pc) (s.codeWord (s.cpu.pc + 2#32)) (s.codeWord (s.cpu.pc + 4#32)) = .ok i) :
    s.fetchInstr.1 = .ok i ∧ FetchedWords s (extLen i + 1) s.fetchInstr.2 := by
  obtain ⟨hlen, h2⟩ := opExtLen_of_decode hd
  have hpc2 : (s.cpu.pc + 2#32).toNat % 2 = 0 := by bv_omega
  have hpc4 : (s.cpu.pc + 4#32).toNat % 2 = 0 := by bv_omega
  obtain ⟨v1, f1⟩ := h.fetchCode hc hpc
  obtain ⟨v2, f2⟩ := f1.fetchCode hc hpc2
  obtain ⟨v3, f3⟩ := f2.fetchCode hc hpc4
  have hsplit : extLen i = 0 ∨ extLen i = 1 ∨ extLen i = 2 := by omega
  have heq : s.fetchInstr = match opExtLen (s.fetchCode s.cpu.pc).1 with
    | 0 => (decode (s.fetchCode s.cpu.pc).1 0#16 0#16, (s.fetchCode s.cpu.pc).2)
    | 1 =>
      (decode (s.fetchCode s.cpu.pc).1 ((s.fetchCode s.cpu.pc).2.fetchCode (s.cpu.pc + 2#32)).1 0#16,
        ((s.fetchCode s.cpu.pc).2.fetchCode (s.cpu.pc + 2#32)).2)
    | _ =>
      (decode (s.fetchCode s.cpu.pc).1 ((s.fetchCode s.cpu.pc).2.fetchCode (s.cpu.pc + 2#32)).1
        (((s.fetchCode s.cpu.pc).2.fetchCode (s.cpu.pc + 2#32)).2.fetchCode (s.cpu.pc + 4#32)).1,
        (((s.fetchCode s.cpu.pc).2.fetchCode (s.cpu.pc + 2#32)).2.fetchCode (s.cpu.pc + 4#32)).2) := rfl
  rw [heq, v3, v2, v1, hlen]
  rcases hsplit with h | h | h <;> rw [h]
  · exact ⟨decode_congr hd (by omega) (by omega), f1⟩
  · exact ⟨decode_congr hd (fun _ => rfl) (by omega), f2⟩
  · exact ⟨hd, f3⟩
end Fetch

/-! ### A step -/

section Step
variable {s : State}

/-- The trigger logic leaves the run state. -/
theorem State.respond_run {t : State} {o : Option (BitVec 3 × Response)} (h : s.respond o = .next t) :
    t.ev.run = s.ev.run := by
  unfold State.respond at h
  split at h
  · cases h; rfl
  · dsimp only at h
    split at h <;> cases h <;> rfl

/-- A boundary that lets execution go on leaves the run state. -/
theorem State.boundary_goOn {t : State} (h : s.boundary = .goOn t) : t.ev.run = s.ev.run := by
  have hint : ∀ {u : State}, u.boundaryInterrupts = .goOn t → t = u := by
    intro u hu
    unfold State.boundaryInterrupts at hu
    repeat' split at hu
    all_goals cases hu
    all_goals rfl
  have hhalt : ∀ {u : State} {f}, u.boundaryHalts f = .goOn t → t = u := by
    intro u f hu
    unfold State.boundaryHalts at hu
    split at hu
    · cases hu
    split at hu
    · cases hu
    · exact hint hu
  unfold State.boundary at h
  split at h
  · cases h
  split at h
  · cases h
  unfold State.boundaryStop at h
  split at h
  · cases h
  split at h
  · rw [hhalt h]
  split at h
  case h_1 u hu =>
    rw [hhalt h]
    unfold State.pcBreakpoint at hu
    split at hu
    · cases hu; rfl
    · exact State.respond_run hu
  case h_2 => cases h
  case h_3 => cases h; rfl

/-- The word at an address, of the bytes that a fetch finds there. -/
theorem wordsOf_codeBytes (hp : s.FetchPlain) :
    wordsOf (s.codeBytes s.cpu.pc 6) =
      [s.codeWord s.cpu.pc, s.codeWord (s.cpu.pc + 2#32), s.codeWord (s.cpu.pc + 4#32)] := by
  have hb : ∀ a, peekByte s.route s.ms s.codeSpace true a = peekByte s.route s.ms s.codeSpace false a :=
    peekByte_fetch hp.cache (.of_invalid hp.fill _)
  simp only [State.codeBytes, readBytes, BitVec.ofNat_toNat, BitVec.setWidth_eq, hb, wordsOf, State.codeWord, BitVec.add_assoc]
  rfl

/-- A step from a boundary that lets execution go on (R504). -/
theorem State.Ready.step {s1 : State} (h : s.Ready s1) : step s = checkStuck s1.execInstr := by
  have hrun : s.fresh.sample.ev.run ≠ .halted := by
    rw [← State.boundary_goOn h.boundary, h.running]
    decide
  have hcore : s.fresh.sample.runCore = s1.execInstr := by
    rw [State.runCore, if_neg hrun, h.boundary]
    exact if_neg (by rw [h.running]; decide)
  have hinner : s.stepInner = s.fresh.sample.runCore := by
    rw [State.stepInner, h.ram, h.rsti, h.noReset, h.bdm]
    rfl
  rw [Machine.step, hinner, hcore]
end Step

/-- Settles O6: with the cache disabled and nothing prefetched, the words fetched are those at the PC. -/
theorem stepRunsDecoded : Obligations.StepRunsDecoded := by
  intro s s1 i rest hready hp hdec
  have hd : decode (s1.codeWord s1.cpu.pc) (s1.codeWord (s1.cpu.pc + 2#32)) (s1.codeWord (s1.cpu.pc + 4#32)) = .ok i := by
    rw [decodeBytes, wordsOf_codeBytes hp] at hdec
    dsimp only at hdec
    split at hdec
    case h_1 j hj =>
      split at hdec
      · cases hdec
      · cases hdec
        exact hj
    all_goals cases hdec
  have hodd : s1.cpu.pc.toNat % 2 = 0 := by
    have := hready.even
    rw [BitVec.getLsbD, Nat.testBit_zero] at this
    simpa using this
  have h0 : FetchedWords s1.beginInstr 0 s1.beginInstr :=
    ⟨⟨s1.ms, rfl⟩, ⟨rfl, rfl⟩, .of_invalid hp.fill _, hp.stale⟩
  obtain ⟨hi, ⟨m, hm⟩, hstore, -, -⟩ := fetchInstr_decodes h0 hp.cache hodd hd
  refine ⟨s1.beginInstr.fetchInstr.2, ?_, ?_⟩
  · rw [hm] at hstore ⊢
    exact ⟨rfl, rfl, rfl, rfl, rfl, rfl, rfl, rfl, rfl, fun sp a => peekByte_congr hp.cache hstore.ram hstore.bus sp a⟩
  · rw [hready.step, State.execInstr, hready.user, hready.even, hi]
    rfl
end Sys2Proof.Machine
end

