-- ==== Sys2Proof/Proofs/CachedReads.lean ====
section
/-! PROOF. Sys2Proof/Proofs/CachedReads.lean: who answers a read (obligation O58; spec/21_cache_and_local_memory.md R144, R146). -/

namespace Sys2Proof.Machine

/-! ### Reads -/

/-- An aligned operand is one piece. -/
theorem pieces_of_aligned {a : Long} {sz : Size} (h : a.toNat % sz.bytes = 0) : pieces a sz = [(a, sz.bytes)] := by
  have h0 : a.getLsbD 0 = decide (a.toNat % 2 = 1) := by simp [BitVec.getLsbD, Nat.testBit_zero]
  have h1 : a.getLsbD 1 = decide (a.toNat / 2 % 2 = 1) := by
    simp [BitVec.getLsbD, Nat.testBit_succ, Nat.testBit_zero]
  cases sz with
  | b => rfl
  | w =>
    rw [Size.bytes] at h
    rw [pieces, h0, if_neg (by simp; omega), Size.bytes]
  | l =>
    rw [Size.bytes] at h
    rw [pieces, h0, h1, if_neg (by simp; omega), if_neg (by simp; omega), Size.bytes]

/-- A read of an aligned operand is one access. -/
theorem State.load_aligned (s : State) {a : Long} {sz : Size} (h : a.toNat % sz.bytes = 0) :
    (s.load a sz).1 = beValue (readPiece s.route s.ms s.dataSpace false a sz.bytes).1 ∧
      ∃ xs, (s.load a sz).2.ms = { (readPiece s.route s.ms s.dataSpace false a sz.bytes).2 with xfers := xs } := by
  have hv : (readOperand s.route s.ms s.dataSpace a sz).1 =
      beValue (readPiece s.route s.ms s.dataSpace false a sz.bytes).1 := by
    rw [readOperand, pieces_of_aligned h]
    exact congrArg beValue (List.append_nil _)
  have hms : (readOperand s.route s.ms s.dataSpace a sz).2 =
      note (readPiece s.route s.ms s.dataSpace false a sz.bytes).2
        (xferBeats true s.dataSpace a (readPiece s.route s.ms s.dataSpace false a sz.bytes).1) := by
    rw [readOperand, pieces_of_aligned h]
    rfl
  exact ⟨(State.load_val s a sz).trans hv, _, (State.ms_load s a sz).trans hms⟩

section Cached
variable {s : State} {a : Long} {sz : Size}

/-- An operand read that hits (R144). -/
theorem State.load_hit (hc : s.Cachable a) (h : a.toNat % sz.bytes = 0) {lv : Nat} (hh : s.HitsIn a lv) :
    (s.load a sz).1 = beValue ((List.range sz.bytes).map (fun i => lineByte (s.lineOf a lv).data (a.toNat % 16 + i))) ∧
      ∃ xs, (s.load a sz).2.ms = { s.ms with xfers := xs } := by
  have hlen : a.toNat % 16 + sz.bytes ≤ 16 := by
    cases sz <;> rw [Size.bytes] at h ⊢ <;> omega
  obtain ⟨hv, xs, hms⟩ := s.load_aligned h
  rw [readPiece_hit _ _ _ _ hc.ram hc.rom hc.uses (hitLevel_in hh)] at hv hms
  exact ⟨by rw [hv, lineRead_eq _ hlen]; rfl, xs, hms⟩

/-- An operand read that misses (R146). -/
theorem State.load_miss (hc : s.Cachable a) (h : a.toNat % sz.bytes = 0) (hm : s.Misses a) :
    (s.load a sz).1 = beValue ((List.range sz.bytes).map (fun i => s.behind a (a.toNat % 16 + i))) ∧
      (∃ lv, Allocates s (s.load a sz).2 a lv false (s.behind a)) ∧
      (s.load a sz).2.ms.mem = (settle s.ms).mem ∧ (s.load a sz).2.ms.fill.valid = false ∧
      (s.load a sz).2.ms.fill.line = a.extractLsb' 4 28 ∧
      ∀ i < 16, lineByte (s.load a sz).2.ms.fill.data i = s.behind a i := by
  have hlen : a.toNat % 16 + sz.bytes ≤ 16 := by
    cases sz <;> rw [Size.bytes] at h ⊢ <;> omega
  have hbyte : ∀ i < 16, lineByte (busLine s.route s.ms s.dataSpace a).1 i = s.behind a i :=
    fun i hi => busLine_byte _ _ _ _ hi
  obtain ⟨hmem, -, -, hcache, hst, -, hfill⟩ := busLine_spec s.route s.ms s.dataSpace a
  obtain ⟨hv, xs, hms⟩ := s.load_aligned h
  rw [readPiece_miss _ _ _ _ hc.ram hc.rom hc.uses (hitLevel_miss hm)] at hv hms
  have hvalue : lineRead (busLine s.route s.ms s.dataSpace a).1 a sz.bytes =
      (List.range sz.bytes).map (fun i => s.behind a (a.toNat % 16 + i)) := by
    rw [lineRead_eq _ hlen]
    refine List.map_congr_left fun i hi => hbyte _ ?_
    have := List.mem_range.mp hi
    omega
  refine ⟨by rw [hv, hvalue], ⟨_, allocates_of (hcache.trans (settle_cache s.ms)) hst (by simp) hbyte (by rw [hms])
    (by rw [hms]) (by rw [hms])⟩, ?_, ?_, ?_, fun i hi => ?_⟩
  · exact (congrArg MemSys.mem hms).trans hmem
  · exact (congrArg (fun m => m.fill.valid) hms).trans (congrArg FillBuf.valid hfill)
  · exact (congrArg (fun m => m.fill.line) hms).trans (congrArg FillBuf.line hfill)
  · rw [hms, ← hbyte i hi]
    exact congrArg (fun f => lineByte f.data i) hfill
end Cached

/-- Settles O58. -/
theorem whoAnswers : Obligations.WhoAnswers := by
  refine ⟨fun s sp a hc => ?_, fun s sz a hc h => ⟨fun lv hh => State.load_hit hc h hh, fun hm => State.load_miss hc h hm⟩⟩
  rw [State.peekIn, peekByte_off hc]
  cases hram : ramClaims s.route sp a with
  | true => rfl
  | false => rw [romClaims, hram]; rfl
end Sys2Proof.Machine
end

