-- ==== Sys2Proof/Proofs/CachedWrites.lean ====
section
/-! PROOF. Sys2Proof/Proofs/CachedWrites.lean: byte and line writes (obligation O57; spec/21_cache_and_local_memory.md R145, R147, R148). -/

namespace Sys2Proof.Machine

/-- The bytes of a line, with the one at an address replaced. -/
def putByte (a v : Long) (old : Nat → Byte) (i : Nat) : Byte := if i = a.toNat % 16 then v.setWidth 8 else old i

/-- A cachable access is no emulator access. -/
theorem State.Cachable.space {s : State} {a : Long} (h : s.Cachable a) : s.dataSpace.tt = 0#2 := by
  rw [State.dataSpace, h.emulator]
  cases s.super <;> rfl

/-- A write of a byte is one access. -/
theorem State.store_byte (s : State) (a v : Long) : ∃ l xs, (s.store a .b v).ms =
    { writePiece s.route { s.ms with stale := l } s.dataSpace a [v.setWidth 8] with xfers := xs } := by
  have hb : beBytes 1 v = [v.setWidth 8] := by
    rw [beBytes, beBytes]
    congr 1
  obtain ⟨l, xs, h⟩ := writePieces_cons s.route s.ms s.dataSpace (a, 1) [] [v.setWidth 8]
  exact ⟨l, _, (State.ms_store s a .b v).trans ((congrArg (writePieces s.route s.ms s.dataSpace [(a, 1)]) hb).trans h)⟩

/-- A write of a line is one access. -/
theorem State.storeLine_line (s : State) (a : Long) {ws : List Long} (h : ws.length = 4) :
    ∃ l xs, (s.storeLine a ws).ms =
    { writePiece s.route { s.ms with stale := l } s.dataSpace a (ws.flatMap (beBytes 4)) with xfers := xs } := by
  have hlen : (ws.flatMap (beBytes 4)).length = 16 := by simp [List.length_flatMap, h]
  obtain ⟨l, xs, hw⟩ := writePieces_cons s.route s.ms s.dataSpace (a, 16) [] (ws.flatMap (beBytes 4))
  rw [List.take_of_length_le (by omega)] at hw
  exact ⟨l, _, hw⟩

/-- What the prefetch may still hold is not memory. -/
theorem busPair_settle_stale (m : MemSys) (l : List Stale) :
    busPair (settle { m with stale := l }) = busPair (settle m) := by
  rw [busPair_settle, busPair_settle]; rfl

section Writes
variable {s : State} {a v : Long}

/-- A byte written to protected space (R112, R113). -/
theorem State.store_rejected (hc : s.cacheOff) (h : byteRejected s.route s.dataSpace a) :
    (s.store a .b v).ms.writeError = true ∧ SameMem s (s.store a .b v) := by
  obtain ⟨l, xs, hms⟩ := s.store_byte a v
  have hrej : writePiece s.route { s.ms with stale := l } s.dataSpace a [v.setWidth 8] =
      rejectWrite { s.ms with stale := l } := by
    unfold byteRejected at h
    unfold writePiece
    split at h
    · next hr => rw [if_pos hr, if_pos h]
    split at h
    · next hr ho => rw [if_neg hr, if_pos ho, if_pos h]
    · next hr ho => rw [if_neg hr, if_neg ho, if_pos h]
  rw [hrej] at hms
  refine ⟨by rw [hms]; rfl, ?_⟩
  refine sameMem_of (.mk' (by simp)) (by simp [State.super]) fun b => ?_
  rw [hms]
  refine peekByte_congr hc ?_ ?_ _ _
  · rfl
  · rw [busPair_settle, busPair_settle]; rfl

/-- A byte written to a region of writes that wait in the store buffer (R103). -/
theorem State.store_buffered (hc : s.cacheOff) (he : s.ctl.cacr.getLsbD 29 = true) (hl : s.ms.stores.length < 4)
    (hram : ramClaims s.route s.dataSpace a = false) (hw : byteWritable s.route s.dataSpace a)
    (hm : cacheMode s.route s.dataSpace a = 0#2 ∨ cacheMode s.route s.dataSpace a = 3#2) :
    (s.store a .b v).ms.mem = s.ms.mem ∧ (s.store a .b v).ms.stores.length = s.ms.stores.length + 1 ∧
      (s.store a .b v).peek a = v.setWidth 8 := by
  obtain ⟨l, xs, hms⟩ := s.store_byte a v
  have hw' := hw
  rw [byteWritable, hram, if_neg (by simp)] at hw'
  have hmode : ((cacheMode s.route s.dataSpace a == 0#2) || (cacheMode s.route s.dataSpace a == 3#2)) = true := by
    rcases hm with h | h <;> rw [h] <;> rfl
  have hext : writePiece s.route { s.ms with stale := l } s.dataSpace a [v.setWidth 8] =
      { s.ms with
        stale := l
        stores := s.ms.stores ++ [{ sp := s.dataSpace, addr := a, len := 1, data := beValue [v.setWidth 8] }] } := by
    unfold writePiece
    rw [hram, hw'.1, hw'.2, usesCache_off hc]
    simp only [Bool.false_eq_true, if_false]
    unfold externalWrite
    rw [hmode, show s.route.ctl.cacr.getLsbD 29 = true from he]
    simp only [Bool.true_and, List.length_singleton]
    rw [if_pos (by rfl)]
    split
    · next hn =>
      rw [hn] at hl
      simp only [List.length_cons] at hl
      omega
    · rfl
  rw [hext] at hms
  refine ⟨by rw [hms], by rw [hms]; simp, ?_⟩
  have hroute : (s.store a .b v).route = s.route :=
    State.route_congr (by simp) (by simp) (by simp) (by simp)
  have hspace : (s.store a .b v).dataSpace = s.dataSpace :=
    State.dataSpace_congr (by simp) (by simp) (by simp [State.super])
  have hw1 : ∀ i < Size.b.bytes, byteWritable s.route s.dataSpace (a + BitVec.ofNat 32 i) := by
    intro i hi
    obtain rfl : i = 0 := by rw [Size.bytes] at hi; omega
    simpa using hw
  have hb := peekBytes_writeOperand hc s.ms s.dataSpace a .b v hw1
  rw [← State.ms_store] at hb
  have h1 := (List.cons.inj hb).1
  rw [State.peek, hroute, hspace]
  simp only [BitVec.ofNat_toNat, BitVec.setWidth_eq] at h1
  rw [h1]
  ext i hi
  simp

/-! ### Writes with the cache in use -/

/-- A line of the address that was hit, with its byte written. -/
def State.HitWritten (s t : State) (a v : Long) (lv : Nat) (d : Bool) : Prop :=
  (t.lineOf a lv).v = true ∧ (t.lineOf a lv).tag = (s.lineOf a lv).tag ∧ (t.lineOf a lv).d = d ∧
    (∀ i < 16, lineByte (t.lineOf a lv).data i = putByte a v (lineByte (s.lineOf a lv).data) i) ∧ OtherLines s t a lv

/-- The memory behind the M-Bus, with one byte written once the buffers are empty. -/
def State.WrittenThrough (s t : State) (a v : Long) : Prop :=
  ∀ sp b, busByte (settle t.ms) sp b =
    if sp.tt ≠ 2#2 ∧ b = a.toNat then v.setWidth 8 else busByte (settle s.ms) sp b

/-- One byte written into a line. -/
theorem lineByte_put (data : BitVec 128) {i : Nat} (hi : i < 16) :
    lineByte (lineWrite data (a.toNat % 16) [v.setWidth 8]) i = putByte a v (lineByte data) i := by
  rw [lineByte_lineWrite _ _ _ hi (by simp; omega), putByte]
  by_cases h : i = a.toNat % 16
  · subst h
    simp
  · rw [if_neg h, dif_neg (by simp; omega)]

/-- A cache in which the line that was hit has its byte written. -/
theorem State.hitWritten {t : State} {lv : Nat} {d : Bool} (hh : s.HitsIn a lv) (hp : t.pins = s.pins)
    (h : t.ms.cache = (writeLine s.ms (setOf s.route a) lv a [v.setWidth 8] d).cache) : s.HitWritten t a v lv d := by
  have hl : ∀ set k, lineAt t.ms set k = lineAt (writeLine s.ms (setOf s.route a) lv a [v.setWidth 8] d) set k :=
    fun set k => lineAt_congr h set k
  have hset : s.setIndex a = setOf s.route a := rfl
  have ht : t.lineOf a lv =
      { s.lineOf a lv with data := lineWrite (s.lineOf a lv).data (a.toNat % 16) [v.setWidth 8], d := d } := by
    unfold State.lineOf State.setIndex
    rw [hp, hl]
    exact lineAt_setLine_self ..
  refine ⟨?_, ?_, ?_, fun i hi => ?_, fun set k hk hne => ?_⟩
  · rw [ht]
    exact hh.2.1.1
  · rw [ht]
  · rw [ht]
  · rw [ht]
    exact lineByte_put _ hi
  · rw [hl]
    exact lineAt_setLine_ne _ _ hh.1 hk hne

/-- A byte sent to the M-Bus. -/
theorem writtenThrough {t : State} {m : MemSys} {xs : List Xfer} (hd : s.dataSpace.tt = 0#2)
    (hms : t.ms = { externalWrite s.route m s.dataSpace a [v.setWidth 8] with xfers := xs })
    (hb : busPair (settle m) = busPair (settle s.ms)) : s.WrittenThrough t a v := by
  have hpair : busPair (settle t.ms) = pairWrite (busPair (settle s.ms)) s.dataSpace a [v.setWidth 8] := by
    rw [← hb, ← busPair_externalWrite s.route m, hms, busPair_settle, busPair_settle]
    rfl
  have hw : pairWrite (busPair (settle s.ms)) s.dataSpace a [v.setWidth 8] =
      (memSetByte (settle s.ms).mem a.toNat (v.setWidth 8), (settle s.ms).emem) := by
    rw [pairWrite, hd]
    rfl
  intro sp b
  rw [busByte_eq, hpair, hw, busByte_eq, pairByte, pairByte]
  by_cases ht : sp.tt = 2#2
  · simp [ht, busPair]
  · by_cases hba : b = a.toNat
    · simp [ht, hba]
    · simp [ht, hba, memByte_set_ne _ _ hba, busPair]

section Cachable
variable (hc : s.Cachable a) (hp : writeProtected s.route s.dataSpace a = false)
include hc hp

/-- A copyback write that hits (R145). -/
theorem State.store_copyback_hit (hm : cacheMode s.route s.dataSpace a = 1#2) {lv : Nat} (hh : s.HitsIn a lv) :
    s.HitWritten (s.store a .b v) a v lv true ∧ (s.store a .b v).ms.mem = s.ms.mem ∧
      (s.store a .b v).ms.emem = s.ms.emem ∧ (s.store a .b v).ms.stores = s.ms.stores := by
  obtain ⟨l, xs, hms⟩ := s.store_byte a v
  have hlv : hitLevel { s.ms with stale := l } (setOf s.route a) (tagOf s.route a) = some lv := hitLevel_in hh
  rw [writePiece_cachable _ _ _ _ hc.ram hc.rom hp hc.uses, hm, hlv] at hms
  exact ⟨State.hitWritten hh (by simp) (congrArg MemSys.cache hms :), (congrArg MemSys.mem hms :), (congrArg MemSys.emem hms :),
    (congrArg MemSys.stores hms :)⟩

/-- A copyback write that misses (R147). -/
theorem State.store_copyback_miss (hm : cacheMode s.route s.dataSpace a = 1#2) (hh : s.Misses a) :
    (∃ lv, Allocates s (s.store a .b v) a lv true (putByte a v (s.behind a))) ∧
      (s.store a .b v).ms.mem = (settle s.ms).mem := by
  obtain ⟨l, xs, hms⟩ := s.store_byte a v
  have hlv : hitLevel { s.ms with stale := l } (setOf s.route a) (tagOf s.route a) = none := hitLevel_miss hh
  rw [writePiece_cachable _ _ _ _ hc.ram hc.rom hp hc.uses, hm, hlv] at hms
  obtain ⟨hmem, -, -, hcache, hst, -, -⟩ := busLine_spec s.route { s.ms with stale := l } s.dataSpace a
  have hbyte : ∀ i < 16, lineByte (lineWrite (busLine s.route { s.ms with stale := l } s.dataSpace a).1 (a.toNat % 16)
      [v.setWidth 8]) i = putByte a v (s.behind a) i := by
    intro i hi
    have hbus : lineByte (busLine s.route { s.ms with stale := l } s.dataSpace a).1 i = s.behind a i := by
      rw [busLine_byte _ _ _ _ hi, busByte_eq, busPair_settle_stale]
      rfl
    rw [lineByte_put _ hi, putByte, putByte, hbus]
  refine ⟨⟨_, allocates_of (hcache.trans (settle_cache _)) hst (by simp) hbyte (congrArg MemSys.cache hms :)
    (congrArg MemSys.stores hms :) (congrArg MemSys.push hms :)⟩, ?_⟩
  exact (congrArg MemSys.mem hms :).trans (hmem.trans (congrArg Prod.fst (busPair_settle_stale s.ms l)))

/-- A line write that misses, which needs no line read (R147). -/
theorem State.storeLine_miss (hm : cacheMode s.route s.dataSpace a = 1#2) (hh : s.Misses a) {ws : List Long}
    (hws : ws.length = 4) :
    (∃ lv, Allocates s (s.storeLine a ws) a lv true (fun i => (ws.flatMap (beBytes 4)).getD i 0#8)) ∧
      (s.storeLine a ws).ms.fill = s.ms.fill ∧ (s.storeLine a ws).ms.mem = (settle s.ms).mem := by
  have hlen : (ws.flatMap (beBytes 4)).length = 16 := by simp [List.length_flatMap, hws]
  obtain ⟨l, xs, hms⟩ := s.storeLine_line a hws
  have hlv : hitLevel { s.ms with stale := l } (setOf s.route a) (tagOf s.route a) = none := hitLevel_miss hh
  rw [writePiece_cachable _ _ _ _ hc.ram hc.rom hp hc.uses, hm, hlv] at hms
  have hmiss : writeMiss s.route { s.ms with stale := l } s.dataSpace a (ws.flatMap (beBytes 4)) =
      placeLine s.route (drain s.route { s.ms with stale := l }) a (Machine.lineOf (ws.flatMap (beBytes 4))) true := if_pos hlen
  have hms' : (s.storeLine a ws).ms = { placeLine s.route (drain s.route { s.ms with stale := l }) a
      (Machine.lineOf (ws.flatMap (beBytes 4))) true with xfers := xs } := hmiss ▸ hms
  obtain ⟨hmem, -, hcache, hfill, hst, -⟩ := drain_spec s.route { s.ms with stale := l }
  have hbyte : ∀ i < 16, lineByte (Machine.lineOf (ws.flatMap (beBytes 4))) i = (ws.flatMap (beBytes 4)).getD i 0#8 := by
    intro i hi
    rw [lineByte_lineOf _ hlen hi, List.getD_eq_getElem _ _ (by omega)]
  refine ⟨⟨_, allocates_of hcache hst (by simp) hbyte (congrArg MemSys.cache hms' :)
    (congrArg MemSys.stores hms' :) (congrArg MemSys.push hms' :)⟩, (congrArg MemSys.fill hms' :).trans hfill, ?_⟩
  exact (congrArg MemSys.mem hms' :).trans (hmem.trans (congrArg Prod.fst (busPair_settle_stale s.ms l)))

/-- A writethrough write that hits (R148). -/
theorem State.store_through_hit (hm : cacheMode s.route s.dataSpace a = 0#2) (hd : s.dataSpace.tt = 0#2) {lv : Nat}
    (hh : s.HitsIn a lv) : s.HitWritten (s.store a .b v) a v lv false ∧ s.WrittenThrough (s.store a .b v) a v := by
  obtain ⟨l, xs, hms⟩ := s.store_byte a v
  have hlv : hitLevel { s.ms with stale := l } (setOf s.route a) (tagOf s.route a) = some lv := hitLevel_in hh
  rw [writePiece_cachable _ _ _ _ hc.ram hc.rom hp hc.uses, hm, hlv] at hms
  refine ⟨State.hitWritten hh (by simp) ((congrArg MemSys.cache hms :).trans (externalWrite_cache ..)),
    writtenThrough hd hms ?_⟩
  rw [busPair_settle, busPair_settle]
  rfl

/-- A writethrough write that misses (R148). -/
theorem State.store_through_miss (hm : cacheMode s.route s.dataSpace a = 0#2) (hd : s.dataSpace.tt = 0#2)
    (hh : s.Misses a) : (s.store a .b v).ms.cache = s.ms.cache ∧ s.WrittenThrough (s.store a .b v) a v := by
  obtain ⟨l, xs, hms⟩ := s.store_byte a v
  have hlv : hitLevel { s.ms with stale := l } (setOf s.route a) (tagOf s.route a) = none := hitLevel_miss hh
  rw [writePiece_cachable _ _ _ _ hc.ram hc.rom hp hc.uses, hm, hlv] at hms
  exact ⟨(congrArg MemSys.cache hms :).trans (externalWrite_cache ..), writtenThrough hd hms (busPair_settle_stale _ _)⟩
end Cachable
end Writes

/-- Settles O57: each byte is one access, routed by what claims its address, then by the cache mode and the level hit. -/
theorem byteWrites : Obligations.ByteWrites := by
  intro s a v
  refine ⟨State.store_rejected, State.store_buffered, fun hc hp => ⟨fun hm => ⟨?_, ?_, ?_⟩, fun hm => ⟨?_, ?_⟩⟩⟩
  · exact fun lv hh => State.store_copyback_hit hc hp hm hh
  · exact fun hh => State.store_copyback_miss hc hp hm hh
  · exact fun hh _ w0 w1 w2 w3 => State.storeLine_miss hc hp hm hh (ws := [w0, w1, w2, w3]) rfl
  · exact fun lv hh => State.store_through_hit hc hp hm hc.space hh
  · exact fun hh => State.store_through_miss hc hp hm hc.space hh
end Sys2Proof.Machine
end

