-- ==== Sys2Proof/Proofs/Soundness.lean ====
section
/-! PROOF. Sys2Proof/Proofs/Soundness.lean: The invariant as a condition that each operation on the state keeps. -/

namespace Sys2Proof.Machine

/-! ### The invariant, with what the run state may be left open -/

/-- The memories and the registers as the invariant has them, and a condition on the run state. -/
structure State.Sound (P : Ev → Prop) (s : State) : Prop where
  mem : s.MemInv
  reg : s.RegInv
  ev : P s.ev

/-- No fault-on-fault. -/
def Ev.Sane (e : Ev) : Prop := e.faultOnFault = false

/-- No fault-on-fault, and no exception processing in progress. -/
def Ev.Live (e : Ev) : Prop := e.faultOnFault = false ∧ e.inException = false

/-- The run state as the invariant has it. -/
def Ev.Settled (e : Ev) : Prop :=
  (e.faultOnFault = true → e.run = .halted) ∧ (e.inException = true → e.faultOnFault = true)

/-- Conditions on what the invariant speaks of. -/
def Ev.Stable (P : Ev → Prop) : Prop :=
  ∀ e e' : Ev, e'.run = e.run → e'.faultOnFault = e.faultOnFault → e'.inException = e.inException → P e → P e'

theorem Ev.stable_live : Ev.Stable Ev.Live := fun _ _ _ hf hi h => ⟨hf.trans h.1, hi.trans h.2⟩

theorem Ev.stable_settled : Ev.Stable Ev.Settled := fun e e' hr hf hi h => by
  unfold Ev.Settled
  rwa [hr, hf, hi]

section Sound
variable {P : Ev → Prop} {s t : State}

theorem State.Sound.settled (h : s.Sound Ev.Live) : s.Sound Ev.Settled :=
  ⟨h.mem, h.reg, fun hf => absurd (h.ev.1.symm.trans hf) (by simp), fun hi => absurd (h.ev.2.symm.trans hi) (by simp)⟩

/-- A machine that is not halted has met no fault-on-fault. -/
theorem State.Sound.live (h : s.Sound Ev.Settled) (hr : s.ev.run ≠ .halted ∨ s.ev.faultOnFault = false) :
    s.Sound Ev.Live := by
  obtain ⟨hf, hi⟩ := h.ev
  have hfof : s.ev.faultOnFault = false := hr.elim (fun hr => Bool.eq_false_iff.mpr fun e => hr (hf e)) id
  exact ⟨h.mem, h.reg, hfof, Bool.eq_false_iff.mpr fun e => absurd ((hi e).symm.trans hfof) (by simp)⟩

/-- What the invariant speaks of besides the run state. -/
theorem State.Sound.of {Q : Ev → Prop} (h : s.Sound P) (hms : t.ms.Ok s.pins) (hpins : t.pins = s.pins)
    (hsr : t.cpu.sr = s.cpu.sr) (hctl : t.ctl = s.ctl) (hcsr : t.dbg.csr &&& 0x00F8008F#32 = s.dbg.csr &&& 0x00F8008F#32)
    (hmac : t.mac.macsr = s.mac.macsr) (hev : Q t.ev) : t.Sound Q := by
  obtain ⟨hm, ⟨h1, h2, h3, h4, h5, h6, h7, h8, h9⟩, he⟩ := h
  refine ⟨by rw [State.MemInv, hpins]; exact hms, ⟨?_, ?_, ?_, ?_, ?_, ?_, ?_, ?_, ?_⟩, hev⟩
  · rwa [hsr]
  · rwa [hctl]
  · rwa [hctl]
  · rwa [hctl]
  · rwa [hctl]
  · rwa [hctl]
  · rwa [hctl]
  · rwa [hcsr]
  · rwa [hmac]

/-- An operation that changes the general registers, the PC, the trace port, the debug module or the free values'
counter. -/
theorem State.Sound.same (h : s.Sound P) (hms : t.ms = s.ms) (hpins : t.pins = s.pins) (hsr : t.cpu.sr = s.cpu.sr)
    (hctl : t.ctl = s.ctl) (hcsr : t.dbg.csr = s.dbg.csr) (hmac : t.mac = s.mac) (hev : t.ev = s.ev) : t.Sound P :=
  h.of (hms ▸ h.mem) hpins hsr hctl (by rw [hcsr]) (by rw [hmac]) (hev ▸ h.ev)

/-- An operation that changes the memory system besides. -/
theorem State.Sound.memory (h : s.Sound P) (hms : t.ms.Ok s.pins) (hpins : t.pins = s.pins) (hsr : t.cpu.sr = s.cpu.sr)
    (hctl : t.ctl = s.ctl) (hcsr : t.dbg.csr = s.dbg.csr) (hmac : t.mac = s.mac) (hev : t.ev = s.ev) : t.Sound P :=
  h.of hms hpins hsr hctl (by rw [hcsr]) (by rw [hmac]) (hev ▸ h.ev)

/-! ### Registers, the trace port, the free values -/

theorem State.Sound.setD (h : s.Sound P) (r : Reg) (v : Long) : (s.setD r v).Sound P :=
  h.same rfl rfl rfl rfl rfl rfl rfl

theorem State.Sound.setA (h : s.Sound P) (r : Reg) (v : Long) : (s.setA r v).Sound P :=
  h.same rfl rfl rfl rfl rfl rfl rfl

theorem State.Sound.setSp (h : s.Sound P) (v : Long) : (s.setSp v).Sound P := h.setA spReg v

theorem State.Sound.setR (h : s.Sound P) (k : RegX) (v : Long) : (s.setR k v).Sound P :=
  h.same (by simp) (by simp) (by simp) (by simp) (by simp) (by simp) (by simp)

theorem State.Sound.setPc (h : s.Sound P) (v : Long) : (s.setPc v).Sound P :=
  h.same rfl rfl rfl rfl rfl rfl rfl

theorem State.Sound.advance (h : s.Sound P) (n : Nat) : (s.advance n).Sound P := h.setPc _

theorem State.Sound.drawn (h : s.Sound P) : s.drawn.Sound P := h.same rfl rfl rfl rfl rfl rfl rfl

theorem State.Sound.onPort (h : s.Sound P) (p : List PortEvent) : ({ s with port := p } : State).Sound P :=
  h.same rfl rfl rfl rfl rfl rfl rfl

theorem State.Sound.event (h : s.Sound P) (e : PortEvent) : (s.event e).Sound P := by
  obtain ⟨p, hp⟩ := s.event_eq e
  rw [hp]
  exact h.onPort p

theorem State.Sound.pst (h : s.Sound P) (v : BitVec 4) : (s.pst v).Sound P := h.event _

theorem State.Sound.item (h : s.Sound P) (n : Nat) (v : Long) : (s.item n v).Sound P := h.event _

theorem State.Sound.target (h : s.Sound P) (v : Long) : (s.target v).Sound P := by
  unfold State.target
  split
  · exact h
  all_goals exact h.item _ _

theorem State.Sound.showRead (h : s.Sound P) (sz : Size) (v : Long) : (s.showRead sz v).Sound P := by
  unfold State.showRead
  split
  · exact h.item _ _
  · exact h

theorem State.Sound.showUser (h : s.Sound P) (old : State) : (State.showUser old s).Sound P := by
  unfold State.showUser
  split
  · exact h.pst _
  · exact h

theorem State.Sound.showJump (h : s.Sound P) (ea : Ea) (v : Long) : (s.showJump ea v).Sound P := by
  unfold State.showJump
  split
  · exact (h.pst _).target _
  · exact h.pst _

/-! ### The status register -/

/-- Bits that a replacement of others leaves. -/
theorem and_of_replaced {w : Nat} {x a b m : BitVec w} (ha : a &&& m = m) (hb : b &&& m = 0#w) :
    (x &&& a ||| b) &&& m = x &&& m := by
  apply BitVec.eq_of_getLsbD_eq
  intro k hk
  have h1 := congrArg (fun y => y.getLsbD k) ha
  have h2 := congrArg (fun y => y.getLsbD k) hb
  simp only [BitVec.getLsbD_and, BitVec.getLsbD_or, BitVec.getLsbD_zero] at h1 h2 ⊢
  cases hm : m.getLsbD k with
  | false => simp
  | true =>
    rw [hm, Bool.and_true] at h1 h2
    rw [h1, h2]
    simp

/-- The reserved bits of the SR stay zero (R28, R46). -/
theorem State.Sound.setSr (h : s.Sound P) (v : Word) : (s.setSr v).Sound P := by
  refine ⟨h.mem, { h.reg with sr := ?_ }, h.ev⟩
  show v &&& srMask &&& ~~~srMask = 0#16
  rw [BitVec.and_assoc]
  simp [srMask]

theorem State.Sound.setCcr (h : s.Sound P) (v : Byte) : (s.setCcr v).Sound P := h.setSr _

theorem State.Sound.setFlags (h : s.Sound P) (f : Flags) : (s.setFlags f).Sound P := by
  refine ⟨h.mem, { h.reg with sr := ?_ }, h.ev⟩
  have hb : flagBits f &&& ~~~srMask = 0#16 := by
    obtain ⟨x, n, z, v, c⟩ := f
    revert x n z v c
    decide
  exact (and_of_replaced (by decide) hb).trans h.reg.sr

/-! ### Memory -/

theorem State.Sound.setMs (h : s.Sound P) {m : MemSys} (hm : m.Ok s.pins) : (s.setMs m).Sound P :=
  h.memory hm rfl rfl rfl rfl rfl rfl

theorem State.Sound.loadQuiet (h : s.Sound P) (a : Long) (sz : Size) : (s.loadQuiet a sz).2.Sound P :=
  h.setMs (readOperand_ok _ _ _ h.mem)

theorem State.Sound.load (h : s.Sound P) (a : Long) (sz : Size) : (s.load a sz).2.Sound P :=
  (h.loadQuiet a sz).showRead _ _

theorem State.Sound.store (h : s.Sound P) (a : Long) (sz : Size) (v : Long) : (s.store a sz v).Sound P := by
  refine h.memory ?_ (by simp) (by simp) (by simp) (by simp) (by simp) (by simp)
  rw [State.ms_store]
  exact writeOperand_ok _ _ _ _ rfl h.mem

theorem State.Sound.loadLine (h : s.Sound P) (a : Long) : (s.loadLine a).2.Sound P := by
  have hm : (readPieces s.route s.ms s.dataSpace [(a, 16)]).2.Ok s.pins := readPieces_ok _ _ h.mem
  exact h.setMs hm

theorem State.Sound.storeLine (h : s.Sound P) (a : Long) (vs : List Long) : (s.storeLine a vs).Sound P :=
  h.setMs (writePieces_ok _ _ _ rfl h.mem)

theorem State.Sound.drainBuffers (h : s.Sound P) : s.drainBuffers.Sound P := h.setMs (drain_ok h.mem)

theorem State.Sound.flush (h : s.Sound P) : s.flush.Sound P := h.setMs (h.mem.congr rfl rfl rfl rfl rfl)

theorem State.Sound.emptyPrefetch (h : s.Sound P) : s.emptyPrefetch.Sound P :=
  h.setMs (h.mem.congr rfl rfl rfl rfl rfl)

theorem State.Sound.jumpTo (h : s.Sound P) (v : Long) : (s.jumpTo v).Sound P := (h.setPc v).flush

theorem State.Sound.setWriteError (h : s.Sound P) (b : Bool) : (s.setMs { s.ms with writeError := b }).Sound P :=
  h.setMs (h.mem.congr rfl rfl rfl rfl rfl)

theorem State.Sound.push (h : s.Sound P) (v : Long) : (s.push v).Sound P := (h.setSp _).store _ _ _

theorem State.Sound.locate (h : s.Sound P) (ea : Ea) (sz : Size) : (s.locate ea sz).2.Sound P :=
  h.same (by simp) (by simp) (by simp) (by simp) (by simp) (by simp) (by simp)

theorem State.Sound.readLoc (h : s.Sound P) (l : Loc) (sz : Size) : (s.readLoc l sz).2.Sound P := by
  cases l with
  | mem a => exact h.load a sz
  | _ => exact h

theorem State.Sound.writeLoc (h : s.Sound P) (l : Loc) (sz : Size) (v : Long) : (s.writeLoc l sz v).Sound P := by
  cases l with
  | dreg r => exact h.setD _ _
  | areg r => exact h.setA _ _
  | mem a => exact h.store _ _ _
  | imm v => exact h

theorem State.Sound.eaRead (h : s.Sound P) (ea : Ea) (sz : Size) : (s.eaRead ea sz).2.Sound P :=
  (h.locate ea sz).readLoc _ sz

theorem State.Sound.eaWrite (h : s.Sound P) (ea : Ea) (sz : Size) (v : Long) : (s.eaWrite ea sz v).Sound P :=
  (h.locate ea sz).writeLoc _ sz v

theorem State.Sound.fetchCode (h : s.Sound P) (a : Long) : (s.fetchCode a).2.Sound P :=
  (h.setMs (m := (fetchWord s.route s.ms s.codeSpace a s.free).2) (fetchWord_ok _ _ _ h.mem)).drawn

theorem State.Sound.fetchInstr (h : s.Sound P) : s.fetchInstr.2.Sound P := by
  have h1 := h.fetchCode s.cpu.pc
  have h2 := h1.fetchCode (s.cpu.pc + 2#32)
  have h3 := h2.fetchCode (s.cpu.pc + 4#32)
  unfold State.fetchInstr
  dsimp only
  split
  · exact h1
  · exact h2
  · exact h3

/-! ### The run state -/

theorem State.Sound.setEv {Q : Ev → Prop} (h : s.Sound P) {e : Ev} (he : Q e) : (s.setEv e).Sound Q :=
  h.of h.mem rfl rfl rfl rfl rfl he

/-- A change of the run state that the condition does not see. -/
theorem State.Sound.setEv_stable (h : s.Sound P) (hP : Ev.Stable P) {e : Ev} (hr : e.run = s.ev.run)
    (hf : e.faultOnFault = s.ev.faultOnFault) (hi : e.inException = s.ev.inException) : (s.setEv e).Sound P :=
  h.setEv (hP _ _ hr hf hi h.ev)
end Sound
end Sys2Proof.Machine
end

