-- ==== Sys2Proof/Proofs/SoundUnits.lean ====
section
/-! PROOF. Sys2Proof/Proofs/SoundUnits.lean: The MAC unit, the control and debug registers, halts and exceptions keep the invariant. -/

namespace Sys2Proof.Machine

section Units
variable {P : Ev → Prop} {s t : State}

/-! ### The CSR -/

/-- A change of the CSR's bits that are not reserved. -/
theorem State.Sound.setCsr (h : s.Sound P) {c : Long} (hc : c &&& 0x00F8008F#32 = s.dbg.csr &&& 0x00F8008F#32) :
    ({ s with dbg := { s.dbg with csr := c } } : State).Sound P :=
  h.of h.mem rfl rfl rfl hc rfl h.ev

theorem haltSource_reserved (c : Long) {n : Nat} (hn : 24 ≤ n) :
    haltSource c n &&& 0x00F8008F#32 = c &&& 0x00F8008F#32 := by
  refine and_of_replaced (by decide) ?_
  apply BitVec.eq_of_getLsbD_eq
  intro k hk
  rw [BitVec.getLsbD_and, BitVec.getLsbD_shiftLeft]
  by_cases h : k < n
  · simp [h]
  · have hm : ∀ j < 32, 24 ≤ j → (0x00F8008F#32).getLsbD j = false := by decide
    rw [hm k hk (by omega)]
    simp

theorem State.Sound.setHaltSource (h : s.Sound P) {n : Nat} (hn : 24 ≤ n) : (s.setHaltSource n).Sound P :=
  h.setCsr (haltSource_reserved _ hn)

theorem setStatus_reserved (c : Long) (st : BitVec 4) : setStatus c st &&& 0x00F8008F#32 = c &&& 0x00F8008F#32 :=
  and_of_replaced (by decide) (by revert st; decide)

theorem State.Sound.setStatus (h : s.Sound P) (st : BitVec 3) : (s.setStatus st).Sound P :=
  h.drawn.setCsr (setStatus_reserved _ _)

/-- The debug registers, as a debug interface writes them (R632). -/
theorem State.Sound.writeDebug (h : s.Sound P) {mask : Long} (hm : mask &&& 0x00F8008F#32 = 0#32) (drc : BitVec 4)
    (v : Long) : (s.writeDebug mask drc v).Sound P := by
  have hcsr : (writeDebugReg s.dbg mask drc v).csr &&& 0x00F8008F#32 = s.dbg.csr &&& 0x00F8008F#32 := by
    have hkeep : ~~~mask &&& 0x00F8008F#32 = 0x00F8008F#32 := by
      apply BitVec.eq_of_getLsbD_eq
      intro k hk
      have := congrArg (fun x => x.getLsbD k) hm
      simp only [BitVec.getLsbD_and, BitVec.getLsbD_zero, BitVec.getLsbD_not, hk, decide_true, Bool.true_and] at this ⊢
      cases hb : (0x00F8008F#32 : Long).getLsbD k with
      | false => simp
      | true => rw [hb, Bool.and_true] at this; simp [this]
    have hnew : v &&& mask &&& 0x00F8008F#32 = 0#32 := by rw [BitVec.and_assoc, hm, BitVec.and_zero]
    unfold writeDebugReg
    split
    · exact and_of_replaced hkeep hnew
    all_goals rfl
  have h1 : ({ s with dbg := writeDebugReg s.dbg mask drc v } : State).Sound P :=
    h.of h.mem rfl rfl rfl hcsr rfl h.ev
  unfold State.writeDebug
  dsimp only
  split
  · exact h1.setStatus _
  · exact h1

/-! ### The MAC unit -/

theorem State.Sound.setMac (h : s.Sound P) {m : Mac} (hm : m.macsr &&& 0x01#8 = 0#8) :
    ({ s with mac := m } : State).Sound P :=
  ⟨h.mem, { h.reg with macsr := hm }, h.ev⟩

theorem macFlags_low (macsr : Byte) (n z v : Bool) : macFlags macsr n z v &&& 0x01#8 = 0#8 := by
  have hb : ((bitWord n <<< 3 ||| bitWord z <<< 2 ||| bitWord v <<< 1).setWidth 8 : Byte) &&& 0x01#8 = 0#8 := by
    revert n z v
    decide
  rw [macFlags]
  revert hb
  generalize ((bitWord n <<< 3 ||| bitWord z <<< 2 ||| bitWord v <<< 1).setWidth 8 : Byte) = b
  intro hb
  apply BitVec.eq_of_getLsbD_eq
  intro k hk
  have := congrArg (fun x => x.getLsbD k) hb
  simp only [BitVec.getLsbD_and, BitVec.getLsbD_or, BitVec.getLsbD_zero] at this ⊢
  interval_cases k <;> simp_all

theorem State.Sound.macOp (h : s.Sound P) (f : MacForm) (x y : Long) : (s.macOp f x y).Sound P :=
  (h.setMac (macFlags_low ..)).drawn

theorem setMacsr_low (m : Mac) (v : Long) : (setMacsr m v).macsr &&& 0x01#8 = 0#8 := by
  show v.extractLsb' 0 8 &&& 0xFE#8 &&& 0x01#8 = 0#8
  rw [BitVec.and_assoc]
  simp

/-! ### The control registers -/

/-- The reserved bits of a control register are not stored (R46). -/
theorem and_mask_reserved {w : Nat} (v m : BitVec w) : v &&& m &&& ~~~m = 0#w := by
  simp [BitVec.and_assoc]

theorem State.Sound.writeCtl (h : s.Sound P) (r : CtlReg) (v : Long) : (s.writeCtl r v).Sound P := by
  cases r with
  | cacr =>
    have h1 : ({ s with ctl := { s.ctl with cacr := v &&& cacrMask } } : State).Sound P :=
      ⟨h.mem, { h.reg with cacr := and_mask_reserved _ _ }, h.ev⟩
    show (s.setCacr v).Sound P
    unfold State.setCacr
    dsimp only
    split
    · exact h1.setMs (invalidateCache_ok h1.mem)
    · exact h1
  | acr0 => exact ⟨h.mem, { h.reg with acr0 := and_mask_reserved _ _ }, h.ev⟩
  | acr1 => exact ⟨h.mem, { h.reg with acr1 := and_mask_reserved _ _ }, h.ev⟩
  | vbr => exact ⟨h.mem, { h.reg with vbr := and_mask_reserved _ _ }, h.ev⟩
  | rombar => exact ⟨h.mem, { h.reg with rombar := and_mask_reserved _ _ }, h.ev⟩
  | rambar => exact ⟨h.mem, { h.reg with rambar := and_mask_reserved _ _ }, h.ev⟩

theorem State.Sound.setCtl (h : s.Sound P) (r : CtlReg) (v : Long) : (s.setCtl r v).Sound P := by
  unfold State.setCtl
  split
  · exact h.writeCtl _ _
  · exact (h.writeCtl _ _).flush

/-! ### Halts and exceptions -/

theorem State.Sound.enterHalted (h : s.Sound Ev.Live) : s.enterHalted.Sound Ev.Live :=
  (h.drainBuffers.setEv (Q := Ev.Live) (by exact ⟨h.ev.1, h.ev.2⟩)).pst _

theorem State.Sound.haltFor (h : s.Sound Ev.Live) {n : Nat} (hn : 24 ≤ n) : (s.haltFor n).Sound Ev.Live :=
  ((h.setEv (Q := Ev.Live) (by exact ⟨h.ev.1, h.ev.2⟩)).setHaltSource hn).enterHalted

/-- The fault-on-fault halt (R550). -/
theorem State.Sound.faultOnFault (h : s.Sound P) : s.faultOnFault.Sound Ev.Settled := by
  have h1 : ((s.setHaltSource 27).drainBuffers).Sound P := (h.setHaltSource (by omega)).drainBuffers
  have h2 : (s.setHaltSource 27).enterHalted.Sound (fun e => e.run = .halted) := (h1.setEv (by exact rfl)).pst _
  exact ((h2.setEv (Q := Ev.Settled) (by exact ⟨fun _ => h2.ev, fun _ => rfl⟩)).setPc _).drawn

/-- What an exception entry does before the fetch of the vector, of which the condition on the run state is left open. -/
theorem State.Sound.iackCycle (h : s.Sound P) (l : BitVec 3) : (s.iackCycle l).2.Sound P := by
  unfold State.iackCycle
  dsimp only
  refine h.setMs (note_ok _ ?_)
  split
  · exact h.mem
  · exact h.mem.congr rfl rfl rfl rfl rfl

theorem State.Sound.entryVector (h : s.Sound P) (e : Entry) : (s.entryVector e).2.Sound P := by
  unfold State.entryVector
  split
  · exact h.iackCycle _
  · exact h

theorem State.Sound.entryFrame (h : s.Sound P) (e : Entry) (v : Byte) (sr : Word) : (s.entryFrame e v sr).Sound P :=
  (h.store _ _ _).store _ _ _

theorem State.Sound.entryVectorFetch (h : s.Sound Ev.Sane) (v : Byte) : (s.entryVectorFetch v).Sound Ev.Settled := by
  have h1 := (h.setSp (frameAddr s.sp)).load ((s.setSp (frameAddr s.sp)).ctl.vbr + (v.setWidth 32 <<< 2)) .l
  rw [State.entryVectorFetch_eq]
  generalize (s.setSp (frameAddr s.sp)).load ((s.setSp (frameAddr s.sp)).ctl.vbr + (v.setWidth 32 <<< 2)) .l = l at h1 ⊢
  dsimp only
  split
  · exact h1.faultOnFault
  · have h2 := (h1.setPc l.1).flush
    exact ((h2.setEv (Q := Ev.Live) (by exact ⟨h1.ev, rfl⟩)).settled.pst _).target _

/-- Every exception, whatever becomes of it. -/
theorem State.Sound.takeException (h : s.Sound Ev.Live) (e : Entry) : (s.takeException e).Sound Ev.Settled := by
  have hmode : (s.entryMode e).Sound Ev.Sane := (h.drainBuffers.setSr _).setEv h.ev.1
  have hvec := (hmode.pst (if e.emulator then 0xD#4 else 0xC#4)).entryVector e
  have hframe : ((s.atFrame e).entryFrame e (s.vectorOf e) s.cpu.sr).Sound Ev.Sane :=
    (hvec.setWriteError false).entryFrame e _ _
  rw [State.takeException_eq s e h.ev.2]
  dsimp only
  split
  · exact hframe.faultOnFault
  · exact (hframe.setWriteError _).entryVectorFetch _

theorem State.Sound.raiseFault (h : s.Sound Ev.Live) (v : Byte) : (s.raiseFault v).Sound Ev.Settled := h.takeException _

theorem State.Sound.addressErrorAt (h : s.Sound Ev.Live) (pc : Long) : (s.addressErrorAt pc).Sound Ev.Settled :=
  h.drawn.takeException _

theorem State.Sound.accessError (h : s.Sound Ev.Live) (pc : Long) : (s.accessError pc).Sound Ev.Settled :=
  (h.setWriteError false).takeException _

theorem State.Sound.debugInterrupt (h : s.Sound Ev.Live) : s.debugInterrupt.Sound Ev.Settled :=
  (h.setEv (Q := Ev.Live) (by exact ⟨h.ev.1, h.ev.2⟩)).takeException _

theorem State.Sound.interrupt (h : s.Sound Ev.Live) (l : BitVec 3) : (s.interrupt l).Sound Ev.Settled :=
  (h.setEv (Q := Ev.Live) (by exact ⟨h.ev.1, h.ev.2⟩)).takeException _

/-- RTE, whatever frame it finds. -/
theorem State.Sound.returnFromException (h : s.Sound Ev.Live) : s.returnFromException.Sound Ev.Settled := by
  have hformat : s.rteFormat.Sound Ev.Live := (h.drainBuffers.pst _).load _ _
  have hframe : s.rteFrame.Sound Ev.Live := hformat.loadQuiet _ _
  have hloaded : ∀ w t, (s.rteLoaded w t).Sound Ev.Live := fun w t =>
    ((((hframe.setSr _).showUser s).showRead .l t).setSp _).setEv
      ((((hframe.setSr _).showUser s).showRead .l t).setSp _).ev
  unfold State.returnFromException
  dsimp only
  split
  · exact (hformat.onPort _).raiseFault _
  split
  · exact (hloaded _ _).addressErrorAt _
  · exact ((((hloaded _ _).jumpTo _).pst _).target _).settled
end Units
end Sys2Proof.Machine
end

