-- ==== Sys2Proof/Proofs/SoundInstructions.lean ====
section
/-! PROOF. Sys2Proof/Proofs/SoundInstructions.lean: What instructions share, and each family of instructions, keeps the invariant. -/

namespace Sys2Proof.Machine

/-- Wherever an outcome goes on, the state is sound with a condition on the run state. -/
def Keeps (P : Ev → Prop) (r : Res) : Prop := ∀ t, r = .next t → t.Sound P

theorem keeps_next {P : Ev → Prop} {t : State} (h : t.Sound P) : Keeps P (.next t) := fun _ e => by cases e; exact h

theorem keeps_refused {P : Ev → Prop} (r : Refusal) : Keeps P (.refused r) := by
  intro t e
  cases e

theorem keeps_fault {P : Ev → Prop} (f : Fault) : Keeps P (.fault f) := by
  intro t e
  cases e

/-- Wherever an outcome goes on, the invariant is met. -/
def Leads (r : Res) : Prop := Keeps Ev.Settled r

theorem leads_settled {t : State} (h : t.Sound Ev.Settled) : Leads (.next t) := keeps_next h

theorem leads_live {t : State} (h : t.Sound Ev.Live) : Leads (.next t) := leads_settled h.settled

theorem leads_refused (r : Refusal) : Leads (.refused r) := keeps_refused r

theorem leads_fault (f : Fault) : Leads (.fault f) := keeps_fault f

theorem Leads.ite {c : Prop} [Decidable c] {k l : Res} (hk : Leads k) (hl : Leads l) : Leads (if c then k else l) := by
  split
  · exact hk
  · exact hl

section Exec
variable {s : State} (h : s.Sound Ev.Live)
include h

/-! ### What instructions share -/

theorem checked_leads {ea : Ea} {k : Res} (hk : Leads k) : Leads (checked s ea k) :=
  .ite (leads_settled (h.addressErrorAt _)) hk

omit h in
theorem extChecked_leads {ok : Bool} {k : Res} (hk : Leads k) : Leads (extChecked ok k) := .ite hk (leads_refused _)

theorem privileged_leads {k : Res} (hk : Leads k) : Leads (privileged s k) := .ite hk (leads_settled (h.raiseFault _))

theorem withMac_leads {k : Res} (hk : Leads k) : Leads (withMac s k) := .ite hk (leads_settled (h.raiseFault _))

theorem withDiv_leads {k : Res} (hk : Leads k) : Leads (withDiv s k) := .ite hk (leads_settled (h.raiseFault _))

theorem evenTarget_leads {v : Long} {k : Res} (hk : Leads k) : Leads (evenTarget s v k) :=
  .ite (leads_settled (h.addressErrorAt _)) hk

/-! ### Integer instructions -/

theorem onD_leads (dx : Reg) (r : Long) (f : Flags) (n : Nat) : Leads (onD s dx r f n) := by
  unfold onD
  exact leads_live ((((h.pst _).setFlags _).setD _ _).advance _)

theorem eaToD_leads (ea : Ea) (dx : Reg) (r : Long → Long → Long) (f : Flags → Long → Long → Flags) :
    Leads (eaToD ea dx s r f) := by
  refine checked_leads h ?_
  dsimp only
  exact leads_live (((((h.pst _).eaRead _ _).setFlags _).setD _ _).advance _)

theorem toEa_leads (v : Long) (ea : Ea) (r : Long → Long → Long) (f : Flags → Long → Long → Flags) :
    Leads (toEa v ea s r f) := by
  refine checked_leads h ?_
  dsimp only
  exact leads_live ((((((h.pst _).locate _ _).readLoc _ _).setFlags _).writeLoc _ _ _).advance _)

theorem eaToA_leads (ea : Ea) (ax : Reg) (r : Long → Long → Long) : Leads (eaToA ea ax s r) := by
  refine checked_leads h ?_
  dsimp only
  exact leads_live ((((h.pst _).eaRead _ _).setA _ _).advance _)

theorem quickOp_leads (q : Reg) (ea : Ea) (r : Long → Long → Long) (f : Long → Long → Flags) :
    Leads (quickOp q ea s r f) := by
  unfold quickOp
  split
  · exact leads_live (((h.pst _).setA _ _).advance _)
  · exact toEa_leads h _ _ _ _

theorem compareOp_leads (ea : Ea) (d : State → Long) : Leads (compareOp ea s d) := by
  refine checked_leads h ?_
  dsimp only
  exact leads_live ((((h.pst _).eaRead _ _).setFlags _).advance _)

theorem execCmpiL_leads (dx : Reg) (imm : Long) : Leads (execCmpiL dx imm s) := by
  unfold execCmpiL
  exact leads_live (((h.pst _).setFlags _).advance _)

theorem tstOp_leads (sz : Size) (ea : Ea) : Leads (tstOp sz ea s) := by
  refine checked_leads h ?_
  dsimp only
  exact leads_live ((((h.pst _).eaRead _ _).setFlags _).advance _)

theorem mulOp_leads (sz : Size) (ea : Ea) (dx : Reg) (n : Nat) (f : Long → Long → Long) :
    Leads (mulOp sz ea dx n s f) := by
  refine checked_leads h ?_
  dsimp only
  exact leads_live (((((h.pst _).eaRead _ _).setFlags _).setD _ _).advance _)

/-- Divide and remainder: a divisor of zero keeps what the read of the divisor has done, or undoes its register. -/
theorem divOp_leads (sz : Size) (signed : Bool) (ea : Ea) (dx w : Reg) (n : Nat) (res : Quot → Long) :
    Leads (divOp sz signed ea dx w n s res) := by
  have hread : ((s.pst 1#4).eaRead ea sz).2.Sound Ev.Live := (h.pst _).eaRead _ _
  have hzero : (divZero s ((s.pst 1#4).eaRead ea sz).2).Sound Ev.Settled := by
    rw [divZero_eq]
    have hback : ({ ((s.pst 1#4).eaRead ea sz).2 with cpu := s.cpu, port := s.port } : State).Sound Ev.Live :=
      hread.same rfl rfl (by simp) rfl rfl rfl rfl
    split
    · exact (hread.onPort _).drawn.raiseFault _
    · exact hback.drawn.raiseFault _
  refine checked_leads h ?_
  dsimp only
  exact .ite (leads_settled hzero) (.ite (leads_live ((hread.setFlags _).drawn.advance _))
    (leads_live (((hread.setFlags _).setD _ _).advance _)))

theorem bitOp_leads (b : Long) (ea : Ea) (n : Nat) (f : Option (Long → Nat → Long)) : Leads (bitOp b ea n s f) := by
  have hread :=
    (((h.pst 1#4).locate ea (bitSize ea)).readLoc ((s.pst 1#4).locate ea (bitSize ea)).1 (bitSize ea)).setFlags
  refine checked_leads h ?_
  cases f with
  | none => exact leads_live ((hread _).advance _)
  | some g => exact leads_live (((hread _).writeLoc _ _ _).advance _)

/-! ### The MAC unit -/

theorem macPlain_leads (rsv : BitVec 10) (f : MacForm) (rx ry : RegX) : Leads (macPlain rsv f rx ry s) := by
  refine withMac_leads h (extChecked_leads ?_)
  exact leads_live (((h.pst _).macOp _ _ _).advance _)

theorem macLoad_leads (rsv : Bool) (f : MacForm) (msk : Bool) (rx ry rw : RegX) (ea : Ea) :
    Leads (macLoad rsv f msk rx ry rw ea s) := by
  refine withMac_leads h (extChecked_leads ?_)
  dsimp only
  exact leads_live ((((((h.pst _).locate _ _).load _ _).macOp _ _ _).setR _ _).advance _)

theorem macOut_leads (rx : RegX) (v : Long) : Leads (macOut rx v s) :=
  withMac_leads h (leads_live (((h.pst _).setR _ _).advance _))

theorem macIn_leads (ea : Ea) {f : Mac → Long → Mac}
    (hf : ∀ m v, m.macsr &&& 0x01#8 = 0#8 → (f m v).macsr &&& 0x01#8 = 0#8) : Leads (macIn ea s f) := by
  have hread : ((s.pst 1#4).eaRead ea .l).2.Sound Ev.Live := (h.pst _).eaRead _ _
  exact withMac_leads h (leads_live ((hread.setMac (hf _ _ hread.reg.macsr)).advance _))

theorem execMoveMacsrToCcr_leads : Leads (execMoveMacsrToCcr s) :=
  withMac_leads h (leads_live (((h.pst _).setFlags _).advance _))

/-! ### Moves -/

theorem moveOp_leads (sz : Size) (src dst : Ea) : Leads (moveOp sz src dst s) := by
  refine checked_leads h (checked_leads h ?_)
  dsimp only
  exact leads_live ((((((h.pst _).eaRead _ _).locate _ _).setFlags _).writeLoc _ _ _).advance _)

theorem moveaOp_leads (sz : Size) (src : Ea) (ax : Reg) : Leads (moveaOp sz src ax s) := by
  refine checked_leads h ?_
  dsimp only
  exact leads_live ((((h.pst _).eaRead _ _).setA _ _).advance _)

theorem execMoveq_leads (d : Byte) (dx : Reg) : Leads (execMoveq d dx s) := by
  unfold execMoveq
  exact leads_live ((((h.pst _).setFlags _).setD _ _).advance _)

theorem clrOp_leads (sz : Size) (ea : Ea) : Leads (clrOp sz ea s) := by
  refine checked_leads h ?_
  exact leads_live ((((h.pst _).setFlags _).eaWrite _ _ _).advance _)

theorem execLea_leads (ea : Ea) (ax : Reg) : Leads (execLea ea ax s) := by
  refine checked_leads h ?_
  exact leads_live (((h.pst _).setA _ _).advance _)

theorem execPea_leads (ea : Ea) : Leads (execPea ea s) := by
  refine checked_leads h ?_
  exact leads_live (((h.pst _).push _).advance _)

theorem execLink_leads (ay : Reg) (d : Word) : Leads (execLink ay d s) := by
  unfold execLink
  exact leads_live ((((((h.pst _).setSp _).store _ _ _).setA _ _).setSp _).advance _)

theorem execUnlk_leads (ax : Reg) : Leads (execUnlk ax s) := by
  have hload := ((h.pst 1#4).setSp (s.getA ax)).load ((s.pst 1#4).setSp (s.getA ax)).sp .l
  exact .ite (leads_live (((hload.setSp _).drawn).advance _)) (leads_live (((hload.setA _ _).setSp _).advance _))

omit h in
theorem State.Sound.setRegs {P : Ev → Prop} {t : State} (ht : t.Sound P) (ks : List RegX) (vs : List Long) :
    (setRegs t ks vs).Sound P := by
  induction ks generalizing t vs with
  | nil => exact ht
  | cons k ks ih =>
    cases vs with
    | nil => exact ht
    | cons v vs => exact ih (ht.setR k v) vs

omit h in
theorem State.Sound.storeUnit {P : Ev → Prop} {t : State} (ht : t.Sound P) (a : Long) (ks : List RegX) :
    (storeUnit t a ks).Sound P := by
  unfold Machine.storeUnit
  split
  · exact ht.store _ _ _
  · exact ht.storeLine _ _

omit h in
theorem State.Sound.loadUnit {P : Ev → Prop} {t : State} (ht : t.Sound P) (a : Long) (ks : List RegX) :
    (loadUnit t a ks).Sound P := by
  unfold Machine.loadUnit
  split
  · exact (ht.load _ _).setR _ _
  · exact (ht.loadLine _).setRegs _ _

/-- MOVEM, unit by unit. -/
theorem execMovemStore_leads (mask : Word) (ea : Ea) : Leads (execMovemStore mask ea s) := by
  have hfold : ∀ (us : List (Long × List RegX)) {t : State}, t.Sound Ev.Live →
      (us.foldl (fun s u => storeUnit s u.1 u.2) t).Sound Ev.Live := by
    intro us
    induction us with
    | nil => exact id
    | cons u us ih => exact fun ht => ih (ht.storeUnit _ _)
  exact leads_live ((hfold _ (h.pst _)).advance _)

theorem execMovemLoad_leads (mask : Word) (ea : Ea) : Leads (execMovemLoad mask ea s) := by
  have hfold : ∀ (us : List (Long × List RegX)) {t : State}, t.Sound Ev.Live →
      (us.foldl (fun s u => loadUnit s u.1 u.2) t).Sound Ev.Live := by
    intro us
    induction us with
    | nil => exact id
    | cons u us ih => exact fun ht => ih (ht.loadUnit _ _)
  exact leads_live ((hfold _ (h.pst _)).advance _)

/-! ### Program control -/

theorem execBra_leads (d : Disp) : Leads (execBra d s) := evenTarget_leads h (leads_live ((h.pst _).jumpTo _))

theorem execBsr_leads (d : Disp) : Leads (execBsr d s) := evenTarget_leads h (leads_live (((h.pst _).push _).jumpTo _))

theorem execBcc_leads (cc : BitVec 4) (d : Disp) : Leads (execBcc cc d s) :=
  .ite (execBra_leads h d) (leads_live ((h.pst _).advance _))

theorem execJmp_leads (ea : Ea) : Leads (execJmp ea s) :=
  checked_leads h (evenTarget_leads h (leads_live ((h.showJump _ _).jumpTo _)))

theorem execJsr_leads (ea : Ea) : Leads (execJsr ea s) :=
  checked_leads h (evenTarget_leads h (leads_live (((h.showJump _ _).push _).jumpTo _)))

theorem execRts_leads : Leads (execRts s) := by
  have hload : ((s.pst 1#4).load s.sp .l).2.Sound Ev.Live := (h.pst _).load _ _
  exact .ite (leads_settled ((hload.onPort _).addressErrorAt _))
    (leads_live ((((hload.setSp _).jumpTo _).pst _).target _))

theorem execScc_leads (cc : BitVec 4) (dx : Reg) : Leads (execScc cc dx s) := by
  unfold execScc
  exact leads_live (((h.pst _).setD _ _).advance _)

theorem execNop_leads : Leads (execNop s) :=
  .ite (leads_settled (h.drainBuffers.drawn.accessError _)) (leads_live ((h.drainBuffers.pst _).advance _))

theorem execTrap_leads (v : BitVec 4) : Leads (execTrap v s) := leads_settled ((h.pst _).takeException _)

theorem skip_leads (n : Nat) : Leads (.next ((s.pst 1#4).advance n)) := leads_live ((h.pst _).advance _)

theorem execIllegal_leads : Leads (execIllegal s) := leads_settled (h.raiseFault _)

theorem execRte_leads : Leads (execRte s) := privileged_leads h (leads_settled h.returnFromException)

/-! ### System control -/

theorem execMoveFromCcr_leads (dx : Reg) : Leads (execMoveFromCcr dx s) := by
  unfold execMoveFromCcr
  exact leads_live (((h.pst _).setD _ _).advance _)

theorem moveToCcr_leads (v : Byte) (n : Nat) : Leads (moveToCcr v n s) := by
  unfold moveToCcr
  exact leads_live (((h.pst _).setCcr _).advance _)

theorem execMoveFromSr_leads (dx : Reg) : Leads (execMoveFromSr dx s) :=
  privileged_leads h (leads_live (((h.pst _).setD _ _).advance _))

theorem moveToSr_leads (v : Word) (n : Nat) : Leads (moveToSr v n s) :=
  privileged_leads h (leads_live ((((h.pst _).setSr _).showUser _).advance _))

theorem execMovec_leads (ry : RegX) (rc : BitVec 12) : Leads (execMovec ry rc s) := by
  refine privileged_leads h ?_
  split
  · exact leads_live (((h.pst _).drainBuffers.setCtl _ _).advance _)
  · exact leads_refused _

theorem execHalt_leads : Leads (execHalt s) := by
  refine .ite (leads_live ((((h.pst _).drainBuffers).advance _).haltFor ?_)) (leads_settled (h.raiseFault _))
  split <;> omega

theorem execStop_leads (imm : Word) : Leads (execStop imm s) := by
  have hsr : (((s.pst 1#4).drainBuffers.setSr imm).advance 1).Sound Ev.Live :=
    ((h.pst _).drainBuffers.setSr _).advance _
  exact privileged_leads h (.ite (leads_settled (hsr.takeException _))
    (leads_live ((hsr.setEv (Q := Ev.Live) (by exact ⟨hsr.ev.1, hsr.ev.2⟩)).pst _)))

theorem execCpushl_leads (ax : Reg) : Leads (execCpushl ax s) := by
  have hdrain : (s.pst 1#4).drainBuffers.Sound Ev.Live := (h.pst _).drainBuffers
  exact privileged_leads h (leads_live ((hdrain.setMs (cpushLine_ok _ hdrain.mem)).drainBuffers.advance _))

theorem execPulse_leads : Leads (execPulse s) := by
  unfold execPulse
  exact leads_live ((h.pst _).advance _)

theorem wddataOp_leads (sz : Size) (ea : Ea) : Leads (wddataOp sz ea s) := by
  refine checked_leads h ?_
  dsimp only
  exact leads_live (((((h.pst _).locate _ _).loadQuiet _ _).item _ _).advance _)
end Exec
end Sys2Proof.Machine
end

