-- ==== Sys2Proof/Proofs/SoundBoundary.lean ====
section
/-! PROOF. Sys2Proof/Proofs/SoundBoundary.lean: Breakpoints, every instruction and the boundary before it keep the invariant. -/

namespace Sys2Proof.Machine

section Breakpoints
variable {P : Ev → Prop} {s : State}

/-! ### Breakpoints -/

theorem respond_keeps (hP : Ev.Stable P) (h : s.Sound P) (o : Option (BitVec 3 × Response)) :
    Keeps P (s.respond o) := by
  match o with
  | none => exact keeps_next h
  | some (st, .none) => exact keeps_next (h.setStatus st)
  | some (st, .halt) => exact keeps_next ((h.setStatus st).setEv_stable hP rfl rfl rfl)
  | some (st, .interrupt) => exact keeps_next ((h.setStatus st).setEv_stable hP rfl rfl rfl)
  | some (_, .reserved) => exact keeps_refused _

theorem pcBreakpoint_keeps (hP : Ev.Stable P) (h : s.Sound P) : Keeps P s.pcBreakpoint := by
  unfold State.pcBreakpoint
  split
  · exact keeps_next h
  · exact respond_keeps hP h _

theorem xferBreakpoints_keeps (hP : Ev.Stable P) (h : s.Sound P) (pc : Long) (l : List Xfer) :
    Keeps P (s.xferBreakpoints pc l) := by
  induction l generalizing s with
  | nil => exact keeps_next h
  | cons x t ih =>
    unfold State.xferBreakpoints
    split
    · next s1 e => exact ih (respond_keeps hP h _ s1 e)
    · exact keeps_fault _
    · exact keeps_refused _

theorem State.Sound.setXfers (h : s.Sound P) (l : List Xfer) :
    ({ s with ms := { s.ms with xfers := l } } : State).Sound P :=
  h.setMs (h.mem.congr rfl rfl rfl rfl rfl)

theorem takeBreakpoints_keeps (hP : Ev.Stable P) (h : s.Sound P) : Keeps P s.takeBreakpoints := by
  unfold State.takeBreakpoints
  split
  · exact keeps_next h
  · exact xferBreakpoints_keeps hP (h.setXfers []) _ _
end Breakpoints

section Instructions
variable {s : State} (h : s.Sound Ev.Live)
include h

theorem execWdebug_leads (ext : Word) (ea : Ea) : Leads (execWdebug ext ea s) := by
  have hread : (((s.pst 1#4).drainBuffers.load (s.eaAddr ea) .l).2.load (s.eaAddr ea + 4#32) .l).2.Sound Ev.Live :=
    ((h.pst _).drainBuffers.load _ _).load _ _
  refine privileged_leads h (extChecked_leads ?_)
  dsimp only
  split
  · split
    · next s3 e =>
      have h3 := takeBreakpoints_keeps Ev.stable_live hread s3 e
      refine leads_live (State.Sound.advance ?_ _)
      unfold State.coreWriteDebug
      split
      · exact h3
      · exact h3.writeDebug (by decide) _ _
    · exact leads_fault _
    · exact leads_refused _
  · exact leads_refused _

/-! ### Every instruction -/

theorem exec_leads : (i : Instr) → Leads (exec i s)
  | .oriL _ _ | .andiL _ _ | .subiL _ _ | .addiL _ _ | .eoriL _ _ => onD_leads h _ _ _ _
  | .negxL _ | .negL _ | .notL _ | .swap _ | .extW _ | .extL _ | .extbL _ => onD_leads h _ _ _ _
  | .subxL _ _ | .addxL _ _ => onD_leads h _ _ _ _
  | .asrI _ _ | .lsrI _ _ | .asrD _ _ | .lsrD _ _ => onD_leads h _ _ _ _
  | .aslI _ _ | .lslI _ _ | .aslD _ _ | .lslD _ _ => onD_leads h _ _ _ _
  | .cmpiL _ _ => execCmpiL_leads h _ _
  | .btstI _ _ _ | .bchgI _ _ _ | .bclrI _ _ _ | .bsetI _ _ _ => extChecked_leads (bitOp_leads h _ _ _ _)
  | .btstD dy ea => (bitOp_leads h _ _ _ _ : Leads (execBtstD dy ea s))
  | .bchgD dy ea => (bitOp_leads h _ _ _ _ : Leads (execBchgD dy ea s))
  | .bclrD dy ea => (bitOp_leads h _ _ _ _ : Leads (execBclrD dy ea s))
  | .bsetD dy ea => (bitOp_leads h _ _ _ _ : Leads (execBsetD dy ea s))
  | .moveB _ _ | .moveL _ _ | .moveW _ _ => moveOp_leads h _ _ _
  | .moveaL _ _ | .moveaW _ _ => moveaOp_leads h _ _ _
  | .moveFromSr _ => execMoveFromSr_leads h _
  | .lea _ _ => execLea_leads h _ _
  | .clrB _ | .clrW _ | .clrL _ => clrOp_leads h _ _
  | .moveFromCcr _ => execMoveFromCcr_leads h _
  | .moveToCcrD _ | .moveToCcrI _ => moveToCcr_leads h _ _
  | .moveToSrD _ | .moveToSrI _ => moveToSr_leads h _ _
  | .pea _ => execPea_leads h _
  | .movemStore _ _ => execMovemStore_leads h _ _
  | .movemLoad _ _ => execMovemLoad_leads h _ _
  | .tstB _ | .tstW _ | .tstL _ => tstOp_leads h _ _
  | .halt => execHalt_leads h
  | .pulse => execPulse_leads h
  | .illegal => execIllegal_leads h
  | .muluL _ _ _ | .mulsL _ _ _ => extChecked_leads (mulOp_leads h _ _ _ _ _)
  | .muluW _ _ | .mulsW _ _ => mulOp_leads h _ _ _ _ _
  | .divuL _ _ _ | .divsL _ _ _ => withDiv_leads h (extChecked_leads (divOp_leads h _ _ _ _ _ _ _))
  | .remuL _ _ _ _ | .remsL _ _ _ _ => withDiv_leads h (extChecked_leads (divOp_leads h _ _ _ _ _ _ _))
  | .divuW _ _ | .divsW _ _ => withDiv_leads h (divOp_leads h _ _ _ _ _ _ _)
  | .trap _ => execTrap_leads h _
  | .link _ _ => execLink_leads h _ _
  | .unlk _ => execUnlk_leads h _
  | .nop => execNop_leads h
  | .stop _ => execStop_leads h _
  | .rte => execRte_leads h
  | .rts => execRts_leads h
  | .movec _ _ => execMovec_leads h _ _
  | .jsr _ => execJsr_leads h _
  | .jmp _ => execJmp_leads h _
  | .addqL _ _ | .subqL _ _ => quickOp_leads h _ _ _ _
  | .scc _ _ => execScc_leads h _ _
  | .trapf => skip_leads h 0
  | .trapfW _ => skip_leads h 1
  | .trapfL _ _ => skip_leads h 2
  | .bra _ => execBra_leads h _
  | .bsr _ => execBsr_leads h _
  | .bcc _ _ => execBcc_leads h _ _
  | .moveq _ _ => execMoveq_leads h _ _
  | .orToD _ _ | .andToD _ _ => eaToD_leads h _ _ _ _
  | .addToD ea dx => (eaToD_leads h _ _ _ _ : Leads (execAddToD ea dx s))
  | .subToD ea dx => (eaToD_leads h _ _ _ _ : Leads (execSubToD ea dx s))
  | .orToEa _ _ | .eorToEa _ _ | .andToEa _ _ => toEa_leads h _ _ _ _
  | .addToEa dy ea => (toEa_leads h _ _ _ _ : Leads (execAddToEa dy ea s))
  | .subToEa dy ea => (toEa_leads h _ _ _ _ : Leads (execSubToEa dy ea s))
  | .subaL _ _ | .addaL _ _ => eaToA_leads h _ _ _
  | .macW _ _ _ _ _ _ | .macL _ _ _ _ _ _ | .msacW _ _ _ _ _ _ | .msacL _ _ _ _ _ _ => macPlain_leads h _ _ _ _
  | .macWLoad _ _ _ _ _ _ _ _ _ | .macLLoad _ _ _ _ _ _ _ _ _ => macLoad_leads h _ _ _ _ _ _ _
  | .msacWLoad _ _ _ _ _ _ _ _ _ | .msacLLoad _ _ _ _ _ _ _ _ _ => macLoad_leads h _ _ _ _ _ _ _
  | .moveToAcc _ => macIn_leads h _ fun _ _ _ => macFlags_low ..
  | .moveToMacsr _ => macIn_leads h _ fun m v _ => setMacsr_low m v
  | .moveToMask _ => macIn_leads h _ fun _ _ hm => hm
  | .moveFromAcc _ | .moveFromMacsr _ | .moveFromMask _ => macOut_leads h _ _
  | .moveMacsrToCcr => execMoveMacsrToCcr_leads h
  | .cmpL ea dx => (compareOp_leads h _ _ : Leads (execCmpL ea dx s))
  | .cmpaL ea ax => (compareOp_leads h _ _ : Leads (execCmpaL ea ax s))
  | .cpushl _ => execCpushl_leads h _
  | .wddataB _ | .wddataW _ | .wddataL _ => wddataOp_leads h _ _
  | .wdebug _ _ => execWdebug_leads h _ _

theorem execDecoded_leads : (d : Decoded) → Leads (execDecoded d s)
  | .ok i => exec_leads h i
  | .illegal => leads_settled (h.raiseFault _)
  | .lineA => leads_settled (h.raiseFault _)
  | .lineF => leads_settled (h.raiseFault _)
end Instructions

/-! ### After an instruction -/

section Boundary
variable {P : Ev → Prop} {s : State}

theorem State.Sound.showSync (h : s.Sound P) : s.showSync.Sound P := by
  have h1 : ({ s with bdm := { s.bdm with syncPc := false } } : State).Sound P := h.same rfl rfl rfl rfl rfl rfl rfl
  unfold State.showSync
  split
  · exact (h1.pst _).target _
  · exact h

theorem endInstr_leads (h : s.Sound Ev.Settled) (s0 : State) : Leads (State.endInstr s0 s) := by
  have hbp : Keeps Ev.Settled
      (if s0.ev.inhibitBp || s.ev.inhibitBp then .next s else s.xferBreakpoints s0.cpu.pc s.ms.xfers) := by
    split
    · exact keeps_next h
    · exact xferBreakpoints_keeps Ev.stable_settled h _ _
  unfold State.endInstr
  dsimp only
  split
  · next s1 e =>
    refine leads_settled (State.Sound.showSync ?_)
    exact (hbp s1 e).setEv_stable Ev.stable_settled rfl rfl rfl
  · exact leads_fault _
  · exact leads_refused _

theorem execInstr_leads (h : s.Sound Ev.Live) : Leads s.execInstr := by
  have hbegin : s.beginInstr.Sound Ev.Live := h.setEv_stable Ev.stable_live rfl rfl rfl
  have hrun : Leads (if s.cpu.pc.getLsbD 0 then .next s.beginInstr.addressError
      else execDecoded s.beginInstr.fetchInstr.1 s.beginInstr.fetchInstr.2) :=
    .ite (leads_settled (hbegin.addressErrorAt _)) (execDecoded_leads hbegin.fetchInstr _)
  unfold State.execInstr
  dsimp only
  split
  · exact leads_refused _
  · split
    · next s1 e => exact endInstr_leads (hrun s1 e) s
    · exact leads_fault _
    · exact leads_refused _

/-! ### The boundary -/

/-- What a boundary decides keeps the invariant: after an event it holds, and where execution goes on nothing has
failed. -/
def Boundary.Sound : Boundary → Prop
  | .event t => t.Sound Ev.Settled
  | .goOn t => t.Sound Ev.Live
  | .refused _ => True

theorem State.Sound.atBoundary (h : s.Sound Ev.Settled) : s.atBoundary.Sound Ev.Settled :=
  h.setEv_stable Ev.stable_settled rfl rfl rfl

theorem State.Sound.boundaryInterrupts (h : s.Sound Ev.Live) : s.boundaryInterrupts.Sound := by
  unfold State.boundaryInterrupts
  split
  · exact h
  · split
    · exact h.debugInterrupt.atBoundary
    · split
      · split
        · trivial
        · exact (h.interrupt _).atBoundary
      · exact h

theorem State.Sound.boundaryHalts (h : s.Sound Ev.Live) (fired : Bool) : (s.boundaryHalts fired).Sound := by
  unfold State.boundaryHalts
  split
  · exact (h.haltFor (by decide)).settled
  · split
    · exact (h.haltFor (by decide)).settled
    · exact h.boundaryInterrupts

theorem State.Sound.boundaryStop (h : s.Sound Ev.Live) : s.boundaryStop.Sound := by
  unfold State.boundaryStop
  split
  · have hclear : (s.setEv { s.ev with stepDone := false }).Sound Ev.Live := h.setEv_stable Ev.stable_live rfl rfl rfl
    exact hclear.enterHalted.settled
  · split
    · exact h.boundaryHalts _
    · split
      · next s1 e => exact (pcBreakpoint_keeps Ev.stable_live h s1 e).boundaryHalts _
      · trivial
      · exact h

theorem State.Sound.boundary (h : s.Sound Ev.Live) : s.boundary.Sound := by
  have hclear : (s.setEv { s.ev with tracePending := false }).Sound Ev.Live := h.setEv_stable Ev.stable_live rfl rfl rfl
  unfold State.boundary
  split
  · exact (hclear.accessError _).atBoundary
  · split
    · exact (hclear.takeException _).atBoundary
    · exact h.boundaryStop

theorem endEvent_leads (h : s.Sound Ev.Settled) (s0 : State) : Leads (State.endEvent s0 s) := by
  unfold State.endEvent
  split
  · exact leads_settled h
  · exact xferBreakpoints_keeps Ev.stable_settled h _ _

theorem runCore_leads (h : s.Sound Ev.Settled) : Leads s.runCore := by
  unfold State.runCore
  split
  · exact leads_settled h
  · next hr =>
    have hb := (h.live (.inl hr)).boundary
    split
    · next s1 e => rw [e] at hb; exact endEvent_leads hb s
    · exact leads_refused _
    · next s1 e => rw [e] at hb; exact .ite (leads_live hb) (execInstr_leads hb)
end Boundary
end Sys2Proof.Machine
end

