-- ==== Sys2Proof/Proofs/StepInvariant.lean ====
section
/-! PROOF. Sys2Proof/Proofs/StepInvariant.lean: The reset, the debug module and a whole step keep the invariant (obligation O10). -/

namespace Sys2Proof.Machine

section Reset
variable {P : Ev → Prop} {s : State}

/-! ### The reset exception -/

theorem State.Sound.resetRead (h : s.Sound P) (a : Long) : (s.resetRead a).2.Sound P :=
  h.setMs (readPiece_ok _ _ _ _ h.mem)

theorem State.Sound.resetException (h : s.Sound Ev.Live) : s.resetException.Sound Ev.Settled := by
  have hrun : (s.setEv { s.ev with
      run := .running, resetPending := false, emulator := s.dbg.csr.getLsbD 13 }).Sound Ev.Live :=
    h.setEv (by exact ⟨h.ev.1, h.ev.2⟩)
  have hread := ((hrun.pst 0xC#4).resetRead 0#32).resetRead 4#32
  unfold State.resetException
  dsimp only
  split
  · exact (((((hread.setSp _).setPc _).emptyPrefetch).pst _).target _).faultOnFault
  · exact (((((hread.setSp _).setPc _).emptyPrefetch).pst _).target _).settled

theorem State.Sound.resetWindow (h : s.Sound Ev.Live) : s.resetWindow.Sound Ev.Settled := by
  have hloaded : ({ s with bdm := { s.bdm with pcLoaded := false } } : State).Sound Ev.Live :=
    h.same rfl rfl rfl rfl rfl rfl rfl
  unfold State.resetWindow
  split
  · exact (hloaded.setHaltSource (by decide)).enterHalted.settled
  · exact h.resetException

theorem State.Sound.resetGo (h : s.Sound Ev.Live) : s.resetGo.Sound Ev.Settled := by
  unfold State.resetGo
  split
  · exact (h.setEv (Q := Ev.Live) (by exact ⟨h.ev.1, h.ev.2⟩)).settled
  · exact h.resetException

/-! ### The reset event -/

/-- Listing the addresses of a range in order and leaving some out gives a canonical form. -/
theorem sparseWfFrom_filter_range (f : Nat → Byte) (n k : Nat) :
    sparseWfFrom unwritten k
      (((List.range' k n).map (fun i => (i, f i))).filter (fun c => c.2 != unwritten)) = true := by
  induction n generalizing k with
  | zero => rfl
  | succ n ih =>
    simp only [List.range'_succ, List.map_cons, List.filter_cons]
    split
    · next hne =>
      simp only [sparseWfFrom, Bool.and_eq_true, decide_eq_true_eq]
      exact ⟨⟨le_refl k, by simpa using hne⟩, ih (k + 1)⟩
    · exact sparseWfFrom_mono _ _ (ih (k + 1)) (by omega)

theorem resetRam_wf (p : Pins) (n : Nat) : memWf (2 ^ localBits p.kramSize) (resetRam p n) = true := by
  unfold resetRam
  split
  · rfl
  · simp only [memWf, Bool.and_eq_true, List.all_eq_true, decide_eq_true_eq]
    refine ⟨by rw [List.range_eq_range']; exact sparseWfFrom_filter_range _ _ 0, fun c hc => ?_⟩
    simp only [List.mem_filter, List.mem_map, List.mem_range] at hc
    obtain ⟨⟨i, hi, rfl⟩, -⟩ := hc
    exact hi

/-- Clearing bits leaves the reserved bits clear. -/
theorem and_and_reserved {w : Nat} {v m : BitVec w} (c : BitVec w) (hv : v &&& m = 0#w) : v &&& c &&& m = 0#w := by
  rw [BitVec.and_assoc, BitVec.and_comm c m, ← BitVec.and_assoc, hv, BitVec.zero_and]

theorem resetSr_reserved (n : Nat) : resetSr n &&& ~~~srMask = 0#16 := by
  have h1 : (0x2700#16 : Word) &&& ~~~srMask = 0#16 := by decide
  have h2 : (0x001F#16 : Word) &&& ~~~srMask = 0#16 := by decide
  have hor : ∀ a b m : Word, (a ||| b) &&& m = (a &&& m) ||| (b &&& m) := by
    intro a b m
    apply BitVec.eq_of_getLsbD_eq
    intro k hk
    simp [Bool.and_or_distrib_right]
  rw [resetSr, hor, h1, BitVec.and_assoc, h2, BitVec.and_zero, BitVec.or_zero]

theorem State.Sound.performReset (h : s.Sound P) : s.performReset.Sound Ev.Live := by
  have hm := h.mem
  have hr := h.reg
  refine ⟨⟨hm.mem, hm.emem, resetRam_wf _ _, hm.cache, Nat.zero_le 4⟩, ?_, rfl, rfl⟩
  exact
    { sr := resetSr_reserved _
      cacr := show (0#32 : Long) &&& ~~~cacrMask = 0#32 by decide
      acr0 := and_and_reserved _ hr.acr0
      acr1 := and_and_reserved _ hr.acr1
      vbr := show (0#32 : Long) &&& ~~~vbrMask = 0#32 by decide
      rombar := by
        show (if s.pins.kromvldrst then 0x00000121#32 else s.ctl.rombar &&& 0xFFFFFFFE#32) &&& ~~~barMask = 0#32
        split
        · decide
        · exact and_and_reserved _ hr.rombar
      rambar := and_and_reserved _ hr.rambar
      csr := show (0x00100000#32 : Long) &&& 0x00F8008F#32 = 0x00100000#32 by decide
      macsr := by
        show (resetReg s.free 20).setWidth 8 &&& 0xFE#8 &&& 0x01#8 = 0#8
        rw [BitVec.and_assoc]
        simp }
end Reset

/-! ### The debug module's commands -/

section Bdm
variable {P : Ev → Prop} {s : State}

/-- Wherever the debug module goes on, the invariant is met. -/
def Allows (r : Except Refusal State) : Prop := ∀ t, r = .ok t → t.Sound Ev.Settled

/-- Likewise, with an answer. -/
def Answers (r : Except Refusal (Reply × State)) : Prop := ∀ x, r = .ok x → x.2.Sound Ev.Settled

theorem allows_ok {t : State} (h : t.Sound Ev.Settled) : Allows (.ok t) := fun _ e => by cases e; exact h

theorem allows_error (r : Refusal) : Allows (.error r) := by
  intro t e
  cases e

theorem answers_ok {x : Reply × State} (h : x.2.Sound Ev.Settled) : Answers (.ok x) := fun _ e => by cases e; exact h

theorem answers_error (r : Refusal) : Answers (.error r) := by
  intro t e
  cases e

theorem State.Sound.setBdm (h : s.Sound P) (b : Bdm) : ({ s with bdm := b } : State).Sound P :=
  h.same rfl rfl rfl rfl rfl rfl rfl

theorem State.Sound.bdmNext (h : s.Sound P) (read : Bool) (sz : Size) (a : Long) : (s.bdmNext read sz a).Sound P :=
  h.same rfl rfl rfl rfl rfl rfl rfl

theorem State.Sound.bdmRead (h : s.Sound P) (sz : Size) (a : Long) : (s.bdmRead sz a).2.Sound P := by
  have hm := (h.setMs (readOperand_ok (r := s.route) s.bdmSpace (forceAlign a sz) sz h.mem)).bdmNext true sz
    (forceAlign a sz)
  cases sz with
  | b => exact hm.drawn
  | w => exact hm
  | l => exact hm

theorem State.Sound.bdmWrite (h : s.Sound P) (sz : Size) (a v : Long) : (s.bdmWrite sz a v).2.Sound P := by
  have hclear : ({ s.ms with writeError := false } : MemSys).Ok s.pins := h.mem.congr rfl rfl rfl rfl rfl
  have hwrite := writeOperand_ok (r := s.route) s.bdmSpace (forceAlign a sz) sz v rfl hclear
  refine State.Sound.bdmNext (h.setMs ?_) false sz (forceAlign a sz)
  exact hwrite.congr rfl rfl rfl rfl rfl

theorem State.Sound.writeBdmReg (h : s.Sound P) (r : BdmReg) (v : Long) : (s.writeBdmReg r v).Sound P := by
  cases r with
  | ctl c => exact h.setCtl _ _
  | macsr => exact h.setMac (setMacsr_low _ _)
  | mask => exact h.setMac h.reg.macsr
  | acc => exact h.setMac h.reg.macsr
  | sr => exact h.setSr _
  | pc => exact (h.setPc v).setBdm _

theorem State.Sound.readDebugReg (h : s.Sound P) (drc : BitVec 4) : (s.readDebugReg drc).2.Sound P := by
  unfold State.readDebugReg
  split
  · refine h.setCsr ?_
    rw [BitVec.and_assoc]
    rfl
  · exact h.drawn

theorem bdmGo_allows (h : s.Sound Ev.Settled) : Allows s.bdmGo := by
  unfold State.bdmGo
  split
  · exact allows_ok h
  · split
    · exact allows_error _
    · next hf =>
      have hlive := h.live (.inr (Bool.eq_false_iff.mpr hf))
      have hstep : (s.setEv { s.ev with stepDone := false }).flush.Sound Ev.Live :=
        (hlive.setEv (Q := Ev.Live) (by exact ⟨hlive.ev.1, hlive.ev.2⟩)).flush
      refine allows_ok ?_
      split
      · exact hstep.resetGo
      · exact (hstep.setEv (Q := Ev.Live) (by exact ⟨hstep.ev.1, hstep.ev.2⟩)).settled

theorem chained_answers (h : s.Sound Ev.Settled) (want : Chain) {k : Long → Reply × State}
    (hk : ∀ a, (k a).2.Sound Ev.Settled) : Answers (s.chained want k) := by
  unfold State.chained
  split
  · split
    · exact answers_ok (hk _)
    · exact answers_ok (h.setBdm _)
  · split
    · exact answers_error _
    · exact answers_ok (h.setBdm _)

theorem State.Sound.whenHalted (h : s.Sound P) (n : Nat) {k : Reply × State} (hk : k.2.Sound P) :
    (s.whenHalted n k).2.Sound P := by
  unfold State.whenHalted
  split
  · exact hk
  · exact h

theorem bdmCommand_answers (h : s.Sound Ev.Settled) (c : Command) (ws : List Word) : Answers (s.bdmCommand c ws) := by
  have h0 : ({ s with bdm := { s.bdm with chain := chainAfter c s.bdm.chain } } : State).Sound Ev.Settled := h.setBdm _
  cases c with
  | rareg k => exact answers_ok (h0.whenHalted _ h0)
  | wareg k => exact answers_ok (h0.whenHalted _ (h0.setR _ _))
  | read sz => exact answers_ok (h.bdmRead _ _)
  | write sz => exact answers_ok (h.bdmWrite _ _ _)
  | dump sz => exact chained_answers h _ fun a => h.bdmRead _ _
  | fill sz => exact chained_answers h _ fun a => h.bdmWrite _ _ _
  | go =>
    intro x e
    simp only [State.bdmCommand] at e
    match hgo : State.bdmGo _, e with
    | .ok t, e => cases e; exact bdmGo_allows h0 t hgo
    | .error _, e => cases e
  | nop => exact answers_ok h0
  | syncPc => exact answers_ok (h0.setBdm _)
  | rcreg =>
    simp only [State.bdmCommand]
    split
    · split
      · exact answers_ok h0.drawn
      · exact answers_error _
    · exact answers_ok h0
  | wcreg =>
    simp only [State.bdmCommand]
    split
    · split
      · exact answers_ok (h0.writeBdmReg _ _)
      · exact answers_error _
    · exact answers_ok h0
  | rdmreg drc => exact answers_ok (h0.readDebugReg _)
  | wdmreg drc => exact answers_ok (h0.writeDebug (by decide) _ _)

theorem assemble_allows (h : s.Sound Ev.Settled) (ws : List Word) : Allows (s.assemble ws) := by
  unfold State.assemble
  split
  · exact allows_ok (h.setBdm _)
  · next c _ =>
    split
    · intro t e
      match hc : s.bdmCommand c ws, e with
      | .ok x, e =>
        cases e
        have hx := bdmCommand_answers h c ws x hc
        exact (hx.setXfers []).setBdm { x.2.bdm with cmd := [], resp := replyPackets x.1 }
      | .error _, e => cases e
    · exact allows_ok (h.setBdm _)

theorem exchange_allows (h : s.Sound Ev.Settled) (p : BitVec 17) : Allows (s.exchange p) := by
  have hans : ∀ q resp, (s.answer q resp).Sound Ev.Settled := fun _ _ => h.setBdm _
  unfold State.exchange
  dsimp only
  split
  · exact assemble_allows (hans _ _) _
  · exact allows_ok (hans _ _)
  · exact assemble_allows (hans _ _) _
  · exact assemble_allows (hans _ _) _

theorem bdmStep_leads (h : s.Sound Ev.Settled) (p : BitVec 17) (rest : List (BitVec 17)) :
    Leads (s.bdmStep p rest) := by
  have hx := exchange_allows (h.setBdm { s.bdm with rx := rest }) p
  unfold State.bdmStep
  split
  · next s1 e => exact leads_settled (hx s1 e)
  · exact leads_refused _
end Bdm

/-! ### A step -/

section Step
variable {P : Ev → Prop} {s : State}

theorem State.Sound.fresh (h : s.Sound P) : s.fresh.Sound P :=
  (h.setMs (h.mem.congr (n := { s.ms with xfers := [], bus := [] }) rfl rfl rfl rfl rfl)).onPort []

theorem State.Sound.sample (h : s.Sound Ev.Settled) : s.sample.Sound Ev.Settled :=
  h.setEv_stable Ev.stable_settled rfl rfl rfl

theorem stepInner_leads (h : s.Sound Ev.Settled) : Leads s.stepInner := by
  unfold State.stepInner
  split
  · exact leads_refused _
  · split
    · exact leads_live h.performReset
    · split
      · next hw =>
        have hrun : s.ev.run ≠ .halted := by
          simp only [Bool.and_eq_true, bne_iff_ne] at hw
          exact hw.2
        exact leads_settled (h.live (.inl hrun)).fresh.resetWindow
      · split
        · exact bdmStep_leads h.fresh.sample _ _
        · exact runCore_leads h.fresh.sample

theorem State.Inv.sound (h : s.Inv) : s.Sound Ev.Settled := ⟨h.mem, h.reg, h.run.fof, h.run.busy⟩

theorem State.Sound.inv (h : s.Sound Ev.Settled) (hend : s.ms.stuck = false) : s.Inv :=
  ⟨h.mem, h.reg, h.ev.1, h.ev.2, hend⟩

/-- What goes on past the check for a transfer that is never acknowledged has met none. -/
theorem checkStuck_next {r : Res} {t : State} (h : checkStuck r = .next t) : r = .next t ∧ t.ms.stuck = false := by
  cases r with
  | next u =>
    simp only [checkStuck] at h
    split at h
    · cases h
    · next hs => cases h; exact ⟨rfl, Bool.eq_false_iff.mpr hs⟩
  | fault f => cases h
  | refused r => cases h
end Step

/-- Settles O10: each operation that a step is made of keeps the memories and the registers sound, and no step but a
fault-on-fault, which halts the core, leaves exception processing unfinished. -/
theorem stepInvariant : Obligations.StepInvariant := by
  intro s t hs hstep
  obtain ⟨hinner, hend⟩ := checkStuck_next hstep
  exact (stepInner_leads hs.sound t hinner).inv hend

end Sys2Proof.Machine
end
